-- ==== Sys2Proof/Word.lean ====
section
/-! DEFINITION. The plainest types of the PT-1624: a byte of the window, the bytes of a line, a set of offsets of a line. -/
namespace Sys2Proof

/-- A byte of the window, of a frame or of a reply. -/
abbrev Byte := BitVec 8

/-- The bytes of one line (R1), offset 0 first; 64 of them in every version that is a LINE version. -/
abbrev LineData := List Byte

/-- A set of offsets 0 to 63 of a line, one bit for each: the written mask of R22. -/
abbrev OffsetSet := BitVec 64

end Sys2Proof
end

