-- ==== Sys2Proof/Syntax.lean ====
section
/-! DEFINITION. The commands the PT-1624 takes: one constructor of `Instr` for each row of spec/opcode_table.json, and the
types of their operands (addresses, frame arguments, what a die hands back at the end of a medium operation). -/
namespace Sys2Proof

/-- die/block (section 4.5). -/
structure BlockId where
  die : Nat
  block : Nat
deriving DecidableEq, Repr

/-- A medium location, die/block/page/slot (section 4.5). -/
structure Loc where
  die : Nat
  block : Nat
  page : Nat
  slot : Nat
deriving DecidableEq, Repr

/-- Record kinds (R46); also the kind of a staging entry (R22). -/
inductive RecKind | line | trim
deriving DecidableEq, Repr

/-- Roles of an open stamp (R45). -/
inductive HeadRole | hostLog | copyLog
deriving DecidableEq, Repr

/-- Region kinds (R2). -/
inductive RegionKind | plain | once
deriving DecidableEq, Repr

/-- One entry of the region table (R2). -/
structure Region where
  kind : RegionKind
  base : Nat
  count : Nat
deriving DecidableEq, Repr

/-- A region as the FORMAT frame carries it (R191): its kind byte is not yet tested. -/
structure RawRegion where
  kind : Byte
  base : BitVec 24
  count : BitVec 24
deriving DecidableEq, Repr

/-- The identity copies: A is block 0/0, B is block 0/1 (chapter 9). -/
inductive IdCopy | a | b
deriving DecidableEq, Repr

/-- Kinds of identity page (R144). -/
inductive IdPageKind | descriptor | update
deriving DecidableEq, Repr

/-- What the 16 slots of an identity page spell together, beside the serial or counter that every slot repeats (R144).
The order in which the content is divided among the slots is not given by the spec, so the content stands whole. -/
inductive IdContent
  | descriptor (dieCount : Nat) (regions : List Region)
  | update (frozen : List Nat) (retired : List BlockId)
deriving DecidableEq, Repr

/-- What a slot of the array holds, as its code words decode (R44, R45, R46, R144). -/
inductive SlotContent
  | record (kind : RecKind) (line seq stamps : Nat) (payload : LineData)
  | eraseStamp (serial count : Nat)
  | openStamp (role : HeadRole) (seq : Nat) (block : BlockId)
  | identity (kind : IdPageKind) (copy : IdCopy) (page index number : Nat)
deriving DecidableEq, Repr

/-- One slot as READ SLOTS brings it to the check unit (R92): in how many bits it differs from the erased pattern, whether its
header check passes, how many bit errors its code finds, and what it decodes to. -/
structure RawSlot where
  erasedDiff : Nat
  headerOk : Bool
  bitErrors : Nat
  content : SlotContent
deriving DecidableEq, Repr

/-- The die's status at the end of a PROGRAM SLOTS or an ERASE BLOCK (R87). -/
inductive Status | pass | fail
deriving DecidableEq, Repr

/-- The commands, one constructor for each row of spec/opcode_table.json. `wpHigh` is the level of WP_N when the request is
taken (R139, R153); `clocked` and `bytes` are the whole bytes of a frame (R180). -/
inductive Instr
  | hostRead (addr : BitVec 24)
  | hostWrite (addr : BitVec 24) (data : Byte)
  | hostStrobeRelease
  | waitLimitExpiry
  | resetAssert
  | resetRelease
  | pfwLow
  | pfwHigh
  | badFrame (bytes : List Byte)
  | fetchFrame (clocked : Nat)
  | getStatus
  | getFaults (n : Byte)
  | getLine (line : BitVec 24)
  | getBlock (die block : Byte)
  | setCommitDelay (value : BitVec 16)
  | setBatchThreshold (value : BitVec 16)
  | setWaitLimit (value : BitVec 16)
  | setAttentionMask (value : BitVec 16)
  | abort
  | flush
  | trim (base : BitVec 24) (count : BitVec 16)
  | scrub (first : BitVec 24) (count : BitVec 24)
  | freeze (region : Byte) (wpHigh : Bool)
  | format (regions : List RawRegion) (wpHigh : Bool)
  | trimWalkLine
  | commitDelayExpiry
  | readFillAnswer (die : Nat) (slot : RawSlot)
  | directReadAnswer (die : Nat) (slot : RawSlot)
  | copyReadAnswer (die : Nat) (slot : RawSlot)
  | scrubReadAnswer (die : Nat) (slot : RawSlot)
  | hostOpenStampAnswer (die : Nat) (status : Status)
  | batchProgramAnswer (die : Nat) (status : Status)
  | copyOpenStampAnswer (die : Nat) (status : Status)
  | copyProgramAnswer (die : Nat) (status : Status)
  | eraseAnswer (die : Nat) (status : Status)
  | eraseStampAnswer (die : Nat) (status : Status)
  | identityPageProgramAnswer (status : Status)
  | identityEraseAnswer (status : Status)
  | formatIdentityEraseAnswer (status : Status)
  | formatIdentityProgramAnswer (status : Status)
  | identityReadAnswer (slots : List RawSlot) (content : IdContent)
  | classifyReadAnswer (die : Nat) (slots : List RawSlot)
  | scanReadAnswer (die : Nat) (slots : List RawSlot)
  | dieResetReady (die : Nat)
  | identifyAnswer (die blocks pages slots : Nat)
  | dieTimeout (die : Nat)
deriving DecidableEq, Repr

end Sys2Proof
end

