-- ==== Sys2Proof/Decode.lean ====
section
/-! DEFINITION. No row of spec/opcode_table.json gives its command any bits ("fields" is empty and there is no "fixed"), so no
word spells a command and the decoder of table words refuses every word. The frames by which the maintenance requests arrive
are read in Sys2Proof/Machine/Operands.lean. -/
namespace Sys2Proof

/-- The command a word spells by the table's bits: none, because the table gives no row any bits. -/
def decodeTableWord (_nbits _w : Nat) : Option Instr := none

end Sys2Proof
end

