-- ==== Sys2Proof/Config.lean ====
section
/-! DEFINITION. What the spec fixes for every PT-1624 (sizes, limits, times) and the FREE VALUES: opaque constants that stand
for what the spec leaves open. Nothing in Lean can evaluate a free value, so a statement about one holds for every value. -/
namespace Sys2Proof.Config

/-- Lines of the window (R1). -/
abbrev lines : Nat := 262144
/-- Bytes of a line (R1). -/
abbrev lineBytes : Nat := 64
/-- Staging entries (section 2.2). -/
abbrev entries : Nat := 32
/-- The fill value (section 4.3). -/
abbrev fill : Byte := 0xFF
/-- Blocks of a die, pages of a block, slots of a page (R84). -/
abbrev dieBlocks : Nat := 256
abbrev blockPages : Nat := 64
abbrev pageSlots : Nat := 16
/-- Record slots of a block (R43). -/
abbrev recordSlots : Nat := 1022
/-- Programs a page accepts between two erases of its block (R43, R85). -/
abbrev pagePrograms : Nat := 3
/-- The largest sequence value that is assigned (section 4.4, R48). -/
abbrev seqMax : Nat := 2 ^ 40 - 1
/-- Bit errors the code corrects, and bits in which an erased slot may differ from the erased pattern (R47, R92). -/
abbrev correctable : Nat := 6
/-- Most bit errors of a CORRECTED slot (R92). -/
abbrev correctedMax : Nat := 3
/-- The stamps limit of a ONCE line (R135). -/
abbrev stampsMax : Nat := 8
/-- The host reserve (R74), also the space boost and LOW_SPACE limit (R76). -/
abbrev hostReserve : Nat := 6
/-- Low and high water of the reclaim condition (R75). -/
abbrev lowWater : Nat := 12
abbrev highWater : Nat := 20
/-- Most entries of the retired list (R67, R129). -/
abbrev retiredMax : Nat := 128
/-- Most records of the fault list, and the largest repeat count (R189). -/
abbrev faultsMax : Nat := 16
abbrev repeatMax : Nat := 255
/-- The die timer's limit of 50 ms, in microseconds (R98). -/
abbrev dieTimeoutUs : Nat := 50000
/-- Microseconds in a millisecond, and in the 0.1 ms unit of the wait limit (R188, R191). -/
abbrev usPerMs : Nat := 1000
abbrev usPerTenth : Nat := 100
/-- The largest value of a four-byte counter: grade counts and refresh count hold there (R92, R105). -/
abbrev countMax : Nat := 2 ^ 32 - 1
/-- The largest format serial (R144, R153). -/
abbrev serialMax : Nat := 2 ^ 32 - 1
/-- Page number at which an identity copy must roll (R146). -/
abbrev identityPages : Nat := 64

/-- FREE VALUE: a byte the spec leaves undefined or does not state: the data of a LOADING entry outside its written mask (R22),
and the bytes of a status, line or block record for which R191 gives no value. -/
opaque freeByte : Nat → Byte
/-- FREE VALUE: which of several operations of one class that were issued together a die's arbiter takes first (R96). -/
opaque arbiterPick : Nat → Nat
/-- FREE VALUE: whether the commit engine does its next step before the reclaim engine where both have one in one event, and so whose draw
or request is taken first (R49, R74). -/
opaque commitFirst : Nat → Bool
/-- FREE VALUE: the erase count of a block erased once more after 2^32 - 1 erases (R66 gives no value beyond). -/
opaque eraseCountPast : Nat → Nat

end Sys2Proof.Config
end

