-- ==== Sys2Proof/Machine/State.lean ====
section
/-! DEFINITION. The state of the PT-1624 as plain data: one structure for each block of section 2, the pins it drives, and the
queue of commands that wait. `State.reset` is the part right after reset: RST_N has gone low and returned high. -/
namespace Sys2Proof.Machine

/-- Operating modes (R158). -/
inductive Mode | mounting | unformatted | formatting | active | readOnly | draining | parked
deriving DecidableEq, Repr

/-! ### Host port and staging buffer (chapter 2) -/

/-- Staging entry states, in the order of R23. -/
inductive EntryState | free | loading | clean | dirty | committing
deriving DecidableEq, Repr

/-- One staging entry (R22). `data` is empty for FREE and TRIM entries. -/
structure Entry where
  state : EntryState
  line : Option Nat
  kind : RecKind
  data : LineData
  written : OffsetSet
  trimPending : Bool
  touched : Bool
  refresh : Bool
  dirtySince : Option Nat
  newer : Option Nat
deriving DecidableEq, Repr

/-- A FREE entry: every other field is cleared (R22). -/
def Entry.cleared : Entry :=
  { state := .free, line := none, kind := .line, data := [], written := 0, trimPending := false, touched := false,
    refresh := false, dirtySince := none, newer := none }

/-- What a waiting host access waits for (R18): the fetch of a LOADING entry, its own direct read, the answer of an earlier
access's direct read (R30), or, for a write, a staging entry (R26). -/
inductive WaitFor | fetch (entry : Nat) | direct | earlierDirect | entry
deriving DecidableEq, Repr

/-- Where the host access stands: answered (a read with the byte driven on HD), or waiting under HWAIT since a time, with the
limit in microseconds that was read when the wait timer started (R20). -/
inductive AccessPhase
  | answered (byte : Option Byte)
  | waiting (started limit : Nat) (why : WaitFor)
deriving DecidableEq, Repr

/-- The access record (R18): kind and byte (`write = some byte` for a write), address, and where it stands. -/
structure Access where
  write : Option Byte
  addr : BitVec 24
  phase : AccessPhase
deriving DecidableEq, Repr

/-- The host port (R18, R30): at most one access, and whether a direct read is outstanding. -/
structure HostPort where
  access : Option Access
  directOut : Bool
deriving DecidableEq, Repr

/-! ### Line map (chapter 1) -/

/-- State of a map entry with the location and sequence the state admits (R7, R8). -/
inductive MapState
  | unwritten
  | present (loc : Loc) (seq : Nat)
  | trimmed (loc : Loc) (seq : Nat)
  | damaged
deriving DecidableEq, Repr

/-- A map entry (R7). -/
structure MapEntry where
  state : MapState
  stamps : Nat
deriving DecidableEq, Repr

/-- The entry of a line with no data: what an unlisted line of the map holds (R8). -/
def MapEntry.empty : MapEntry := { state := .unwritten, stamps := 0 }

/-! ### Commit engine and heads (chapters 3 and 7) -/

/-- Where a head's open stamp stands: in flight, passed, or never issued because no sequence value was left (R53, R120). -/
inductive StampState | inFlight | passed | never
deriving DecidableEq, Repr

/-- A log head: the host log head (R52) or the copy head (R119). `openSeq` and `topSeq` (the highest sequence of a passed
program) are what R70 computes a close sequence from. -/
structure LogHead where
  block : BlockId
  page : Nat
  next : Nat
  used : Nat
  stamp : StampState
  openSeq : Option Nat
  topSeq : Option Nat
deriving DecidableEq, Repr

/-- One record of the batch in flight (R61). -/
structure BatchRec where
  entry : Nat
  line : Nat
  kind : RecKind
  seq : Nat
  stamps : Nat
deriving DecidableEq, Repr

/-- The batch in flight (R61). -/
structure Batch where
  block : BlockId
  page : Nat
  first : Nat
  recs : List BatchRec
deriving DecidableEq, Repr

/-- The commit engine (chapter 3): queue (R50), entries of it that a failed program returned (R65), sequence counter (R48), host
log head, batch in flight, refresh count (R105). -/
structure CommitEngine where
  queue : List Nat
  returned : List Nat
  seq : Option Nat
  head : Option LogHead
  batch : Option Batch
  refreshes : Nat
deriving DecidableEq, Repr

/-! ### Block table (chapter 4) -/

/-- Block states, in the order of R191's block record. -/
inductive BlockState | free | hostHead | copyHead | closed | victim | relocating | erasing | retired | identity
deriving DecidableEq, Repr

/-- Where the work on an ERASING or emptied block stands (R78, R79, R155): held for the format's step 3, waiting to be queued,
erase issued, stamp issued, waiting to be retired, handed for retirement, or left with no operation pending (R129). -/
inductive BlockWork | none | eraseHeld | eraseWaiting | eraseOut | stampOut | retireWaiting | retireHanded | stuck
deriving DecidableEq, Repr

/-- A block record (R66). -/
structure BlockRec where
  state : BlockState
  valid : Nat
  eraseCount : Option Nat
  closeSeq : Option Nat
  readers : Nat
  work : BlockWork
deriving DecidableEq, Repr

/-! ### Identity manager and FORMAT (chapter 9) -/

/-- The descriptor (R144). -/
structure Descriptor where
  serial : Nat
  dieCount : Nat
  regions : List Region
deriving DecidableEq, Repr

/-- An update page (R144). -/
structure UpdatePage where
  counter : Nat
  frozen : List Nat
  retired : List BlockId
deriving DecidableEq, Repr

/-- The content of an identity page program (R144). -/
inductive IdPage | descriptor (d : Descriptor) | update (u : UpdatePage)
deriving DecidableEq, Repr

/-- What the identity manager keeps for one copy (R146). -/
structure CopyState where
  good : Bool
  next : Nat
  rollDue : Bool
deriving DecidableEq, Repr

/-- A request for an identity update (R148). `live = false` is a FREEZE's request whose command has completed (R142). -/
inductive IdRequest | retire (block : BlockId) | frozenSet (live : Bool)
deriving DecidableEq, Repr

/-- The operations by which a copy takes its part of an update (R149, R150). -/
inductive IdStep | page | rollErase | rollDescriptor | rollPage
deriving DecidableEq, Repr

/-- Where an update stands: a copy's part about to begin, an operation about to be issued, an operation issued, or both parts
done. -/
inductive UpdateStage
  | start (copy : IdCopy)
  | ready (copy : IdCopy) (step : IdStep)
  | out (copy : IdCopy) (step : IdStep)
  | done
deriving DecidableEq, Repr

/-- The update in flight (R146, R149). -/
structure Update where
  served : List IdRequest
  page : UpdatePage
  stage : UpdateStage
  written : Bool
deriving DecidableEq, Repr

/-- The identity manager (R146). -/
structure Identity where
  copyA : CopyState
  copyB : CopyState
  descriptor : Option Descriptor
  counter : Nat
  retired : List BlockId
  persistent : List Nat
  queue : List IdRequest
  update : Option Update
  remembered : Option Nat
deriving DecidableEq, Repr

/-- Where step 4 of a format stands (R156). -/
inductive FormatWrite | start (copy : IdCopy) | out (copy : IdCopy) (page : Nat) | done
deriving DecidableEq, Repr

/-- A running FORMAT (R153 to R157): its step, what it writes, the identity erases not yet answered, whether RETIRE_LIMIT was
met, and which copies have both pages written. -/
structure FormatJob where
  step : Nat
  serial : Nat
  dieCount : Nat
  erasesOut : Nat
  limitMet : Bool
  write : FormatWrite
  wroteA : Bool
  wroteB : Bool
deriving DecidableEq, Repr

/-! ### Medium controller (chapter 5) -/

/-- The classes of R95. -/
inductive OpClass | identity | hostRead | commitProgram | relocationCopy | reclaimCopy | eraseStamp | scrubRead | mountRead
deriving DecidableEq, Repr

/-- What an operation was issued for; its answer goes to that requester. -/
inductive OpRole
  | readFill (entry : Nat) | directRead | copyRead | scrubRead
  | hostOpenStamp | batchProgram | copyOpenStamp | copyProgram | erase | eraseStamp
  | identityProgram | identityErase | formatErase | formatProgram
  | identityRead | classifyRead | scanRead | identify
deriving DecidableEq, Repr

/-- What a PROGRAM SLOTS carries (R89): one record or stamp for each slot of the run, or a whole identity page. -/
inductive OpData | none | slots (contents : List SlotContent) | page (p : IdPage)
deriving DecidableEq, Repr

/-- An operation issued to a die queue (R88 to R90, R95). `expect` is the line and sequence a line map read expects; `stale`
marks work whose requester no longer takes the answer (R114, R154); operations issued together share a `ticket` (R96). -/
structure Op where
  role : OpRole
  cls : OpClass
  block : BlockId
  page : Nat
  slot : Nat
  count : Nat
  expect : Option (Nat × Nat)
  data : OpData
  stale : Bool
  ticket : Nat
deriving DecidableEq, Repr

/-- Die states of R94, and `notUsed` for a position that is not a die in use (R84, R91, R191). -/
inductive DieState | ready | busy | resetting | offline | notUsed
deriving DecidableEq, Repr

/-- Slots graded in each grade since reset (R92). -/
structure Grades where
  clean : Nat
  corrected : Nat
  weak : Nat
  lost : Nat
deriving DecidableEq, Repr

/-- A die record (R94); `timer` is the time the die timer started, while it runs. -/
structure DieRec where
  state : DieState
  inFlight : Option Op
  queue : List Op
  timer : Option Nat
  timeouts : Nat
  grades : Grades
deriving DecidableEq, Repr

/-! ### Reclaim engine (chapter 7) -/

/-- Engine states (R116). -/
inductive EngineState | idle | opening | spaceWait | reading | programming | stopped
deriving DecidableEq, Repr

/-- The source of a copy group (R116). -/
inductive Source | victim | relocation
deriving DecidableEq, Repr

/-- A copy record (R116). -/
structure CopyRec where
  source : Loc
  kind : RecKind
  line : Nat
  seq : Nat
  stamps : Nat
  payload : LineData
deriving DecidableEq, Repr

/-- The reclaim engine (R116). A cursor is the slot index page * 16 + slot; 1024 is "end". `programOut` says that a copy program
is in flight, `discard` that the copy reads outstanding were issued before STOPPED (R130), `retryDue` that a waiting copy-head
request is to be asked again (R121), and `retireWait` lists the blocks that await retirement in the order they came to it. -/
structure Reclaim where
  state : EngineState
  victim : Option BlockId
  victimRead : Nat
  victimKept : Nat
  victimWalked : Bool
  reloc : List BlockId
  relocRead : Nat
  relocKept : Nat
  source : Option Source
  head : Option LogHead
  buffer : List CopyRec
  readsOut : Nat
  retirements : Nat
  programOut : Bool
  discard : Bool
  retryDue : Bool
  retireWait : List BlockId
deriving DecidableEq, Repr

/-! ### Scrub walker and long commands (chapters 6, 8 and 12) -/

/-- Walk states (R110). -/
inductive ScrubState | idle | deciding | reading | waiting
deriving DecidableEq, Repr

/-- The scrub walker (R110). -/
structure Scrub where
  state : ScrubState
  current : Nat
  last : Nat
  readSlot : Option (Loc × Nat)
  held : Option LineData
  abortPending : Bool
deriving DecidableEq, Repr

/-- The TRIM walk (R185): current line, the line after the last one, tracked set, and whether it waits for an entry (R26). -/
structure TrimWalk where
  current : Nat
  stop : Nat
  tracked : List Nat
  waiting : Bool
deriving DecidableEq, Repr

/-- FREEZE phases (R139). -/
inductive FreezePhase | idle | flushing | persisting
deriving DecidableEq, Repr

/-- The freeze logic (R139): phase, region index, tracked set; whether an ABORT was taken, and whether the command completes
MEDIUM whatever the update's answer (R142). -/
structure Freeze where
  phase : FreezePhase
  region : Option Nat
  tracked : List Nat
  aborted : Bool
  medium : Bool
deriving DecidableEq, Repr

/-- The running long command with its arguments (R183). -/
inductive LongCmd
  | flush
  | trim (base count : Nat)
  | scrub (first count : Nat)
  | freeze (region : Nat)
  | format (regions : List Region)
deriving DecidableEq, Repr

/-- The long requests, as the last-command result names them (R183). -/
inductive LongKind | flush | trim | scrub | freeze | format
deriving DecidableEq, Repr

/-- Results of a long command (R181, R183). -/
inductive Result | ok | aborted | medium
deriving DecidableEq, Repr

/-! ### Maintenance port (chapter 12) -/

/-- Reply codes (R181, R191). -/
inductive ReplyCode | ok | accepted | busy | refusedState | badArgument | isProtected | capacity | badFrame
deriving DecidableEq, Repr

/-- A held reply (R181). -/
structure Reply where
  code : ReplyCode
  data : List Byte
deriving DecidableEq, Repr

/-- Fault kinds, in the order of their codes (R191). -/
inductive FaultKind
  | uncorrectable | programFail | eraseFail | dieTimeout | dieOffline | writeOverrun | readOverrun | modeDrop | earlyAccess
  | unbackedWrite | frozenWrite | onceExhausted | mountBadRecord | identityFail | retireLimit
deriving DecidableEq, Repr

/-- Subjects of a fault (R189, R191). -/
inductive Subject | line (n : Nat) | location (l : Loc) | block (b : BlockId) | die (d : Nat)
deriving DecidableEq, Repr

/-- A fault record (R189). -/
structure FaultRec where
  kind : FaultKind
  subject : Subject
  seq : Nat
  count : Nat
deriving DecidableEq, Repr

/-- The settings (R188): commit delay in ms, batch threshold, wait limit in units of 0.1 ms, attention mask (bit 0 DONE, 1 MODE,
2 FAULT, 3 LOW_SPACE). -/
structure Settings where
  commitDelay : Nat
  threshold : Nat
  waitLimit : Nat
  mask : BitVec 4
deriving DecidableEq, Repr

/-- The maintenance port: held reply and the bytes shifted out on SDO in the last frame (R181), long-command slot and last-command
result (R183), settings (R188), fault list and overflow flag (R189), latched attention conditions (R190). -/
structure Maint where
  reply : Option Reply
  sdo : List Byte
  slot : Option LongCmd
  last : Option (LongKind × Result)
  settings : Settings
  faults : List FaultRec
  overflow : Bool
  done : Bool
  modeChanged : Bool
deriving DecidableEq, Repr

/-! ### Mount scan (chapter 10) -/

/-- Mount phases (R164). -/
inductive MountPhase | probe | identity | classify | scan | settle | done
deriving DecidableEq, Repr

/-- What the probe knows of a die position (R165). -/
inductive Probe | undecided | absent | present
deriving DecidableEq, Repr

/-- The classes of R167. -/
inductive BlockClass | free | log | blank | erase
deriving DecidableEq, Repr

/-- A block finding (R164). `cursor` is the scan cursor or, for a block read to its end to tell BLANK from ERASE, the page being
read; `blank` says that every slot read so far was ERASED; `scanned` that no more of the block is to be read. -/
structure Finding where
  cls : Option BlockClass
  eraseCount : Option Nat
  role : Option HeadRole
  openSeq : Option Nat
  lastPage : Nat
  highSeq : Option Nat
  cursor : Nat
  blank : Bool
  scanned : Bool
deriving DecidableEq, Repr

/-- A candidate for a line (R168, R169). -/
structure Candidate where
  line : Nat
  loc : Loc
  kind : RecKind
  seq : Nat
  stamps : Nat
  lost : Bool
deriving DecidableEq, Repr

/-- What the mount's identity reads found on one copy (R147): the readable descriptor, the last readable update page, and the
greatest page number read that is not ERASED. -/
structure CopyFinding where
  descriptor : Option Descriptor
  update : Option UpdatePage
  top : Option Nat
deriving DecidableEq, Repr

/-- The mount scan (R164). The winners of R164 are computed from `cands` by R169, because R170 withdraws candidates. -/
structure Mount where
  phase : MountPhase
  probes : List Probe
  diesPresent : Nat
  copyA : CopyFinding
  copyB : CopyFinding
  findings : List (Nat × Finding)
  cands : List Candidate
  noted : List Loc
  highest : Nat
  largestErase : Nat
deriving DecidableEq, Repr

/-! ### The whole part -/

/-- The output pins: HWAIT, HRDY and ATTN, the byte driven on HD7 to HD0 where one is, which select lines MSEL0_N to MSEL3_N are held
high, the bytes SDO carried in the last frame, and whether SDO is held high (section 7, R180, R181). -/
structure Pins where
  hwait : Bool
  hrdy : Bool
  attn : Bool
  hd : Option Byte
  selHeldHigh : List Bool
  sdo : List Byte
  sdoHigh : Bool
deriving DecidableEq, Repr

/-- The state of the PT-1624. -/
structure State where
  /-- RST_N is low. -/
  rstLow : Bool
  /-- The internal timebase, in microseconds (section 4.1); the model's own counter. -/
  now : Nat
  /-- The model's own counter of free values taken. -/
  freeTaken : Nat
  /-- The model's own counter of issue events (R96). -/
  ticket : Nat
  /-- The commands that wait, first in, first out. -/
  pending : List Instr
  /-- Mode, held READ-ONLY flag and recorded PFW level (R158). -/
  mode : Mode
  heldReadOnly : Bool
  pfwHigh : Bool
  /-- The drain logic's phase is RUNNING (R173). -/
  drainRunning : Bool
  host : HostPort
  /-- Entries 0 to 31 (R22), the LRU order (R25), and the LOADING entries whose read-fill is withheld in PARKED (R178). -/
  staging : List Entry
  lru : List Nat
  withheld : List Nat
  commit : CommitEngine
  /-- The line map, by rising line number; an unlisted line holds `MapEntry.empty` (R7, R8). -/
  lineMap : List (Nat × MapEntry)
  /-- RAM copies of the region table and of the frozen set (R2, R5). -/
  regions : List Region
  frozen : List Nat
  /-- The block table by die * 256 + block, the free list, the reclaim condition and the space boost (R66, R73, R75, R76). -/
  blocks : List (Nat × BlockRec)
  freeList : List BlockId
  reclaimCond : Bool
  boost : Bool
  /-- The die records of the four positions, and the die count in use (R91, R94). -/
  dies : List DieRec
  diesInUse : Nat
  reclaim : Reclaim
  scrub : Scrub
  trim : TrimWalk
  /-- The FLUSH tracked set (R184). -/
  flushTracked : List Nat
  freeze : Freeze
  ident : Identity
  format : Option FormatJob
  mount : Mount
  maint : Maint
  pins : Pins
deriving DecidableEq, Repr

/-- Reasons to stop with a fault. The spec gives the part no event that stops it: every command ends in a next state, so there
is no constructor. -/
inductive Fault
deriving DecidableEq, Repr

/-- Reasons to refuse. -/
inductive Refusal
  /-- Raised by `exec` alone, for a command that has no meaning yet. Safe: the model stops. No command is refused so. -/
  | notModelled (mnemonic : String)
deriving DecidableEq, Repr

/-! ### Values after reset -/

/-- Default settings (R188). -/
def Settings.default : Settings := { commitDelay := 2, threshold := 4, waitLimit := 50, mask := 0b0111 }

/-- A die position whose select line is held high and that has no operation (R101). -/
def DieRec.unused : DieRec :=
  { state := .notUsed, inFlight := none, queue := [], timer := none, timeouts := 0, grades := ⟨0, 0, 0, 0⟩ }

/-- The reclaim engine's reset value (R116); both cursors stand at page 0 slot 2. -/
def Reclaim.initial : Reclaim :=
  { state := .idle, victim := none, victimRead := 2, victimKept := 2, victimWalked := false, reloc := [], relocRead := 2,
    relocKept := 2, source := none, head := none, buffer := [], readsOut := 0, retirements := 0, programOut := false,
    discard := false, retryDue := false, retireWait := [] }

/-- The identity manager's reset value (R146). -/
def Identity.initial : Identity :=
  { copyA := ⟨true, 1, false⟩, copyB := ⟨true, 1, false⟩, descriptor := none, counter := 0, retired := [], persistent := [],
    queue := [], update := none, remembered := none }

/-- The mount scan with every field cleared (R164). -/
def Mount.initial : Mount :=
  { phase := .probe, probes := [.undecided, .undecided, .undecided, .undecided], diesPresent := 0,
    copyA := ⟨none, none, none⟩, copyB := ⟨none, none, none⟩, findings := [], cands := [], noted := [], highest := 0,
    largestErase := 0 }

/-- The part while RST_N is low (R11, R42, R81, R101, R116, R146, R158, R183, R188 to R190). The PFW level, the timebase and the
model's counters are not cleared (R158, R172). -/
def State.inReset (pfwHigh : Bool) (now freeTaken ticket : Nat) (pending : List Instr) : State :=
  { rstLow := true, now := now, freeTaken := freeTaken, ticket := ticket, pending := pending,
    mode := .mounting, heldReadOnly := false, pfwHigh := pfwHigh, drainRunning := false,
    host := { access := none, directOut := false },
    staging := List.replicate Config.entries Entry.cleared, lru := [], withheld := [],
    commit := { queue := [], returned := [], seq := none, head := none, batch := none, refreshes := 0 },
    lineMap := [], regions := [], frozen := [], blocks := [], freeList := [], reclaimCond := false, boost := false,
    dies := List.replicate 4 DieRec.unused, diesInUse := 0,
    reclaim := Reclaim.initial,
    scrub := { state := .idle, current := 0, last := 0, readSlot := none, held := none, abortPending := false },
    trim := { current := 0, stop := 0, tracked := [], waiting := false }, flushTracked := [],
    freeze := { phase := .idle, region := none, tracked := [], aborted := false, medium := false },
    ident := Identity.initial, format := none, mount := Mount.initial,
    maint := { reply := none, sdo := [], slot := none, last := none, settings := Settings.default, faults := [], overflow := false,
               done := false, modeChanged := false },
    pins := { hwait := false, hrdy := false, attn := false, hd := none, selHeldHigh := [true, true, true, true], sdo := [],
              sdoHigh := true } }

/-- A die position to which RESET DIE has been written (R101, R165). -/
def DieRec.probing (now : Nat) : DieRec := { DieRec.unused with state := .resetting, timer := some now }

/-- The part when RST_N has returned high: MOUNTING, phase PROBE, RESET DIE issued to all four positions (R101, R164, R165). -/
def State.released (s : State) : State :=
  { s with
    rstLow := false
    mount := Mount.initial
    dies := List.replicate 4 (DieRec.probing s.now)
    pins := { s.pins with selHeldHigh := [false, false, false, false], sdoHigh := false } }

/-- The part right after reset, with PFW high (DESIGN CHOICE: log 2) and no command waiting. -/
def State.reset : State := (State.inReset true 0 0 0 []).released

end Sys2Proof.Machine
end

