-- ==== Sys2Proof/Machine/Ops.lean ====
section
/-! DEFINITION. The named operations over the state that every block shares: lists kept by rising key, faults, staging entries with
their queue and LRU order, the line map with the block table's counts, the free list with the space conditions, and issuing
medium operations. -/
namespace Sys2Proof.Machine

/-! ### Lists kept by rising key -/

/-- The value listed under a key. -/
def keyGet {α : Type} (k : Nat) : List (Nat × α) → Option α
  | [] => none
  | (j, v) :: t => if j = k then some v else keyGet k t

/-- Lists a value under a key, keeping the keys rising. -/
def keyPut {α : Type} (k : Nat) (v : α) : List (Nat × α) → List (Nat × α)
  | [] => [(k, v)]
  | (j, w) :: t => if k < j then (k, v) :: (j, w) :: t else if k = j then (k, v) :: t else (j, w) :: keyPut k v t

/-- Unlists a key. -/
def keyDel {α : Type} (k : Nat) : List (Nat × α) → List (Nat × α)
  | [] => []
  | (j, w) :: t => if j = k then t else (j, w) :: keyDel k t

/-- The keys rise strictly. -/
def keysRise {α : Type} : List (Nat × α) → Bool
  | [] => true
  | [_] => true
  | (j, _) :: (k, w) :: t => decide (j < k) && keysRise ((k, w) :: t)

/-- Inserts a number into a rising list without repeats. -/
def setAdd (n : Nat) : List Nat → List Nat
  | [] => [n]
  | m :: t => if n < m then n :: m :: t else if n = m then m :: t else m :: setAdd n t

/-! ### Names of places -/

/-- The block a location lies in. -/
def blockOf (l : Loc) : BlockId := { die := l.die, block := l.block }

/-- A slot of a block. -/
def locIn (b : BlockId) (page slot : Nat) : Loc := { die := b.die, block := b.block, page := page, slot := slot }

/-- The place of a block in die and block order, under which the block table lists its record. -/
def blockKey (b : BlockId) : Nat := b.die * Config.dieBlocks + b.block

/-- The block with a given key. -/
def blockAt (k : Nat) : BlockId := { die := k / Config.dieBlocks, block := k % Config.dieBlocks }

/-- The slot index of a walk's cursor (R122). -/
def slotIndex (page slot : Nat) : Nat := page * Config.pageSlots + slot

/-- The place of a location in die, block and slot order. -/
def locKey (l : Loc) : Nat :=
  blockKey (blockOf l) * (Config.blockPages * Config.pageSlots) + slotIndex l.page l.slot

/-- The identity blocks 0/0 and 0/1 (R67). -/
def isIdentityBlock (b : BlockId) : Bool := b.die == 0 && b.block < 2

/-- The block of an identity copy (chapter 9). -/
def copyBlock : IdCopy → BlockId
  | .a => ⟨0, 0⟩
  | .b => ⟨0, 1⟩

/-! ### Faults (R189) -/

/-- The sequence counter's value as faults and the status record give it: 0 while it has none (R189, R191). -/
def seqValue (s : State) : Nat := s.commit.seq.getD 0

/-- The fault list after a fault is raised: folded into the newest record, added at the tail, or discarded (R189). -/
def faultsAfter (kind : FaultKind) (subject : Subject) (seq : Nat) (faults : List FaultRec) : List FaultRec :=
  match faults.getLast? with
  | some r =>
    if r.kind = kind ∧ r.subject = subject then
      faults.dropLast ++ [{ r with count := min Config.repeatMax (r.count + 1) }]
    else if faults.length < Config.faultsMax then faults ++ [⟨kind, subject, seq, 1⟩]
    else faults
  | none => [⟨kind, subject, seq, 1⟩]

/-- A raised fault is discarded (R189 step 3). -/
def faultDiscarded (kind : FaultKind) (subject : Subject) (faults : List FaultRec) : Bool :=
  match faults.getLast? with
  | some r => !(decide (r.kind = kind) && decide (r.subject = subject)) && Config.faultsMax ≤ faults.length
  | none => false

/-- Raises a fault (R189). -/
def raise (kind : FaultKind) (subject : Subject) (s : State) : State :=
  { s with maint := { s.maint with
      faults := faultsAfter kind subject (seqValue s) s.maint.faults
      overflow := s.maint.overflow || faultDiscarded kind subject s.maint.faults } }

/-! ### Free values -/

/-- `n` unstated or undefined bytes: the free values next in turn. -/
def freeBytes (n : Nat) (s : State) : LineData := (List.range n).map fun i => Config.freeByte (s.freeTaken + i)

/-- Counts `n` free values as taken. -/
def takeFree (n : Nat) (s : State) : State := { s with freeTaken := s.freeTaken + n }

/-! ### Regions and the frozen set (R2 to R5) -/

/-- A region covers a line (R2). -/
def regionCovers (r : Region) (l : Nat) : Bool := r.base ≤ l && l < r.base + r.count

/-- The region of a line: its index and its entry, if the line is backed (R4). -/
def regionFrom (l : Nat) : Nat → List Region → Option (Nat × Region)
  | _, [] => none
  | i, r :: t => if regionCovers r l then some (i, r) else regionFrom l (i + 1) t

/-- The region of a line in the RAM copy of the region table (R4). -/
def regionOf (s : State) (l : Nat) : Option (Nat × Region) := regionFrom l 0 s.regions

/-- The line lies in a region (R4). -/
def isBacked (s : State) (l : Nat) : Bool := (regionOf s l).isSome

/-- The line lies in a ONCE region. -/
def isOnce (s : State) (l : Nat) : Bool :=
  match regionOf s l with
  | some (_, r) => r.kind == .once
  | none => false

/-- The line's region is in the RAM frozen set (R5). -/
def isFrozen (s : State) (l : Nat) : Bool :=
  match regionOf s l with
  | some (i, _) => s.frozen.contains i
  | none => false

/-! ### Staging entries (R22 to R25) -/

/-- An entry by its number. -/
def entryAt (s : State) (i : Nat) : Entry := s.staging.getD i Entry.cleared

/-- Replaces an entry. -/
def setEntry (i : Nat) (e : Entry) (s : State) : State := { s with staging := s.staging.set i e }

/-- The lowest entry number at which a test holds. -/
def findEntry (p : Entry → Bool) (s : State) : Option Nat := (List.range Config.entries).find? fun i => p (entryAt s i)

/-- The entry holds the line in LOADING, CLEAN or DIRTY. -/
def Entry.holds (l : Nat) (e : Entry) : Bool :=
  e.line == some l && (e.state == .loading || e.state == .clean || e.state == .dirty)

/-- The entry holds the line in COMMITTING. -/
def Entry.commits (l : Nat) (e : Entry) : Bool := e.line == some l && e.state == .committing

/-- The current entry of a line (R24). -/
def currentEntry (s : State) (l : Nat) : Option Nat :=
  (findEntry (·.holds l) s).orElse fun _ => findEntry (·.commits l) s

/-- Drops an entry number from the tracked sets of FLUSH, TRIM and FREEZE: it is done (R140, R184, R185). -/
def untrack (i : Nat) (s : State) : State :=
  { s with
    flushTracked := s.flushTracked.filter (· != i)
    trim := { s.trim with tracked := s.trim.tracked.filter (· != i) }
    freeze := { s.freeze with tracked := s.freeze.tracked.filter (· != i) } }

/-- An entry becomes FREE: its fields are cleared (R22), and it is done where it was tracked. -/
def freeEntry (i : Nat) (s : State) : State := untrack i (setEntry i Entry.cleared s)

/-- An entry becomes CLEAN with the data given, joins the back of the LRU order (R25), and is done where it was tracked. -/
def cleanEntry (i : Nat) (data : LineData) (s : State) : State :=
  let e := { Entry.cleared with state := .clean, line := (entryAt s i).line, data := data }
  untrack i { setEntry i e s with lru := s.lru ++ [i] }

/-- An entry becomes DIRTY now, with the fields given, and joins the tail of the commit queue (R50). -/
def dirtyEntry (i : Nat) (e : Entry) (s : State) : State :=
  let e' := { e with state := .dirty, dirtySince := some s.now, written := 0, trimPending := false, newer := none }
  { setEntry i e' s with commit := { s.commit with queue := s.commit.queue ++ [i] } }

/-- The lowest FREE entry (R25 step 1). -/
def lowestFree (s : State) : Option Nat := findEntry (·.state == .free) s

/-- An entry can be had by step 1 or 2 of R25. -/
def canAllocate (s : State) : Bool := (lowestFree s).isSome || !s.lru.isEmpty

/-- Allocation (R25): the lowest FREE entry, or the LRU front, which is evicted; the entry is FREE for its taker. -/
def allocate (s : State) : Option (Nat × State) :=
  match lowestFree s with
  | some i => some (i, s)
  | none =>
    match s.lru with
    | i :: t => some (i, { setEntry i Entry.cleared s with lru := t })
    | [] => none

/-- The bytes of a line with no stored bytes: 64 of the fill value (R10, R34). -/
def fillLine : LineData := List.replicate Config.lineBytes Config.fill

/-- A byte merged into a version: replaced for a PLAIN line, ANDed for a ONCE line (R36, R133). -/
def mergeByte (once : Bool) (off : Nat) (b : Byte) (data : LineData) : LineData :=
  data.set off (if once then data.getD off Config.fill &&& b else b)

/-- The version a fetch completes (R31): the stored byte outside the written mask; inside it the host's byte for a PLAIN line,
or the stored byte ANDed with the accumulated value for a ONCE line. -/
def mergeFetched (once : Bool) (mask : OffsetSet) (held stored : LineData) : LineData :=
  (List.range Config.lineBytes).map fun i =>
    if mask.getLsbD i then
      (if once then stored.getD i Config.fill &&& held.getD i Config.fill else held.getD i Config.fill)
    else stored.getD i Config.fill

/-- The byte a host read gets from a version: the fill value from a TRIM (R29). -/
def Entry.readByte (off : Nat) (e : Entry) : Byte :=
  match e.kind with
  | .line => e.data.getD off Config.fill
  | .trim => Config.fill

/-! ### Line map (R7 to R16) and valid counts (R69) -/

/-- The map entry of a line. -/
def mapGet (s : State) (l : Nat) : MapEntry := (keyGet l s.lineMap).getD MapEntry.empty

/-- The list of the map after one entry is set; an entry equal to `MapEntry.empty` is unlisted, so equal maps are equal data. -/
def mapPut (l : Nat) (e : MapEntry) (m : List (Nat × MapEntry)) : List (Nat × MapEntry) :=
  if e = MapEntry.empty then keyDel l m else keyPut l e m

/-- Sets the map entry of a line. -/
def mapSet (l : Nat) (e : MapEntry) (s : State) : State := { s with lineMap := mapPut l e s.lineMap }

/-- The canonical form of the map: lines rise strictly and no listed entry is the empty one. -/
def mapWf (m : List (Nat × MapEntry)) : Bool := keysRise m && m.all fun p => p.2 != MapEntry.empty

/-- The location of a map entry, where it has one (R8). -/
def MapState.loc : MapState → Option Loc
  | .present l _ => some l
  | .trimmed l _ => some l
  | .unwritten => none
  | .damaged => none

/-- The sequence of a map entry, where it has one (R8). -/
def MapState.seq : MapState → Option Nat
  | .present _ q => some q
  | .trimmed _ q => some q
  | .unwritten => none
  | .damaged => none

/-- The entry names the slot. -/
def namesSlot (s : State) (l : Nat) (loc : Loc) : Bool := (mapGet s l).state.loc == some loc

/-- The line whose entry names a slot, if any does (R122). -/
def lineAt (s : State) (loc : Loc) : Option Nat :=
  (s.lineMap.find? fun p => p.2.state.loc == some loc).map (·.1)

/-- The record of a block, where the table holds one. -/
def blockGet (s : State) (b : BlockId) : Option BlockRec := keyGet (blockKey b) s.blocks

/-- Changes the record of a block, where the table holds one. -/
def blockUpd (b : BlockId) (f : BlockRec → BlockRec) (s : State) : State :=
  match blockGet s b with
  | some r => { s with blocks := keyPut (blockKey b) (f r) s.blocks }
  | none => s

/-- A block gains one valid record (R69). -/
def gainValid (loc : Loc) : State → State := blockUpd (blockOf loc) fun r => { r with valid := r.valid + 1 }

/-- A block loses one valid record (R69). -/
def loseValid (loc : Loc) : State → State := blockUpd (blockOf loc) fun r => { r with valid := r.valid - 1 }

/-- The block of a location, where there is one, loses a valid record. -/
def loseOld (old : Option Loc) (s : State) : State :=
  match old with
  | some l => loseValid l s
  | none => s

/-- A commit completion changes the map for one record (R14). -/
def commitToMap (line : Nat) (kind : RecKind) (seq stamps : Nat) (loc : Loc) (s : State) : State :=
  let old := (mapGet s line).state.loc
  let st := match kind with
    | .line => MapState.present loc seq
    | .trim => MapState.trimmed loc seq
  mapSet line ⟨st, stamps⟩ (gainValid loc (loseOld old s))

/-- A copy completion changes the map for one record, if the entry still names the source slot (R15). -/
def copyToMap (line : Nat) (source dest : Loc) (s : State) : State :=
  if namesSlot s line source then
    let e := mapGet s line
    let st := match e.state with
      | .present _ q => MapState.present dest q
      | .trimmed _ q => MapState.trimmed dest q
      | other => other
    mapSet line { e with state := st } (gainValid dest (loseValid source s))
  else s

/-- A CLEAN entry becomes a refresh entry: it leaves the LRU order (R106, R112). -/
def refreshClean (i : Nat) (s : State) : State :=
  dirtyEntry i { entryAt s i with refresh := true } { s with lru := s.lru.filter (· != i) }

/-- A read graded LOST is handed to the line map (R16): if the entry still names the slot the line becomes DAMAGED, and a CLEAN
current entry is saved as a refresh entry (R106); UNCORRECTABLE is raised in either case. -/
def lostGrading (line : Nat) (loc : Loc) (s : State) : State :=
  let s' := raise .uncorrectable (.line line) s
  if namesSlot s line loc then
    let s'' := mapSet line { mapGet s line with state := .damaged } (loseValid loc s')
    match currentEntry s'' line with
    | some i => if (entryAt s'' i).state = .clean then refreshClean i s'' else s''
    | none => s''
  else s'

/-! ### Free list and space conditions (R73 to R77) -/

/-- The free count (R73). -/
def freeCount (s : State) : Nat := s.freeList.length

/-- Reconsiders the reclaim condition and the space boost from the free count (R75, R76). -/
def reconsiderSpace (s : State) : State :=
  let n := freeCount s
  { s with
    reclaimCond := if n ≤ Config.lowWater then true else if Config.highWater ≤ n then false else s.reclaimCond
    boost := decide (n ≤ Config.hostReserve) }

/-- Sets the reclaim condition and the space boost from the free count alone, at the hand-over and when FORMAT completes (R75, R76). -/
def setSpace (s : State) : State :=
  { s with reclaimCond := decide (freeCount s ≤ Config.lowWater), boost := decide (freeCount s ≤ Config.hostReserve) }

/-- The erase count that orders the free list. -/
def eraseRank (s : State) (b : BlockId) : Nat := ((blockGet s b).bind (·.eraseCount)).getD 0

/-- Block `a` stands before block `b` on the free list (R73). -/
def freeBefore (s : State) (a b : BlockId) : Bool :=
  eraseRank s a < eraseRank s b || (eraseRank s a == eraseRank s b && blockKey a < blockKey b)

/-- The free list with a block put at its place. -/
def freeInsert (s : State) (b : BlockId) : List BlockId → List BlockId
  | [] => [b]
  | a :: t => if freeBefore s b a then b :: a :: t else a :: freeInsert s b t

/-- A block becomes FREE and joins the free list (R73, R78). -/
def joinFree (b : BlockId) (s : State) : State :=
  let s' := blockUpd b (fun r => { r with state := .free, valid := 0, closeSeq := none, work := .none }) s
  reconsiderSpace { s' with freeList := freeInsert s' b s'.freeList }

/-- The front block is taken as a head and its state is set (R73). -/
def takeFront (st : BlockState) (s : State) : Option (BlockId × State) :=
  match s.freeList with
  | [] => none
  | b :: t => some (b, reconsiderSpace (blockUpd b (fun r => { r with state := st }) { s with freeList := t }))

/-- Some block is in ERASING (R121, R174). -/
def anyErasing (s : State) : Bool := s.blocks.any fun p => p.2.state == .erasing

/-! ### Sequence counter (R48) -/

/-- `n` further values can be drawn. -/
def canDraw (n : Nat) (s : State) : Bool :=
  match s.commit.seq with
  | some q => q + n ≤ Config.seqMax + 1
  | none => false

/-- The counter after `n` draws. -/
def drawSeq (n : Nat) (s : State) : State :=
  { s with commit := { s.commit with seq := s.commit.seq.map (· + n) } }

/-! ### Issuing medium operations (R88 to R95) -/

/-- The record of a die position. -/
def dieAt (s : State) (d : Nat) : DieRec := s.dies.getD d DieRec.unused

/-- Changes the record of a die position. -/
def dieUpd (d : Nat) (f : DieRec → DieRec) (s : State) : State := { s with dies := s.dies.set d (f (dieAt s d)) }

/-- The die is OFFLINE. -/
def isOffline (s : State) (d : Nat) : Bool := (dieAt s d).state == .offline

/-- Reads that the reader count of R71 counts: the line map reads. -/
def OpRole.counted : OpRole → Bool
  | .readFill _ | .directRead | .copyRead | .scrubRead => true
  | _ => false

/-- Adjusts the reader count of an operation's block, where the operation is counted there (R71). -/
def countReader (op : Op) (f : Nat → Nat) (s : State) : State :=
  if op.role.counted then blockUpd op.block (fun r => { r with readers := f r.readers }) s else s

/-- An operation enters its die's queue (R94); the reader count of a counted read rises (R71). -/
def enqueue (op : Op) (s : State) : State :=
  countReader op (· + 1)
    (dieUpd op.block.die (fun d => { d with queue := d.queue ++ [{ op with ticket := s.ticket }] }) s)

/-- Issues one operation. -/
def issue (op : Op) (s : State) : State := { enqueue op s with ticket := s.ticket + 1 }

/-- Issues several operations together: either order may be taken among those of one class (R96). -/
def issueTogether (ops : List Op) (s : State) : State :=
  { ops.foldl (fun t op => enqueue op t) s with ticket := s.ticket + 1 }

/-- A line map read of one slot with its expectation (R88). -/
def mapRead (role : OpRole) (cls : OpClass) (line : Nat) (loc : Loc) (seq : Nat) : Op :=
  { role := role, cls := cls, block := blockOf loc, page := loc.page, slot := loc.slot, count := 1,
    expect := some (line, seq), data := .none, stale := false, ticket := 0 }

/-- A PROGRAM SLOTS of stamps or records. -/
def programOp (role : OpRole) (cls : OpClass) (b : BlockId) (page slot : Nat) (contents : List SlotContent) : Op :=
  { role := role, cls := cls, block := b, page := page, slot := slot, count := contents.length, expect := none,
    data := .slots contents, stale := false, ticket := 0 }

/-- An ERASE BLOCK. -/
def eraseOp (role : OpRole) (cls : OpClass) (b : BlockId) : Op :=
  { role := role, cls := cls, block := b, page := 0, slot := 0, count := 0, expect := none, data := .none,
    stale := false, ticket := 0 }

/-- A read of a whole page without an expectation: a mount or identity read (R88). -/
def pageRead (role : OpRole) (cls : OpClass) (b : BlockId) (page : Nat) : Op :=
  { role := role, cls := cls, block := b, page := page, slot := 0, count := Config.pageSlots, expect := none, data := .none,
    stale := false, ticket := 0 }

/-- The first slot of an operation's run. -/
def Op.loc (op : Op) : Loc := locIn op.block op.page op.slot

/-- The line of a line map read. -/
def Op.line (op : Op) : Nat := (op.expect.map (·.1)).getD 0

/-- Every operation issued and not answered on a die. -/
def DieRec.ops (d : DieRec) : List Op := d.inFlight.toList ++ d.queue

/-- Some operation issued to a block is not answered (R155). -/
def blockBusy (s : State) (b : BlockId) : Bool := (dieAt s b.die).ops.any fun op => op.block == b

/-- Marks as stale the operations of a die for which a test holds. -/
def DieRec.markStale (p : Op → Bool) (d : DieRec) : DieRec :=
  let f := fun (op : Op) => if p op then { op with stale := true } else op
  { d with inFlight := d.inFlight.map f, queue := d.queue.map f }

/-- Marks operations on every die as stale. -/
def markStale (p : Op → Bool) (s : State) : State := { s with dies := s.dies.map (·.markStale p) }

/-- The format serial that erase stamps carry (R44): the running format's, else the current descriptor's. -/
def currentSerial (s : State) : Nat :=
  match s.format with
  | some j => j.serial
  | none => (s.ident.descriptor.map (·.serial)).getD 0

/-- The erase count the next stamp of a block carries (R72): the old count plus one, or what its eraser gives for an unknown
count: 0 by FORMAT, the largest count found by mount. Past 2^32 - 1 the spec gives no value: a free value (log 12). -/
def nextErase (s : State) (b : BlockId) : Nat :=
  match (blockGet s b).bind (·.eraseCount) with
  | some c => if c + 1 ≤ Config.countMax then c + 1 else Config.eraseCountPast c
  | none => if s.format.isSome then 0 else s.mount.largestErase

/-- The erase stamp program of a block (R44, R78). -/
def eraseStampOp (s : State) (b : BlockId) (count : Nat) : Op :=
  programOp .eraseStamp .eraseStamp b 0 0 [.eraseStamp (currentSerial s) count]

end Sys2Proof.Machine
end

