-- ==== Sys2Proof/Machine/Flags.lean ====
section
/-! DEFINITION. Every flag and pin the part computes from its state: pending attention conditions and ATTN (R190), HRDY (R19),
HWAIT (R18), the select lines (R84, R100), SDO (R180, R181), status flags and the count the drain waits for (R173). -/
namespace Sys2Proof.Machine

/-- FAULT is pending while the fault list is not empty (R190). -/
def faultPending (s : State) : Bool := !s.maint.faults.isEmpty

/-- LOW_SPACE is pending while the free count is 6 or less (R76, R190). -/
def lowSpacePending (s : State) : Bool := decide (freeCount s ≤ Config.hostReserve)

/-- The pending set, bit 0 DONE, 1 MODE, 2 FAULT, 3 LOW_SPACE; empty while RST_N is low (R190, R191). -/
def pendingSet (s : State) : BitVec 4 :=
  if s.rstLow then 0
  else
    BitVec.ofBool (lowSpacePending s) ++ BitVec.ofBool (faultPending s) ++ BitVec.ofBool s.maint.modeChanged ++
      BitVec.ofBool s.maint.done

/-- ATTN is high while a pending condition is in the attention mask (R190). -/
def attnHigh (s : State) : Bool := (pendingSet s &&& s.maint.settings.mask) != 0

/-- HRDY is high while the mode is ACTIVE (R19). -/
def hrdyHigh (s : State) : Bool := s.mode == .active && !s.rstLow

/-- HWAIT is high while the access waits (R18). -/
def hwaitHigh (s : State) : Bool :=
  match s.host.access with
  | some a => (match a.phase with
    | .waiting _ _ _ => true
    | .answered _ => false)
  | none => false

/-- The byte driven on HD: that of an answered read whose strobe is still asserted (R18). -/
def driven (s : State) : Option Byte :=
  match s.host.access with
  | some a => (match a.phase with
    | .answered b => b
    | .waiting _ _ _ => none)
  | none => none

/-- The select line of a position that is not in use or is OFFLINE is held high (R84, R91, R100). -/
def DieRec.heldHigh (d : DieRec) : Bool := d.state == .notUsed || d.state == .offline

/-- The pins as the state determines them; SDO is held high while RST_N is low (R180). -/
def pinsOf (s : State) : Pins :=
  { hwait := hwaitHigh s, hrdy := hrdyHigh s, attn := attnHigh s, hd := driven s,
    selHeldHigh := s.dies.map (·.heldHigh), sdo := s.maint.sdo, sdoHigh := s.rstLow }

/-- Drives the pins at the end of an event. -/
def drive (s : State) : State := { s with pins := pinsOf s }

/-- The entry is one the drain waits for (R173). -/
def Entry.waitedFor (e : Entry) : Bool :=
  e.state == .dirty || e.state == .committing || (e.state == .loading && (e.touched || e.trimPending))

/-- The count of entries the drain waits for (R173). -/
def drainCount (s : State) : Nat := s.staging.countP (·.waitedFor)

/-- Staging pressure: a host write or the TRIM walk is waiting for an entry (R27). -/
def writeWaiting (s : State) : Bool :=
  match s.host.access with
  | some a => (match a.phase with
    | .waiting _ _ .entry => true
    | _ => false)
  | none => false

/-- Staging pressure (R27). -/
def pressure (s : State) : Bool := writeWaiting s || s.trim.waiting

end Sys2Proof.Machine
end

