-- ==== Sys2Proof/Machine/Operands.lean ====
section
/-! DEFINITION. How a command's operands are read: host addresses (R1), slots through the check unit (R47, R92, R93), identity
pages (R145), region tables (R3), the SPI frames of the maintenance port (R180, R191) and the byte order of its numbers. -/
namespace Sys2Proof.Machine

/-! ### Host addresses (R1) -/

/-- The line of a host address. -/
def lineOf (a : BitVec 24) : Nat := a.toNat / Config.lineBytes

/-- The byte offset of a host address in its line. -/
def offsetOf (a : BitVec 24) : Nat := a.toNat % Config.lineBytes

/-! ### The check unit (R92, R93) -/

/-- The grades (R92). -/
inductive Grade | clean | corrected | weak
deriving DecidableEq, Repr

/-- The check unit's result for one slot (R92): ERASED, good at a grade, LOST with the header known, LOST with it unknown. -/
inductive SlotResult
  | erased
  | good (g : Grade) (c : SlotContent)
  | lostKnown (c : SlotContent)
  | lostUnknown
deriving DecidableEq, Repr

/-- The grade of a slot whose header check passes and whose code corrects it (R92). -/
def gradeOf (errors : Nat) : Grade :=
  if errors = 0 then .clean else if errors ≤ Config.correctedMax then .corrected else .weak

/-- The check unit's verdict on one slot (R92). -/
def checkSlot (r : RawSlot) : SlotResult :=
  if r.erasedDiff ≤ Config.correctable then .erased
  else if !r.headerOk then .lostUnknown
  else if r.bitErrors ≤ Config.correctable then .good (gradeOf r.bitErrors) r.content
  else .lostKnown r.content

/-- The content is a record of the expected line and sequence (R93). -/
def meets (line seq : Nat) : SlotContent → Bool
  | .record _ l q _ _ => l == line && q == seq
  | _ => false

/-- The comparison with an expectation, made after grading (R93). -/
def expectSlot (expect : Option (Nat × Nat)) (r : SlotResult) : SlotResult :=
  match expect with
  | none => r
  | some (line, seq) =>
    match r with
    | .good g c => if meets line seq c then .good g c else .lostKnown c
    | .erased => .lostUnknown
    | other => other

/-- The grade counts after one slot is graded (R92): an ERASED slot has no grade, and a count holds at its largest value. -/
def countGrade (r : SlotResult) (g : Grades) : Grades :=
  let up := fun n => min Config.countMax (n + 1)
  match r with
  | .erased => g
  | .good .clean _ => { g with clean := up g.clean }
  | .good .corrected _ => { g with corrected := up g.corrected }
  | .good .weak _ => { g with weak := up g.weak }
  | .lostKnown _ => { g with lost := up g.lost }
  | .lostUnknown => { g with lost := up g.lost }

/-- The payload of a record. -/
def payloadOf : SlotContent → LineData
  | .record _ _ _ _ p => p
  | _ => []

/-! ### Region tables (R3) -/

/-- Two regions share a line. -/
def regionsMeet (a b : Region) : Bool := a.base < b.base + b.count && b.base < a.base + a.count

/-- No line lies in two entries (R3). -/
def regionsApart : List Region → Bool
  | [] => true
  | r :: t => t.all (fun q => !regionsMeet r q) && regionsApart t

/-- A region table is valid (R3). -/
def validTable (t : List Region) : Bool :=
  1 ≤ t.length && t.length ≤ 8 && t.all (fun r => 1 ≤ r.count && r.base + r.count ≤ Config.lines) && regionsApart t

/-- A region as a FORMAT carries it, where its kind byte is PLAIN or ONCE (R3, R191). -/
def readRegion (r : RawRegion) : Option Region :=
  if r.kind = 0x00 then some ⟨.plain, r.base.toNat, r.count.toNat⟩
  else if r.kind = 0x01 then some ⟨.once, r.base.toNat, r.count.toNat⟩
  else none

/-- The region table of a FORMAT, where every kind is PLAIN or ONCE. -/
def readTable (t : List RawRegion) : Option (List Region) := t.mapM readRegion

/-- The lines of a region table. -/
def totalLines (t : List Region) : Nat := (t.map (·.count)).sum

/-- The lines the capacity rule allows (R80). -/
def capacityLimit (dies retired : Nat) : Nat :=
  (dies * Config.dieBlocks - 2 - Config.hostReserve - retired) * Config.recordSlots * 3 / 4

/-! ### Identity pages (R145) -/

/-- The result of reading an identity page (R145). -/
inductive PageResult
  | erased
  | torn
  | descriptor (d : Descriptor)
  | update (u : UpdatePage)
deriving DecidableEq, Repr

/-- The slot carries this page's header and the number every slot repeats. -/
def idSlotFits (kind : IdPageKind) (copy : IdCopy) (page index number : Nat) : SlotResult → Bool
  | .good _ (.identity k c p i n) => k == kind && c == copy && p == page && i == index && n == number
  | _ => false

/-- Every slot from an index on fits (R145). -/
def idSlotsFit (kind : IdPageKind) (copy : IdCopy) (page number : Nat) : Nat → List SlotResult → Bool
  | _, [] => true
  | i, r :: t => idSlotFits kind copy page i number r && idSlotsFit kind copy page number (i + 1) t

/-- The number a slot of an identity page repeats. -/
def idNumber : SlotResult → Nat
  | .good _ (.identity _ _ _ _ n) => n
  | _ => 0

/-- A page of an identity copy judged READABLE, ERASED or TORN (R145). -/
def judgePage (copy : IdCopy) (page : Nat) (rs : List SlotResult) (content : IdContent) : PageResult :=
  if rs.all (· == .erased) then .erased
  else
    let number := (rs.head?.map idNumber).getD 0
    let kind := if page = 0 then IdPageKind.descriptor else .update
    if rs.length = Config.pageSlots && idSlotsFit kind copy page number 0 rs then
      match content with
      | .descriptor dieCount regions =>
        if page = 0 && (dieCount == 1 || dieCount == 2 || dieCount == 4) && validTable regions then
          .descriptor ⟨number, dieCount, regions⟩
        else .torn
      | .update frozen retired => if page = 0 then .torn else .update ⟨number, frozen, retired⟩
    else .torn

/-! ### Numbers in frames and replies (R191): most significant byte first -/

/-- A number in `k` bytes. -/
def numBytes : Nat → Nat → List Byte
  | 0, _ => []
  | k + 1, n => BitVec.ofNat 8 (n / 256 ^ k) :: numBytes k n

/-- The number some bytes spell. -/
def bytesNum (l : List Byte) : Nat := l.foldl (fun n b => n * 256 + b.toNat) 0

/-- The byte that makes the sum of a frame 0 modulo 256 (R180). -/
def checkByte (l : List Byte) : Byte := 0 - l.sum

/-- A frame or reply of a code and its data: code, length, data, check (R180, R181). -/
def frameBytes (code : Byte) (data : List Byte) : List Byte :=
  let body := code :: BitVec.ofNat 8 data.length :: data
  body ++ [checkByte body]

/-! ### Request frames (R180, R191) -/

/-- What a frame is judged to be at SSEL_N rising (R180). `unknownParameter` is a SET PARAMETER whose identifier is none of the
four (R188): it passes the frame test, and no row of the table stands for it. -/
inductive Verdict
  | fetch
  | bad
  | unknownParameter
  | request (i : Instr)
deriving DecidableEq, Repr

/-- The regions a FORMAT's argument bytes spell, seven bytes each. -/
def readRegions : List Byte → List RawRegion
  | k :: b2 :: b1 :: b0 :: c2 :: c1 :: c0 :: t => ⟨k, b2 ++ b1 ++ b0, c2 ++ c1 ++ c0⟩ :: readRegions t
  | _ => []

/-- No argument bytes, or a bad frame. -/
def args0 (v : Verdict) : List Byte → Verdict
  | [] => v
  | _ => .bad

/-- One argument byte, or a bad frame. -/
def args1 (f : Byte → Verdict) : List Byte → Verdict
  | [a] => f a
  | _ => .bad

/-- Two argument bytes, or a bad frame. -/
def args2 (f : Byte → Byte → Verdict) : List Byte → Verdict
  | [a, b] => f a b
  | _ => .bad

/-- Three argument bytes, or a bad frame. -/
def args3 (f : Byte → Byte → Byte → Verdict) : List Byte → Verdict
  | [a, b, c] => f a b c
  | _ => .bad

/-- A three-byte number and a two-byte one, or a bad frame. -/
def args5 (f : BitVec 24 → BitVec 16 → Verdict) : List Byte → Verdict
  | [b2, b1, b0, c1, c0] => f (b2 ++ b1 ++ b0) (c1 ++ c0)
  | _ => .bad

/-- Two three-byte numbers, or a bad frame. -/
def args6 (f : BitVec 24 → BitVec 24 → Verdict) : List Byte → Verdict
  | [b2, b1, b0, c2, c1, c0] => f (b2 ++ b1 ++ b0) (c2 ++ c1 ++ c0)
  | _ => .bad

/-- A SET PARAMETER by its identifier (R188, R191). -/
def readParameter (id v1 v0 : Byte) : Verdict :=
  if id = 0x01 then .request (.setCommitDelay (v1 ++ v0))
  else if id = 0x02 then .request (.setBatchThreshold (v1 ++ v0))
  else if id = 0x03 then .request (.setWaitLimit (v1 ++ v0))
  else if id = 0x04 then .request (.setAttentionMask (v1 ++ v0))
  else .unknownParameter

/-- The argument bytes of a FORMAT: the number of regions, and seven bytes for each (R191). -/
def readFormat (wpHigh : Bool) : List Byte → Verdict
  | k :: t => if t.length = 7 * k.toNat then .request (.format (readRegions t) wpHigh) else .bad
  | [] => .bad

/-- The request of a code and its argument bytes, if the code is one of R191 and the length is the one R191 gives. -/
def readRequest (wpHigh : Bool) (code : Byte) (args : List Byte) : Verdict :=
  if code = 0x01 then args0 (.request .getStatus) args
  else if code = 0x02 then args1 (fun n => .request (.getFaults n)) args
  else if code = 0x03 then args3 (fun b2 b1 b0 => .request (.getLine (b2 ++ b1 ++ b0))) args
  else if code = 0x04 then args2 (fun d b => .request (.getBlock d b)) args
  else if code = 0x05 then args3 readParameter args
  else if code = 0x06 then args0 (.request .abort) args
  else if code = 0x10 then args0 (.request .flush) args
  else if code = 0x11 then args5 (fun b c => .request (.trim b c)) args
  else if code = 0x12 then args6 (fun f c => .request (.scrub f c)) args
  else if code = 0x13 then args1 (fun r => .request (.freeze r wpHigh)) args
  else if code = 0x14 then readFormat wpHigh args
  else .bad

/-- The verdict on the whole bytes of a frame (R180). -/
def judgeFrame (wpHigh : Bool) (bytes : List Byte) : Verdict :=
  match bytes with
  | [] => .fetch
  | code :: t =>
    if code = 0x00 then .fetch
    else
      match t with
      | [] => .bad
      | len :: more =>
        if more.length = len.toNat + 1 && bytes.sum == 0 then readRequest wpHigh code (more.take len.toNat) else .bad

/-- The seven bytes of a region in a FORMAT frame (R191). -/
def regionBytes (r : RawRegion) : List Byte := r.kind :: (numBytes 3 r.base.toNat ++ numBytes 3 r.count.toNat)

/-- The frame that carries a request (R191); no frame carries another command. -/
def frameOf : Instr → Option (List Byte)
  | .getStatus => some (frameBytes 0x01 [])
  | .getFaults n => some (frameBytes 0x02 [n])
  | .getLine l => some (frameBytes 0x03 (numBytes 3 l.toNat))
  | .getBlock d b => some (frameBytes 0x04 [d, b])
  | .setCommitDelay v => some (frameBytes 0x05 (0x01 :: numBytes 2 v.toNat))
  | .setBatchThreshold v => some (frameBytes 0x05 (0x02 :: numBytes 2 v.toNat))
  | .setWaitLimit v => some (frameBytes 0x05 (0x03 :: numBytes 2 v.toNat))
  | .setAttentionMask v => some (frameBytes 0x05 (0x04 :: numBytes 2 v.toNat))
  | .abort => some (frameBytes 0x06 [])
  | .flush => some (frameBytes 0x10 [])
  | .trim b c => some (frameBytes 0x11 (numBytes 3 b.toNat ++ numBytes 2 c.toNat))
  | .scrub f c => some (frameBytes 0x12 (numBytes 3 f.toNat ++ numBytes 3 c.toNat))
  | .freeze r _ => some (frameBytes 0x13 [r])
  | .format t _ => some (frameBytes 0x14 (BitVec.ofNat 8 t.length :: (t.map regionBytes).flatten))
  | _ => none

/-- The level of WP_N a command was taken with, where it is sampled (R139, R153). -/
def wpOf : Instr → Bool
  | .freeze _ w => w
  | .format _ w => w
  | _ => true

end Sys2Proof.Machine
end

