-- ==== Sys2Proof/Machine/Staging.lean ====
section
/-! DEFINITION. Host accesses and the staging buffer (chapter 2) with the ONCE merging and the stamps test (chapter 8): how a read
is served, how a write is merged, how fetches complete, and the TRIM walk's action on one line. -/
namespace Sys2Proof.Machine

/-! ### The host access (R18 to R21) -/

/-- What R19 gives for an access: it is answered normally, or as the mode says with a fault or none. -/
inductive ModeAnswer | normally | instead (fault : Option FaultKind)
deriving DecidableEq, Repr

/-- R19 for host reads. -/
def readAnswer : Mode → ModeAnswer
  | .mounting => .instead (some .earlyAccess)
  | .unformatted => .instead none
  | .formatting => .instead none
  | .active => .normally
  | .readOnly => .normally
  | .draining => .normally
  | .parked => .instead none

/-- R19 for host writes. -/
def writeAnswer : Mode → ModeAnswer
  | .mounting => .instead (some .earlyAccess)
  | .unformatted => .instead (some .modeDrop)
  | .formatting => .instead (some .modeDrop)
  | .active => .normally
  | .readOnly => .instead (some .modeDrop)
  | .draining => .instead (some .modeDrop)
  | .parked => .instead none

/-- Raises the fault where there is one, with a line as its subject. -/
def raiseOpt (f : Option FaultKind) (line : Nat) (s : State) : State :=
  match f with
  | some k => raise k (.line line) s
  | none => s

/-- Sets the access record. -/
def setAccess (a : Option Access) (s : State) : State := { s with host := { s.host with access := a } }

/-- Answers the access: a read with its byte, a write with none; HWAIT falls with the wait (R18). -/
def answer (byte : Option Byte) (s : State) : State :=
  match s.host.access with
  | some a => setAccess (some { a with phase := .answered byte }) s
  | none => s

/-- The access waits under HWAIT. A wait that begins reads the wait limit and starts the timer; one that goes on keeps both (R20). -/
def waitOn (why : WaitFor) (s : State) : State :=
  match s.host.access with
  | some a =>
    match a.phase with
    | .waiting started limit _ => setAccess (some { a with phase := .waiting started limit why }) s
    | .answered _ =>
      setAccess (some { a with phase := .waiting s.now (s.maint.settings.waitLimit * Config.usPerTenth) why }) s
  | none => s

/-- What the access waits for, if it waits. -/
def waitsFor (s : State) : Option WaitFor :=
  match s.host.access with
  | some a => (match a.phase with
    | .waiting _ _ why => some why
    | .answered _ => none)
  | none => none

/-- The line of the access. -/
def accessLine (s : State) : Nat := (s.host.access.map (lineOf ·.addr)).getD 0

/-- The byte offset of the access. -/
def accessOffset (s : State) : Nat := (s.host.access.map (offsetOf ·.addr)).getD 0

/-! ### Fetches issued (R30, R34) -/

/-- A LOADING entry (R30, R34); the data outside the written mask is undefined until the fetch answers (R22). -/
def loadingEntry (line : Nat) (data : LineData) (written : OffsetSet) (touched : Bool) : Entry :=
  { Entry.cleared with state := .loading, line := some line, data := data, written := written, touched := touched }

/-- Issues a read-fill in class HOST READ (R30). -/
def issueFill (i line : Nat) (loc : Loc) (seq : Nat) : State → State := issue (mapRead (.readFill i) .hostRead line loc seq)

/-- Issues a direct read in class HOST READ (R30). -/
def issueDirect (line : Nat) (loc : Loc) (seq : Nat) (s : State) : State :=
  issue (mapRead .directRead .hostRead line loc seq) { s with host := { s.host with directOut := true } }

/-! ### Host reads (R29, R30) -/

/-- A byte of a LOADING entry is valid (R29). -/
def byteValid (once : Bool) (off : Nat) (e : Entry) : Bool := e.trimPending || (!once && e.written.getLsbD off)

/-- The entry moves to the back of the LRU order (R25). -/
def touchLru (i : Nat) (s : State) : State := { s with lru := s.lru.filter (· != i) ++ [i] }

/-- A read of a line with a current entry (R29). -/
def serveHit (i line off : Nat) (s : State) : State :=
  let e := entryAt s i
  match e.state with
  | .loading =>
    if byteValid (isOnce s line) off e then answer (some (e.data.getD off Config.fill)) s else waitOn (.fetch i) s
  | .clean => touchLru i (answer (some (e.readByte off)) s)
  | _ => answer (some (e.readByte off)) s

/-- A read of a backed line with no current entry (R9, R30). In PARKED no new medium read is issued (R178). -/
def serveMiss (line : Nat) (s : State) : State :=
  match (mapGet s line).state with
  | .present loc seq =>
    if s.mode = .parked then answer (some Config.fill) s
    else
      match allocate s with
      | some (i, t) =>
        waitOn (.fetch i) (issueFill i line loc seq
          (takeFree Config.lineBytes (setEntry i (loadingEntry line (freeBytes Config.lineBytes t) 0 false) t)))
      | none =>
        if s.host.directOut then waitOn .earlierDirect s else waitOn .direct (issueDirect line loc seq s)
  | _ => answer (some Config.fill) s

/-- A host read answered normally: from the current entry, or through the line map; an unbacked line gives the fill value (R4). -/
def serveRead (line off : Nat) (s : State) : State :=
  if isBacked s line then
    match currentEntry s line with
    | some i => serveHit i line off s
    | none => serveMiss line s
  else answer (some Config.fill) s

/-! ### Host writes (R34 to R37, R133 to R136) -/

/-- The pending term of R135: the line's LOADING, DIRTY or COMMITTING entries that are host-touched. -/
def pendingStamps (s : State) (line : Nat) : Nat :=
  s.staging.countP fun e =>
    e.line == some line && e.touched && (e.state == .loading || e.state == .dirty || e.state == .committing)

/-- The new term of R135: 0 where the current entry is LOADING or DIRTY and already host-touched. -/
def newStamps (s : State) (line : Nat) : Nat :=
  match currentEntry s line with
  | some i =>
    let e := entryAt s i
    if e.touched && (e.state == .loading || e.state == .dirty) then 0 else 1
  | none => 1

/-- The acceptance test of R135. -/
def onceAccepts (s : State) (line : Nat) : Bool :=
  (mapGet s line).stamps + pendingStamps s line + newStamps s line ≤ Config.stampsMax

/-- The three questions of R6 in their order: the fault of the first that refuses the write. -/
def writeRefused (s : State) (line : Nat) : Option FaultKind :=
  if !isBacked s line then some .unbackedWrite
  else if isFrozen s line then some .frozenWrite
  else if isOnce s line && !onceAccepts s line then some .onceExhausted
  else none

/-- A write merged into a LOADING entry (R35). -/
def mergeLoading (i off : Nat) (b : Byte) (once : Bool) (s : State) : State :=
  let e := entryAt s i
  let held := if e.written.getLsbD off then e.data.getD off Config.fill else Config.fill
  let v := if once then held &&& b else b
  setEntry i { e with data := e.data.set off v, written := e.written ||| (1#64 <<< off), touched := true } s

/-- A write merged into a CLEAN entry (R36): it leaves the LRU order and becomes DIRTY. -/
def mergeClean (i off : Nat) (b : Byte) (once : Bool) (s : State) : State :=
  let e := entryAt s i
  dirtyEntry i { e with data := mergeByte once off b e.data, touched := true } { s with lru := s.lru.filter (· != i) }

/-- A write merged into a DIRTY entry (R36): a TRIM entry becomes a LINE entry from 64 bytes of 0xFF. -/
def mergeDirty (i off : Nat) (b : Byte) (once : Bool) (s : State) : State :=
  let e := entryAt s i
  match e.kind with
  | .line => setEntry i { e with data := mergeByte once off b e.data, touched := true } s
  | .trim => setEntry i { e with kind := .line, data := mergeByte once off b fillLine, touched := true, refresh := false } s

/-- A write to a line with a LOADING, CLEAN or DIRTY entry is merged at once (R35, R36). -/
def mergeHeld (line off : Nat) (b : Byte) (s : State) : Option State :=
  match currentEntry s line with
  | some i =>
    match (entryAt s i).state with
    | .loading => some (mergeLoading i off b (isOnce s line) s)
    | .clean => some (mergeClean i off b (isOnce s line) s)
    | .dirty => some (mergeDirty i off b (isOnce s line) s)
    | _ => none
  | none => none

/-- The entry given for a write starts the line (R34), or is linked to the line's COMMITTING entry (R37). -/
def mergeGiven (i line off : Nat) (b : Byte) (s : State) : State :=
  let once := isOnce s line
  match currentEntry s line with
  | some j =>
    let c := entryAt s j
    let from_ := match c.kind with
      | .line => c.data
      | .trim => fillLine
    let e := { Entry.cleared with line := some line, data := mergeByte once off b from_, touched := true }
    dirtyEntry i e (setEntry j { c with newer := some i } s)
  | none =>
    match (mapGet s line).state with
    | .present loc seq =>
      let d := (freeBytes Config.lineBytes s).set off b
      issueFill i line loc seq (takeFree Config.lineBytes (setEntry i (loadingEntry line d (1#64 <<< off) true) s))
    | _ =>
      dirtyEntry i { Entry.cleared with line := some line, data := mergeByte once off b fillLine, touched := true } s

/-- A write that has passed R6 reaches the staging buffer (2.5). -/
def stageWrite (line off : Nat) (b : Byte) (s : State) : State :=
  match mergeHeld line off b s with
  | some t => answer none t
  | none =>
    match allocate s with
    | some (i, t) => answer none (mergeGiven i line off b t)
    | none => waitOn .entry s

/-- The entry a granted write went to joins the FREEZE tracked set while the freeze of its region flushes (R140). -/
def trackFreeze (line : Nat) (s : State) : State :=
  match currentEntry s line, regionOf s line with
  | some i, some (r, _) =>
    if s.freeze.phase = .flushing ∧ s.freeze.region = some r then
      { s with freeze := { s.freeze with tracked := setAdd i s.freeze.tracked } }
    else s
  | _, _ => s

/-- An entry is given to the waiting write (R27): it is tested again by R135 (R136), merged where the line has gained an entry, or
starts or links the given entry (R34, R37). -/
def grantWrite (s : State) : State :=
  match s.host.access with
  | some a =>
    let line := lineOf a.addr
    let off := offsetOf a.addr
    let b := a.write.getD Config.fill
    if isOnce s line && !onceAccepts s line then answer none (raise .onceExhausted (.line line) s)
    else
      match mergeHeld line off b s with
      | some t => answer none (trackFreeze line t)
      | none =>
        match allocate s with
        | some (i, t) => answer none (trackFreeze line (mergeGiven i line off b t))
        | none => s
  | none => s

/-! ### Fetches answered (R31 to R33, R40, R108) -/

/-- A read waiting on an entry is answered from the completed entry, or with the fill value where it was freed (R29). -/
def answerFetch (i : Nat) (s : State) : State :=
  if waitsFor s = some (.fetch i) then
    let e := entryAt s i
    answer (some (if e.state = .free then Config.fill else e.readByte (accessOffset s))) s
  else s

/-- A trim-pending entry completes, whatever the grade (R40). -/
def completeTrimPending (i : Nat) (s : State) : State :=
  let e := entryAt s i
  if e.written = 0 then dirtyEntry i { e with kind := .trim, data := [], touched := false, refresh := false } s
  else dirtyEntry i { e with kind := .line, data := mergeFetched false e.written e.data fillLine, touched := true,
                             refresh := false } s

/-- A fetch answered good completes its entry (R31, R32); where the line is DAMAGED by now the entry becomes a refresh (R108). -/
def completeGood (i line : Nat) (g : Grade) (stored : LineData) (s : State) : State :=
  let e := entryAt s i
  let d := mergeFetched (isOnce s line) e.written e.data stored
  if (mapGet s line).state = .damaged ∨ g = .weak then dirtyEntry i { e with data := d, refresh := true } s
  else if e.touched then dirtyEntry i { e with data := d, refresh := false } s
  else cleanEntry i d s

/-- A fetch answered LOST whose line is DAMAGED (R33): 0xFF outside the written mask, then DIRTY if host-touched, else FREE. -/
def completeLost (i : Nat) (s : State) : State :=
  let e := entryAt s i
  if e.touched then dirtyEntry i { e with data := mergeFetched false e.written e.data fillLine } s else freeEntry i s

/-- A read-fill's entry after the line map has taken the LOST answer (R33, R40): reissued where a copy moved the line, withheld in
PARKED (R178), completed otherwise. -/
def fillLost (i line : Nat) (s : State) : State :=
  if (entryAt s i).trimPending then answerFetch i (completeTrimPending i s)
  else
    match (mapGet s line).state with
    | .present loc seq =>
      if s.mode = .parked then
        let t := { s with withheld := s.withheld ++ [i] }
        if waitsFor t = some (.fetch i) then answer (some Config.fill) t else t
      else issueFill i line loc seq s
    | _ => answerFetch i (completeLost i s)

/-- A read-fill is answered to its entry (R31 to R33, R40); after an accepted FORMAT only a LOST grade is taken (R42, R154). -/
def onReadFill (i : Nat) (op : Op) (r : SlotResult) (s : State) : State :=
  match r with
  | .good g c =>
    if op.stale then s
    else if (entryAt s i).trimPending then answerFetch i (completeTrimPending i s)
    else answerFetch i (completeGood i op.line g (payloadOf c) s)
  | _ =>
    let t := lostGrading op.line op.loc s
    if op.stale then t else fillLost i op.line t

/-- The read-fill of a withheld entry, of the slot the map names by now; none where the line has no record any more (R178). -/
def withheldRead (s : State) (i : Nat) : Option Op :=
  let line := (entryAt s i).line.getD 0
  match (mapGet s line).state with
  | .present loc seq => some (mapRead (.readFill i) .hostRead line loc seq)
  | _ => none

/-- The read-fills withheld in PARKED are issued when the mode leaves it (R178, R179). DESIGN CHOICE (log 14): they count as issued
together, so that R96 lets the arbiter take any of them first. DEDUCED (log 23): where the line has no record by now the entry completes
as R33 gives. -/
def issueWithheld (s : State) : State :=
  let ops := s.withheld.filterMap (withheldRead s)
  let gone := s.withheld.filter fun i => (withheldRead s i).isNone
  let t := gone.foldl (fun t i => fillLost i ((entryAt t i).line.getD 0) t) { s with withheld := [] }
  if ops.isEmpty then t else issueTogether ops t

/-- A host read that waited for an earlier access's direct read is served afresh (R30). -/
def serveWaiting (s : State) : State :=
  if waitsFor s = some .earlierDirect then serveRead (accessLine s) (accessOffset s) s else s

/-- A direct read is answered (R30, R108); one whose access is gone, as after an accepted FORMAT, is discarded but for R16 (R20, R88). -/
def onDirectRead (op : Op) (r : SlotResult) (s : State) : State :=
  let s := { s with host := { s.host with directOut := false } }
  let mine := decide (waitsFor s = some .direct) && !op.stale
  match r with
  | .good _ c => if mine then answer (some ((payloadOf c).getD (accessOffset s) Config.fill)) s else serveWaiting s
  | _ =>
    let t := lostGrading op.line op.loc s
    if mine then
      match (mapGet t op.line).state with
      | .present loc seq =>
        if t.mode = .parked then answer (some Config.fill) t else waitOn .direct (issueDirect op.line loc seq t)
      | _ => answer (some Config.fill) t
    else serveWaiting t

/-! ### The TRIM walk on one line (R39, R40, R185) -/

/-- The walk goes on to the next line. -/
def trimNext (s : State) : State := { s with trim := { s.trim with current := s.trim.current + 1, waiting := false } }

/-- An entry joins the TRIM tracked set (R185). -/
def trimTrack (i : Nat) (s : State) : State := { s with trim := { s.trim with tracked := setAdd i s.trim.tracked } }

/-- A TRIM entry of a line. -/
def trimEntry (line : Nat) : Entry := { Entry.cleared with line := some line, kind := .trim }

/-- The walk's action on a LOADING, CLEAN or DIRTY entry of its line (R39, R40). A host read waiting on a LOADING entry that becomes
trim pending is answered at once, since its byte is valid now (R18, R29, R40). -/
def trimHeld (i line : Nat) (s : State) : Option State :=
  let e := entryAt s i
  match e.state with
  | .clean => some (dirtyEntry i (trimEntry line) { s with lru := s.lru.filter (· != i) })
  | .dirty => some (setEntry i { e with kind := .trim, data := [], touched := false, refresh := false } s)
  | .loading =>
    some (answerFetch i (setEntry i { e with written := 0, data := fillLine, trimPending := true, touched := false } s))
  | _ => none

/-- The entry given to the walk becomes the line's TRIM entry, linked where the line has a COMMITTING entry (R39). -/
def trimGiven (i line : Nat) (s : State) : State :=
  match currentEntry s line with
  | some j => dirtyEntry i (trimEntry line) (setEntry j { entryAt s j with newer := some i } s)
  | none => dirtyEntry i (trimEntry line) s

/-- The TRIM walk handles its current line, or waits for an entry (R39). -/
def trimAct (s : State) : State :=
  let line := s.trim.current
  if !isBacked s line then trimNext s
  else
    let held := (currentEntry s line).bind fun i => (trimHeld i line s).map fun t => (i, t)
    match held with
    | some (i, t) => trimNext (trimTrack i t)
    | none =>
      match allocate s with
      | some (i, t) => trimNext (trimTrack i (trimGiven i line t))
      | none => { s with trim := { s.trim with waiting := true } }

/-- The line the walk waits on has gained an entry it can act on (R39). -/
def trimGained (s : State) : Bool :=
  s.trim.waiting &&
    (match currentEntry s s.trim.current with
     | some i => (entryAt s i).state != .committing
     | none => false)

end Sys2Proof.Machine
end

