-- ==== Sys2Proof/Machine/LongCommands.lean ====
section
/-! DEFINITION. Long commands as they run and complete (R183 to R185): their completion, the tracked sets, the scrub walker (6.4) and
the freeze logic (8.4). -/
namespace Sys2Proof.Machine

/-- The kind of a long command. -/
def LongCmd.kind : LongCmd → LongKind
  | .flush => .flush
  | .trim _ _ => .trim
  | .scrub _ _ => .scrub
  | .freeze _ => .freeze
  | .format _ => .format

/-- A long command completes: the slot empties, the last-command result is taken and DONE becomes pending (R183). -/
def completeLong (r : Result) (s : State) : State :=
  match s.maint.slot with
  | some c => { s with maint := { s.maint with slot := none, last := some (c.kind, r), done := true } }
  | none => s

/-- The slot holds a long command of this kind. -/
def running (k : LongKind) (s : State) : Bool := s.maint.slot.map (·.kind) == some k

/-! ### The scrub walker (R110 to R115) -/

/-- The walk ends: the walker becomes IDLE, and a scrub read left outstanding is stale (R114, R115). -/
def scrubIdle (s : State) : State :=
  markStale (·.role == .scrubRead)
    { s with scrub := { s.scrub with state := .idle, readSlot := none, held := none, abortPending := false } }

/-- The walk ends with a result. -/
def scrubEnd (r : Result) (s : State) : State := completeLong r (scrubIdle s)

/-- The current line becomes another. -/
def scrubAt (line : Nat) (s : State) : State := { s with scrub := { s.scrub with current := line } }

/-- Whether the current line is read, and from where (R111): PRESENT with a CLEAN entry or none. -/
def scrubTarget (s : State) : Option (Loc × Nat) :=
  let line := s.scrub.current
  match (mapGet s line).state with
  | .present loc seq =>
    if !isBacked s line then none
    else
      match currentEntry s line with
      | some i => if (entryAt s i).state = .clean then some (loc, seq) else none
      | none => some (loc, seq)
  | _ => none

/-- DECIDING (R111): lines are passed over until one is read or the walk completes; `n` bounds the lines left. -/
def scrubDecide : Nat → State → State
  | 0, s => s
  | n + 1, s =>
    match scrubTarget s with
    | some (loc, seq) =>
      issue (mapRead .scrubRead .scrubRead s.scrub.current loc seq)
        { s with scrub := { s.scrub with state := .reading, readSlot := some (loc, seq) } }
    | none =>
      if s.scrub.last ≤ s.scrub.current then scrubEnd .ok (scrubAt (s.scrub.current + 1) s)
      else scrubDecide n (scrubAt (s.scrub.current + 1) s)

/-- The walker decides from its current line on. -/
def scrubDecideNow (s : State) : State :=
  scrubDecide (s.scrub.last + 1 - s.scrub.current)
    { s with scrub := { s.scrub with state := .deciding, readSlot := none, held := none } }

/-- The current line is done: the walk stops if an ABORT is pending, completes at the end line, or goes on (R112, R115). -/
def scrubLineDone (s : State) : State :=
  let next := s.scrub.current + 1
  if s.scrub.abortPending then scrubEnd .aborted (scrubAt next s)
  else if s.scrub.last ≤ s.scrub.current then scrubEnd .ok (scrubAt next s)
  else scrubDecideNow (scrubAt next s)

/-- A refresh entry made from a payload held by the walker (R113). -/
def refreshEntry (line : Nat) (data : LineData) : Entry :=
  { Entry.cleared with line := some line, data := data, refresh := true }

/-- The map still names the walker's read slot for its current line (R112, R113). DEDUCED (log 18): the read slot is the slot with the
sequence expected (R110, R111), so both are compared. -/
def scrubNamed (s : State) : Bool :=
  match (mapGet s s.scrub.current).state, s.scrub.readSlot with
  | .present loc seq, some slot => (loc, seq) == slot
  | _, _ => false

/-- A WEAK answer of the current walk's read (R112, R113). -/
def scrubWeak (payload : LineData) (s : State) : State :=
  let line := s.scrub.current
  if scrubNamed s then
    match currentEntry s line with
    | some i => scrubLineDone (if (entryAt s i).state = .clean then refreshClean i s else s)
    | none =>
      match allocate s with
      | some (i, t) => scrubLineDone (dirtyEntry i (refreshEntry line payload) t)
      | none =>
        if s.scrub.abortPending then scrubLineDone s
        else { s with scrub := { s.scrub with state := .waiting, held := some payload } }
  else scrubLineDone s

/-- A scrub read is answered (R112, R114): for a stale read only a LOST grade is taken. -/
def onScrubRead (op : Op) (r : SlotResult) (s : State) : State :=
  match r with
  | .good g c =>
    if op.stale then s
    else if g = .weak then scrubWeak (payloadOf c) s
    else scrubLineDone s
  | _ =>
    let t := lostGrading op.line op.loc s
    if op.stale then t else scrubLineDone t

/-- An entry is given to the waiting walker, which looks at its line again (R113). -/
def grantScrub (s : State) : State :=
  match allocate s with
  | none => s
  | some (i, t) =>
    let line := t.scrub.current
    if scrubNamed t then
      match currentEntry t line with
      | some j => scrubLineDone (if (entryAt t j).state = .clean then refreshClean j t else t)
      | none => scrubLineDone (dirtyEntry i (refreshEntry line (t.scrub.held.getD [])) t)
    else scrubLineDone t

/-! ### FREEZE (R139 to R142) -/

/-- The freeze logic with nothing to do (R139). -/
def Freeze.initial : Freeze := { phase := .idle, region := none, tracked := [], aborted := false, medium := false }

/-- PERSISTING begins: an update carrying the RAM frozen set is handed to the identity manager (R141). -/
def freezePersist (s : State) : State :=
  { s with
    freeze := { s.freeze with phase := .persisting, tracked := [] }
    ident := { s.ident with queue := s.ident.queue ++ [.frozenSet true] } }

/-- A FREEZE's request no longer has a command to answer. -/
def orphanRequest : IdRequest → IdRequest
  | .frozenSet _ => .frozenSet false
  | r => r

/-- A FREEZE completes ABORTED at a change to DRAINING: an update not yet handed is not handed, one handed runs on (R142). -/
def freezeDrain (s : State) : State :=
  completeLong .aborted
    { s with
      freeze := Freeze.initial
      ident := { s.ident with
        queue := s.ident.queue.map orphanRequest
        update := s.ident.update.map fun u => { u with served := u.served.map orphanRequest } } }

/-- A FREEZE at a change to READ-ONLY (R142): in FLUSHING the set is emptied, the update is handed and the result is MEDIUM. -/
def freezeReadOnly (s : State) : State :=
  if s.freeze.phase = .flushing then
    freezePersist { s with freeze := { s.freeze with medium := true } }
  else s

/-- The identity update that carries the frozen set is answered: the FREEZE completes (R141, R142). -/
def freezeAnswered (written : Bool) (s : State) : State :=
  let r := if !written || s.freeze.medium then Result.medium else if s.freeze.aborted then .aborted else .ok
  completeLong r { s with freeze := Freeze.initial }

/-- ABORT of a FREEZE (R142). -/
def freezeAbort (s : State) : State :=
  if s.freeze.phase = .flushing then freezePersist { s with freeze := { s.freeze with aborted := true } }
  else { s with freeze := { s.freeze with aborted := true } }

/-! ### FLUSH and TRIM end (R184, R185) -/

/-- FLUSH ends. -/
def flushEnd (r : Result) (s : State) : State := completeLong r { s with flushTracked := [] }

/-- TRIM ends: the walk stops and a wait for an entry is withdrawn; its current line stays (R185). -/
def trimEnd (r : Result) (s : State) : State :=
  completeLong r { s with trim := { s.trim with tracked := [], waiting := false } }

/-- Entries of a failed batch that are freed have linked entries, which join the FLUSH and TRIM tracked sets (R184, R185). -/
def trackLinked (i j : Nat) (s : State) : State :=
  let s1 := if s.flushTracked.contains i then { s with flushTracked := setAdd j s.flushTracked } else s
  if s1.trim.tracked.contains i then { s1 with trim := { s1.trim with tracked := setAdd j s1.trim.tracked } } else s1

end Sys2Proof.Machine
end

