-- ==== Sys2Proof/Machine/Modes.lean ====
section
/-! DEFINITION. The mode controller (10.1): what every block does in the event of a mode change, READ-ONLY requests, and the PFW level.
RELOCATING blocks joining the relocation list stand here too, since a waiting copy-head request is asked again there (R121). -/
namespace Sys2Proof.Machine

/-- A waiting write is ended by a change to any mode but ACTIVE, with the fault R19 gives there (R21). -/
def endWaitingWrite (m : Mode) (s : State) : State :=
  if writeWaiting s && m != .active then
    let s' := answer none s
    match writeAnswer m with
    | .instead f => raiseOpt f (accessLine s) s'
    | .normally => s'
  else s

/-- A read waiting when a FORMAT is accepted is answered with the fill value (R21). -/
def endWaitingRead (m : Mode) (s : State) : State :=
  if m = .formatting ∧ (waitsFor s).isSome then answer (some Config.fill) s else s

/-- Long commands at a change to DRAINING or READ-ONLY (R115, R142, R183). -/
def stopLong (m : Mode) (s : State) : State :=
  match m with
  | .draining =>
    if running .flush s then flushEnd .aborted s
    else if running .trim s then trimEnd .aborted s
    else if running .scrub s then scrubEnd .aborted s
    else if running .freeze s then freezeDrain s
    else s
  | .readOnly =>
    if running .flush s then flushEnd .medium s
    else if running .trim s then trimEnd .medium s
    else if running .scrub s then scrubEnd .medium s
    else if running .freeze s then freezeReadOnly s
    else s
  | _ => s

/-- The open stamp of the copy head is in flight. -/
def Reclaim.stampOut (r : Reclaim) : Bool :=
  match r.head with
  | some h => h.stamp == .inFlight
  | none => false

/-- The reclaim engine at a mode change (R130): it enters STOPPED when the mode leaves ACTIVE, its outstanding copy reads to be
discarded; it leaves STOPPED when the mode becomes ACTIVE, to the state its outstanding work asks for. -/
def engineMode (old new : Mode) (r : Reclaim) : Reclaim :=
  if old = .active then { r with state := .stopped, discard := decide (0 < r.readsOut), retryDue := false }
  else if new = .active ∧ r.state = .stopped then
    { r with state :=
        if r.stampOut then .opening else if r.programOut then .programming
        else if 0 < r.readsOut then .reading else .idle }
  else r

/-- A mode change, taken by every block in one event (R159). No change is made when the new mode equals the old one. -/
def setMode (m : Mode) (s : State) : State :=
  if s.mode = m then s
  else
    let t := stopLong m (endWaitingRead m (endWaitingWrite m s))
    let u := { t with
      mode := m
      heldReadOnly := if m = .readOnly ∨ m = .unformatted then false else t.heldReadOnly
      drainRunning := decide (m = .draining)
      reclaim := engineMode s.mode m t.reclaim
      maint := { t.maint with modeChanged := true } }
    if s.mode = .parked then issueWithheld u else u

/-- A READ-ONLY request, by the mode it finds (R160). Where it ends a drain with PFW already high, the mode passes through PARKED to
READ-ONLY (R162). -/
def requestReadOnly (s : State) : State :=
  match s.mode with
  | .active => setMode .readOnly s
  | .draining =>
    let t := setMode .parked { s with heldReadOnly := true }
    if t.pfwHigh then setMode .readOnly t else t
  | .parked => { s with heldReadOnly := true }
  | .formatting => { s with heldReadOnly := true }
  | .readOnly => s
  | .mounting => s
  | .unformatted => s

/-- PFW is reported low (R161). -/
def pfwFalls (s : State) : State :=
  let t := { s with pfwHigh := false }
  match s.mode with
  | .active => setMode .draining t
  | .readOnly => { setMode .parked t with heldReadOnly := true }
  | _ => t

/-- PFW is reported high (R161, R162). -/
def pfwRises (s : State) : State :=
  let t := { s with pfwHigh := true }
  match s.mode with
  | .parked => setMode (if s.heldReadOnly then .readOnly else .active) t
  | _ => t

/-- The drain has ended (R162, R176). -/
def drainEnd (s : State) : State := setMode (if s.pfwHigh then .active else .parked) s

/-- The mode after a mount or a format that ends well or READ-ONLY (R163, R164). -/
def endMode (readOnly : Bool) (s : State) : State :=
  if s.pfwHigh then setMode (if readOnly then .readOnly else .active) s
  else { setMode .parked s with heldReadOnly := readOnly }

/-! ### Failed heads (R70, R128) -/

/-- The close sequence of a head (R70): the highest of its passed programs, or its open sequence. -/
def LogHead.closeSeq (h : LogHead) : Option Nat := h.topSeq.orElse fun _ => h.openSeq

/-- A head is closed (R57, R119, R174). -/
def closeHead (h : LogHead) : State → State :=
  blockUpd h.block fun r => { r with state := .closed, closeSeq := h.closeSeq }

/-- A block is to be retired when it is empty and unread (R79, R128). -/
def awaitRetire (b : BlockId) (s : State) : State :=
  let t := blockUpd b (fun r => { r with work := .retireWaiting }) s
  { t with reclaim := { t.reclaim with retireWait := t.reclaim.retireWait ++ [b] } }

/-- A failed head becomes RELOCATING with its close sequence; it joins the relocation list, unless it is empty and unread, when it
goes to retirement at once (R128). A copy-head request that waits for space is asked again (R121). -/
def relocateHead (h : LogHead) (s : State) : State :=
  let t := blockUpd h.block (fun r => { r with state := .relocating, closeSeq := h.closeSeq }) s
  match blockGet t h.block with
  | some r =>
    if r.valid = 0 ∧ r.readers = 0 then awaitRetire h.block t
    else
      let q := t.reclaim
      let q := if q.reloc.isEmpty then { q with relocRead := 2, relocKept := 2 } else q
      { t with reclaim := { q with reloc := q.reloc ++ [h.block], retryDue := true } }
  | none => t

end Sys2Proof.Machine
end

