-- ==== Sys2Proof/Machine/Waiters.lean ====
section
/-! DEFINITION. What the staging buffer, the long commands and the drain logic do at once when entries come free or leave a tracked set: the
grants in rank order (R27), the long commands that complete (R140, R184, R185), and the drain end test (R176). -/
namespace Sys2Proof.Machine

/-- Entries that can be had are given to the waiters in rank order (R26, R27); the TRIM walk also acts when its line has gained an
entry (R39). -/
def grantStep (s : State) : Option State :=
  if writeWaiting s && canAllocate s then some (grantWrite s)
  else if trimGained s || (s.trim.waiting && canAllocate s) then some (trimAct s)
  else if s.scrub.state == .waiting && canAllocate s then some (grantScrub s)
  else none

/-- FLUSH and TRIM complete, and FREEZE begins to persist, when what they wait for is done (R140, R141, R184, R185). -/
def longStep (s : State) : Option State :=
  if running .flush s && s.flushTracked.isEmpty then some (flushEnd .ok s)
  else if running .trim s && s.trim.current == s.trim.stop && s.trim.tracked.isEmpty then some (trimEnd .ok s)
  else if s.freeze.phase == .flushing && s.freeze.tracked.isEmpty then some (freezePersist s)
  else none

/-- The drain end test (R176). -/
def drainStep (s : State) : Option State :=
  if s.mode == .draining && drainCount s == 0 then some (drainEnd s) else none

/-- What the waiters do at once, if anything. -/
def waiterStep (s : State) : Option State := grantStep s <|> longStep s <|> drainStep s

/-- The waiters act until none has anything left to do; the number bounds the rounds. -/
def atOnce : Nat → State → State
  | 0, s => s
  | n + 1, s =>
    match waiterStep s with
    | some t => atOnce n t
    | none => s

/-- The bound on the waiters' rounds: three grants, two completions and the drain's end are the most there can be (log 19). -/
abbrev waiterRounds : Nat := 8

end Sys2Proof.Machine
end

