-- ==== Sys2Proof/Machine/Commit.lean ====
section
/-! DEFINITION. The commit engine (chapter 3): when a batch is due, opening a host log head, forming a batch, and applying the answers
of open stamps and batch programs. -/
namespace Sys2Proof.Machine

/-- The age of the queue's front entry has reached the commit delay (R59). -/
def delayDue (s : State) : Bool :=
  match s.commit.queue with
  | i :: _ =>
    match (entryAt s i).dirtySince with
    | some t => decide (t + s.maint.settings.commitDelay * Config.usPerMs ≤ s.now)
    | none => false
  | [] => false

/-- A FLUSH, or the flush step of a FREEZE, waits for an entry in the queue (R59, R140, R184). -/
def flushDue (s : State) : Bool :=
  (running .flush s && s.flushTracked.any (s.commit.queue.contains ·)) ||
    (s.freeze.phase == .flushing && s.freeze.tracked.any (s.commit.queue.contains ·))

/-- An entry returned by a failed program is in the queue (R59, R65). -/
def retryDue (s : State) : Bool := s.commit.returned.any (s.commit.queue.contains ·)

/-- A batch is due (R59): the triggers of threshold, delay, pressure, flush, drain and retry, whatever the queue holds. -/
def batchDue (s : State) : Bool :=
  s.maint.settings.threshold ≤ s.commit.queue.length || delayDue s || pressure s || flushDue s || s.mode == .draining ||
    retryDue s

/-- A head's page takes a batch: the erased slots left on it (R52). -/
def LogHead.slotsLeft (h : LogHead) : Nat := Config.pageSlots - h.next

/-- The accounting of a head after a passed program of `n` records, the highest of them `top` (R56, R119); none when the head leaves
page 63. -/
def LogHead.advance (h : LogHead) (n : Nat) : Option LogHead :=
  if h.used + 1 = Config.pagePrograms ∨ h.next + n = Config.pageSlots then
    if h.page + 1 < Config.blockPages then some { h with page := h.page + 1, next := 0, used := 0 } else none
  else some { h with next := h.next + n, used := h.used + 1 }

/-- The head with the sequences of a passed program counted in (R70). -/
def LogHead.withSeqs (h : LogHead) (seqs : List Nat) : LogHead :=
  { h with topSeq := seqs.foldl (fun m q => some (max q (m.getD 0))) h.topSeq }

/-- Sets the host log head. -/
def setHead (h : Option LogHead) (s : State) : State := { s with commit := { s.commit with head := h } }

/-- Opens a host log head from the free-list front (R53). -/
def openHostHead (s : State) : State :=
  match takeFront .hostHead s with
  | none => s
  | some (b, t) =>
    if canDraw 1 t then
      let q := seqValue t
      issue (programOp .hostOpenStamp .commitProgram b 0 1 [.openStamp .hostLog q b])
        (setHead (some ⟨b, 0, 2, 2, .inFlight, some q, none⟩) (drawSeq 1 t))
    else requestReadOnly (setHead (some ⟨b, 0, 2, 2, .never, none, none⟩) t)

/-- The stamps of a record at formation (R60, R137). -/
def recordStamps (s : State) (e : Entry) (line : Nat) : Nat :=
  match e.kind with
  | .trim => 0
  | .line => if isOnce s line then (mapGet s line).stamps + (if e.touched then 1 else 0) else 0

/-- The records of a batch, in queue order, with consecutive sequence values (R60). -/
def batchRecs (s : State) : Nat → List Nat → List BatchRec
  | _, [] => []
  | q, i :: t =>
    let e := entryAt s i
    let line := e.line.getD 0
    ⟨i, line, e.kind, q, recordStamps s e line⟩ :: batchRecs s (q + 1) t

/-- The entries of a batch become COMMITTING (R60). -/
def startCommit (ids : List Nat) (s : State) : State :=
  ids.foldl (fun t i => setEntry i { entryAt t i with state := .committing, newer := none } t) s

/-- The number of records of the next batch (R60). -/
def batchSize (h : LogHead) (s : State) : Nat := min s.commit.queue.length h.slotsLeft

/-- A batch is formed on the head (R60). -/
def formBatch (h : LogHead) (s : State) : State :=
  let n := batchSize h s
  let ids := s.commit.queue.take n
  let recs := batchRecs s (seqValue s) ids
  let contents := recs.map fun r => SlotContent.record r.kind r.line r.seq r.stamps (entryAt s r.entry).data
  let t := startCommit ids (drawSeq n s)
  issue (programOp .batchProgram .commitProgram h.block h.page h.next contents)
    { t with commit := { t.commit with
        queue := t.commit.queue.drop n
        returned := t.commit.returned.filter (!ids.contains ·)
        batch := some ⟨h.block, h.page, h.next, recs⟩ } }

/-- What the commit engine does next of its own accord, if anything: open a head, form a batch, or ask for READ-ONLY (R48, R53, R55,
R58, R174). -/
def commitStep (s : State) : Option State :=
  if (s.mode == .active || s.mode == .draining) && batchDue s then
    match s.commit.head with
    | some h =>
      if h.stamp = .passed ∧ s.commit.batch = none ∧ s.commit.queue ≠ [] then
        if canDraw (batchSize h s) s then some (formBatch h s) else some (requestReadOnly s)
      else none
    | none =>
      let tier := if s.mode = .draining then 0 else Config.hostReserve
      if tier < freeCount s then some (openHostHead s)
      else if s.mode = .draining ∧ anyErasing s = false then some (requestReadOnly s)
      else none
  else none

/-- A host log head's open stamp is answered (R54). -/
def onHostOpenStamp (st : Status) (s : State) : State :=
  match s.commit.head with
  | some h =>
    match st with
    | .pass => setHead (some { h with stamp := .passed }) s
    | .fail => relocateHead h (setHead none (raise .programFail (.block h.block) s))
  | none => s

/-- One record of a passed batch reaches the map, and its entry its next state (R14, R62, R105). -/
def commitRec (loc : Loc) (r : BatchRec) (s : State) : State :=
  let e := entryAt s r.entry
  let t := commitToMap r.line r.kind r.seq r.stamps loc s
  let t := if e.refresh then
      { t with commit := { t.commit with refreshes := min Config.countMax (t.commit.refreshes + 1) } } else t
  if e.kind = .line ∧ e.newer = none then cleanEntry r.entry e.data t else freeEntry r.entry t

/-- The records of a passed batch, in batch order, from a slot of the head page on (R62). -/
def commitRecs (b : BlockId) (page : Nat) : Nat → List BatchRec → State → State
  | _, [], s => s
  | slot, r :: t, s => commitRecs b page (slot + 1) t (commitRec (locIn b page slot) r s)

/-- A batch program passes (R62, R63). -/
def batchPass (b : Batch) (s : State) : State :=
  let t := commitRecs b.block b.page b.first b.recs { s with commit := { s.commit with batch := none } }
  match t.commit.head with
  | some h =>
    let h' := h.withSeqs (b.recs.map (·.seq))
    match h'.advance b.recs.length with
    | some n => setHead (some n) t
    | none => closeHead h' (setHead none t)
  | none => t

/-- An entry of a failed batch: freed where it has a linked entry, DIRTY again otherwise (R64). -/
def failRec (r : BatchRec) (s : State) : State :=
  let e := entryAt s r.entry
  match e.newer with
  | some j => freeEntry r.entry (trackLinked r.entry j s)
  | none => setEntry r.entry { e with state := .dirty } s

/-- A batch program fails, times out or is failed by an OFFLINE die (R64, R174). -/
def batchFail (b : Batch) (s : State) : State :=
  let back := (b.recs.filter fun r => (entryAt s r.entry).newer.isNone).map (·.entry)
  let t := b.recs.foldl (fun u r => failRec r u) (raise .programFail (.block b.block) s)
  let t := { t with commit := { t.commit with
      batch := none
      queue := back ++ t.commit.queue
      returned := back ++ t.commit.returned } }
  match t.commit.head with
  | some h =>
    if t.mode = .draining ∨ t.mode = .parked then closeHead h (setHead none t) else relocateHead h (setHead none t)
  | none => t

/-- A batch program is answered. -/
def onBatchProgram (st : Status) (s : State) : State :=
  match s.commit.batch with
  | some b => (match st with
    | .pass => batchPass b s
    | .fail => batchFail b s)
  | none => s

end Sys2Proof.Machine
end

