-- ==== Sys2Proof/Machine/ReclaimEngine.lean ====
section
/-! DEFINITION. The reclaim engine (chapter 7): its choice of work, victims, copy heads, copy groups and their answers, emptied
blocks, and what is handed for retirement. -/
namespace Sys2Proof.Machine

/-- The cursor's "end" (R122). -/
abbrev cursorEnd : Nat := Config.blockPages * Config.pageSlots

/-- Changes the reclaim engine. -/
def engine (f : Reclaim → Reclaim) (s : State) : State := { s with reclaim := f s.reclaim }

/-! ### Victims (R118) -/

/-- A block qualifies as a victim (R118). -/
def qualifies (s : State) (p : Nat × BlockRec) : Bool :=
  p.2.state == .closed && p.2.valid < Config.recordSlots && !isOffline s (blockAt p.1).die

/-- One qualifying block is chosen before another: smaller valid count, then smaller close sequence, then die and block order, in
which the table lists them (R118). -/
def victimBefore (p q : Nat × BlockRec) : Bool :=
  p.2.valid < q.2.valid || (p.2.valid == q.2.valid && p.2.closeSeq.getD 0 < q.2.closeSeq.getD 0)

/-- The victim of R118, if a block qualifies. -/
def chooseVictim (s : State) : Option BlockId :=
  ((s.blocks.filter (qualifies s)).foldl
    (fun best p => match best with
      | none => some p
      | some q => if victimBefore p q then some p else some q) none).map fun p => blockAt p.1

/-- A block becomes the victim (R118, R122). -/
def takeVictim (b : BlockId) (s : State) : State :=
  engine (fun r => { r with victim := some b, victimRead := 2, victimKept := 2, victimWalked := false })
    (blockUpd b (fun r => { r with state := .victim }) s)

/-! ### Copy heads (R119 to R121) -/

/-- Opens a copy head from the free-list front (R120). DEDUCED (log 43): where no sequence value can be drawn the engine holds the block as
its head, at page 0, next slot 2, programs used 2 and with no stamp, as R53 says of a host head. -/
def openCopyHead (forRelocation : Bool) (s : State) : State :=
  match takeFront .copyHead s with
  | none => s
  | some (b, t) =>
    if canDraw 1 t then
      let q := seqValue t
      let cls := if forRelocation then OpClass.relocationCopy else .reclaimCopy
      issue (programOp .copyOpenStamp cls b 0 1 [.openStamp .copyLog q b])
        (engine (fun r => { r with state := .opening, head := some ⟨b, 0, 2, 2, .inFlight, some q, none⟩ }) (drawSeq 1 t))
    else requestReadOnly (engine (fun r => { r with head := some ⟨b, 0, 2, 2, .never, none, none⟩ }) t)

/-- The tier of a copy-head request lets it take the front (R74). -/
def copyHeadGranted (s : State) : Bool :=
  if s.reclaim.reloc.isEmpty then decide (1 < freeCount s) else decide (0 < freeCount s)

/-- A copy head is requested: for relocation if the relocation list is not empty, for reclaim otherwise; a refusal is taken by
R121. -/
def requestCopyHead (s : State) : State :=
  let forRelocation := !s.reclaim.reloc.isEmpty
  if copyHeadGranted s then openCopyHead forRelocation s
  else if forRelocation then requestReadOnly s
  else if anyErasing s then engine (fun r => { r with state := .spaceWait, retryDue := false }) s
  else requestReadOnly s

/-! ### Copy groups (R122 to R126) -/

/-- The read cursor of a source. -/
def Reclaim.readCursor (r : Reclaim) : Source → Nat
  | .victim => r.victimRead
  | .relocation => r.relocRead

/-- The kept cursor of a source. -/
def Reclaim.keptCursor (r : Reclaim) : Source → Nat
  | .victim => r.victimKept
  | .relocation => r.relocKept

/-- Sets both cursors of a source. -/
def Reclaim.setCursors (r : Reclaim) (src : Source) (read kept : Nat) : Reclaim :=
  match src with
  | .victim => { r with victimRead := read, victimKept := kept }
  | .relocation => { r with relocRead := read, relocKept := kept }

/-- The block of a source. -/
def Reclaim.block (r : Reclaim) : Source → Option BlockId
  | .victim => r.victim
  | .relocation => r.reloc.head?

/-- The walk of R122: from a slot index on, up to `n` named slots of a block with their lines, and the cursor after them. `fuel`
is the number of slots left. -/
def walk (s : State) (b : BlockId) : Nat → Nat → Nat → List (Nat × Loc) × Nat
  | 0, _, _ => ([], cursorEnd)
  | _ + 1, 0, i => ([], i)
  | fuel + 1, n + 1, i =>
    let loc := locIn b (i / Config.pageSlots) (i % Config.pageSlots)
    match lineAt s loc with
    | some l =>
      let (rest, c) := walk s b fuel n (i + 1)
      ((l, loc) :: rest, c)
    | none => walk s b fuel (n + 1) (i + 1)

/-- The walk of a source's block has ended (R126): a victim is walked; a relocated block leaves the list and awaits retirement. -/
def endWalk (src : Source) (s : State) : State :=
  match src with
  | .victim => engine (fun r => { r with victimWalked := true, source := none }) s
  | .relocation =>
    match s.reclaim.reloc with
    | b :: t =>
      awaitRetire b (engine (fun r => { r with reloc := t, relocRead := 2, relocKept := 2, source := none }) s)
    | [] => s

/-- A group is over: the kept cursor moves to the read cursor, and the walk's end is tested (R123, R125, R126). -/
def groupOver (src : Source) (s : State) : State :=
  let c := s.reclaim.readCursor src
  let t := engine (fun r => r.setCursors src c c) s
  if c = cursorEnd then endWalk src t else t

/-- The class of a source's copy work (R95). -/
def copyClass : Source → OpClass
  | .victim => .reclaimCopy
  | .relocation => .relocationCopy

/-- Starts the next copy group of a source on the copy head (R122). -/
def startGroup (src : Source) (b : BlockId) (h : LogHead) (s : State) : State :=
  let i := s.reclaim.readCursor src
  let (found, c) := walk s b (cursorEnd - i) h.slotsLeft i
  let ops := found.map fun p => mapRead .copyRead (copyClass src) p.1 p.2 ((mapGet s p.1).state.seq.getD 0)
  let t := engine (fun r => { r.setCursors src c (r.keptCursor src) with source := some src }) s
  if ops.isEmpty then groupOver src t
  else issueTogether ops (engine (fun r => { r with state := .reading, readsOut := ops.length, buffer := [] }) t)

/-- The engine turns to a source (R117): a block with no valid record has no slot to copy and its walk ends; otherwise a copy head is
opened if none exists, or the next group starts. -/
def workOn (src : Source) (b : BlockId) (s : State) : State :=
  if (blockGet s b).map (·.valid) = some 0 then
    groupOver src (engine (fun r => r.setCursors src cursorEnd cursorEnd) s)
  else
    match s.reclaim.head with
    | some h => startGroup src b h s
    | none => requestCopyHead (engine (fun r => { r with source := some src }) s)

/-- What the engine does next of its own accord in ACTIVE, if anything (R117, R118, R121). -/
def reclaimStep (s : State) : Option State :=
  if s.mode ≠ .active then none
  else
    match s.reclaim.state with
    | .idle =>
      match s.reclaim.reloc with
      | b :: _ => some (workOn .relocation b s)
      | [] =>
        match s.reclaim.victim with
        | some v => if s.reclaim.victimWalked then none else some (workOn .victim v s)
        | none =>
          if s.reclaimCond then
            match chooseVictim s with
            | some b => some (takeVictim b s)
            | none => if freeCount s ≤ Config.hostReserve then some (requestReadOnly s) else none
          else none
    | .spaceWait =>
      if s.reclaim.retryDue then some (requestCopyHead (engine (fun r => { r with retryDue := false }) s)) else none
    | _ => none

/-- A copy record put at its place in source slot order (R123). -/
def bufferInsert (c : CopyRec) : List CopyRec → List CopyRec
  | [] => [c]
  | d :: t => if locKey c.source < locKey d.source then c :: d :: t else d :: bufferInsert c t

/-- Issues the copy program of a group (R124). -/
def issueCopyProgram (src : Source) (h : LogHead) (s : State) : State :=
  let contents := s.reclaim.buffer.map fun c => SlotContent.record c.kind c.line c.seq c.stamps c.payload
  issue (programOp .copyProgram (copyClass src) h.block h.page h.next contents)
    (engine (fun r => { r with state := .programming, programOut := true }) s)

/-- The last copy read of a group is answered (R123, R130). -/
def groupRead (s : State) : State :=
  match s.reclaim.source with
  | none => s
  | some src =>
    if s.reclaim.discard then
      let k := s.reclaim.keptCursor src
      engine (fun r => { r.setCursors src k k with
        buffer := [], discard := false, state := if r.state = .reading then .idle else r.state }) s
    else
      match s.reclaim.buffer, s.reclaim.head with
      | _ :: _, some h => issueCopyProgram src h s
      | _, _ => groupOver src (engine (fun r => { r with state := .idle, buffer := [] }) s)

/-- The copy record a good answer yields. -/
def copyRecOf (loc : Loc) : SlotContent → Option CopyRec
  | .record k l q st p => some ⟨loc, k, l, q, st, p⟩
  | _ => none

/-- A copy read is answered (R123, R130); after an accepted FORMAT only a LOST grade is taken (R131). -/
def onCopyRead (op : Op) (r : SlotResult) (s : State) : State :=
  let s := match r with
    | .good _ _ => s
    | _ => lostGrading op.line op.loc s
  if op.stale then s
  else
    let s := match r with
      | .good _ c =>
        if s.reclaim.discard || !namesSlot s op.line op.loc then s
        else
          match copyRecOf op.loc c with
          | some cr => engine (fun e => { e with buffer := bufferInsert cr e.buffer }) s
          | none => s
      | _ => s
    let t := engine (fun e => { e with readsOut := e.readsOut - 1 }) s
    if t.reclaim.readsOut = 0 then groupRead t else t

/-- The records of a passed copy program reach the map, in buffer order, from a slot of the copy head's page on (R125). -/
def copyRecs (b : BlockId) (page : Nat) : Nat → List CopyRec → State → State
  | _, [], s => s
  | slot, c :: t, s => copyRecs b page (slot + 1) t (copyToMap c.line c.source (locIn b page slot) s)

/-- A copy program in flight is over: the engine leaves PROGRAMMING, unless it is STOPPED. -/
def programOver (s : State) : State :=
  engine (fun r => { r with buffer := [], programOut := false,
                            state := if r.state = .programming then .idle else r.state }) s

/-- A copy program passes (R125). -/
def copyPass (src : Source) (h : LogHead) (s : State) : State :=
  let buf := s.reclaim.buffer
  let t := programOver (copyRecs h.block h.page h.next buf s)
  let h' := h.withSeqs (buf.map (·.seq))
  let u := match h'.advance buf.length with
    | some n => engine (fun r => { r with head := some n }) t
    | none => closeHead h' (engine (fun r => { r with head := none }) t)
  groupOver src u

/-- A copy program fails, times out or is failed by an OFFLINE die (R126). -/
def copyFail (src : Source) (h : LogHead) (s : State) : State :=
  let t := programOver (raise .programFail (.block h.block) s)
  let k := t.reclaim.keptCursor src
  relocateHead h (engine (fun r => { r.setCursors src k k with head := none }) t)

/-- A copy program is answered. -/
def onCopyProgram (st : Status) (s : State) : State :=
  match s.reclaim.source, s.reclaim.head with
  | some src, some h => (match st with
    | .pass => copyPass src h s
    | .fail => copyFail src h s)
  | _, _ => s

/-- A copy head's open stamp is answered (R120). -/
def onCopyOpenStamp (st : Status) (s : State) : State :=
  match s.reclaim.head with
  | some h =>
    let leave := fun (r : Reclaim) => if r.state = .opening then EngineState.idle else r.state
    match st with
    | .pass => engine (fun r => { r with head := some { h with stamp := .passed }, state := leave r }) s
    | .fail =>
      relocateHead h (engine (fun r => { r with head := none, state := leave r }) (raise .programFail (.block h.block) s))
  | none => s

/-! ### Emptied blocks and retirement (R127 to R130) -/

/-- Erases of victims and retirements are handed in ACTIVE and READ-ONLY (R130). -/
def handsWork (m : Mode) : Bool := m == .active || m == .readOnly

/-- A block with no valid record and no read outstanding. -/
def emptied (s : State) (b : BlockId) : Bool :=
  match blockGet s b with
  | some r => r.valid == 0 && r.readers == 0
  | none => false

/-- A walked victim that is empty and unread becomes ERASING (R127). -/
def victimStep (s : State) : Option State :=
  match s.reclaim.victim with
  | some b =>
    if s.reclaim.victimWalked && handsWork s.mode && emptied s b then
      some (engine (fun r => { r with victim := none, victimWalked := false, victimRead := 2, victimKept := 2 })
        (blockUpd b (fun r => { r with state := .erasing, closeSeq := none, work := .eraseWaiting }) s))
    else none
  | none => none

/-- A block is handed for retirement, or RETIRE_LIMIT is raised (R129). -/
def handRetire (b : BlockId) (s : State) : State :=
  let s := engine (fun r => { r with retireWait := r.retireWait.filter (· != b) }) s
  if s.ident.retired.length + s.reclaim.retirements < Config.retiredMax then
    let t := blockUpd b (fun r => { r with work := .retireHanded }) s
    { engine (fun r => { r with retirements := r.retirements + 1 }) t with
      ident := { t.ident with queue := t.ident.queue ++ [.retire b] } }
  else
    requestReadOnly (raise .retireLimit (.block b) (blockUpd b (fun r => { r with work := .stuck }) s))

/-- The first block that awaits retirement and is empty and unread is handed (R79, R128, R129). -/
def retireStep (s : State) : Option State :=
  if handsWork s.mode then (s.reclaim.retireWait.find? (emptied s)).map fun b => handRetire b s else none

end Sys2Proof.Machine
end

