-- ==== Sys2Proof/Machine/IdentityManager.lean ====
section
/-! DEFINITION. The identity manager (9.2, 9.3): updates, rolls, and their answers; and the erase and erase stamp of a block with what
follows a failure (4.7, R155). -/
namespace Sys2Proof.Machine

/-- Changes the identity manager. -/
def identity (f : Identity → Identity) (s : State) : State := { s with ident := f s.ident }

/-- What the manager keeps for a copy. -/
def Identity.copy (m : Identity) : IdCopy → CopyState
  | .a => m.copyA
  | .b => m.copyB

/-- Sets what the manager keeps for a copy. -/
def Identity.setCopy (m : Identity) (c : IdCopy) (v : CopyState) : Identity :=
  match c with
  | .a => { m with copyA := v }
  | .b => { m with copyB := v }

/-- A copy becomes FAILED (R151). -/
def failCopy (c : IdCopy) (s : State) : State :=
  raise .identityFail (.block (copyBlock c)) (identity (fun m => m.setCopy c { m.copy c with good := false }) s)

/-- A program of an identity page: all 16 slots, class IDENTITY (R144). -/
def pageProgram (role : OpRole) (c : IdCopy) (page : Nat) (p : IdPage) : Op :=
  { role := role, cls := .identity, block := copyBlock c, page := page, slot := 0, count := Config.pageSlots, expect := none,
    data := .page p, stale := false, ticket := 0 }

/-- The blocks of the retire requests among some requests, in order. -/
def retireBlocks (l : List IdRequest) : List BlockId :=
  l.filterMap fun r => match r with
    | .retire b => some b
    | .frozenSet _ => none

/-- An update is formed of every request in the queue (R148). -/
def formUpdate (s : State) : State :=
  identity (fun m =>
    { m with
      counter := m.counter + 1
      queue := []
      update := some
        { served := m.queue, page := ⟨m.counter + 1, s.frozen, m.retired ++ retireBlocks m.queue⟩, stage := .start .a,
          written := false } }) s

/-- The update in flight goes on to another stage. -/
def updateStage (st : UpdateStage) : State → State :=
  identity fun m => { m with update := m.update.map fun u => { u with stage := st } }

/-- The part of a copy is over: copy B follows copy A, then the update is to be answered (R149). -/
def nextCopy : IdCopy → UpdateStage
  | .a => .start .b
  | .b => .done

/-- A copy's part begins: a FAILED copy is passed over, a full or roll-due copy is rolled, any other takes the page (R149). -/
def startCopy (c : IdCopy) (s : State) : State :=
  let k := s.ident.copy c
  updateStage
    (if !k.good then nextCopy c
     else if k.rollDue || k.next == Config.identityPages then .ready c .rollErase
     else .ready c .page) s

/-- The operation of a step of an update is issued (R149, R150). -/
def issueStep (c : IdCopy) (step : IdStep) (page : UpdatePage) (s : State) : State :=
  let t := updateStage (.out c step) s
  match step with
  | .rollErase => issue (eraseOp .identityErase .identity (copyBlock c)) t
  | .rollDescriptor =>
    match s.ident.descriptor with
    | some d => issue (pageProgram .identityProgram c 0 (.descriptor d)) t
    | none => t
  | .rollPage => issue (pageProgram .identityProgram c 1 (.update page)) t
  | .page => issue (pageProgram .identityProgram c (s.ident.copy c).next (.update page)) t

/-- A block is set RETIRED (R79, R149). -/
def setRetired (b : BlockId) : State → State :=
  blockUpd b fun r => { r with state := .retired, valid := 0, closeSeq := none, work := .none }

/-- The served FREEZE, where its command still runs, is answered (R141, R149). -/
def answerFreeze (u : Update) (s : State) : State :=
  if u.served.any (· == .frozenSet true) then freezeAnswered u.written s else s

/-- An update is answered (R149). -/
def updateAnswered (u : Update) (s : State) : State :=
  let bs := retireBlocks u.served
  let t := bs.foldl (fun x b => setRetired b x) s
  let t := identity (fun m =>
    { m with
      update := none
      retired := m.retired ++ bs
      persistent := if u.written then u.page.frozen else m.persistent }) t
  let t := engine (fun r => { r with retirements := r.retirements - bs.length }) t
  let t := answerFreeze u t
  if u.written then t else requestReadOnly t

/-- The modes in which an update is formed and its operations are issued (R148). -/
def identityWorks (m : Mode) : Bool := m == .active || m == .readOnly || m == .draining

/-- What the identity manager does next of its own accord, if anything (R148, R149). -/
def identityStep (s : State) : Option State :=
  match s.ident.update with
  | none => if identityWorks s.mode && !s.ident.queue.isEmpty then some (formUpdate s) else none
  | some u =>
    match u.stage with
    | .start c => some (startCopy c s)
    | .ready c step => if identityWorks s.mode then some (issueStep c step u.page s) else none
    | .out _ _ => none
    | .done => some (updateAnswered u s)

/-- A copy took the update's page: its next page is set, and its part is over (R149, R150). -/
def copyWritten (c : IdCopy) (next : Nat) (s : State) : State :=
  updateStage (nextCopy c)
    (identity (fun m =>
      { m.setCopy c { m.copy c with next := next, rollDue := false } with
        update := m.update.map fun u => { u with written := true } }) s)

/-- The stage of the update in flight. -/
def stageOf (s : State) : Option UpdateStage :=
  match s.ident.update with
  | some u => some u.stage
  | none => none

/-- A program of an update or roll page is answered (R149, R150). -/
def onIdentityProgram (st : Status) (s : State) : State :=
  match stageOf s, st with
  | some (.out c .page), .pass => copyWritten c ((s.ident.copy c).next + 1) s
  | some (.out c .rollDescriptor), .pass => updateStage (.ready c .rollPage) s
  | some (.out c .rollPage), .pass => copyWritten c 2 s
  | some (.out c _), .fail => updateStage (nextCopy c) (failCopy c s)
  | _, _ => s

/-- The erase of a roll is answered (R150). -/
def onIdentityErase (st : Status) (s : State) : State :=
  match stageOf s, st with
  | some (.out c .rollErase), .pass => updateStage (.ready c .rollDescriptor) s
  | some (.out c .rollErase), .fail => updateStage (nextCopy c) (failCopy c s)
  | _, _ => s

/-! ### Erases and erase stamps (R78, R155, R157) -/

/-- Changes the running format. -/
def job (f : FormatJob → FormatJob) (s : State) : State := { s with format := s.format.map f }

/-- A block whose erase or stamp failed in a format's step 3 is retired into the new list, or meets RETIRE_LIMIT (R155). -/
def formatRetire (b : BlockId) (s : State) : State :=
  if s.ident.retired.length < Config.retiredMax then
    setRetired b (identity (fun m => { m with retired := m.retired ++ [b] }) s)
  else
    raise .retireLimit (.block b)
      (job (fun j => { j with limitMet := true }) (blockUpd b (fun r => { r with work := .stuck }) s))

/-- A block whose erase or stamp failed is retired: by the format (R155), or by the reclaim engine (R79). -/
def eraseFailed (b : BlockId) (s : State) : State := if s.format.isSome then formatRetire b s else awaitRetire b s

/-- An ERASE BLOCK of a non-identity block is answered (R78). After a format ended UNFORMATTED no stamp follows and nothing is
retired (R157). -/
def onErase (b : BlockId) (st : Status) (s : State) : State :=
  match st with
  | .pass =>
    if s.mode = .unformatted then s
    else issue (eraseStampOp s b (nextErase s b)) (blockUpd b (fun r => { r with work := .stampOut }) s)
  | .fail =>
    let t := raise .eraseFail (.block b) s
    if s.mode = .unformatted then t else eraseFailed b t

/-- The erase count an erase stamp carries. -/
def stampCount : OpData → Nat
  | .slots [.eraseStamp _ c] => c
  | _ => 0

/-- An erase stamp is answered (R72, R78, R157). -/
def onEraseStamp (b : BlockId) (data : OpData) (st : Status) (s : State) : State :=
  match st with
  | .pass =>
    let t := blockUpd b (fun r => { r with eraseCount := some (stampCount data) }) s
    if s.mode = .unformatted then t
    else engine (fun r => { r with retryDue := true }) (joinFree b t)
  | .fail =>
    let t := raise .programFail (.block b) s
    if s.mode = .unformatted then t else eraseFailed b t

/-- The block waits for its erase to be queued, and no read is outstanding on it nor any operation issued to it before (R71, R78,
R155). -/
def eraseReady (s : State) (p : Nat × BlockRec) : Bool :=
  p.2.work == .eraseWaiting && p.2.readers == 0 && !blockBusy s (blockAt p.1)

/-- The erases that can be queued are queued, in one event (R78, R155). -/
def eraseStep (s : State) : Option State :=
  match (s.blocks.filter (eraseReady s)).map fun p => blockAt p.1 with
  | [] => none
  | bs =>
    some (issueTogether (bs.map (eraseOp .erase .eraseStamp))
      (bs.foldl (fun t b => blockUpd b (fun r => { r with work := .eraseOut }) t) s))

end Sys2Proof.Machine
end

