-- ==== Sys2Proof/Machine/Formatting.lean ====
section
/-! DEFINITION. FORMAT (9.5): its first two steps at acceptance, what it does in steps 3 to 6, and how it ends. -/
namespace Sys2Proof.Machine

/-- The staging buffer emptied (R22, R42). -/
def clearStaging (s : State) : State :=
  { s with
    staging := List.replicate Config.entries Entry.cleared
    lru := []
    withheld := []
    flushTracked := []
    trim := { s.trim with tracked := [], waiting := false } }

/-- The commit engine after the first step of a format: the queue and the batch are cleared and no head is left; the counter keeps its
value until step 5 (R48, R50, R52, R105, R154). -/
def clearCommit (c : CommitEngine) : CommitEngine :=
  { queue := [], returned := [], seq := c.seq, head := none, batch := none, refreshes := 0 }

/-- The record of an identity block, whose erase count reads 0 (R66, R67, R81). -/
def identityRec : BlockRec :=
  { state := .identity, valid := 0, eraseCount := some 0, closeSeq := none, readers := 0, work := .none }

/-- The record a block has after the first step of a format (R82): its erase count and reader count are kept. -/
def formatRec (old : Option BlockRec) : BlockRec :=
  { state := .erasing, valid := 0, eraseCount := old.bind (·.eraseCount), closeSeq := none,
    readers := (old.map (·.readers)).getD 0, work := .eraseHeld }

/-- The block table after the first step of a format, for the dies now in use (R82). -/
def formatTable (dies : Nat) (s : State) : List (Nat × BlockRec) :=
  (List.range (dies * Config.dieBlocks)).map fun k =>
    (k, if isIdentityBlock (blockAt k) then identityRec else formatRec (keyGet k s.blocks))

/-- A present die that joins the dies in use becomes READY (R153). -/
def joinDies (n : Nat) (s : State) : State :=
  { s with
    diesInUse := n
    dies := s.dies.zipIdx.map fun (d, i) => if d.state = .notUsed ∧ i < n then { d with state := .ready } else d }

/-- A copy GOOD again, with no roll due (R151, R154). -/
def freshCopy (c : CopyState) : CopyState := { c with good := true, rollDue := false }

/-- Step 1 of a format, clearing (R13, R42, R61, R82, R131, R139, R154). -/
def formatClear (regions : List Region) (n : Nat) (s : State) : State :=
  let t := clearStaging (markStale (fun _ => true) s)
  let t := { t with
    commit := clearCommit t.commit
    lineMap := []
    regions := regions
    frozen := []
    blocks := formatTable n t
    freeList := []
    reclaim := Reclaim.initial
    freeze := Freeze.initial
    ident := { t.ident with
      copyA := freshCopy t.ident.copyA
      copyB := freshCopy t.ident.copyB
      descriptor := none, counter := 0, retired := [], persistent := [], queue := [], update := none } }
  reconsiderSpace (joinDies n t)

/-- A format as its second step begins, both identity erases issued (R154). -/
def newJob (serial dieCount : Nat) : FormatJob :=
  { step := 2, serial := serial, dieCount := dieCount, erasesOut := 2, limitMet := false, write := .start .a, wroteA := false,
    wroteB := false }

/-- A FORMAT is accepted: the mode becomes FORMATTING, the array's new serial and die count are fixed, step 1 clears, and step 2 issues
the identity erases, copy A first (R153, R154, R163). -/
def formatAccept (regions : List Region) (s : State) : State :=
  let serial := (s.ident.remembered.map (· + 1)).getD 1
  let n := s.mount.diesPresent
  let t := setMode .formatting { s with maint := { s.maint with slot := some (.format regions) }, heldReadOnly := false }
  let t := formatClear regions n t
  let t := { t with format := some (newJob serial n) }
  issue (eraseOp .formatErase .identity (copyBlock .b)) (issue (eraseOp .formatErase .identity (copyBlock .a)) t)

/-- A block record of a part that is UNFORMATTED after a format (R82). -/
def unformattedRec (p : Nat × BlockRec) : Nat × BlockRec :=
  if isIdentityBlock (blockAt p.1) then p
  else (p.1, { p.2 with state := .closed, valid := 0, closeSeq := none, work := .none })

/-- A format ends UNFORMATTED, by ABORT or by a failure of both copies (R13, R48, R82, R157, R163). -/
def formatFailed (r : Result) (s : State) : State :=
  let t := reconsiderSpace
    { s with
      format := none, regions := [], lineMap := [], frozen := [], freeList := [], blocks := s.blocks.map unformattedRec,
      commit := { s.commit with seq := none } }
  setMode .unformatted (completeLong r t)

/-- Steps 5 and 6 of a format (R75, R156, R163). -/
def formatDone (j : FormatJob) (s : State) : State :=
  let set := fun (wrote : Bool) (c : CopyState) => if wrote then { c with next := 2 } else c
  let t := identity (fun m =>
    { m with
      copyA := set j.wroteA m.copyA, copyB := set j.wroteB m.copyB, persistent := [], remembered := some j.serial }) s
  let t := setSpace { t with format := none, commit := { t.commit with seq := some 1 } }
  endMode (t.heldReadOnly || j.limitMet) (completeLong (if j.limitMet then .medium else .ok) t)

/-- The work on a block of the format's step 3 is not over (R155). -/
def BlockWork.open : BlockWork → Bool
  | .eraseHeld => true
  | .eraseWaiting => true
  | .eraseOut => true
  | .stampOut => true
  | _ => false

/-- Step 3 begins: the erases held until now wait only for their blocks (R155). -/
def formatErases (s : State) : State :=
  job (fun j => { j with step := 3 })
    { s with blocks := s.blocks.map fun p =>
        if p.2.work = .eraseHeld then (p.1, { p.2 with work := .eraseWaiting }) else p }

/-- Step 4 begins: the descriptor and update page 1 are formed (R156). -/
def formatWrites (j : FormatJob) (s : State) : State :=
  job (fun j => { j with step := 4, write := .start .a })
    (identity (fun m => { m with counter := 1, descriptor := some ⟨j.serial, j.dieCount, s.regions⟩ }) s)

/-- Where step 4 goes after a copy. -/
def nextWrite : IdCopy → FormatWrite
  | .a => .start .b
  | .b => .done

/-- A GOOD copy's descriptor program is issued; a FAILED copy is passed over (R156). -/
def formatStartCopy (c : IdCopy) (s : State) : State :=
  match (s.ident.copy c).good, s.ident.descriptor with
  | true, some d =>
    issue (pageProgram .formatProgram c 0 (.descriptor d)) (job (fun j => { j with write := .out c 0 }) s)
  | _, _ => job (fun j => { j with write := nextWrite c }) s

/-- What a running format does next of its own accord, if anything (R154 to R156). -/
def formatStep (s : State) : Option State :=
  match s.format with
  | none => none
  | some j =>
    if j.step = 2 then
      if j.erasesOut = 0 then
        some (if !s.ident.copyA.good && !s.ident.copyB.good then formatFailed .medium s else formatErases s)
      else none
    else if j.step = 3 then
      if s.blocks.any fun p => p.2.state == .erasing && p.2.work.open then none else some (formatWrites j s)
    else
      match j.write with
      | .start c => some (formatStartCopy c s)
      | .out _ _ => none
      | .done => some (if j.wroteA || j.wroteB then formatDone j s else formatFailed .medium s)

/-- The identity copy a block is. -/
def copyOf (b : BlockId) : IdCopy := if b.block = 0 then .a else .b

/-- A step 2 erase of an identity copy is answered (R154); after an ABORT only a failure is noted (R157). -/
def onFormatErase (b : BlockId) (st : Status) (s : State) : State :=
  let t := match st with
    | .pass => s
    | .fail => failCopy (copyOf b) s
  job (fun j => { j with erasesOut := j.erasesOut - 1 }) t

/-- A step 4 program is answered (R156). -/
def onFormatProgram (st : Status) (s : State) : State :=
  match s.format with
  | none => s
  | some j =>
    match j.write, st with
    | .out c 0, .pass =>
      issue (pageProgram .formatProgram c 1 (.update ⟨1, [], s.ident.retired⟩))
        (job (fun j => { j with write := .out c 1 }) s)
    | .out c _, .pass =>
      job (fun j => { j with
        write := nextWrite c, wroteA := j.wroteA || c == .a, wroteB := j.wroteB || c == .b }) s
    | .out c _, .fail => job (fun j => { j with write := nextWrite c }) (failCopy c s)
    | _, _ => s

/-- ABORT of a FORMAT (R157): before step 4's first program it ends at once; after it the format goes on. -/
def formatAbort (s : State) : State :=
  match s.format with
  | some j => if j.step < 4 then formatFailed .aborted s else s
  | none => s

end Sys2Proof.Machine
end

