-- ==== Sys2Proof/Machine/MountScan.lean ====
section
/-! DEFINITION. The mount scan (10.2): the probe's decision, the identity reads and the selection (R147), classification, the scan of
the log blocks, the settlement and the hand-over. -/
namespace Sys2Proof.Machine

/-- Changes the mount scan. -/
def mountUpd (f : Mount → Mount) (s : State) : State := { s with mount := f s.mount }

/-! ### UNFORMATTED (R12, R81, R147, R166) -/

/-- The record of a block that is handed over CLOSED with no record in it (R81). -/
def closedRec : BlockRec :=
  { state := .closed, valid := 0, eraseCount := none, closeSeq := none, readers := 0, work := .none }

/-- The block table of a mount that ends UNFORMATTED (R81). -/
def unformattedTable (dies : Nat) : List (Nat × BlockRec) :=
  (List.range (dies * Config.dieBlocks)).map fun k => (k, if isIdentityBlock (blockAt k) then identityRec else closedRec)

/-- The remembered serial where no copy is usable: the greater serial among the readable descriptors (R147). -/
def greatestSerial (a b : CopyFinding) : Option Nat :=
  match a.descriptor, b.descriptor with
  | some x, some y => some (max x.serial y.serial)
  | some x, none => some x.serial
  | none, some y => some y.serial
  | none, none => none

/-- The mount ends UNFORMATTED (R164, R166): the dies in use are the dies present. DEDUCED (log 42): with no selection the next page of both
copies stays at its reset value 1 (R146), since R147 keeps a next page found only beside a selection. -/
def mountUnformatted (s : State) : State :=
  let n := s.mount.diesPresent
  let t := { s with
    diesInUse := n
    lineMap := []
    regions := []
    frozen := []
    blocks := unformattedTable n
    freeList := []
    ident := { s.ident with remembered := greatestSerial s.mount.copyA s.mount.copyB } }
  setMode .unformatted (mountUpd (fun m => { m with phase := .done }) (reconsiderSpace t))

/-! ### PROBE (R91, R165) -/

/-- The die count of R91. -/
def presentCount : List Probe → Nat
  | [.present, .present, .present, .present] => 4
  | .present :: .present :: _ => 2
  | .present :: _ => 1
  | _ => 0

/-- A page of an identity copy is read (R145). -/
def readIdentity (c : IdCopy) (page : Nat) : State → State :=
  issue (pageRead .identityRead .identity (copyBlock c) page)

/-- Every position has answered or timed out (R165): a die that is absent or lies beyond the die count is not used (R91). -/
def endProbe (s : State) : State :=
  let n := presentCount s.mount.probes
  let t := { mountUpd (fun m => { m with diesPresent := n, phase := .identity }) s with
    dies := s.dies.zipIdx.map fun (d, i) => if i < n then d else { DieRec.unused with grades := d.grades } }
  if n = 0 then mountUnformatted t else readIdentity .a 0 t

/-- The probe of mount is running. -/
def probing (s : State) : Bool := s.mode == .mounting && s.mount.phase == .probe

/-- A position of the probe is decided. -/
def probeDecide (d : Nat) (p : Probe) (s : State) : State :=
  if probing s then
    let t := mountUpd (fun m => { m with probes := m.probes.set d p }) s
    if t.mount.probes.all (· != .undecided) then endProbe t else t
  else s

/-! ### CLASSIFY and SCAN (R167, R168) -/

/-- A finding on a block that has not been read. -/
def Finding.initial : Finding :=
  { cls := none, eraseCount := none, role := none, openSeq := none, lastPage := 0, highSeq := none, cursor := 0, blank := true,
    scanned := false }

/-- The finding on a block. -/
def findingOf (s : State) (b : BlockId) : Finding := (keyGet (blockKey b) s.mount.findings).getD Finding.initial

/-- Sets the finding on a block. -/
def setFinding (b : BlockId) (f : Finding) : State → State :=
  mountUpd fun m => { m with findings := keyPut (blockKey b) f m.findings }

/-- The region table of the selection names the line. -/
def selectedBacked (s : State) (l : Nat) : Bool :=
  match s.ident.descriptor with
  | some d => (regionFrom l 0 d.regions).isSome
  | none => false

/-- The sequence a slot shows the mount (R48, R164, R167, R168): that of any record whose header is known, its payload read or LOST, and that
of any readable open stamp. -/
def seqSeen : SlotResult → Option Nat
  | .good _ (.record _ _ q _ _) => some q
  | .lostKnown (.record _ _ q _ _) => some q
  | .good _ (.openStamp _ q _) => some q
  | _ => none

/-- The erase count a slot shows the mount (R164, R167): that of any readable erase stamp, whatever its serial. -/
def countSeen : SlotResult → Option Nat
  | .good _ (.eraseStamp _ c) => some c
  | _ => none

/-- The slots of a page that the mount reads raise the highest sequence and the largest erase count (R48, R164), whichever page it is. -/
def seeSlots (rs : List SlotResult) : State → State := mountUpd fun m =>
  { m with
    highest := (rs.filterMap seqSeen).foldl max m.highest
    largestErase := (rs.filterMap countSeen).foldl max m.largestErase }

/-- A slot is noted (R167, R168). -/
def note (l : Loc) : State → State := mountUpd fun m => { m with noted := m.noted ++ [l] }

/-- A record raises its block's highest sequence, and that of a backed line is offered as a candidate (R168, R169). -/
def offer (loc : Loc) (kind : RecKind) (line seq stamps : Nat) (lost : Bool) (s : State) : State :=
  let b := blockOf loc
  let f := findingOf s b
  let t := setFinding b { f with highSeq := some (max seq (f.highSeq.getD 0)) } s
  if selectedBacked t line then mountUpd (fun m => { m with cands := m.cands ++ [⟨line, loc, kind, seq, stamps, lost⟩] }) t
  else t

/-- A record slot of a LOG block (R168). A good slot that holds no record names no line and is noted. -/
def takeSlot (loc : Loc) (r : SlotResult) (s : State) : State :=
  match r with
  | .erased => s
  | .good _ (.record k l q st _) => offer loc k l q st false s
  | .good _ _ => note loc s
  | .lostKnown (.record k l q st _) => offer loc k l q st true (note loc s)
  | .lostKnown _ => note loc s
  | .lostUnknown => note loc s

/-- The record slots of a page, from a slot on. -/
def takeSlots (b : BlockId) (page : Nat) : Nat → List SlotResult → State → State
  | _, [], s => s
  | slot, r :: t, s => takeSlots b page (slot + 1) t (takeSlot (locIn b page slot) r s)

/-- The class that page 0 gives a block, with what its stamps say (R167); none where page 0 is all ERASED. The flag says that slot 1
is noted. -/
def classOf (serial : Nat) (b : BlockId) (rs : List SlotResult) : Option (Finding × Bool) :=
  let f := Finding.initial
  match rs with
  | .good _ (.eraseStamp ser count) :: s1 :: s2 :: _ =>
    if ser = serial then
      let f := { f with eraseCount := some count }
      let anythingElse :=
        if s2 = .erased then some ({ f with cls := some .erase }, false) else some ({ f with cls := some .log }, true)
      match s1 with
      | .erased => some ({ f with cls := some .free }, false)
      | .good _ (.openStamp role q blk) =>
        if blk = b then some ({ f with cls := some .log, role := some role, openSeq := some q }, false) else anythingElse
      | _ => anythingElse
    else some ({ f with cls := some .erase }, false)
  | _ => if rs.all (· == .erased) then none else some ({ f with cls := some .erase }, false)

/-- A page of a block is read in class MOUNT READ. -/
def mountRead (role : OpRole) (b : BlockId) (page : Nat) : Op := pageRead role .mountRead b page

/-- The next page of a block whose page 0 is all ERASED is read (R167). -/
def readBlank (b : BlockId) (page : Nat) (f : Finding) (s : State) : State :=
  issue (mountRead .classifyRead b page) (setFinding b { f with cursor := page } s)

/-- A classification read is answered (R167); a block of an OFFLINE die is classed by its die at the hand-over (R171). -/
def classifyPage (op : Op) (rs : List SlotResult) (s : State) : State :=
  let b := op.block
  if op.page = 0 then
    match classOf (currentSerial s) b rs with
    | none => readBlank b 1 Finding.initial s
    | some (f, slot1) =>
      let t := setFinding b f s
      let t := if slot1 then note (locIn b 0 1) t else t
      if f.cls = some .log then takeSlots b 0 2 (rs.drop 2) t else t
  else
    let f := findingOf s b
    let blank := f.blank && rs.all (· == .erased)
    if isOffline s b.die then setFinding b { f with cls := some .erase, blank := false } s
    else if op.page + 1 < Config.blockPages then readBlank b (op.page + 1) { f with blank := blank } s
    else setFinding b { f with cls := some (if blank then .blank else .erase), blank := blank } s

/-- A finding on a LOG block. -/
def Finding.isLog (f : Finding) : Bool := f.cls == some .log

/-- The finding on a block as SCAN begins: a LOG block is scanned from page 1, and one of an OFFLINE die is not read. -/
def startScan (s : State) (p : Nat × Finding) : Finding :=
  if p.2.isLog then
    if isOffline s (blockAt p.1).die then { p.2 with scanned := true } else { p.2 with cursor := 1 }
  else p.2

/-- A scan read is answered (R168): the scan of the block stops after an all-ERASED page, after page 63, or with its die. -/
def scanPage (op : Op) (rs : List SlotResult) (s : State) : State :=
  let b := op.block
  let t := takeSlots b op.page 0 rs s
  let f := findingOf t b
  let erased := rs.all (· == .erased)
  let f := if erased then f else { f with lastPage := op.page }
  if erased || op.page + 1 == Config.blockPages || isOffline s b.die then setFinding b { f with scanned := true } t
  else issue (mountRead .scanRead b (op.page + 1)) (setFinding b { f with cursor := op.page + 1 } t)

/-! ### SETTLE (R169, R170) -/

/-- One candidate for a line wins against another (R169). -/
def candBeats (s : State) (c w : Candidate) : Bool :=
  let oc := (findingOf s (blockOf c.loc)).openSeq.getD 0
  let ow := (findingOf s (blockOf w.loc)).openSeq.getD 0
  w.seq < c.seq || (c.seq == w.seq && (ow < oc || (oc == ow && locKey w.loc < locKey c.loc)))

/-- The winners among some candidates, by rising line (R169). -/
def winnersOf (s : State) (cands : List Candidate) : List (Nat × Candidate) :=
  cands.foldl (fun acc c =>
    match keyGet c.line acc with
    | none => keyPut c.line c acc
    | some w => if candBeats s c w then keyPut c.line c acc else acc) []

/-- The newest LOG block of a role: readable open stamp, die not OFFLINE, greatest open sequence (R170). -/
def newestLog (s : State) (role : HeadRole) : Option (Nat × Finding) :=
  s.mount.findings.foldl (fun best p =>
    if p.2.isLog && p.2.role == some role && !isOffline s (blockAt p.1).die then
      match best with
      | none => some p
      | some q => if q.2.openSeq.getD 0 < p.2.openSeq.getD 0 then some p else some q
    else best) none

/-- A location lies in the torn tail of a block (R170). -/
def inTail (tail : Option (Nat × Finding)) (l : Loc) : Bool :=
  match tail with
  | some (k, f) => blockKey (blockOf l) == k && l.page == f.lastPage
  | none => false

/-- A location lies in a torn tail (R170). -/
def torn (s : State) (l : Loc) : Bool := inTail (newestLog s .hostLog) l || inTail (newestLog s .copyLog) l

/-- A location put at its place in die, block and slot order. -/
def locInsert (l : Loc) : List Loc → List Loc
  | [] => [l]
  | m :: t => if locKey l < locKey m then l :: m :: t else m :: locInsert l t

/-- The noted slots that raise MOUNT_BAD_RECORD, in order (R170). -/
def badRecords (s : State) : List Loc :=
  (s.mount.noted.filter fun l => !isOffline s l.die && !torn s l).foldl (fun acc l => locInsert l acc) []

/-- The candidates left by the settlement (R170). -/
def settledCands (s : State) : List Candidate :=
  s.mount.cands.filter fun c => !isOffline s c.loc.die && !(c.lost && torn s c.loc)

/-! ### Hand-over (R12, R81, R171) -/

/-- The map entry a winner gives its line (R12). -/
def winnerEntry (c : Candidate) : MapEntry :=
  if c.lost then { state := .damaged, stamps := c.stamps }
  else
    match c.kind with
    | .line => { state := .present c.loc c.seq, stamps := c.stamps }
    | .trim => { state := .trimmed c.loc c.seq, stamps := c.stamps }

/-- The winners located in a block: its valid count (R12, R171). -/
def winnersIn (ws : List (Nat × Candidate)) (b : BlockId) : Nat :=
  ws.countP fun p => !p.2.lost && blockOf p.2.loc == b

/-- The block record of the hand-over (R81): the first row that applies. The close sequence of a LOG block is the highest sequence of its
readable record headers or, with none, its open sequence (R70, R171), and an open sequence that could not be read counts as 0 (R167). -/
def handoverRec (s : State) (ws : List (Nat × Candidate)) (k : Nat) : BlockRec :=
  let b := blockAt k
  if isIdentityBlock b then identityRec
  else if s.ident.retired.contains b then { closedRec with state := .retired }
  else if isOffline s b.die then closedRec
  else
    let f := findingOf s b
    match f.cls with
    | some .free => { closedRec with state := .free, eraseCount := f.eraseCount }
    | some .blank => { closedRec with state := .erasing, work := .stampOut }
    | some .erase => { closedRec with state := .erasing, eraseCount := f.eraseCount, work := .eraseOut }
    | some .log =>
      { closedRec with valid := winnersIn ws b, eraseCount := f.eraseCount,
                       closeSeq := some (f.highSeq.getD (f.openSeq.getD 0)) }
    | none => closedRec

/-- The operations the hand-over issues: a stamp for each BLANK block, an erase for each ERASE block (R171). -/
def handoverOp (s : State) (p : Nat × BlockRec) : Option Op :=
  let b := blockAt p.1
  match p.2.work with
  | .stampOut => some (eraseStampOp s b (nextErase s b))
  | .eraseOut => some (eraseOp .erase .eraseStamp b)
  | _ => none

/-- The FREE blocks of a table. -/
def freeBlocks (t : List (Nat × BlockRec)) : List BlockId :=
  (t.filter fun p => p.2.state == .free).map fun p => blockAt p.1

/-- A die that the descriptor names is OFFLINE (R164). -/
def anyOffline (s : State) : Bool := (List.range s.diesInUse).any (isOffline s)

/-- The hand-over for ACTIVE and READ-ONLY results (R75, R171). -/
def handOver (s : State) : State :=
  let ws := winnersOf s (settledCands s)
  let table := (List.range (s.diesInUse * Config.dieBlocks)).map fun k => (k, handoverRec s ws k)
  let t : State := { s with
    lineMap := ws.foldl (fun m p => mapPut p.1 (winnerEntry p.2) m) []
    regions := (s.ident.descriptor.map (·.regions)).getD []
    frozen := s.ident.persistent
    blocks := table
    commit := { s.commit with seq := some (s.mount.highest + 1) } }
  let t := { t with freeList := (freeBlocks table).foldl (fun l b => freeInsert t b l) [] }
  let t := setSpace t
  let t := issueTogether (table.filterMap (handoverOp t)) t
  endMode (anyOffline t) (mountUpd (fun m => { m with phase := .done }) t)

/-- SETTLE: the noted slots are judged and the hand-over is made (R170, R171). -/
def settleMount (s : State) : State :=
  handOver ((badRecords s).foldl (fun t l => raise .mountBadRecord (.location l) t)
    (mountUpd (fun m => { m with phase := .settle }) s))

/-- Every LOG block has been scanned (R168). -/
def scanOver (s : State) : Bool := s.mount.findings.all fun p => !p.2.isLog || p.2.scanned

/-- Every block has been classed (R167). -/
def classifyOver (s : State) : Bool := s.mount.findings.all fun p => p.2.cls.isSome

/-- SCAN begins: page 1 of each LOG block is read, these reads issued together (R96, R168). -/
def beginScan (s : State) : State :=
  let fs := s.mount.findings
  issueTogether
    ((fs.filter fun p => p.2.isLog && !isOffline s (blockAt p.1).die).map fun p => mountRead .scanRead (blockAt p.1) 1)
    (mountUpd (fun m => { m with phase := .scan, findings := fs.map fun p => (p.1, startScan s p) }) s)

/-- What the mount does next of its own accord, if anything: the phase after CLASSIFY or SCAN begins (R167, R168). -/
def mountStep (s : State) : Option State :=
  match s.mount.phase with
  | .classify => if classifyOver s then some (beginScan s) else none
  | .scan => if scanOver s then some (settleMount s) else none
  | _ => none

/-- A classification read is answered. -/
def onClassifyRead (op : Op) (rs : List SlotResult) (s : State) : State :=
  if s.mount.phase = .classify then classifyPage op rs (seeSlots rs s) else s

/-- A scan read is answered. -/
def onScanRead (op : Op) (rs : List SlotResult) (s : State) : State :=
  if s.mount.phase = .scan then scanPage op rs (seeSlots rs s) else s

/-! ### IDENTITY (R147, R166) -/

/-- A copy is usable: its descriptor is readable and it has a last readable update page (R147). -/
def CopyFinding.usable (f : CopyFinding) : Option (Descriptor × UpdatePage) :=
  match f.descriptor, f.update with
  | some d, some u => some (d, u)
  | _, _ => none

/-- The selection of R147: the copy with its descriptor and last readable update page. -/
def selectCopy (a b : CopyFinding) : Option (IdCopy × Descriptor × UpdatePage) :=
  match a.usable, b.usable with
  | some (d, u), some (e, v) =>
    if d.serial < e.serial ∨ (d.serial = e.serial ∧ u.counter < v.counter) then some (.b, e, v) else some (.a, d, u)
  | some (d, u), none => some (.a, d, u)
  | none, some (e, v) => some (.b, e, v)
  | none, none => none

/-- What the manager keeps for a copy (R147); the next page is at least 1 (R146). -/
def keptCopy (selected : Bool) (serial : Nat) (f : CopyFinding) : CopyState :=
  { good := true
    next := max 1 ((f.top.map (· + 1)).getD 0)
    rollDue := !selected && (f.descriptor.map (·.serial) != some serial || f.update.isNone) }

/-- The state of a die position once a copy is selected (R166): one the descriptor does not name is not used, one it names that is not
present is OFFLINE, any other is READY unless it has gone OFFLINE since. -/
def selectDie (count i : Nat) (p : Probe) (d : DieRec) : DieRec :=
  if count ≤ i then { DieRec.unused with grades := d.grades }
  else if p ≠ .present then { DieRec.unused with state := .offline, grades := d.grades }
  else if d.state = .notUsed then { d with state := .ready }
  else d

/-- The positions the descriptor names that are not present (R166), by rising die number: the order in which their DIE_OFFLINE faults are
raised, for which the spec gives none (DESIGN CHOICE: log 32). -/
def absentDies (count : Nat) (probes : List Probe) : List Nat :=
  (List.range count).filter fun i => probes.getD i .absent != .present

/-- The blocks that CLASSIFY reads: those of the dies in use that are not OFFLINE, other than the identity and retired blocks
(R167). -/
def classifyBlocks (s : State) : List BlockId :=
  ((List.range (s.diesInUse * Config.dieBlocks)).map blockAt).filter fun b =>
    !isIdentityBlock b && !isOffline s b.die && !s.ident.retired.contains b

/-- CLASSIFY begins: page 0 of every such block is read, these reads issued together (R96, R167). -/
def startClassify (s : State) : State :=
  let bs := classifyBlocks s
  issueTogether (bs.map fun b => mountRead .classifyRead b 0)
    (mountUpd (fun m => { m with phase := .classify, findings := bs.map fun b => (blockKey b, Finding.initial) }) s)

/-- A copy is selected: the identity manager, the dies in use and the OFFLINE dies are set, DIE_OFFLINE is raised for each absent die by
rising die number (DESIGN CHOICE: log 32), and CLASSIFY begins (R147, R166). -/
def takeSelection (c : IdCopy) (d : Descriptor) (u : UpdatePage) (s : State) : State :=
  let t := { s with
    ident :=
      { copyA := keptCopy (c == .a) d.serial s.mount.copyA, copyB := keptCopy (c == .b) d.serial s.mount.copyB,
        descriptor := some d, counter := u.counter, retired := u.retired, persistent := u.frozen, queue := [], update := none,
        remembered := some d.serial }
    diesInUse := d.dieCount
    dies := s.dies.zipIdx.map fun (r, i) => selectDie d.dieCount i (s.mount.probes.getD i .absent) r }
  startClassify ((absentDies d.dieCount s.mount.probes).foldl (fun t i => raise .dieOffline (.die i) t) t)

/-- Both copies have been read (R147, R166). -/
def selectIdentity (s : State) : State :=
  match selectCopy s.mount.copyA s.mount.copyB with
  | some (c, d, u) => takeSelection c d u s
  | none => mountUnformatted s

/-- What one identity page adds to the finding on its copy (R147). -/
def findPage (page : Nat) (r : PageResult) (f : CopyFinding) : CopyFinding :=
  match r with
  | .erased => f
  | .torn => { f with top := some page }
  | .descriptor d => { f with descriptor := some d, top := some page }
  | .update u => { f with update := some u, top := some page }

/-- An identity read is answered (R147): the copy is read on until a page is ERASED or page 63 has been read, then copy B follows
copy A, and after copy B the selection is made. -/
def onIdentityRead (op : Op) (rs : List SlotResult) (content : IdContent) (s : State) : State :=
  if s.mount.phase ≠ .identity then s
  else
    let c := copyOf op.block
    let r := judgePage c op.page rs content
    let t := mountUpd (fun m => match c with
      | .a => { m with copyA := findPage op.page r m.copyA }
      | .b => { m with copyB := findPage op.page r m.copyB }) (seeSlots rs s)
    if r = .erased ∨ op.page + 1 = Config.blockPages then
      match c with
      | .a => readIdentity .b 0 t
      | .b => selectIdentity t
    else readIdentity c (op.page + 1) t

end Sys2Proof.Machine
end

