-- ==== Sys2Proof/Machine/Medium.lean ====
section
/-! DEFINITION. The medium controller (chapter 5): how an answer is graded and handed to its requester, the arbiter of each die, and
timeouts, resets and OFFLINE dies. -/
namespace Sys2Proof.Machine

/-- What an operation's answer hands to its requester: the results of the slots of a read, with the content of an identity page, or a
status (R88, R89, R90). -/
inductive OpAnswer
  | read (results : List SlotResult) (content : IdContent)
  | status (st : Status)
deriving DecidableEq, Repr

/-- No content: what a page that cannot be read spells. -/
def noContent : IdContent := .update [] []

/-- READ SLOTS and IDENTIFY, as against PROGRAM SLOTS and ERASE BLOCK. -/
def OpRole.isRead : OpRole → Bool
  | .readFill _ | .directRead | .copyRead | .scrubRead | .identityRead | .classifyRead | .scanRead | .identify => true
  | .hostOpenStamp | .batchProgram | .copyOpenStamp | .copyProgram | .erase | .eraseStamp | .identityProgram | .identityErase
  | .formatErase | .formatProgram => false

/-- The answer of an operation that timed out or whose die is OFFLINE (R98, R100). -/
def failedAnswer (op : Op) : OpAnswer :=
  if op.role.isRead then .read (List.replicate op.count .lostUnknown) noContent else .status .fail

/-- A program or erase is answered to its requester; after an accepted FORMAT the answer is discarded (R61, R154). -/
def deliverStatus (op : Op) (st : Status) (s : State) : State :=
  if op.stale then s
  else
    match op.role with
    | .hostOpenStamp => onHostOpenStamp st s
    | .batchProgram => onBatchProgram st s
    | .copyOpenStamp => onCopyOpenStamp st s
    | .copyProgram => onCopyProgram st s
    | .erase => onErase op.block st s
    | .eraseStamp => onEraseStamp op.block op.data st s
    | .identityProgram => onIdentityProgram st s
    | .identityErase => onIdentityErase st s
    | .formatErase => onFormatErase op.block st s
    | .formatProgram => onFormatProgram st s
    | _ => s

/-- A read is answered to its requester (R88); requesters of stale reads take what R16 gives. -/
def deliverRead (op : Op) (rs : List SlotResult) (content : IdContent) (s : State) : State :=
  match op.role, rs with
  | .readFill i, r :: _ => onReadFill i op r s
  | .directRead, r :: _ => onDirectRead op r s
  | .copyRead, r :: _ => onCopyRead op r s
  | .scrubRead, r :: _ => onScrubRead op r s
  | .identityRead, _ => onIdentityRead op rs content s
  | .classifyRead, _ => onClassifyRead op rs s
  | .scanRead, _ => onScanRead op rs s
  | _, _ => s

/-- An answer is handed to the requester of its operation. -/
def deliver (op : Op) (a : OpAnswer) (s : State) : State :=
  match a with
  | .read rs content => deliverRead op rs content s
  | .status st => deliverStatus op st s

/-! ### Answers of a die (R92 to R94) -/

/-- The slots of a read are graded and counted (R92). -/
def gradeSlots (d : Nat) (raws : List RawSlot) : State → State :=
  dieUpd d fun r => { r with grades := raws.foldl (fun g w => countGrade (checkSlot w) g) r.grades }

/-- The die has answered the operation it was carrying: it is READY, its timer stops and its timeouts are forgotten (R94). -/
def dieAnswered (d : Nat) : State → State :=
  dieUpd d fun r => { r with state := .ready, inFlight := none, timer := none, timeouts := 0 }

/-- The operation a die is carrying, if its role is the one asked for. -/
def carried (want : OpRole → Bool) (d : Nat) (s : State) : Option Op :=
  (dieAt s d).inFlight.filter fun op => want op.role

/-- A die answers a program or erase. -/
def answerStatus (want : OpRole → Bool) (d : Nat) (st : Status) (s : State) : State :=
  match carried want d s with
  | some op => deliver op (.status st) (dieAnswered d s)
  | none => s

/-- A die answers a read: each slot is graded, counted, compared with its expectation and handed on (R92, R93); the reader count of
its block falls (R71, R88). -/
def answerRead (want : OpRole → Bool) (d : Nat) (raws : List RawSlot) (content : IdContent) (s : State) : State :=
  match carried want d s with
  | some op =>
    if raws.length = op.count then
      deliver op (.read (raws.map fun r => expectSlot op.expect (checkSlot r)) content)
        (countReader op (· - 1) (gradeSlots d raws (dieAnswered d s)))
    else s
  | none => s

/-! ### Timeouts and OFFLINE dies (R98 to R100) -/

/-- An operation is answered as failed (R98, R100). What waits for the entries the answer frees, or for a tracked set it empties, is
served at once (R27, R140), before the READ-ONLY request of R100's last step (log 15). -/
def failOp (op : Op) (s : State) : State :=
  atOnce waiterRounds (deliver op (failedAnswer op) (countReader op (· - 1) s))

/-- The operation at the front of an OFFLINE die's queue is answered as failed (R100). -/
def failFront (d : Nat) (s : State) : State :=
  match (dieAt s d).queue with
  | op :: t => failOp op (dieUpd d (fun r => { r with queue := t }) s)
  | [] => s

/-- `n` operations of an OFFLINE die's queue are answered in queue order. -/
def failQueue (d : Nat) : Nat → State → State
  | 0, s => s
  | n + 1, s => failQueue d n (failFront d s)

/-- A die becomes OFFLINE (R100). -/
def goOffline (d : Nat) (s : State) : State :=
  let t := raise .dieOffline (.die d)
    (dieUpd d (fun r => { r with state := .offline, inFlight := none, timer := none }) s)
  requestReadOnly (failQueue d (dieAt t d).queue.length t)

/-- An operation issued to an OFFLINE die is answered in the event of its issue (R100). DESIGN CHOICE (log 15): where operations stand issued to
several OFFLINE dies, those of the lowest-numbered die are answered first. -/
def offlineStep (s : State) : Option State :=
  ((List.range 4).find? fun d => isOffline s d && !(dieAt s d).queue.isEmpty).map fun d => failFront d s

/-- One more consecutive timeout: the second makes the die OFFLINE, the first has it reset (R98 steps 3 and 4, R99). -/
def countTimeout (d : Nat) (s : State) : State :=
  let n := (dieAt s d).timeouts + 1
  let t := dieUpd d (fun r => { r with timeouts := n }) s
  if 2 ≤ n then goOffline d t
  else dieUpd d (fun r => { r with state := .resetting, inFlight := none, timer := some t.now }) t

/-- The operation a die carries has timed out (R98): it is answered as failed, and DIE_TIMEOUT is raised. -/
def opTimeout (d : Nat) (op : Op) (s : State) : State :=
  let t := dieUpd d (fun r => { r with inFlight := none, timer := none }) s
  if op.role = .identify then probeDecide d .absent (countTimeout d t)
  else countTimeout d (raise .dieTimeout (.die d) (failOp op t))

/-- A RESET DIE has timed out (R99): in the probe the position is not present and no fault is raised (R91, R165). -/
def resetTimeout (d : Nat) (s : State) : State :=
  if probing s then
    let t := dieUpd d (fun r => { DieRec.unused with grades := r.grades }) s
    if t.mount.probes.getD d .absent = .undecided then probeDecide d .absent t else t
  else countTimeout d (raise .dieTimeout (.die d) s)

/-- A die's RESET DIE has ended (R99): in the probe IDENTIFY follows (R91), otherwise the die is READY. -/
def resetEnded (d : Nat) (s : State) : State :=
  if probing s && s.mount.probes.getD d .absent == .undecided then
    let op : Op :=
      { role := .identify, cls := .mountRead, block := ⟨d, 0⟩, page := 0, slot := 0, count := 0, expect := none, data := .none,
        stale := false, ticket := s.ticket }
    dieUpd d (fun r => { r with state := .busy, inFlight := some op, timer := some s.now }) s
  else dieUpd d (fun r => { r with state := .ready, timer := none }) s

/-! ### The arbiter (R95, R96) -/

/-- The rank of a class (R96). -/
def rank (boost : Bool) : OpClass → Nat
  | .identity => 1
  | .hostRead => 2
  | .commitProgram => if boost then 5 else 3
  | .relocationCopy => if boost then 3 else 4
  | .reclaimCopy => if boost then 4 else 5
  | .eraseStamp => 6
  | .scrubRead => 7
  | .mountRead => 8

/-- One waiting operation goes before another: a higher rank, or the same class issued earlier (R96). -/
def goesBefore (boost : Bool) (a b : Op) : Bool :=
  rank boost a.cls < rank boost b.cls || (rank boost a.cls == rank boost b.cls && a.ticket < b.ticket)

/-- The places in a queue of the operations before which no other goes. -/
def firstPlaces (boost : Bool) (q : List Op) : List Nat :=
  (q.zipIdx.filter fun p => q.all fun o => !goesBefore boost o p.1).map (·.2)

/-- An operation at a place of a die's queue starts (R94). -/
def startAt (d i : Nat) (s : State) : State :=
  match (dieAt s d).queue[i]? with
  | some op =>
    dieUpd d (fun r => { r with state := .busy, inFlight := some op, queue := r.queue.eraseIdx i, timer := some s.now }) s
  | none => s

/-- The arbiter of a die chooses and starts its next operation (R96). Among operations of one class issued together either order may
be taken: a free value chooses. -/
def arbitrate (d : Nat) (s : State) : State :=
  let r := dieAt s d
  if r.state = .ready then
    match firstPlaces s.boost r.queue with
    | [] => s
    | [i] => startAt d i s
    | is => startAt d (is.getD (Config.arbiterPick s.freeTaken % is.length) 0) (takeFree 1 s)
  else s

/-- The arbiters of all dies: each chooses for its own die alone (R96). -/
def arbitrateAll (s : State) : State := [0, 1, 2, 3].foldl (fun t d => arbitrate d t) s

/-- A die that left the dies in use has its select line held high once it has nothing left to answer (R153). DESIGN CHOICE (log 28): a die
that is OFFLINE stays OFFLINE until reset (R100), also outside the dies in use. -/
def leaveDies (s : State) : State :=
  if s.mode = .mounting then s
  else
    { s with dies := s.dies.zipIdx.map fun (r, i) =>
        if s.diesInUse ≤ i ∧ r.state = .ready ∧ r.queue = [] then { r with state := .notUsed } else r }

end Sys2Proof.Machine
end

