-- ==== Sys2Proof/Machine/Settle.lean ====
section
/-! DEFINITION. One event (section 4.2): after what the command itself does, every block does in the same event what the new state
asks of it, until nothing is left; then the arbiters choose and the pins are driven. -/
namespace Sys2Proof.Machine

/-- The commit engine and the reclaim engine each act. Where both have something to do in one event, a free value chooses which does its
next step first (DESIGN CHOICE: log 14), so that either may be the first to take from the free list or to draw from the sequence counter
(R49, R74, R77), also where the reclaim engine has its victim still to choose. -/
def engineStep (s : State) : Option State :=
  match commitStep s, reclaimStep s with
  | some _, some _ => if Config.commitFirst s.freeTaken then commitStep (takeFree 1 s) else reclaimStep (takeFree 1 s)
  | some c, none => some c
  | none, some r => some r
  | none, none => none

/-- What some block does next of its own accord in this event, if anything. -/
def settleStep (s : State) : Option State :=
  offlineStep s <|> grantStep s <|> longStep s <|> formatStep s <|> mountStep s <|> drainStep s <|> victimStep s <|>
    retireStep s <|> eraseStep s <|> identityStep s <|> engineStep s

/-- Every block acts until none has anything left to do; the number bounds the rounds. -/
@[irreducible] def settle : Nat → State → State
  | 0, s => s
  | n + 1, s =>
    match settleStep s with
    | some t => settle n t
    | none => s

/-- The bound on the rounds of one event (log 19). -/
abbrev settleRounds : Nat := 16384

/-- The rest of an event: the blocks settle, the arbiters choose, and the pins are driven. -/
def finish (s : State) : State := drive (leaveDies (arbitrateAll (settle settleRounds s)))

/-- A command that is an event of the part. While RST_N is low the part takes none (log 8). -/
def event (f : State → State) (s : State) : Host.Outcome State Fault Refusal :=
  if s.rstLow then .next s else .next (finish (f s))

/-- A request that changes nothing another block acts on: a report, a fetch, a setting that only the next wait or ATTN reads. -/
def quick (f : State → State) (s : State) : Host.Outcome State Fault Refusal :=
  if s.rstLow then .next s else .next (drive (f s))

end Sys2Proof.Machine
end

