-- ==== Sys2Proof/Machine/HostBus.lean ====
section
/-! DEFINITION. The commands of the host bus (chapter 2): HOST_READ, HOST_WRITE, HOST_STROBE_RELEASE and WAIT_LIMIT_EXPIRY. -/
namespace Sys2Proof.Machine

/-- The access record of a strobe just asserted (R18). -/
def takeAccess (write : Option Byte) (addr : BitVec 24) (s : State) : State :=
  setAccess (some { write := write, addr := addr, phase := .answered none }) s

/-- A host read is taken and answered by the mode or normally (R4, R18, R19, R29, R30). The port holds one access: a strobe while it
holds one is not an access (log 7). -/
def takeRead (addr : BitVec 24) (s : State) : State :=
  if s.host.access.isSome then s
  else
    let t := takeAccess none addr s
    match readAnswer s.mode with
    | .instead f => answer (some Config.fill) (raiseOpt f (lineOf addr) t)
    | .normally => serveRead (lineOf addr) (offsetOf addr) t

/-- A host write is taken, answered by the mode, tested by R6 and R135, and merged, given an entry, or left waiting (R19, R34 to
R37). -/
def takeWrite (addr : BitVec 24) (data : Byte) (s : State) : State :=
  if s.host.access.isSome then s
  else
    let t := takeAccess (some data) addr s
    let line := lineOf addr
    match writeAnswer s.mode with
    | .instead f => answer none (raiseOpt f line t)
    | .normally =>
      match writeRefused t line with
      | some k => answer none (raise k (.line line) t)
      | none => stageWrite line (offsetOf addr) data t

/-- The strobe is released: the access ends, and a waiting one is abandoned with no fault (R18, R21). -/
def releaseStrobe (s : State) : State := setAccess none s

/-- The wait timer reaches its limit (R20): the clock stands at the expiry, and a waiting access is answered or dropped with its
fault. -/
def waitExpires (s : State) : State :=
  match s.host.access with
  | some a =>
    match a.phase with
    | .waiting started limit _ =>
      let t := { s with now := max s.now (started + limit) }
      let line := lineOf a.addr
      if a.write.isSome then raise .writeOverrun (.line line) (answer none t)
      else raise .readOverrun (.line line) (answer (some Config.fill) t)
    | .answered _ => s
  | none => s

/-- HOST_READ (R30). -/
def execHostRead (addr : BitVec 24) (s : State) : Host.Outcome State Fault Refusal := event (takeRead addr) s

/-- HOST_WRITE (R34). -/
def execHostWrite (addr : BitVec 24) (data : Byte) (s : State) : Host.Outcome State Fault Refusal :=
  event (takeWrite addr data) s

/-- HOST_STROBE_RELEASE (R21). -/
def execHostStrobeRelease (s : State) : Host.Outcome State Fault Refusal := event releaseStrobe s

/-- WAIT_LIMIT_EXPIRY (R20). -/
def execWaitLimitExpiry (s : State) : Host.Outcome State Fault Refusal := event waitExpires s

end Sys2Proof.Machine
end

