-- ==== Sys2Proof/Machine/Requests.lean ====
section
/-! DEFINITION. What the maintenance requests share (chapter 12): the held reply, acceptance by mode and by long-command slot (R182), and
the byte layouts of the records (R191). -/
namespace Sys2Proof.Machine

/-! ### Replies (R181, R191) -/

/-- The code byte of a reply (R191). -/
def ReplyCode.byte : ReplyCode → Byte
  | .ok => 0x01
  | .accepted => 0x02
  | .busy => 0x03
  | .refusedState => 0x04
  | .badArgument => 0x05
  | .isProtected => 0x06
  | .capacity => 0x07
  | .badFrame => 0x0A

/-- The bytes shifted out on SDO for a held reply, or for none (R181). -/
def replyBytes : Option Reply → List Byte
  | some r => frameBytes r.code.byte r.data
  | none => frameBytes 0x00 []

/-- What SDO carries in a frame of `n` whole bytes: the held reply or the empty one, and high bits once it has been shifted out
(R181). -/
def sdoBytes (n : Nat) (r : Option Reply) : List Byte := (replyBytes r ++ List.replicate n 0xFF).take n

/-- A frame of `n` whole bytes shifts out the reply that is held as it begins (R180, R181). -/
def shiftOut (n : Nat) (s : State) : State := { s with maint := { s.maint with sdo := sdoBytes n s.maint.reply } }

/-- A request frame with so many argument bytes: code, length and check are three more (R180). What it held is shifted out, and then the
request is taken. -/
def frame (args : Nat) (f : State → State) (s : State) : State := f (shiftOut (args + 3) s)

/-- A reply takes the holding; an unfetched one is lost (R181). -/
def reply (code : ReplyCode) (data : List Byte) (s : State) : State :=
  { s with maint := { s.maint with reply := some ⟨code, data⟩ } }

/-! ### Acceptance (R182) -/

/-- The requests, as the table of R182 names them. -/
inductive Request | getStatus | getFaults | getLine | getBlock | setParameter | abort | flush | trim | scrub | freeze | format
deriving DecidableEq, Repr

/-- The requests a mode accepts (R182). -/
def accepts : Mode → Request → Bool
  | .mounting, r => r == .getStatus || r == .getFaults
  | .parked, r => r == .getStatus || r == .getFaults
  | .unformatted, r =>
    r == .getStatus || r == .getFaults || r == .getLine || r == .getBlock || r == .setParameter || r == .format
  | .readOnly, r =>
    r == .getStatus || r == .getFaults || r == .getLine || r == .getBlock || r == .setParameter || r == .format || r == .abort
  | .draining, r => r == .getStatus || r == .getFaults || r == .getLine || r == .getBlock || r == .abort
  | .formatting, r => r == .getStatus || r == .getFaults || r == .getLine || r == .getBlock || r == .abort
  | .active, _ => true

/-- A short request: refused by the mode, or taken. -/
def shortRequest (r : Request) (f : State → State) (s : State) : State :=
  if accepts s.mode r then f s else reply .refusedState [] s

/-- A long request: refused by the mode, by an occupied slot, or by its own tests, in that order (R182); otherwise ACCEPTED, and it
starts in the slot (R183). -/
def longRequest (r : Request) (refuses : State → Option ReplyCode) (start : State → State) (s : State) : State :=
  if accepts s.mode r then
    if s.maint.slot.isSome then reply .busy [] s
    else
      match refuses s with
      | some c => reply c [] s
      | none => start (reply .accepted [] s)
  else reply .refusedState [] s

/-- The long-command slot takes a command (R183). -/
def occupy (c : LongCmd) (s : State) : State := { s with maint := { s.maint with slot := some c } }

/-! ### Records with bytes the spec does not state -/

/-- Bytes that R191 states. -/
def stated (l : List Byte) : List (Option Byte) := l.map some

/-- Bytes for which R191 gives no value. -/
def unstated (n : Nat) : List (Option Byte) := List.replicate n none

/-- The bytes of a record, with free values in turn for those not stated. -/
def fillRecord : Nat → List (Option Byte) → List Byte
  | _, [] => []
  | n, some b :: t => b :: fillRecord n t
  | n, none :: t => Config.freeByte n :: fillRecord (n + 1) t

/-- A reply OK with a record. -/
def replyRecord (record : List (Option Byte)) (s : State) : State :=
  takeFree (record.countP (·.isNone)) (reply .ok (fillRecord s.freeTaken record) s)

/-- A number in `k` bytes, where it fits. -/
def numField (k n : Nat) : List (Option Byte) := if n < 256 ^ k then stated (numBytes k n) else unstated k

/-- One byte. -/
def byteField (n : Nat) : List (Option Byte) := stated [BitVec.ofNat 8 n]

/-- A die/block, or none (R191). -/
def blockField : Option BlockId → List (Option Byte)
  | some b => byteField b.die ++ byteField b.block
  | none => stated [0xFF] ++ unstated 1

/-- A die/block/page/slot, or none (R191). -/
def locField : Option Loc → List (Option Byte)
  | some l => byteField l.die ++ byteField l.block ++ byteField l.page ++ byteField l.slot
  | none => stated [0xFF] ++ unstated 3

/-! ### The status record (R191) -/

/-- The code of a mode. -/
def Mode.code : Mode → Nat
  | .mounting => 0
  | .unformatted => 1
  | .formatting => 2
  | .active => 3
  | .readOnly => 4
  | .draining => 5
  | .parked => 6

/-- The request code of a long command. -/
def LongKind.code : LongKind → Nat
  | .flush => 0x10
  | .trim => 0x11
  | .scrub => 0x12
  | .freeze => 0x13
  | .format => 0x14

/-- The code of a long command's result. -/
def Result.code : Result → Nat
  | .ok => 0x01
  | .aborted => 0x08
  | .medium => 0x09

/-- The flags byte. -/
def statusFlags (s : State) : Nat :=
  (if s.heldReadOnly then 1 else 0) + (if s.reclaimCond then 2 else 0) + (if s.boost then 4 else 0)

/-- The kind of the long command that runs. -/
def runningKind (s : State) : Option LongKind := s.maint.slot.map (·.kind)

/-- The long command whose progress is reported: the one that runs, or else the last one that completed. -/
def progressKind (s : State) : Option LongKind := (runningKind s).orElse fun _ => s.maint.last.map (·.1)

/-- The phase byte: FREEZE's phase or FORMAT's step while one runs. -/
def phaseCode (s : State) : Nat :=
  match runningKind s with
  | some .freeze =>
    (match s.freeze.phase with
     | .idle => 0
     | .flushing => 1
     | .persisting => 2)
  | some .format => (s.format.map (·.step)).getD 0
  | _ => 0

/-- The progress of the long command that runs, or of the last one that completed; the spec gives FORMAT none. -/
def progressField (s : State) : List (Option Byte) :=
  match progressKind s with
  | some .trim => numField 3 s.trim.current
  | some .scrub => numField 3 s.scrub.current
  | some .flush => numField 3 s.flushTracked.length
  | some .freeze => numField 3 s.freeze.tracked.length
  | _ => unstated 3

/-- The last-command result. -/
def lastField (s : State) : List (Option Byte) :=
  match s.maint.last with
  | some (k, r) => byteField k.code ++ byteField r.code
  | none => byteField 0 ++ byteField 0

/-- The code of a mount phase. -/
def MountPhase.code : MountPhase → Nat
  | .probe => 0
  | .identity => 1
  | .classify => 2
  | .scan => 3
  | .settle => 4
  | .done => 5

/-- The code of an engine state. -/
def EngineState.code : EngineState → Nat
  | .idle => 0
  | .opening => 1
  | .spaceWait => 2
  | .reading => 3
  | .programming => 4
  | .stopped => 5

/-- The code of a die state. -/
def DieState.code : DieState → Nat
  | .ready => 0
  | .busy => 1
  | .resetting => 2
  | .offline => 3
  | .notUsed => 4

/-- Where a head writes next. -/
def headLoc (h : LogHead) : Loc := locIn h.block h.page h.next

/-- A die's part of the status record. -/
def dieField (d : DieRec) : List (Option Byte) :=
  byteField d.state.code ++ numField 1 d.queue.length ++ numField 4 d.grades.clean ++ numField 4 d.grades.corrected ++
    numField 4 d.grades.weak ++ numField 4 d.grades.lost

/-- A truth value as a byte. -/
def flagField (b : Bool) : List (Option Byte) := byteField b.toNat

/-- The status record, 115 bytes (R191). -/
def statusRecord (s : State) : List (Option Byte) :=
  byteField s.mode.code ++ byteField (statusFlags s) ++ byteField (pendingSet s).toNat ++
    byteField s.maint.settings.mask.toNat ++ byteField (((runningKind s).map (·.code)).getD 0) ++ byteField (phaseCode s) ++
    progressField s ++ lastField s ++ byteField s.mount.phase.code ++ numField 5 (seqValue s) ++
    numField 1 s.commit.queue.length ++ locField (s.commit.head.map headLoc) ++ numField 2 (freeCount s) ++
    byteField s.diesInUse ++ numField 1 (drainCount s) ++ numField 1 s.maint.faults.length ++ flagField s.maint.overflow ++
    byteField s.reclaim.state.code ++ blockField s.reclaim.victim ++ numField 2 s.reclaim.reloc.length ++
    locField (s.reclaim.head.map headLoc) ++ numField 1 s.reclaim.retirements ++ numField 4 s.commit.refreshes ++
    numField 1 s.ident.retired.length ++ dieField (dieAt s 0) ++ dieField (dieAt s 1) ++ dieField (dieAt s 2) ++
    dieField (dieAt s 3)

/-! ### The line record (R17, R191) -/

/-- The code of a region kind. -/
def regionCode : RegionKind → Nat
  | .plain => 0
  | .once => 1

/-- The code of a map state. -/
def MapState.code : MapState → Nat
  | .unwritten => 0
  | .present _ _ => 1
  | .trimmed _ _ => 2
  | .damaged => 3

/-- The code of an entry's state. -/
def EntryState.code : EntryState → Nat
  | .free => 0
  | .loading => 1
  | .clean => 2
  | .dirty => 3
  | .committing => 4

/-- The code of an entry's kind. -/
def kindCode : RecKind → Nat
  | .line => 0
  | .trim => 1

/-- A line's region, or 0xFF 0xFF. -/
def regionField (s : State) (l : Nat) : List (Option Byte) :=
  match regionOf s l with
  | some (i, r) => byteField i ++ byteField (regionCode r.kind)
  | none => stated [0xFF, 0xFF]

/-- A line's current staging entry, or none. -/
def entryField (s : State) (l : Nat) : List (Option Byte) :=
  match currentEntry s l with
  | some i => byteField i ++ byteField (entryAt s i).state.code ++ byteField (kindCode (entryAt s i).kind)
  | none => stated [0xFF] ++ unstated 2

/-- The line record, 20 bytes (R17, R191). -/
def lineRecord (s : State) (l : Nat) : List (Option Byte) :=
  let e := mapGet s l
  numField 3 l ++ regionField s l ++ flagField (isFrozen s l) ++ byteField e.state.code ++ locField e.state.loc ++
    numField 5 (e.state.seq.getD 0) ++ byteField e.stamps ++ entryField s l

/-! ### The block record (R83, R191) -/

/-- The code of a block state. -/
def BlockState.code : BlockState → Nat
  | .free => 0
  | .hostHead => 1
  | .copyHead => 2
  | .closed => 3
  | .victim => 4
  | .relocating => 5
  | .erasing => 6
  | .retired => 7
  | .identity => 8

/-- A number that may be absent. -/
def optField (k : Nat) : Option Nat → List (Option Byte)
  | some n => numField k n
  | none => unstated k

/-- The place of a block in a list, counted from 0. -/
def placeOf (b : BlockId) (l : List BlockId) : Option Nat := l.findIdx? (· == b)

/-- The flags of a block record. -/
def blockFlags (s : State) (b : BlockId) (r : BlockRec) : Nat :=
  (if r.eraseCount.isSome then 1 else 0) + (if r.closeSeq.isSome then 2 else 0) +
    (if s.freeList.contains b then 4 else 0) + (if s.reclaim.reloc.contains b then 8 else 0)

/-- The block record, 20 bytes (R83, R191). -/
def blockRecord (s : State) (b : BlockId) (r : BlockRec) : List (Option Byte) :=
  blockField (some b) ++ byteField r.state.code ++ numField 2 r.valid ++ byteField (blockFlags s b r) ++
    optField 4 r.eraseCount ++ optField 5 r.closeSeq ++ numField 1 r.readers ++ optField 2 (placeOf b s.freeList) ++
    optField 2 (placeOf b s.reclaim.reloc)

/-! ### Fault records (R189, R191) -/

/-- The code of a fault kind. -/
def FaultKind.code : FaultKind → Nat
  | .uncorrectable => 0x01
  | .programFail => 0x02
  | .eraseFail => 0x03
  | .dieTimeout => 0x04
  | .dieOffline => 0x05
  | .writeOverrun => 0x06
  | .readOverrun => 0x07
  | .modeDrop => 0x08
  | .earlyAccess => 0x09
  | .unbackedWrite => 0x0A
  | .frozenWrite => 0x0B
  | .onceExhausted => 0x0C
  | .mountBadRecord => 0x0D
  | .identityFail => 0x0E
  | .retireLimit => 0x0F

/-- A subject: its type and four bytes. -/
def subjectField : Subject → List (Option Byte)
  | .line n => byteField 0 ++ numField 4 n
  | .location l => byteField 1 ++ locField (some l)
  | .block b => byteField 2 ++ blockField (some b) ++ stated [0, 0]
  | .die d => byteField 3 ++ byteField d ++ stated [0, 0, 0]

/-- A fault record, 12 bytes (R191). -/
def faultField (r : FaultRec) : List (Option Byte) :=
  byteField r.kind.code ++ subjectField r.subject ++ numField 5 r.seq ++ byteField r.count

/-- The data of a GET FAULTS reply that returns the `m` oldest records (R189, R191). -/
def faultsRecord (s : State) (m : Nat) : List (Option Byte) :=
  byteField m ++ flagField s.maint.overflow ++ ((s.maint.faults.take m).map faultField).flatten

/-- The `m` oldest records leave the list, and an emptied list clears the flag (R189). -/
def dropFaults (m : Nat) (s : State) : State :=
  let left := s.maint.faults.drop m
  { s with maint := { s.maint with faults := left, overflow := s.maint.overflow && !left.isEmpty } }

end Sys2Proof.Machine
end

