-- ==== Sys2Proof/Machine/Maintenance.lean ====
section
/-! DEFINITION. The commands of the maintenance port (chapter 12): frames, reports, settings, ABORT, the long requests, and the two
events that move a long command and the commit engine on. -/
namespace Sys2Proof.Machine

/-! ### Frames (R180, R181) -/

/-- A frame that carries a request ends at SSEL_N rising and fails R180: the held reply becomes BAD_FRAME. A SET PARAMETER with an
unknown identifier passes R180; it is tested by the mode and answered BAD_ARGUMENT (R182, R188). -/
def badFrame (bytes : List Byte) (s : State) : State :=
  match judgeFrame true bytes with
  | .bad => reply .badFrame [] (shiftOut bytes.length s)
  | .unknownParameter => shortRequest .setParameter (reply .badArgument []) (shiftOut bytes.length s)
  | .fetch => s
  | .request _ => s

/-- A reply all of whose bytes were among the `clocked` that a frame shifted out is no longer held (R181). -/
def fetched (clocked : Nat) (s : State) : State :=
  match s.maint.reply with
  | some r => if r.data.length + 3 ≤ clocked then { s with maint := { s.maint with reply := none } } else s
  | none => s

/-- A fetch frame of so many whole bytes ends (R181). -/
def fetchFrame (clocked : Nat) (s : State) : State := fetched clocked (shiftOut clocked s)

/-! ### Reports (R187, R189) -/

/-- GET STATUS: the record as it stands, then DONE and MODE are cleared (R187, R190). -/
def getStatus (s : State) : State :=
  let t := replyRecord (statusRecord s) s
  { t with maint := { t.maint with done := false, modeChanged := false } }

/-- GET FAULTS (R187, R189). -/
def getFaults (n : Byte) (s : State) : State :=
  if n.toNat = 0 ∨ Config.faultsMax < n.toNat then reply .badArgument [] s
  else
    let m := min n.toNat s.maint.faults.length
    dropFaults m (replyRecord (faultsRecord s m) s)

/-- GET LINE (R17, R187). -/
def getLine (line : BitVec 24) (s : State) : State :=
  if line.toNat < Config.lines then replyRecord (lineRecord s line.toNat) s else reply .badArgument [] s

/-- GET BLOCK (R83, R187). -/
def getBlock (die block : Byte) (s : State) : State :=
  let b : BlockId := ⟨die.toNat, block.toNat⟩
  if b.die < s.diesInUse then
    match blockGet s b with
    | some r => replyRecord (blockRecord s b r) s
    | none => reply .badArgument [] s
  else reply .badArgument [] s

/-! ### Settings (R188) -/

/-- SET PARAMETER with a value that is or is not in its range. -/
def setParameter (inRange : Bool) (f : Settings → Settings) (s : State) : State :=
  if inRange then reply .ok [] { s with maint := { s.maint with settings := f s.maint.settings } }
  else reply .badArgument [] s

/-- Commit delay, 0 to 250 ms. -/
def setCommitDelay (v : BitVec 16) : State → State :=
  setParameter (v.toNat ≤ 250) fun c => { c with commitDelay := v.toNat }

/-- Batch threshold, 1 to 16. -/
def setThreshold (v : BitVec 16) : State → State :=
  setParameter (1 ≤ v.toNat && v.toNat ≤ 16) fun c => { c with threshold := v.toNat }

/-- Wait limit, 0.1 to 50 ms in units of 0.1 ms. -/
def setWaitLimit (v : BitVec 16) : State → State :=
  setParameter (1 ≤ v.toNat && v.toNat ≤ 500) fun c => { c with waitLimit := v.toNat }

/-- Attention mask, any subset of the four conditions. -/
def setMask (v : BitVec 16) : State → State := setParameter (v.toNat < 16) fun c => { c with mask := v.setWidth 4 }

/-! ### ABORT (R186) -/

/-- ABORT of a SCRUB (R115). -/
def scrubAbort (s : State) : State :=
  match s.scrub.state with
  | .waiting => scrubEnd .aborted (scrubAt (s.scrub.current + 1) s)
  | _ => { s with scrub := { s.scrub with abortPending := true } }

/-- ABORT is handed to the running long command (R186). -/
def abortLong (s : State) : State :=
  match s.maint.slot with
  | some .flush => flushEnd .aborted s
  | some (.trim _ _) => trimEnd .aborted s
  | some (.scrub _ _) => scrubAbort s
  | some (.freeze _) => freezeAbort s
  | some (.format _) => formatAbort s
  | none => s

/-! ### FLUSH, TRIM, SCRUB, FREEZE, FORMAT -/

/-- The numbers of the entries at which a test holds. -/
def entriesWhere (p : Entry → Bool) (s : State) : List Nat := (List.range Config.entries).filter fun i => p (entryAt s i)

/-- FLUSH starts with its tracked set (R184): the entries the drain would wait for. -/
def startFlush (s : State) : State := occupy .flush { s with flushTracked := entriesWhere (·.waitedFor) s }

/-- A range of lines meets a ONCE region (R138). -/
def meetsOnce (base count : Nat) (s : State) : Bool :=
  s.regions.any fun r => r.kind == .once && regionsMeet r ⟨.plain, base, count⟩

/-- The tests of TRIM (R138, R185). -/
def trimRefuses (base count : Nat) (s : State) : Option ReplyCode :=
  if 1 ≤ count ∧ count ≤ 4096 ∧ base < Config.lines ∧ base + count ≤ Config.lines ∧ !meetsOnce base count s then none
  else some .badArgument

/-- TRIM starts its walk at the base (R185). -/
def startTrim (base count : Nat) (s : State) : State :=
  occupy (.trim base count)
    { s with trim := { current := base, stop := base + count, tracked := [], waiting := false } }

/-- The tests of SCRUB (R110). -/
def scrubRefuses (first count : Nat) : Option ReplyCode :=
  if first < Config.lines ∧ 1 ≤ count ∧ count ≤ Config.lines ∧ first + count ≤ Config.lines then none else some .badArgument

/-- SCRUB starts its walk and decides at once (R110, R111). -/
def startScrub (first count : Nat) (s : State) : State :=
  scrubDecideNow (occupy (.scrub first count)
    { s with scrub :=
        { state := .deciding, current := first, last := first + count - 1, readSlot := none, held := none,
          abortPending := false } })

/-- The tests of FREEZE, in order (R139). -/
def freezeRefuses (region : Nat) (wpHigh : Bool) (s : State) : Option ReplyCode :=
  if !wpHigh then some .isProtected
  else
    match s.regions[region]? with
    | none => some .badArgument
    | some r =>
      if r.kind ≠ .once then some .badArgument
      else if s.frozen.contains region then some .refusedState
      else none

/-- The entry's line lies in a region, by index. -/
def entryIn (region : Nat) (s : State) (e : Entry) : Bool :=
  match e.line with
  | some l => (regionOf s l).map (·.1) == some region
  | none => false

/-- FREEZE starts (R139, R140): the index is frozen, and the region's entries are tracked. -/
def startFreeze (region : Nat) (s : State) : State :=
  occupy (.freeze region)
    { s with
      frozen := setAdd region s.frozen
      freeze :=
        { phase := .flushing, region := some region,
          tracked := entriesWhere
            (fun e => entryIn region s e && (e.state == .loading || e.state == .dirty || e.state == .committing)) s,
          aborted := false, medium := false } }

/-- The retired blocks the capacity rule counts (R80). -/
def retiredCounted (s : State) : Nat := if s.mode = .unformatted then 0 else s.ident.retired.length

/-- The tests of FORMAT after mode and slot, in order (R153). -/
def formatRefuses (table : List RawRegion) (wpHigh : Bool) (s : State) : Option ReplyCode :=
  if !wpHigh then some .isProtected
  else
    match readTable table with
    | none => some .badArgument
    | some t =>
      if !validTable t then some .badArgument
      else if capacityLimit s.mount.diesPresent (retiredCounted s) < totalLines t then some .capacity
      else if s.ident.remembered = some Config.serialMax then some .refusedState
      else none

/-- FORMAT starts (R153, R154). -/
def startFormat (table : List RawRegion) (s : State) : State := formatAccept ((readTable table).getD []) s

/-! ### Events of the TRIM walk and of the commit delay -/

/-- The TRIM walk handles its current line (R39, R185). -/
def trimWalk (s : State) : State :=
  if running .trim s && !s.trim.waiting && s.trim.current < s.trim.stop then trimAct s else s

/-- The age of the queue's front entry reaches the commit delay (R59): the clock stands at that time. -/
def commitDelayExpires (s : State) : State :=
  match s.commit.queue with
  | i :: _ =>
    match (entryAt s i).dirtySince with
    | some t => { s with now := max s.now (t + s.maint.settings.commitDelay * Config.usPerMs) }
    | none => s
  | [] => s

/-! ### The commands -/

/-- BAD_FRAME (R180). -/
def execBadFrame (bytes : List Byte) (s : State) : Host.Outcome State Fault Refusal := quick (badFrame bytes) s

/-- FETCH_FRAME (R181). -/
def execFetchFrame (clocked : Nat) (s : State) : Host.Outcome State Fault Refusal := quick (fetchFrame clocked) s

/-- GET_STATUS (R187). -/
def execGetStatus (s : State) : Host.Outcome State Fault Refusal := quick (frame 0 (shortRequest .getStatus getStatus)) s

/-- GET_FAULTS (R189). -/
def execGetFaults (n : Byte) (s : State) : Host.Outcome State Fault Refusal :=
  quick (frame 1 (shortRequest .getFaults (getFaults n))) s

/-- GET_LINE (R17). -/
def execGetLine (line : BitVec 24) (s : State) : Host.Outcome State Fault Refusal :=
  quick (frame 3 (shortRequest .getLine (getLine line))) s

/-- GET_BLOCK (R83). -/
def execGetBlock (die block : Byte) (s : State) : Host.Outcome State Fault Refusal :=
  quick (frame 2 (shortRequest .getBlock (getBlock die block))) s

/-- SET_COMMIT_DELAY (R188): the batch triggers are reconsidered. -/
def execSetCommitDelay (value : BitVec 16) (s : State) : Host.Outcome State Fault Refusal :=
  event (frame 3 (shortRequest .setParameter (setCommitDelay value))) s

/-- SET_BATCH_THRESHOLD (R188): the batch triggers are reconsidered. -/
def execSetBatchThreshold (value : BitVec 16) (s : State) : Host.Outcome State Fault Refusal :=
  event (frame 3 (shortRequest .setParameter (setThreshold value))) s

/-- SET_WAIT_LIMIT (R188). -/
def execSetWaitLimit (value : BitVec 16) (s : State) : Host.Outcome State Fault Refusal :=
  quick (frame 3 (shortRequest .setParameter (setWaitLimit value))) s

/-- SET_ATTENTION_MASK (R188): ATTN is re-evaluated. -/
def execSetAttentionMask (value : BitVec 16) (s : State) : Host.Outcome State Fault Refusal :=
  quick (frame 3 (shortRequest .setParameter (setMask value))) s

/-- ABORT (R186). -/
def execAbort (s : State) : Host.Outcome State Fault Refusal :=
  event (frame 0 (shortRequest .abort fun t => abortLong (reply .ok [] t))) s

/-- FLUSH (R184). -/
def execFlush (s : State) : Host.Outcome State Fault Refusal :=
  event (frame 0 (longRequest .flush (fun _ => none) startFlush)) s

/-- TRIM (R185). -/
def execTrim (base : BitVec 24) (count : BitVec 16) (s : State) : Host.Outcome State Fault Refusal :=
  event (frame 5 (longRequest .trim (trimRefuses base.toNat count.toNat) (startTrim base.toNat count.toNat))) s

/-- SCRUB (R110). -/
def execScrub (first count : BitVec 24) (s : State) : Host.Outcome State Fault Refusal :=
  event (frame 6 (longRequest .scrub (fun _ => scrubRefuses first.toNat count.toNat) (startScrub first.toNat count.toNat))) s

/-- FREEZE (R139). -/
def execFreeze (region : Byte) (wpHigh : Bool) (s : State) : Host.Outcome State Fault Refusal :=
  event (frame 1 (longRequest .freeze (freezeRefuses region.toNat wpHigh) (startFreeze region.toNat))) s

/-- FORMAT (R153). -/
def execFormat (table : List RawRegion) (wpHigh : Bool) (s : State) : Host.Outcome State Fault Refusal :=
  event (frame (1 + 7 * table.length) (longRequest .format (formatRefuses table wpHigh) (startFormat table))) s

/-- TRIM_WALK_LINE (R39). -/
def execTrimWalkLine (s : State) : Host.Outcome State Fault Refusal := event trimWalk s

/-- COMMIT_DELAY_EXPIRY (R59). -/
def execCommitDelayExpiry (s : State) : Host.Outcome State Fault Refusal := event commitDelayExpires s

end Sys2Proof.Machine
end

