-- ==== Sys2Proof/Machine/MediumAnswers.lean ====
section
/-! DEFINITION. The commands of the medium port (chapter 5): the answers of the dies, and a die that is ready, identified or timed out. An
answer to an operation that no die is carrying has no effect (log 6). -/
namespace Sys2Proof.Machine

/-- The operation is a read-fill. -/
def OpRole.isReadFill : OpRole → Bool
  | .readFill _ => true
  | _ => false

/-- The role is a given one. -/
def isRole (r : OpRole) : OpRole → Bool := fun q => q == r

/-- A die shows ready after RESET DIE (R99). -/
def dieReady (d : Nat) (s : State) : State := if (dieAt s d).state = .resetting then resetEnded d s else s

/-- A die answers IDENTIFY with its geometry (R91). -/
def identified (d blocks pages slots : Nat) (s : State) : State :=
  match carried (isRole .identify) d s with
  | some _ =>
    let present := blocks = Config.dieBlocks ∧ pages = Config.blockPages ∧ slots = Config.pageSlots
    probeDecide d (if present then .present else .absent) (dieAnswered d s)
  | none => s

/-- A die timer reaches 50 ms (R98, R99): the clock stands at the expiry. -/
def dieTimesOut (d : Nat) (s : State) : State :=
  let r := dieAt s d
  match r.timer with
  | none => s
  | some t =>
    let s := { s with now := max s.now (t + Config.dieTimeoutUs) }
    match r.inFlight with
    | some op => opTimeout d op s
    | none => if r.state = .resetting then resetTimeout d s else s

/-- READ_FILL_ANSWER (R31). -/
def execReadFillAnswer (die : Nat) (slot : RawSlot) (s : State) : Host.Outcome State Fault Refusal :=
  event (answerRead OpRole.isReadFill die [slot] noContent) s

/-- DIRECT_READ_ANSWER (R30). -/
def execDirectReadAnswer (die : Nat) (slot : RawSlot) (s : State) : Host.Outcome State Fault Refusal :=
  event (answerRead (isRole .directRead) die [slot] noContent) s

/-- COPY_READ_ANSWER (R123). -/
def execCopyReadAnswer (die : Nat) (slot : RawSlot) (s : State) : Host.Outcome State Fault Refusal :=
  event (answerRead (isRole .copyRead) die [slot] noContent) s

/-- SCRUB_READ_ANSWER (R112). -/
def execScrubReadAnswer (die : Nat) (slot : RawSlot) (s : State) : Host.Outcome State Fault Refusal :=
  event (answerRead (isRole .scrubRead) die [slot] noContent) s

/-- HOST_OPEN_STAMP_ANSWER (R54). -/
def execHostOpenStampAnswer (die : Nat) (st : Status) (s : State) : Host.Outcome State Fault Refusal :=
  event (answerStatus (isRole .hostOpenStamp) die st) s

/-- BATCH_PROGRAM_ANSWER (R62). -/
def execBatchProgramAnswer (die : Nat) (st : Status) (s : State) : Host.Outcome State Fault Refusal :=
  event (answerStatus (isRole .batchProgram) die st) s

/-- COPY_OPEN_STAMP_ANSWER (R120). -/
def execCopyOpenStampAnswer (die : Nat) (st : Status) (s : State) : Host.Outcome State Fault Refusal :=
  event (answerStatus (isRole .copyOpenStamp) die st) s

/-- COPY_PROGRAM_ANSWER (R125). -/
def execCopyProgramAnswer (die : Nat) (st : Status) (s : State) : Host.Outcome State Fault Refusal :=
  event (answerStatus (isRole .copyProgram) die st) s

/-- ERASE_ANSWER (R78). -/
def execEraseAnswer (die : Nat) (st : Status) (s : State) : Host.Outcome State Fault Refusal :=
  event (answerStatus (isRole .erase) die st) s

/-- ERASE_STAMP_ANSWER (R78). -/
def execEraseStampAnswer (die : Nat) (st : Status) (s : State) : Host.Outcome State Fault Refusal :=
  event (answerStatus (isRole .eraseStamp) die st) s

/-- IDENTITY_PAGE_PROGRAM_ANSWER (R149). The identity blocks lie on die 0. -/
def execIdentityPageProgramAnswer (st : Status) (s : State) : Host.Outcome State Fault Refusal :=
  event (answerStatus (isRole .identityProgram) 0 st) s

/-- IDENTITY_ERASE_ANSWER (R150). -/
def execIdentityEraseAnswer (st : Status) (s : State) : Host.Outcome State Fault Refusal :=
  event (answerStatus (isRole .identityErase) 0 st) s

/-- FORMAT_IDENTITY_ERASE_ANSWER (R154). -/
def execFormatIdentityEraseAnswer (st : Status) (s : State) : Host.Outcome State Fault Refusal :=
  event (answerStatus (isRole .formatErase) 0 st) s

/-- FORMAT_IDENTITY_PROGRAM_ANSWER (R156). -/
def execFormatIdentityProgramAnswer (st : Status) (s : State) : Host.Outcome State Fault Refusal :=
  event (answerStatus (isRole .formatProgram) 0 st) s

/-- IDENTITY_READ_ANSWER (R147). -/
def execIdentityReadAnswer (slots : List RawSlot) (content : IdContent) (s : State) : Host.Outcome State Fault Refusal :=
  event (answerRead (isRole .identityRead) 0 slots content) s

/-- CLASSIFY_READ_ANSWER (R167). -/
def execClassifyReadAnswer (die : Nat) (slots : List RawSlot) (s : State) : Host.Outcome State Fault Refusal :=
  event (answerRead (isRole .classifyRead) die slots noContent) s

/-- SCAN_READ_ANSWER (R168). -/
def execScanReadAnswer (die : Nat) (slots : List RawSlot) (s : State) : Host.Outcome State Fault Refusal :=
  event (answerRead (isRole .scanRead) die slots noContent) s

/-- DIE_RESET_READY (R99). -/
def execDieResetReady (die : Nat) (s : State) : Host.Outcome State Fault Refusal := event (dieReady die) s

/-- IDENTIFY_ANSWER (R91). -/
def execIdentifyAnswer (die blocks pages slots : Nat) (s : State) : Host.Outcome State Fault Refusal :=
  event (identified die blocks pages slots) s

/-- DIE_TIMEOUT (R98). -/
def execDieTimeout (die : Nat) (s : State) : Host.Outcome State Fault Refusal := event (dieTimesOut die) s

end Sys2Proof.Machine
end

