-- ==== Sys2Proof/Machine/Power.lean ====
section
/-! DEFINITION. The commands of RST_N and PFW: RESET_ASSERT, RESET_RELEASE, PFW_LOW and PFW_HIGH (chapters 10 and 11), and what the part
does while no command waits. -/
namespace Sys2Proof.Machine

/-- RST_N goes low: everything the part holds is lost but the recorded PFW level (R101, R158). -/
def assertReset (s : State) : State := State.inReset s.pfwHigh s.now s.freeTaken s.ticket s.pending

/-- PFW changes level: while RST_N is low the level is recorded alone (R158, R172); otherwise the mode controller acts on it. -/
def pfwChanges (high : Bool) (s : State) : State :=
  if s.rstLow then { s with pfwHigh := high } else finish (if high then pfwRises s else pfwFalls s)

/-- RESET_ASSERT (R101). -/
def execResetAssert (s : State) : Host.Outcome State Fault Refusal := .next (assertReset s)

/-- RESET_RELEASE (R164): MOUNTING begins; a level that is already high is no edge. -/
def execResetRelease (s : State) : Host.Outcome State Fault Refusal := .next (if s.rstLow then drive s.released else s)

/-- PFW_LOW (R161). -/
def execPfwLow (s : State) : Host.Outcome State Fault Refusal := .next (pfwChanges false s)

/-- PFW_HIGH (R162). -/
def execPfwHigh (s : State) : Host.Outcome State Fault Refusal := .next (pfwChanges true s)

/-- With no command waiting, one microsecond of the internal timebase passes (log 4). -/
def tick (s : State) : State := { s with now := s.now + 1 }

end Sys2Proof.Machine
end

