-- ==== Sys2Proof/Machine/Dispatch.lean ====
section
/-! DEFINITION. One arm per command. -/
namespace Sys2Proof.Machine

def exec (i : Instr) (s : State) : Host.Outcome State Fault Refusal :=
  match i with
  | .hostRead addr => Sys2Proof.Machine.execHostRead addr s
  | .hostWrite addr data => Sys2Proof.Machine.execHostWrite addr data s
  | .hostStrobeRelease => Sys2Proof.Machine.execHostStrobeRelease s
  | .waitLimitExpiry => Sys2Proof.Machine.execWaitLimitExpiry s
  | .resetAssert => Sys2Proof.Machine.execResetAssert s
  | .resetRelease => Sys2Proof.Machine.execResetRelease s
  | .pfwLow => Sys2Proof.Machine.execPfwLow s
  | .pfwHigh => Sys2Proof.Machine.execPfwHigh s
  | .badFrame bytes => Sys2Proof.Machine.execBadFrame bytes s
  | .fetchFrame clocked => Sys2Proof.Machine.execFetchFrame clocked s
  | .getStatus => Sys2Proof.Machine.execGetStatus s
  | .getFaults n => Sys2Proof.Machine.execGetFaults n s
  | .getLine line => Sys2Proof.Machine.execGetLine line s
  | .getBlock die block => Sys2Proof.Machine.execGetBlock die block s
  | .setCommitDelay value => Sys2Proof.Machine.execSetCommitDelay value s
  | .setBatchThreshold value => Sys2Proof.Machine.execSetBatchThreshold value s
  | .setWaitLimit value => Sys2Proof.Machine.execSetWaitLimit value s
  | .setAttentionMask value => Sys2Proof.Machine.execSetAttentionMask value s
  | .abort => Sys2Proof.Machine.execAbort s
  | .flush => Sys2Proof.Machine.execFlush s
  | .trim base count => Sys2Proof.Machine.execTrim base count s
  | .scrub first count => Sys2Proof.Machine.execScrub first count s
  | .freeze region wpHigh => Sys2Proof.Machine.execFreeze region wpHigh s
  | .format regions wpHigh => Sys2Proof.Machine.execFormat regions wpHigh s
  | .trimWalkLine => Sys2Proof.Machine.execTrimWalkLine s
  | .commitDelayExpiry => Sys2Proof.Machine.execCommitDelayExpiry s
  | .readFillAnswer die slot => Sys2Proof.Machine.execReadFillAnswer die slot s
  | .directReadAnswer die slot => Sys2Proof.Machine.execDirectReadAnswer die slot s
  | .copyReadAnswer die slot => Sys2Proof.Machine.execCopyReadAnswer die slot s
  | .scrubReadAnswer die slot => Sys2Proof.Machine.execScrubReadAnswer die slot s
  | .hostOpenStampAnswer die status => Sys2Proof.Machine.execHostOpenStampAnswer die status s
  | .batchProgramAnswer die status => Sys2Proof.Machine.execBatchProgramAnswer die status s
  | .copyOpenStampAnswer die status => Sys2Proof.Machine.execCopyOpenStampAnswer die status s
  | .copyProgramAnswer die status => Sys2Proof.Machine.execCopyProgramAnswer die status s
  | .eraseAnswer die status => Sys2Proof.Machine.execEraseAnswer die status s
  | .eraseStampAnswer die status => Sys2Proof.Machine.execEraseStampAnswer die status s
  | .identityPageProgramAnswer status => Sys2Proof.Machine.execIdentityPageProgramAnswer status s
  | .identityEraseAnswer status => Sys2Proof.Machine.execIdentityEraseAnswer status s
  | .formatIdentityEraseAnswer status => Sys2Proof.Machine.execFormatIdentityEraseAnswer status s
  | .formatIdentityProgramAnswer status => Sys2Proof.Machine.execFormatIdentityProgramAnswer status s
  | .identityReadAnswer slots content => Sys2Proof.Machine.execIdentityReadAnswer slots content s
  | .classifyReadAnswer die slots => Sys2Proof.Machine.execClassifyReadAnswer die slots s
  | .scanReadAnswer die slots => Sys2Proof.Machine.execScanReadAnswer die slots s
  | .dieResetReady die => Sys2Proof.Machine.execDieResetReady die s
  | .identifyAnswer die blocks pages slots => Sys2Proof.Machine.execIdentifyAnswer die blocks pages slots s
  | .dieTimeout die => Sys2Proof.Machine.execDieTimeout die s

end Sys2Proof.Machine
end

