-- ==== Sys2Proof/Safety.lean ====
section
/-! DEFINITION. What the statements mean by a state at rest, and the invariants that every step keeps. -/
namespace Sys2Proof.Machine

/-- The die's arbiter has nothing to start: the die is not READY or nothing waits (R96). -/
def DieRec.rests (d : DieRec) : Bool := d.state != .ready || d.queue.isEmpty

/-- No die that left the dies in use is about to be set not in use. -/
def noneLeaves (s : State) : Bool :=
  s.mode == .mounting || (s.dies.drop s.diesInUse).all fun d => d.state != .ready || !d.queue.isEmpty

/-- No block has anything left to do in this event; the arbiters may still choose. -/
def settled (s : State) : Bool := (settleStep s).isNone && noneLeaves s

/-- Nothing is left to do in this event: no block acts and no arbiter chooses. -/
def atRest (s : State) : Bool := settled s && s.dies.all (·.rests)

/-- The command makes `t` of `s` by its own effect. The event then goes on from `t` until no block has anything left to do: where none
has, the arbiters alone choose, and where they have nothing to choose either, the next state is `t` with its pins driven. -/
def Effect (c : Instr) (s t : State) : Prop :=
  exec c s = .next (finish t) ∧ (settled t = true → exec c s = .next (drive (arbitrateAll t))) ∧
    (atRest t = true → exec c s = .next (drive t))

/-- The line map keeps its canonical form. -/
def MapInv (s : State) : Prop := mapWf s.lineMap = true

/-- The fault list holds at most 16 records, each with a repeat count from 1 to 255 (R189). -/
def FaultInv (s : State) : Prop :=
  s.maint.faults.length ≤ Config.faultsMax ∧ ∀ r ∈ s.maint.faults, 1 ≤ r.count ∧ r.count ≤ Config.repeatMax

/-- Every setting is in its range (R188). -/
def SettingsInv (s : State) : Prop :=
  s.maint.settings.commitDelay ≤ 250 ∧ 1 ≤ s.maint.settings.threshold ∧ s.maint.settings.threshold ≤ 16 ∧
    1 ≤ s.maint.settings.waitLimit ∧ s.maint.settings.waitLimit ≤ 500

/-- There are 32 staging entries and four die positions (R22, R84). -/
def SizeInv (s : State) : Prop := s.staging.length = Config.entries ∧ s.dies.length = 4

/-- The mode agrees with what runs (R101, R158, R160, R164, R173): with RST_N low nothing of a mount has run; RST_N low and an unfinished
mount are MOUNTING, a running format is FORMATTING, the drain logic runs in DRAINING alone, and READ-ONLY is held in FORMATTING and PARKED alone. -/
def ModeInv (s : State) : Prop :=
  (s.rstLow = true → s.mode = .mounting ∧ s.mount = Mount.initial) ∧ (s.mount.phase ≠ .done → s.mode = .mounting) ∧
    (s.format.isSome = true → s.mode = .formatting) ∧ (s.drainRunning = true ↔ s.mode = .draining) ∧
    (s.heldReadOnly = true → s.mode = .parked ∨ s.mode = .formatting)

/-- From the hand-over on, the space boost and the reclaim condition follow the free count (R75, R76). -/
def SpaceInv (s : State) : Prop :=
  s.mount.phase = .done →
    (s.boost = true ↔ freeCount s ≤ Config.hostReserve) ∧ (freeCount s ≤ Config.lowWater → s.reclaimCond = true) ∧
      (Config.highWater ≤ freeCount s → s.reclaimCond = false)

/-- 1 where a staging entry of the buffer is in a state, 0 where it is not. -/
def isIn (staging : List Entry) (i : Nat) (x : EntryState) : Nat := if (staging.getD i Entry.cleared).state = x then 1 else 0

/-- How many of some operations pass a test of their role, of whether their answers are discarded (R114, R154), and of their block. -/
def opsCount (q : OpRole → Bool → BlockId → Bool) (ops : List Op) : Nat := ops.countP fun op => q op.role op.stale op.block

/-- How many of the operations issued to the dies and not answered pass a test. -/
def opsOut (q : OpRole → Bool → BlockId → Bool) (dies : List DieRec) : Nat := (dies.map fun d => opsCount q d.ops).sum

/-- A read-fill of an entry whose answer is taken (R30, R33). -/
def isFill (i : Nat) (r : OpRole) (stale : Bool) (_ : BlockId) : Bool := !stale && r == .readFill i

/-- The entries of the batch in flight, in batch order (R61). -/
def batchEntries (b : Option Batch) : List Nat := (b.map fun b => b.recs.map (·.entry)).getD []

/-- The staging buffer agrees with what holds its entries: the commit queue holds exactly the DIRTY entries (R50), the LRU order exactly
the CLEAN entries (R25), and the batch in flight exactly the COMMITTING entries (R61), each once; and only a LOADING entry has a read-fill
outstanding or withheld, and at most one (R30, R33, R178). -/
def EntryInv (s : State) : Prop :=
  ∀ i,
    s.commit.queue.count i = isIn s.staging i .dirty ∧ s.lru.count i = isIn s.staging i .clean ∧
      (batchEntries s.commit.batch).count i = isIn s.staging i .committing ∧
      opsOut (isFill i) s.dies + s.withheld.count i ≤ isIn s.staging i .loading

/-- 1 where the block table holds a record under a key that passes a test, 0 where not. -/
def recIs (blocks : List (Nat × BlockRec)) (k : Nat) (p : BlockRec → Bool) : Nat := if (keyGet k blocks).any p then 1 else 0

/-- The map entries whose location lies in the block of a key (R69). -/
def located (map : List (Nat × MapEntry)) (k : Nat) : Nat :=
  map.countP fun p => decide (p.2.state.loc.map (fun l => blockKey (blockOf l)) = some k)

/-- An erase or erase stamp of the block of a key whose answer is taken (R78, R154). -/
def isErase (role : OpRole) (k : Nat) (r : OpRole) (stale : Bool) (b : BlockId) : Bool :=
  !stale && r == role && blockKey b == k

/-- A host head's open stamp whose answer is taken (R54). -/
def isOpen (r : OpRole) (stale : Bool) (_ : BlockId) : Bool := !stale && r == .hostOpenStamp

/-- The keys of the blocks for whose retirement a request waits or is served (R129, R148). -/
def retireKeys (queue : List IdRequest) (update : Option Update) : List Nat :=
  (retireBlocks (queue ++ (update.map (·.served)).getD [])).map blockKey

/-- 1 where a head stands on the block of a key, 0 where not. -/
def headOn (h : Option LogHead) (k : Nat) : Nat := if h.map (fun h => blockKey h.block) = some k then 1 else 0

/-- The record is one of a block that holds no valid record (R66, R73, R78, R79): FREE, ERASING, RETIRED, an identity block, or handed for
retirement. -/
def BlockRec.isEmpty (r : BlockRec) : Bool :=
  r.state == .free || r.state == .erasing || r.state == .retired || r.state == .identity || r.work == .retireHanded

/-- The block's work belongs to its state (R78, R79, R128, R129, R155). -/
def BlockRec.workFits (r : BlockRec) : Bool :=
  match r.work with
  | .none => true
  | .eraseHeld | .eraseWaiting | .eraseOut | .stampOut => r.state == .erasing
  | .retireWaiting | .retireHanded | .stuck => r.state == .erasing || r.state == .relocating

/-- A read of the mount scan at a block (R167, R168). -/
def isReadAt (role : OpRole) (b : BlockId) (r : OpRole) (_ : Bool) (c : BlockId) : Bool := r == role && c == b

/-- A block of the array in the findings of the mount, of which a test holds (R164). -/
def foundIs (findings : List (Nat × Finding)) (b : BlockId) (p : Finding → Bool) : Bool :=
  decide (b.block < Config.dieBlocks) && (keyGet (blockKey b) findings).any p

/-- The stamps of a line's map entry (R134). -/
def stampsOf (map : List (Nat × MapEntry)) (l : Nat) : Nat := ((keyGet l map).getD MapEntry.empty).stamps

/-- The line lies in a ONCE region of a region table (R132). -/
def onceIn (regions : List Region) (l : Nat) : Bool :=
  match regionFrom l 0 regions with
  | some (_, r) => r.kind == .once
  | none => false

/-- A staging entry that the pending term of R135 counts for a line. -/
def Entry.pends (l : Nat) (e : Entry) : Bool :=
  e.line == some l && e.touched && (e.state == .loading || e.state == .dirty || e.state == .committing)

/-- The pending term of R135. -/
def pendingIn (staging : List Entry) (l : Nat) : Nat := staging.countP (·.pends l)

/-- A host write waits for an entry (R26). -/
def waitsEntry (a : Option Access) : Bool :=
  match a with
  | some a => (match a.phase with
    | .waiting _ _ .entry => true
    | _ => false)
  | none => false

/-- The block table agrees with what names its blocks: the valid count of a block is the number of map entries located in it (R69), the free
list holds exactly the FREE blocks, each once (R73), a head stands on a block in its state (R66), the victim, the blocks of the relocation
list and those that await or are handed for retirement are in the states of R122, R128 and R129, and an erase or stamp is outstanding only on a
block that waits for its answer, and at most one (R78, R155). Before the hand-over, and while a format runs, no engine holds a block (R13, R81,
R131). After a format has ended UNFORMATTED the answers of its erases may still come (R157). -/
structure BlockInv (s : State) : Prop where
  rise : keysRise s.blocks = true
  fresh : s.mount.phase ≠ .done → s.blocks = []
  valid : ∀ k, located s.lineMap k = ((keyGet k s.blocks).map (·.valid)).getD 0
  free : ∀ k, (s.freeList.map blockKey).count k = recIs s.blocks k (·.state == .free)
  ident : ∀ k r, keyGet k s.blocks = some r → isIdentityBlock (blockAt k) = true → r.state = .identity
  empty : ∀ k r, keyGet k s.blocks = some r → r.isEmpty = true → r.valid = 0
  works : ∀ k r, keyGet k s.blocks = some r → r.workFits = true
  head : ∀ k, headOn s.commit.head k ≤ recIs s.blocks k (·.state == .hostHead)
  copy : ∀ k, headOn s.reclaim.head k ≤ recIs s.blocks k (·.state == .copyHead)
  victim : ∀ b, s.reclaim.victim = some b → recIs s.blocks (blockKey b) (·.state == .victim) = 1
  reloc : ∀ k, (s.reclaim.reloc.map blockKey).count k ≤ recIs s.blocks k fun r => r.state == .relocating && r.work == .none
  wait : ∀ k, (s.reclaim.retireWait.map blockKey).count k ≤ recIs s.blocks k (·.work == .retireWaiting)
  handed : ∀ k, (retireKeys s.ident.queue s.ident.update).count k ≤ recIs s.blocks k (·.work == .retireHanded)
  erases : s.mode ≠ .unformatted → ∀ k, opsOut (isErase .erase k) s.dies ≤ recIs s.blocks k (·.work == .eraseOut)
  stamps : s.mode ≠ .unformatted → ∀ k, opsOut (isErase .eraseStamp k) s.dies ≤ recIs s.blocks k (·.work == .stampOut)
  opens : opsOut isOpen s.dies ≤ if s.commit.head.map (·.stamp) = some .inFlight then 1 else 0
  batch : ∀ b, s.commit.batch = some b → ∃ h, s.commit.head = some h ∧ h.block = b.block ∧ h.stamp = .passed
  quiet : s.mount.phase ≠ .done ∨ s.format.isSome = true →
    s.commit.head = none ∧ s.commit.batch = none ∧ s.reclaim.head = none ∧ s.reclaim.victim = none ∧ s.reclaim.reloc = [] ∧
      s.reclaim.retireWait = [] ∧ retireKeys s.ident.queue s.ident.update = []
  still : s.mount.phase ≠ .done → ∀ k, opsOut (isErase .erase k) s.dies = 0 ∧ opsOut (isErase .eraseStamp k) s.dies = 0

/-- The mount scan agrees with its reads (R164, R167, R168): nothing is found before CLASSIFY, every block found is one that CLASSIFY reads, a
classification read is outstanding only on a block that has no class yet, and at most one, and scan reads and candidates are of LOG
blocks. -/
structure MountInv (s : State) : Prop where
  early : s.mount.phase = .probe ∨ s.mount.phase = .identity → s.mount.findings = [] ∧ s.mount.cands = []
  rise : keysRise s.mount.findings = true
  range : s.mount.phase ≠ .done → ∀ k f, keyGet k s.mount.findings = some f →
    k < s.diesInUse * Config.dieBlocks ∧ isIdentityBlock (blockAt k) = false ∧ s.ident.retired.contains (blockAt k) = false
  classify : ∀ b, opsOut (isReadAt .classifyRead b) s.dies ≤ if foundIs s.mount.findings b (·.cls.isNone) then 1 else 0
  scan : ∀ b, 0 < opsOut (isReadAt .scanRead b) s.dies → foundIs s.mount.findings b (·.isLog) = true
  cands : ∀ c ∈ s.mount.cands, foundIs s.mount.findings (blockOf c.loc) (·.isLog) = true

/-- What R22, R25, R32 and R135 give a staging entry as to the host: a CLEAN entry is not host-touched, a LOADING one with written bytes is,
a host-touched one has a line, and before the mount is over none is. -/
structure EntryOk (phase : MountPhase) (e : Entry) : Prop where
  clean : e.state = .clean → e.touched = false
  loading : e.state = .loading → e.written ≠ 0 → e.touched = true
  line : e.touched = true → e.line.isSome = true
  mount : phase ≠ .done → e.touched = false

/-- 1 where an entry is host-touched. -/
def touch (e : Entry) : Nat := if e.touched then 1 else 0

/-- What R60 and R137 give a record of the batch in flight: its stamps are within the limit, and those of a ONCE line exceed the map's by one
at most, where its entry is host-touched. -/
structure RecOk (st : List Entry) (map : List (Nat × MapEntry)) (regions : List Region) (r : BatchRec) : Prop where
  le : r.stamps ≤ Config.stampsMax
  line : (st.getD r.entry Entry.cleared).touched = true → (st.getD r.entry Entry.cleared).line = some r.line
  sum : onceIn regions r.line = true → r.stamps ≤ stampsOf map r.line + touch (st.getD r.entry Entry.cleared)

/-- No line has more than 8 stamps (R134), and those of a ONCE line leave room for all that is pending for it (R135). It holds where what the
medium answers is well-formed: a record read by the mount has at most 8 stamps (R46). -/
structure StampInv (s : State) : Prop where
  le : ∀ l, stampsOf s.lineMap l ≤ Config.stampsMax
  sum : ∀ l, onceIn s.regions l = true → stampsOf s.lineMap l + pendingIn s.staging l ≤ Config.stampsMax
  recs : ∀ b, s.commit.batch = some b → ∀ r ∈ b.recs, RecOk s.staging s.lineMap s.regions r
  entries : ∀ i, EntryOk s.mount.phase (entryAt s i)
  waits : waitsEntry s.host.access = true → s.mount.phase = .done
  cands : ∀ c ∈ s.mount.cands, c.stamps ≤ Config.stampsMax

/-- The invariants of this file that every step keeps together. -/
structure Inv (s : State) : Prop where
  map : MapInv s
  faults : FaultInv s
  settings : SettingsInv s
  size : SizeInv s
  mode : ModeInv s
  space : SpaceInv s
  entry : EntryInv s
  block : BlockInv s
  mount : MountInv s

/-- The commands that set a setting (R188) and those that RST_N and PFW bring. -/
def setsOrPins : Instr → Bool
  | .setCommitDelay _ | .setBatchThreshold _ | .setWaitLimit _ | .setAttentionMask _ | .resetAssert | .resetRelease
  | .pfwLow | .pfwHigh => true
  | _ => false

/-- The pins are those the state determines (R18, R19, R84, R190). -/
def PinsInv (s : State) : Prop := s.pins = pinsOf s

/-! ### Forms the statements share -/

/-- The host port holds an access that has been answered: a read with its byte, a write with none (R18). -/
def answeredAccess (write : Option Byte) (addr : BitVec 24) (byte : Option Byte) (s : State) : State :=
  { s with host := { s.host with access := some ⟨write, addr, .answered byte⟩ } }

/-- The host port holds an access that waits under HWAIT from now on, with the wait limit in force (R18, R20). -/
def waitingAccess (write : Option Byte) (addr : BitVec 24) (why : WaitFor) (s : State) : State :=
  setAccess (some ⟨write, addr, .waiting s.now (s.maint.settings.waitLimit * Config.usPerTenth) why⟩) s

/-- The access that waits is answered with a byte (R29, R30). -/
def answeredWait (byte : Byte) (s : State) : State :=
  { s with host := { s.host with access := s.host.access.map fun a => { a with phase := .answered (some byte) } } }

/-- A read waiting on an entry's fetch is answered with a byte (R29); any other access stays as it is. -/
def answeredFetch (i : Nat) (byte : Byte) (s : State) : State :=
  if waitsFor s = some (.fetch i) then answeredWait byte s else s

/-- An entry becomes DIRTY now, at the tail of the queue, with the fields given (R50). -/
def dirtied (i : Nat) (e : Entry) (s : State) : State :=
  { s with
    commit := { s.commit with queue := s.commit.queue ++ [i] }
    staging := s.staging.set i
      { e with
        state := .dirty
        dirtySince := some s.now
        written := 0
        trimPending := false
        newer := none } }

/-- An entry becomes CLEAN with the data given, at the back of the LRU order, and is tracked no longer (R25, R140, R184, R185). -/
def cleaned (i : Nat) (line : Option Nat) (data : LineData) (s : State) : State :=
  untrack i
    { s with
      lru := s.lru ++ [i]
      staging := s.staging.set i
        { state := .clean, line := line, kind := .line, data := data, written := 0, trimPending := false, touched := false,
          refresh := false, dirtySince := none, newer := none } }

/-- An entry becomes FREE and is tracked no longer (R22, R140, R184, R185). -/
def freed (i : Nat) (s : State) : State := untrack i { s with staging := s.staging.set i Entry.cleared }

/-- The slot read holds a good record of the line and sequence expected (R92, R93). -/
def readGood (raw : RawSlot) (line seq : Nat) (g : Grade) (kind : RecKind) (stamps : Nat) (payload : LineData) : Prop :=
  checkSlot raw = .good g (.record kind line seq stamps payload)

/-- The slot read does not hold a good record of the line and sequence expected: it is LOST (R92, R93). -/
def readLost (raw : RawSlot) (line seq : Nat) : Prop :=
  ∀ g kind stamps payload, ¬ readGood raw line seq g kind stamps payload

/-- A request frame with so many argument bytes has shifted out the reply that was held, or the empty one (R180, R181). -/
abbrev framed (args : Nat) (s : State) : State := shiftOut (args + 3) s

/-- The `k` bytes of a number, most significant byte first (R191). -/
def spelled (k n : Nat) : List Byte := (List.range k).map fun i => BitVec.ofNat 8 (n / 256 ^ (k - 1 - i))

/-- The data of a reply has these bytes at an offset (R191). -/
def hasField (data : List Byte) (offset : Nat) (bytes : List Byte) : Prop := (data.drop offset).take bytes.length = bytes

/-- A reply is held (R181). -/
def heldReply (code : ReplyCode) (data : List Byte) (s : State) : State :=
  { s with maint := { s.maint with reply := some ⟨code, data⟩ } }

/-- The modes in which R19 answers a host read normally. -/
def readsNormally (m : Mode) : Prop := m = .active ∨ m = .readOnly ∨ m = .draining

/-- The answer of an operation is recorded: the die is READY with its timeouts forgotten, the slots read are graded and counted, and the
reader count of the block of a line map read falls (R71, R92, R94). -/
def answeredOp (d : Nat) (op : Op) (raws : List RawSlot) (s : State) : State :=
  countReader op (· - 1) (gradeSlots d raws (dieAnswered d s))

/-- The number of argument bytes R191 gives for a request code; for FORMAT it follows from the first argument byte. -/
def argumentLength (first : Nat) : Nat → Option Nat
  | 0x01 => some 0
  | 0x02 => some 1
  | 0x03 => some 3
  | 0x04 => some 2
  | 0x05 => some 3
  | 0x06 => some 0
  | 0x10 => some 0
  | 0x11 => some 5
  | 0x12 => some 6
  | 0x13 => some 1
  | 0x14 => some (1 + 7 * first)
  | _ => none

/-- The eleven requests of R182. -/
def allRequests : List Request :=
  [.getStatus, .getFaults, .getLine, .getBlock, .setParameter, .abort, .flush, .trim, .scrub, .freeze, .format]

/-- The long-command slot is empty and a result has been left, with DONE pending (R183). -/
def completed (kind : LongKind) (result : Result) (s : State) : State :=
  { s with maint := { s.maint with slot := none, last := some (kind, result), done := true } }

/-- A long request has been accepted: ACCEPTED is held, and the command stands in the slot (R182, R183). -/
def acceptedLong (c : LongCmd) (s : State) : State :=
  { s with maint := { s.maint with reply := some ⟨.accepted, []⟩, slot := some c } }

/-- A die carries an operation issued for a role, and its requester still takes the answer (R94, R154). -/
def carries (d : Nat) (op : Op) (role : OpRole) (s : State) : Prop :=
  s.rstLow = false ∧ (dieAt s d).inFlight = some op ∧ op.role = role ∧ op.stale = false

/-- A line map read: one slot, with a line and a sequence expected (R88). -/
def expects (op : Op) (line seq : Nat) : Prop := op.count = 1 ∧ op.expect = some (line, seq)

/-- A line that SCRUB reads (R111): backed, PRESENT, with a CLEAN current entry or none. -/
def scrubReads (s : State) (line : Nat) (loc : Loc) (seq : Nat) : Prop :=
  isBacked s line = true ∧ (mapGet s line).state = .present loc seq ∧
    ∀ i, currentEntry s line = some i → (entryAt s i).state = .clean

end Sys2Proof.Machine
end

