-- ==== Sys2Proof/WellFormed.lean ====
section
/-! DEFINITION. Which commands are well-formed: operand values that the ports and the array can present. Each check is a Bool. -/
namespace Sys2Proof

/-- A die position (section 4.5). -/
def wfDie (d : Nat) : Bool := d < 4

/-- A block of the array (section 4.5). -/
def wfBlock (b : BlockId) : Bool := wfDie b.die && b.block < Config.dieBlocks

/-- A sequence value of a record or an open stamp: 1 to 2^40 - 1 (R45, R46). -/
def wfSeq (n : Nat) : Bool := 1 ≤ n && n ≤ Config.seqMax

/-- The field ranges of a slot's content: R46 for a record, R44 and R45 for the stamps, R144 for an identity slot. -/
def wfContent : SlotContent → Bool
  | .record kind line seq stamps payload =>
      line < Config.lines && wfSeq seq && stamps ≤ Config.stampsMax &&
        (match kind with
         | .line => payload.length == Config.lineBytes
         | .trim => payload.isEmpty && stamps == 0)
  | .eraseStamp serial count => 1 ≤ serial && serial ≤ Config.serialMax && count ≤ Config.countMax
  | .openStamp _ seq block => wfSeq seq && wfBlock block
  | .identity _ _ page index number =>
      page < Config.blockPages && index < Config.pageSlots && 1 ≤ number && number ≤ Config.serialMax

/-- A slot read by READ SLOTS. -/
def wfSlot (r : RawSlot) : Bool := wfContent r.content

/-- The run of a mount or identity read: the 16 slots of a page (R145, R167, R168). -/
def wfPage (l : List RawSlot) : Bool := l.length == Config.pageSlots && l.all wfSlot

/-- The content of an identity page (R144). -/
def wfIdContent : IdContent → Bool
  | .descriptor _ regions => regions.length ≤ 8
  | .update frozen retired =>
      frozen.length ≤ 8 && frozen.all (· < 8) && decide frozen.Nodup &&
        retired.length ≤ Config.retiredMax && retired.all wfBlock && decide retired.Nodup

/-- A command whose operands the ports and the array can present. -/
def Instr.wf : Instr → Bool
  | .format regions _ => regions.length ≤ 36
  | .readFillAnswer d r | .directReadAnswer d r | .copyReadAnswer d r | .scrubReadAnswer d r => wfDie d && wfSlot r
  | .hostOpenStampAnswer d _ | .batchProgramAnswer d _ | .copyOpenStampAnswer d _ | .copyProgramAnswer d _
  | .eraseAnswer d _ | .eraseStampAnswer d _ | .dieResetReady d | .dieTimeout d | .identifyAnswer d _ _ _ => wfDie d
  | .identityReadAnswer l c => wfPage l && wfIdContent c
  | .classifyReadAnswer d l | .scanReadAnswer d l => wfDie d && wfPage l
  | .hostRead _ | .hostWrite _ _ | .hostStrobeRelease | .waitLimitExpiry | .resetAssert | .resetRelease | .pfwLow | .pfwHigh
  | .badFrame _ | .fetchFrame _ | .getStatus | .getFaults _ | .getLine _ | .getBlock _ _ | .setCommitDelay _
  | .setBatchThreshold _ | .setWaitLimit _ | .setAttentionMask _ | .abort | .flush | .trim _ _ | .scrub _ _ | .freeze _ _
  | .trimWalkLine | .commitDelayExpiry | .identityPageProgramAnswer _ | .identityEraseAnswer _
  | .formatIdentityEraseAnswer _ | .formatIdentityProgramAnswer _ => true

end Sys2Proof
end

