-- ==== Sys2Proof/Certificates/Slice0/Obligations.lean ====
section
/-! DEFINITION. The statements for the provers, `def Obligations.<Name> : Prop`, in the order of OBLIGATIONS.json. `Effect c s t` (Sys2Proof/Safety.lean)
says that the command answers a next state, and which: the event's settlement of `t`, or `t` itself with its pins where nothing is left. -/

section
open Sys2Proof Sys2Proof.Machine

/-! ### Steps and reset -/

/-- A step takes the command at the front of the queue and runs it, one event with its consequences in the order of section 4.1 of the
spec's scope, with the rest of the queue; with an empty queue the timebase alone moves on. The queue and the tick are the model's own (log 40,
log 5 for what a word puts at its front, log 4 for the tick). -/
def Obligations.StepRunsFrontCommand : Prop :=
  (∀ (s : State) (c : Instr) (rest : List Instr), s.pending = c :: rest → step s = exec c { s with pending := rest }) ∧
    ∀ s : State, s.pending = [] → step s = .next { s with now := s.now + 1 }

/-- RESET_ASSERT gives every field its reset value (R11, R42, R81, R101, R116, R146, R158, R164, R183, R188, R189), but for the recorded
PFW level, the timebase, the model's two counters and the queue of commands. Values the spec leaves open are the model's (log 1). -/
def Obligations.ResetAssertGivesResetValues : Prop :=
  ∀ s : State, exec .resetAssert s = .next
    { rstLow := true, now := s.now, freeTaken := s.freeTaken, ticket := s.ticket, pending := s.pending,
      mode := .mounting, heldReadOnly := false, pfwHigh := s.pfwHigh, drainRunning := false,
      host := ⟨none, false⟩,
      staging := List.replicate 32
        { state := .free, line := none, kind := .line, data := [], written := 0, trimPending := false, touched := false,
          refresh := false, dirtySince := none, newer := none },
      lru := [], withheld := [],
      commit := { queue := [], returned := [], seq := none, head := none, batch := none, refreshes := 0 },
      lineMap := [], regions := [], frozen := [], blocks := [], freeList := [], reclaimCond := false, boost := false,
      dies := List.replicate 4
        { state := .notUsed, inFlight := none, queue := [], timer := none, timeouts := 0, grades := ⟨0, 0, 0, 0⟩ },
      diesInUse := 0,
      reclaim :=
        { state := .idle, victim := none, victimRead := 2, victimKept := 2, victimWalked := false, reloc := [], relocRead := 2,
          relocKept := 2, source := none, head := none, buffer := [], readsOut := 0, retirements := 0, programOut := false,
          discard := false, retryDue := false, retireWait := [] },
      scrub := { state := .idle, current := 0, last := 0, readSlot := none, held := none, abortPending := false },
      trim := { current := 0, stop := 0, tracked := [], waiting := false }, flushTracked := [],
      freeze := { phase := .idle, region := none, tracked := [], aborted := false, medium := false },
      ident :=
        { copyA := ⟨true, 1, false⟩, copyB := ⟨true, 1, false⟩, descriptor := none, counter := 0, retired := [],
          persistent := [], queue := [], update := none, remembered := none },
      format := none,
      mount :=
        { phase := .probe, probes := [.undecided, .undecided, .undecided, .undecided], diesPresent := 0,
          copyA := ⟨none, none, none⟩, copyB := ⟨none, none, none⟩, findings := [], cands := [], noted := [], highest := 0,
          largestErase := 0 },
      maint :=
        { reply := none, sdo := [], slot := none, last := none,
          settings := { commitDelay := 2, threshold := 4, waitLimit := 50, mask := 0b0111 }, faults := [], overflow := false,
          done := false, modeChanged := false },
      pins := {
        hwait := false, hrdy := false, attn := false, hd := none, selHeldHigh := [true, true, true, true], sdo := [],
        sdoHigh := true } }

/-- RESET_RELEASE starts the mount: phase PROBE, and RESET DIE running on all four positions (R101, R164, R165); with RST_N high already
it changes nothing (the model's choice: log 9). -/
def Obligations.ResetReleaseStartsMount : Prop :=
  ∀ s : State,
    (s.rstLow = true → exec .resetRelease s = .next (drive
      { s with
        rstLow := false
        mount :=
          { phase := .probe, probes := [.undecided, .undecided, .undecided, .undecided], diesPresent := 0,
            copyA := ⟨none, none, none⟩, copyB := ⟨none, none, none⟩, findings := [], cands := [], noted := [], highest := 0,
            largestErase := 0 }
        dies := List.replicate 4
          { state := .resetting, inFlight := none, queue := [], timer := some s.now, timeouts := 0, grades := ⟨0, 0, 0, 0⟩ } })) ∧
      (s.rstLow = false → exec .resetRelease s = .next s)

/-- Right after reset the mode is MOUNTING, every line is UNWRITTEN and unbacked, LOW_SPACE alone is pending, and ATTN, HRDY and HWAIT
are low (R11, R19, R158, R190); the invariants hold, and no line has more stamps than R134 allows. That no select line is held high in the
probe is the model's choice (log 38), and so is the level of SDO in a reset with no frame (log 35). -/
def Obligations.ResetStateHoldsInvariants : Prop :=
  State.reset.mode = .mounting ∧ (∀ l, mapGet State.reset l = ⟨.unwritten, 0⟩ ∧ isBacked State.reset l = false) ∧
    pendingSet State.reset = 0b1000 ∧
    State.reset.pins =
      { hwait := false, hrdy := false, attn := false, hd := none, selHeldHigh := [false, false, false, false], sdo := [],
        sdoHigh := false } ∧
    State.reset.pending = [] ∧ Inv State.reset ∧ StampInv State.reset ∧ PinsInv State.reset

/-- While RST_N is low no command acts (R18, R180; a die's answer then reaches nothing, R101), but that PFW's level is recorded (R158,
R172). That other commands leave the state as it is then is the model's reading: log 8. -/
def Obligations.ResetLowTakesNoCommand : Prop :=
  ∀ (s : State) (c : Instr), s.rstLow = true →
    (c ≠ .resetAssert → c ≠ .resetRelease → c ≠ .pfwLow → c ≠ .pfwHigh → exec c s = .next s) ∧
      exec .pfwLow s = .next { s with pfwHigh := false } ∧ exec .pfwHigh s = .next { s with pfwHigh := true }

/-! ### Host accesses -/

/-- A host access that R19's table answers: MOUNTING, UNFORMATTED, FORMATTING and PARKED for reads, every mode but ACTIVE for writes.
Nothing but the access record and the fault list changes. -/
def Obligations.AccessAnsweredByMode : Prop :=
  ∀ (s : State) (addr : BitVec 24) (data : Byte), s.rstLow = false → s.host.access = none →
    (s.mode = .mounting →
      Effect (.hostRead addr) s
        (raise .earlyAccess (.line (addr.toNat / 64)) (answeredAccess none addr (some 0xFF) s)) ∧
      Effect (.hostWrite addr data) s
        (raise .earlyAccess (.line (addr.toNat / 64)) (answeredAccess (some data) addr none s))) ∧
    (s.mode = .unformatted ∨ s.mode = .formatting ∨ s.mode = .parked →
      Effect (.hostRead addr) s (answeredAccess none addr (some 0xFF) s)) ∧
    (s.mode = .unformatted ∨ s.mode = .formatting ∨ s.mode = .readOnly ∨ s.mode = .draining →
      Effect (.hostWrite addr data) s
        (raise .modeDrop (.line (addr.toNat / 64)) (answeredAccess (some data) addr none s))) ∧
    (s.mode = .parked → Effect (.hostWrite addr data) s (answeredAccess (some data) addr none s))

/-- A host read of a line with a current entry (R29), by the entry's state: the byte at the offset at once, the fill value from a TRIM, or
a wait for the fetch of a LOADING entry whose byte is not valid. A CLEAN entry moves to the back of the LRU order. -/
def Obligations.ReadServedFromEntry : Prop :=
  ∀ (s : State) (addr : BitVec 24) (i : Nat), s.rstLow = false → s.host.access = none → readsNormally s.mode →
    let line := addr.toNat / 64
    let off := addr.toNat % 64
    let e := entryAt s i
    let once := isOnce s line
    isBacked s line = true → currentEntry s line = some i →
    (e.state = .clean → e.kind = .line →
      Effect (.hostRead addr) s
        { answeredAccess none addr (some (e.data.getD off 0xFF)) s with lru := s.lru.filter (· != i) ++ [i] }) ∧
    (e.state = .dirty ∨ e.state = .committing → e.kind = .line →
      Effect (.hostRead addr) s (answeredAccess none addr (some (e.data.getD off 0xFF)) s)) ∧
    (e.state = .dirty ∨ e.state = .committing → e.kind = .trim →
      Effect (.hostRead addr) s (answeredAccess none addr (some 0xFF) s)) ∧
    (e.state = .loading →
      (e.trimPending = true ∨ (once = false ∧ e.written.getLsbD off = true) →
        Effect (.hostRead addr) s (answeredAccess none addr (some (e.data.getD off 0xFF)) s)) ∧
      (e.trimPending = false → once = true ∨ e.written.getLsbD off = false →
        Effect (.hostRead addr) s (waitingAccess none addr (.fetch i) s)))

/-- A host read of a line with no current entry (R4, R9, R30). An unbacked line and one that is not PRESENT give the fill value at once. A
PRESENT line is read into the entry that R25 gives, which becomes LOADING, or by a direct read where no entry can be had; a second
direct read is not issued while one is out. -/
def Obligations.ReadServedThroughMap : Prop :=
  ∀ (s : State) (addr : BitVec 24), s.rstLow = false → s.host.access = none → readsNormally s.mode →
    let line := addr.toNat / 64
    (isBacked s line = false → Effect (.hostRead addr) s (answeredAccess none addr (some 0xFF) s)) ∧
    (isBacked s line = true → currentEntry s line = none →
      ((mapGet s line).state.loc = none ∨ (∃ loc seq, (mapGet s line).state = .trimmed loc seq) →
        Effect (.hostRead addr) s (answeredAccess none addr (some 0xFF) s)) ∧
      (∀ loc seq, (mapGet s line).state = .present loc seq →
        (∀ i u, allocate s = some (i, u) →
          Effect (.hostRead addr) s
            (waitingAccess none addr (.fetch i)
              (issue (mapRead (.readFill i) .hostRead line loc seq)
                { u with
                  freeTaken := u.freeTaken + 64
                  staging := u.staging.set i
                    { state := .loading, line := some line, kind := .line, data := freeBytes 64 u, written := 0,
                      trimPending := false, touched := false, refresh := false, dirtySince := none, newer := none } }))) ∧
        (allocate s = none → s.host.directOut = false →
          Effect (.hostRead addr) s
            (waitingAccess none addr .direct
              (issue (mapRead .directRead .hostRead line loc seq) { s with host := { s.host with directOut := true } }))) ∧
        (allocate s = none → s.host.directOut = true →
          Effect (.hostRead addr) s (waitingAccess none addr .earlierDirect s))))

/-- The three questions of R6 in ACTIVE, in their order: an unbacked line, a frozen line, and a ONCE line whose stamps, pending and new
terms together exceed 8 (R135) drop the write with their fault and touch no entry; any other write reaches the staging buffer. The pending term
counts the line's LOADING, DIRTY and COMMITTING entries that are host-touched; the new term is 0 where the current entry is LOADING or DIRTY
and host-touched, and 1 in every other case. -/
def Obligations.WriteMeetsThreeQuestions : Prop :=
  ∀ (s : State) (addr : BitVec 24) (data : Byte), s.rstLow = false → s.host.access = none → s.mode = .active →
    let line := addr.toNat / 64
    let dropped := answeredAccess (some data) addr none s
    let spent := isOnce s line = true ∧ 8 < (mapGet s line).stamps + pendingStamps s line + newStamps s line
    (isBacked s line = false → Effect (.hostWrite addr data) s (raise .unbackedWrite (.line line) dropped)) ∧
    (isBacked s line = true → isFrozen s line = true →
      Effect (.hostWrite addr data) s (raise .frozenWrite (.line line) dropped)) ∧
    (isBacked s line = true → isFrozen s line = false → spent →
      Effect (.hostWrite addr data) s (raise .onceExhausted (.line line) dropped)) ∧
    (isBacked s line = true → isFrozen s line = false → ¬ spent →
      Effect (.hostWrite addr data) s (stageWrite line (addr.toNat % 64) data dropped)) ∧
    pendingStamps s line = s.staging.countP (fun e =>
      e.line = some line ∧ e.touched = true ∧ (e.state = .loading ∨ e.state = .dirty ∨ e.state = .committing)) ∧
    newStamps s line = match currentEntry s line with
      | some i =>
        if (entryAt s i).touched = true ∧ ((entryAt s i).state = .loading ∨ (entryAt s i).state = .dirty) then 0 else 1
      | none => 1

/-- What a host write does to a line that has a LOADING, CLEAN or DIRTY entry (R35, R36): it is merged at once, replaced for a PLAIN line
and ANDed for a ONCE line. A CLEAN entry leaves the LRU order and becomes DIRTY at the tail of the queue; a DIRTY TRIM entry becomes a
LINE entry of 0xFF with the byte. -/
def Obligations.WriteMergedIntoEntry : Prop :=
  ∀ (s : State) (addr : BitVec 24) (data : Byte) (i : Nat), s.rstLow = false → s.host.access = none → s.mode = .active →
    let line := addr.toNat / 64
    let off := addr.toNat % 64
    let e := entryAt s i
    let once := isOnce s line
    let old := e.data.getD off 0xFF
    let merged := e.data.set off (if once then old &&& data else data)
    let done := answeredAccess (some data) addr none s
    writeRefused s line = none → currentEntry s line = some i →
    (e.state = .loading →
      let held := if e.written.getLsbD off then old else 0xFF
      Effect (.hostWrite addr data) s
        { done with
          staging := s.staging.set i
            { e with
              data := e.data.set off (if once then held &&& data else data)
              written := e.written ||| (1#64 <<< off)
              touched := true } }) ∧
    (e.state = .clean →
      Effect (.hostWrite addr data) s
        { done with
          lru := s.lru.filter (· != i)
          commit := { s.commit with queue := s.commit.queue ++ [i] }
          staging := s.staging.set i
            { e with
              state := .dirty
              data := merged
              touched := true
              dirtySince := some s.now
              written := 0
              trimPending := false
              newer := none } }) ∧
    (e.state = .dirty → e.kind = .line →
      Effect (.hostWrite addr data) s
        { done with staging := s.staging.set i { e with data := merged, touched := true } }) ∧
    (e.state = .dirty → e.kind = .trim →
      Effect (.hostWrite addr data) s
        { done with
          staging := s.staging.set i
            { e with kind := .line, data := (List.replicate 64 0xFF).set off data, touched := true, refresh := false } })

/-- What a host write does to a line with no entry once R25 gives one (R10, R34): DIRTY at once from 64 bytes of 0xFF where the line has no
stored bytes, LOADING with a read-fill of the named slot where it is PRESENT. -/
def Obligations.WriteStartsEntry : Prop :=
  ∀ (s u : State) (addr : BitVec 24) (data : Byte) (i : Nat), s.rstLow = false → s.host.access = none → s.mode = .active →
    let line := addr.toNat / 64
    let off := addr.toNat % 64
    let done := answeredAccess (some data) addr none u
    writeRefused s line = none → currentEntry s line = none → allocate s = some (i, u) →
    ((∀ loc seq, (mapGet s line).state ≠ .present loc seq) →
      Effect (.hostWrite addr data) s
        { done with
          commit := { u.commit with queue := u.commit.queue ++ [i] }
          staging := u.staging.set i
            { state := .dirty, line := some line, kind := .line, data := (List.replicate 64 0xFF).set off data, written := 0,
              trimPending := false, touched := true, refresh := false, dirtySince := some s.now, newer := none } }) ∧
    (∀ loc seq, (mapGet s line).state = .present loc seq →
      Effect (.hostWrite addr data) s
        (answeredAccess (some data) addr none
          (issue (mapRead (.readFill i) .hostRead line loc seq)
            { u with
              freeTaken := u.freeTaken + 64
              staging := u.staging.set i
                { state := .loading, line := some line, kind := .line, data := (freeBytes 64 u).set off data,
                  written := 1#64 <<< off, trimPending := false, touched := true, refresh := false, dirtySince := none,
                  newer := none } })))

/-- What a host write does to a line whose current entry is COMMITTING (R37), and where no entry can be had (R26): a linked DIRTY entry made
from the COMMITTING version, or a wait under HWAIT that changes no entry. The LRU order holds CLEAN entries alone (R25), so its front is
not the COMMITTING entry. -/
def Obligations.WriteLinkedOrWaits : Prop :=
  ∀ (s : State) (addr : BitVec 24) (data : Byte), s.rstLow = false → s.host.access = none → s.mode = .active →
    let line := addr.toNat / 64
    let off := addr.toNat % 64
    let once := isOnce s line
    writeRefused s line = none →
    (∀ i j u, currentEntry s line = some j → (entryAt s j).state = .committing → s.lru.head? ≠ some j →
      allocate s = some (i, u) →
      let c := entryAt u j
      let base := if c.kind = .line then c.data else List.replicate 64 0xFF
      Effect (.hostWrite addr data) s
        { answeredAccess (some data) addr none u with
          commit := { u.commit with queue := u.commit.queue ++ [i] }
          staging := (u.staging.set j { c with newer := some i }).set i
            { state := .dirty, line := some line, kind := .line,
              data := base.set off (if once then base.getD off 0xFF &&& data else data), written := 0, trimPending := false,
              touched := true, refresh := false, dirtySince := some s.now, newer := none } }) ∧
    (allocate s = none → (currentEntry s line = none ∨ ∃ j, currentEntry s line = some j ∧ (entryAt s j).state = .committing) →
      Effect (.hostWrite addr data) s (waitingAccess (some data) addr .entry s))

/-- An allocation (R25) gives the lowest FREE entry, or else the LRU front, whose entry is cleared and which leaves the order; it gives
nothing only where no entry is FREE and the order is empty. An entry that can be had is given at once to the waiter of the highest rank
(R27): the waiting write, which is tested again (R136) and then does what a write that finds an entry does, its entry joining the tracked
set of a FREEZE of its region (R140); then the TRIM walk (R39), the walk itself being stated with its command; then the scrub walker, which
looks at its line again (R113): that the map must still hold both the location and the sequence of the read slot that R110 keeps is the
model's reading (log 18). With no waiter nothing is given. -/
def Obligations.AllocationOrder : Prop :=
  ∀ s : State,
    (∀ i u, allocate s = some (i, u) →
      (i < 32 ∧ (entryAt s i).state = .free ∧ (∀ j, j < i → (entryAt s j).state ≠ .free) ∧ u = s) ∨
      ((∀ j, j < 32 → (entryAt s j).state ≠ .free) ∧ s.lru.head? = some i ∧
        u = { s with lru := s.lru.tail, staging := s.staging.set i Entry.cleared })) ∧
    (allocate s = none ↔ (∀ j, j < 32 → (entryAt s j).state ≠ .free) ∧ s.lru = []) ∧
    (∀ a b started limit, s.host.access = some a → a.write = some b → a.phase = .waiting started limit .entry →
      allocate s ≠ none →
      let line := a.addr.toNat / 64
      let u := stageWrite line (a.addr.toNat % 64) b s
      let spent := isOnce s line = true ∧ 8 < (mapGet s line).stamps + pendingStamps s line + newStamps s line
      let freezing := fun r => s.freeze.phase = .flushing ∧ s.freeze.region = some r
      (spent → grantStep s = some (raise .onceExhausted (.line line) (answeredAccess (some b) a.addr none s))) ∧
      (¬ spent →
        (∀ i r q, currentEntry u line = some i → regionOf s line = some (r, q) → freezing r →
          ∃ l, (∀ k, k ∈ l ↔ k = i ∨ k ∈ u.freeze.tracked) ∧
            grantStep s = some { u with freeze := { u.freeze with tracked := l } }) ∧
        ((∀ r q, regionOf s line = some (r, q) → ¬ freezing r) → grantStep s = some u))) ∧
    (∀ i t, writeWaiting s = false → s.trim.waiting = false → s.scrub.state = .waiting → allocate s = some (i, t) →
      let line := s.scrub.current
      let done := fun x => grantStep s = some (scrubLineDone x)
      let named := ∃ loc q, (mapGet s line).state = .present loc q ∧ s.scrub.readSlot = some (loc, q)
      (¬ named → done t) ∧
      (named →
        (currentEntry t line = none → ∀ payload, s.scrub.held = some payload →
          done (dirtied i { Entry.cleared with line := some line, data := payload, refresh := true } t)) ∧
        (∀ j, currentEntry t line = some j →
          ((entryAt t j).state = .clean →
            done (dirtied j { entryAt t j with refresh := true } { t with lru := t.lru.filter (· != j) })) ∧
          ((entryAt t j).state ≠ .clean → done t)))) ∧
    (writeWaiting s = false → s.trim.waiting = false → s.scrub.state ≠ .waiting → grantStep s = none) ∧
    (allocate s = none → s.trim.waiting = false → grantStep s = none)

/-- An access ends. The strobe released ends it, answered or waiting, with no fault (R18, R21). The wait timer at its limit (R20) answers a
waiting read with the fill value and READ_OVERRUN, and drops a waiting write with WRITE_OVERRUN; the clock stands no earlier than the
expiry. Where no access waits the expiry changes nothing (the model's reading: log 6). -/
def Obligations.AccessEndsByStrobeOrWaitLimit : Prop :=
  ∀ s : State, s.rstLow = false →
    Effect .hostStrobeRelease s { s with host := { s.host with access := none } } ∧
    (∀ (a : Access) (started limit : Nat) (why : WaitFor), s.host.access = some a → a.phase = .waiting started limit why →
      let u := fun (b : Option Byte) =>
        { s with
          now := max s.now (started + limit)
          host := { s.host with access := some { a with phase := .answered b } } }
      (a.write = none → Effect .waitLimitExpiry s (raise .readOverrun (.line (a.addr.toNat / 64)) (u (some 0xFF)))) ∧
      (a.write ≠ none → Effect .waitLimitExpiry s (raise .writeOverrun (.line (a.addr.toNat / 64)) (u none)))) ∧
    (hwaitHigh s = false → Effect .waitLimitExpiry s s)

/-! ### Modes and power -/

/-- A mode change (R159): the new mode stands, MODE is pending, the drain logic runs in DRAINING alone, READ-ONLY is no longer held in
READ-ONLY and UNFORMATTED, the reclaim engine is STOPPED when the mode leaves ACTIVE and leaves STOPPED when it becomes ACTIVE (R130), and
no entry, map entry or block is touched. A waiting write, which waits for an entry, is dropped with the fault of R19, and a waiting read is
answered at FORMATTING alone (R21). At DRAINING and READ-ONLY the running long command ends or goes on by R115, R142 and R183. When the mode
leaves PARKED the read-fills withheld there are issued, together (by the model's reading: log 14), each of the slot the map names by then
(R178, R179). The drain ends when no entry is waited for (R173, R176). No change is made where the mode stays. -/
def Obligations.ModeChangeReachesBlocks : Prop :=
  ∀ (m : Mode) (s : State),
    let u := setMode m s
    let waited := fun (e : Entry) =>
      e.state = .dirty ∨ e.state = .committing ∨ (e.state = .loading ∧ (e.touched = true ∨ e.trimPending = true))
    (s.mode = m → u = s) ∧
    (s.mode ≠ m → s.mode ≠ .parked ∨ s.withheld = [] →
      u.mode = m ∧ u.maint.modeChanged = true ∧ (u.drainRunning = true ↔ m = .draining) ∧
        (u.heldReadOnly = true ↔ s.heldReadOnly = true ∧ m ≠ .readOnly ∧ m ≠ .unformatted) ∧
        (s.mode = .active → u.reclaim.state = .stopped) ∧ (m = .active → u.reclaim.state ≠ .stopped) ∧
        (m ≠ .active → writeWaiting u = false) ∧
        u.staging = s.staging ∧ u.lru = s.lru ∧ u.lineMap = s.lineMap ∧ u.regions = s.regions ∧ u.frozen = s.frozen ∧
        u.blocks = s.blocks ∧ u.freeList = s.freeList ∧ u.commit = s.commit ∧ u.pfwHigh = s.pfwHigh ∧
      (∀ a started limit why, s.host.access = some a → a.phase = .waiting started limit why →
        (why = .entry → m ≠ .active →
          u.host.access = some { a with phase := .answered none } ∧
          (m = .readOnly ∨ m = .draining → u.maint.faults = (raise .modeDrop (.line (a.addr.toNat / 64)) s).maint.faults) ∧
          (m = .parked → u.maint.faults = s.maint.faults)) ∧
        (why ≠ .entry →
          u.host.access = some (if m = .formatting then { a with phase := .answered (some 0xFF) } else a) ∧
          u.maint.faults = s.maint.faults)) ∧
      (m = .draining ∨ m = .readOnly →
        let ended := fun k =>
          u.maint.slot = none ∧ u.maint.last = some (k, if m = .draining then Result.aborted else .medium) ∧ u.maint.done = true
        let orphan := fun (q : IdRequest) => if q = .frozenSet true then .frozenSet false else q
        (s.maint.slot = some .flush → ended .flush ∧ u.flushTracked = []) ∧
        (∀ b c, s.maint.slot = some (.trim b c) →
          ended .trim ∧ u.trim = { s.trim with tracked := [], waiting := false }) ∧
        (∀ f c, s.maint.slot = some (.scrub f c) →
          ended .scrub ∧
          u.scrub = { s.scrub with state := .idle, readSlot := none, held := none, abortPending := false } ∧
          (∀ d ∈ u.dies, ∀ op ∈ d.ops, op.role = .scrubRead → op.stale = true)) ∧
        (∀ r, s.maint.slot = some (.freeze r) →
          (m = .draining →
            ended .freeze ∧ u.freeze = { phase := .idle, region := none, tracked := [], aborted := false, medium := false } ∧
            u.ident = { s.ident with
              queue := s.ident.queue.map orphan
              update := s.ident.update.map fun x => { x with served := x.served.map orphan } }) ∧
          (m = .readOnly → s.freeze.phase = .flushing →
            u.maint.slot = s.maint.slot ∧ u.freeze = { s.freeze with phase := .persisting, tracked := [], medium := true } ∧
            u.ident = { s.ident with queue := s.ident.queue ++ [.frozenSet true] }) ∧
          (m = .readOnly → s.freeze.phase ≠ .flushing →
            u.maint.slot = s.maint.slot ∧ u.freeze = s.freeze ∧ u.ident = s.ident)))) ∧
    (∀ ops : List Op, s.mode = .parked → m ≠ .parked → s.withheld ≠ [] →
      (s.withheld.map fun i =>
        let line := (entryAt s i).line.getD 0
        match (mapGet s line).state with
        | .present loc seq => some (mapRead (.readFill i) .hostRead line loc seq)
        | _ => none) = ops.map some →
      u = issueTogether ops (setMode m { s with withheld := [] })) ∧
    (s.mode = .draining → (∀ e ∈ s.staging, ¬ waited e) →
      drainStep s = some (setMode (if s.pfwHigh then .active else .parked) s)) ∧
    (s.mode ≠ .draining ∨ (∃ e ∈ s.staging, waited e) → drainStep s = none)

/-- A READ-ONLY request by the mode it finds (R160), and its passage through PARKED where PFW is already high (R162). -/
def Obligations.ReadOnlyRequestByMode : Prop :=
  ∀ s : State,
    (s.mode = .active → requestReadOnly s = setMode .readOnly s) ∧
    (s.mode = .readOnly ∨ s.mode = .mounting ∨ s.mode = .unformatted → requestReadOnly s = s) ∧
    (s.mode = .parked ∨ s.mode = .formatting → requestReadOnly s = { s with heldReadOnly := true }) ∧
    (s.mode = .draining →
      (s.pfwHigh = false → (requestReadOnly s).mode = .parked ∧ (requestReadOnly s).heldReadOnly = true) ∧
      (s.pfwHigh = true → (requestReadOnly s).mode = .readOnly ∧ (requestReadOnly s).heldReadOnly = false))

/-- R161: what the mode controller does when PFW is reported low or high, and where the recorded level is applied later: at the end of a
mount, of a format and of a drain. -/
def Obligations.PfwActsByMode : Prop :=
  ∀ s : State, s.rstLow = false →
    let low : State := { s with pfwHigh := false }
    let high : State := { s with pfwHigh := true }
    (s.mode = .active → Effect .pfwLow s (setMode .draining low) ∧ (setMode .draining low).mode = .draining) ∧
    (s.mode = .readOnly →
      Effect .pfwLow s { setMode .parked low with heldReadOnly := true } ∧ (setMode .parked low).mode = .parked) ∧
    (s.mode ≠ .active → s.mode ≠ .readOnly → Effect .pfwLow s low) ∧
    (s.mode = .parked →
      (s.heldReadOnly = true → Effect .pfwHigh s (setMode .readOnly high)) ∧
      (s.heldReadOnly = false → Effect .pfwHigh s (setMode .active high))) ∧
    (s.mode ≠ .parked → Effect .pfwHigh s high) ∧
    (s.mode = .mounting ∨ s.mode = .formatting → ∀ readOnly,
      (endMode readOnly s).mode = if s.pfwHigh then (if readOnly then .readOnly else .active) else .parked) ∧
    (s.mode = .draining → (drainEnd s).mode = if s.pfwHigh then .active else .parked)

/-! ### Maintenance port -/

/-- A frame ends that carries no request. It is BAD_FRAME (R180) when its length is not L + 3, when its bytes do not sum to 0, when its code is
none of R191, or when L is not the length R191 gives for the code; then the held reply changes and nothing else. A fetch frame empties the
holding only when every byte of the held reply, its data and three more, has been clocked. Every frame shifts out on SDO the reply that was
held, with a check byte that makes its sum 0, or the empty reply, and high bits after it (R181); a request frame has three bytes and its
arguments, and SDO is held high while RST_N is low alone (R180). -/
def Obligations.FramesWithoutRequestEnd : Prop :=
  ∀ s : State, s.rstLow = false →
    let held := match s.maint.reply with
      | some r =>
        let body := r.code.byte :: BitVec.ofNat 8 r.data.length :: r.data
        body ++ [0 - body.sum]
      | none => [0x00, 0x00, 0x00]
    let out := fun (n : Nat) =>
      ({ s with maint := { s.maint with sdo := (held ++ List.replicate n 0xFF).take n } } : State)
    (∀ (code len : Byte) (rest : List Byte), code ≠ 0 →
      let frame := code :: len :: rest
      (rest.length ≠ len.toNat + 1 ∨ frame.sum ≠ 0 ∨
          argumentLength ((rest.take len.toNat).headD 0).toNat code.toNat ≠ some len.toNat →
        exec (.badFrame frame) s = .next (drive (heldReply .badFrame [] (out frame.length)))) ∧
      exec (.badFrame [code]) s = .next (drive (heldReply .badFrame [] (out 1)))) ∧
    (∀ n : Nat,
      (∀ r, s.maint.reply = some r → r.data.length + 3 ≤ n →
        exec (.fetchFrame n) s = .next (drive { out n with maint := { (out n).maint with reply := none } })) ∧
      (s.maint.reply = none ∨ (∃ r, s.maint.reply = some r ∧ n < r.data.length + 3) →
        exec (.fetchFrame n) s = .next (drive (out n)))) ∧
    held.sum = 0 ∧ (∀ args, framed args s = out (args + 3)) ∧
    [ReplyCode.ok, .accepted, .busy, .refusedState, .badArgument, .isProtected, .capacity, .badFrame].map ReplyCode.byte =
      [0x01, 0x02, 0x03, 0x04, 0x05, 0x06, 0x07, 0x0A] ∧
    (∀ t : State, (drive t).pins.sdo = t.maint.sdo ∧ (drive t).pins.sdoHigh = t.rstLow)

/-- GET STATUS, taken in every mode (R182, R187): the reply carries the status record of 115 bytes as it stands, with each field of R191 at its
offset, then DONE and MODE are cleared; nothing else changes but the count of free values taken for bytes R191 does not state. -/
def Obligations.GetStatusReportsAndClears : Prop :=
  ∀ s : State, s.rstLow = false →
    let f := framed 0 s
    let data := fillRecord s.freeTaken (statusRecord s)
    let has := hasField data
    let place := fun (l : Loc) =>
      [BitVec.ofNat 8 l.die, BitVec.ofNat 8 l.block, BitVec.ofNat 8 l.page, BitVec.ofNat 8 l.slot]
    let bit := fun (b : Bool) (n : Nat) => if b then n else 0
    exec .getStatus s = .next (drive
      { f with
        freeTaken := s.freeTaken + (statusRecord s).countP (·.isNone)
        maint := { f.maint with
          reply := some ⟨.ok, data⟩
          done := false
          modeChanged := false } }) ∧
    data.length = 115 ∧
    (∀ m c, (m, c) ∈ [(Mode.mounting, 0), (.unformatted, 1), (.formatting, 2), (.active, 3), (.readOnly, 4), (.draining, 5),
      (.parked, 6)] → s.mode = m → has 0 (spelled 1 c)) ∧
    has 1 (spelled 1 (bit s.heldReadOnly 1 + bit s.reclaimCond 2 + bit s.boost 4)) ∧
    has 2 (spelled 1 (bit s.maint.done 1 + bit s.maint.modeChanged 2 + bit (!s.maint.faults.isEmpty) 4 +
      bit (decide (s.freeList.length ≤ 6)) 8)) ∧
    has 3 (spelled 1 s.maint.settings.mask.toNat) ∧
    (s.maint.slot = none → has 4 (spelled 1 0)) ∧
    (∀ x, s.maint.slot = some x →
      has 4 (spelled 1 (match x with
        | .flush => 0x10
        | .trim _ _ => 0x11
        | .scrub _ _ => 0x12
        | .freeze _ => 0x13
        | .format _ => 0x14)) ∧
      (match x with
       | .flush => has 6 (spelled 3 s.flushTracked.length) ∨ 256 ^ 3 ≤ s.flushTracked.length
       | .trim _ _ => has 6 (spelled 3 s.trim.current) ∨ 256 ^ 3 ≤ s.trim.current
       | .scrub _ _ => has 6 (spelled 3 s.scrub.current) ∨ 256 ^ 3 ≤ s.scrub.current
       | .freeze _ => has 6 (spelled 3 s.freeze.tracked.length) ∨ 256 ^ 3 ≤ s.freeze.tracked.length
       | .format _ => True) ∧
      has 5 (spelled 1 (match x, s.freeze.phase, s.format with
        | .freeze _, .flushing, _ => 1
        | .freeze _, .persisting, _ => 2
        | .format _, _, some j => j.step
        | _, _, _ => 0))) ∧
    (s.maint.slot = none → has 5 (spelled 1 0)) ∧
    (s.maint.last = none → has 9 [0, 0]) ∧
    (∀ k r c e, s.maint.last = some (k, r) →
      (k, c) ∈ [(LongKind.flush, (0x10 : Byte)), (.trim, 0x11), (.scrub, 0x12), (.freeze, 0x13), (.format, 0x14)] →
      (r, e) ∈ [(Result.ok, (0x01 : Byte)), (.aborted, 0x08), (.medium, 0x09)] → has 9 [c, e]) ∧
    (∀ p c, (p, c) ∈ [(MountPhase.probe, 0), (.identity, 1), (.classify, 2), (.scan, 3), (.settle, 4), (.done, 5)] →
      s.mount.phase = p → has 11 (spelled 1 c)) ∧
    (∀ q, s.commit.seq.getD 0 = q → q < 2 ^ 40 → has 12 (spelled 5 q)) ∧
    (s.commit.queue.length < 256 → has 17 (spelled 1 s.commit.queue.length)) ∧
    (∀ h, s.commit.head = some h → has 18 (place ⟨h.block.die, h.block.block, h.page, h.next⟩)) ∧
    (s.commit.head = none → has 18 [0xFF]) ∧
    (s.freeList.length < 65536 → has 22 (spelled 2 s.freeList.length)) ∧
    has 24 (spelled 1 s.diesInUse) ∧
    (s.staging.length < 256 → has 25 (spelled 1 (s.staging.countP fun e =>
      decide (e.state = .dirty ∨ e.state = .committing ∨ (e.state = .loading ∧ (e.touched = true ∨ e.trimPending = true)))))) ∧
    (s.maint.faults.length < 256 → has 26 (spelled 1 s.maint.faults.length)) ∧
    has 27 (spelled 1 (bit s.maint.overflow 1)) ∧
    (∀ e c, (e, c) ∈ [(EngineState.idle, 0), (.opening, 1), (.spaceWait, 2), (.reading, 3), (.programming, 4), (.stopped, 5)] →
      s.reclaim.state = e → has 28 (spelled 1 c)) ∧
    (∀ b, s.reclaim.victim = some b → has 29 [BitVec.ofNat 8 b.die, BitVec.ofNat 8 b.block]) ∧
    (s.reclaim.victim = none → has 29 [0xFF]) ∧
    (s.reclaim.reloc.length < 65536 → has 31 (spelled 2 s.reclaim.reloc.length)) ∧
    (∀ h, s.reclaim.head = some h → has 33 (place ⟨h.block.die, h.block.block, h.page, h.next⟩)) ∧
    (s.reclaim.head = none → has 33 [0xFF]) ∧
    (s.reclaim.retirements < 256 → has 37 (spelled 1 s.reclaim.retirements)) ∧
    (s.commit.refreshes < 2 ^ 32 → has 38 (spelled 4 s.commit.refreshes)) ∧
    (s.ident.retired.length < 256 → has 42 (spelled 1 s.ident.retired.length)) ∧
    (∀ d, d < 4 →
      let r := dieAt s d
      (∀ x c, (x, c) ∈ [(DieState.ready, 0), (.busy, 1), (.resetting, 2), (.offline, 3), (.notUsed, 4)] → r.state = x →
        has (43 + 18 * d) (spelled 1 c)) ∧
      (r.queue.length < 256 → has (44 + 18 * d) (spelled 1 r.queue.length)) ∧
      (r.grades.clean < 2 ^ 32 → has (45 + 18 * d) (spelled 4 r.grades.clean)) ∧
      (r.grades.corrected < 2 ^ 32 → has (49 + 18 * d) (spelled 4 r.grades.corrected)) ∧
      (r.grades.weak < 2 ^ 32 → has (53 + 18 * d) (spelled 4 r.grades.weak)) ∧
      (r.grades.lost < 2 ^ 32 → has (57 + 18 * d) (spelled 4 r.grades.lost)))

/-- GET FAULTS (R187, R189): the oldest min(n, length) records are returned and leave the list, the overflow flag is returned as it stood and
is cleared with the last record; the data is the number of records, the flag, and twelve bytes for each record, with each field of R191
at its offset; n = 0 or above 16 is BAD_ARGUMENT and changes nothing but the held reply. -/
def Obligations.GetFaultsReturnsOldest : Prop :=
  ∀ (s : State) (n : Byte), s.rstLow = false →
    let f := framed 1 s
    let m := min n.toNat s.maint.faults.length
    let data := fillRecord s.freeTaken (faultsRecord s m)
    (1 ≤ n.toNat → n.toNat ≤ 16 →
      exec (.getFaults n) s = .next (drive
        { f with
          freeTaken := s.freeTaken + (faultsRecord s m).countP (·.isNone)
          maint := { f.maint with
            reply := some ⟨.ok, data⟩
            faults := s.maint.faults.drop m
            overflow := s.maint.overflow && decide (m < s.maint.faults.length) } }) ∧
      data.length = 2 + 12 * m ∧ hasField data 0 [BitVec.ofNat 8 m, if s.maint.overflow then 1 else 0]) ∧
    (∀ i r, i < m → s.maint.faults[i]? = some r →
      let has := fun k => hasField data (2 + 12 * i + k)
      (∀ k c, (k, c) ∈ [(FaultKind.uncorrectable, 0x01), (.programFail, 0x02), (.eraseFail, 0x03), (.dieTimeout, 0x04),
        (.dieOffline, 0x05), (.writeOverrun, 0x06), (.readOverrun, 0x07), (.modeDrop, 0x08), (.earlyAccess, 0x09),
        (.unbackedWrite, 0x0A), (.frozenWrite, 0x0B), (.onceExhausted, 0x0C), (.mountBadRecord, 0x0D), (.identityFail, 0x0E),
        (.retireLimit, 0x0F)] → r.kind = k → has 0 (spelled 1 c)) ∧
      (∀ line, r.subject = .line line → has 1 [0] ∧ (line < 2 ^ 32 → has 2 (spelled 4 line))) ∧
      (∀ l, r.subject = .location l →
        has 1 [1, BitVec.ofNat 8 l.die, BitVec.ofNat 8 l.block, BitVec.ofNat 8 l.page, BitVec.ofNat 8 l.slot]) ∧
      (∀ b, r.subject = .block b → has 1 [2, BitVec.ofNat 8 b.die, BitVec.ofNat 8 b.block, 0, 0]) ∧
      (∀ d, r.subject = .die d → has 1 [3, BitVec.ofNat 8 d, 0, 0, 0]) ∧
      (r.seq < 2 ^ 40 → has 6 (spelled 5 r.seq)) ∧ has 11 (spelled 1 r.count)) ∧
    (n.toNat = 0 ∨ 16 < n.toNat → exec (.getFaults n) s = .next (drive (heldReply .badArgument [] f)))

/-- GET LINE and GET BLOCK (R17, R83, R187): in a mode that takes them, a snapshot of 20 bytes is held as the reply, with each field of R191 at
its offset, and nothing else changes but the count of free values taken for bytes R191 does not state; a line above 262,143, or a die not
in use, is BAD_ARGUMENT. A block of a die in use has its record in the table. -/
def Obligations.GetLineAndBlockReport : Prop :=
  ∀ s : State, s.rstLow = false → s.mode ≠ .mounting → s.mode ≠ .parked →
    let report := fun (f : State) (r : List (Option Byte)) => drive
      { f with
        freeTaken := s.freeTaken + r.countP (·.isNone)
        maint := { f.maint with reply := some ⟨.ok, fillRecord s.freeTaken r⟩ } }
    let bit := fun (b : Bool) (n : Nat) => if b then n else 0
    (∀ line : BitVec 24,
      let l := line.toNat
      let covers := fun (r : Region) => r.base ≤ l ∧ l < r.base + r.count
      let data := fillRecord s.freeTaken (lineRecord s l)
      let has := hasField data
      (l < 262144 →
        exec (.getLine line) s = .next (report (framed 3 s) (lineRecord s l)) ∧ data.length = 20 ∧ has 0 (spelled 3 l) ∧
        (∀ i r, s.regions[i]? = some r → covers r → (∀ j q, j < i → s.regions[j]? = some q → ¬ covers q) →
          has 3 [BitVec.ofNat 8 i, match r.kind with
            | .plain => 0
            | .once => 1] ∧ has 5 [if i ∈ s.frozen then 1 else 0]) ∧
        ((∀ r ∈ s.regions, ¬ covers r) → has 3 [0xFF, 0xFF, 0]) ∧
        has 6 [match (mapGet s l).state with
          | .unwritten => 0
          | .present _ _ => 1
          | .trimmed _ _ => 2
          | .damaged => 3] ∧
        (∀ loc q, (mapGet s l).state = .present loc q ∨ (mapGet s l).state = .trimmed loc q →
          has 7 [BitVec.ofNat 8 loc.die, BitVec.ofNat 8 loc.block, BitVec.ofNat 8 loc.page, BitVec.ofNat 8 loc.slot] ∧
          (q < 2 ^ 40 → has 11 (spelled 5 q))) ∧
        ((mapGet s l).state.loc = none → has 7 [0xFF] ∧ has 11 (spelled 5 0)) ∧
        has 16 (spelled 1 (mapGet s l).stamps) ∧
        (∀ i, currentEntry s l = some i →
          has 17 [BitVec.ofNat 8 i,
            match (entryAt s i).state with
            | .free => 0
            | .loading => 1
            | .clean => 2
            | .dirty => 3
            | .committing => 4,
            match (entryAt s i).kind with
            | .line => 0
            | .trim => 1]) ∧
        (currentEntry s l = none → has 17 [0xFF])) ∧
      (262144 ≤ l → exec (.getLine line) s = .next (drive (heldReply .badArgument [] (framed 3 s))))) ∧
    (∀ die block : Byte,
      let b : BlockId := ⟨die.toNat, block.toNat⟩
      (∀ r, die.toNat < s.diesInUse → blockGet s b = some r →
        let data := fillRecord s.freeTaken (blockRecord s b r)
        let has := hasField data
        exec (.getBlock die block) s = .next (report (framed 2 s) (blockRecord s b r)) ∧ data.length = 20 ∧
        has 0 [die, block] ∧
        has 2 [match r.state with
          | .free => 0
          | .hostHead => 1
          | .copyHead => 2
          | .closed => 3
          | .victim => 4
          | .relocating => 5
          | .erasing => 6
          | .retired => 7
          | .identity => 8] ∧
        (r.valid < 65536 → has 3 (spelled 2 r.valid)) ∧
        has 5 (spelled 1 (bit r.eraseCount.isSome 1 + bit r.closeSeq.isSome 2 + bit (decide (b ∈ s.freeList)) 4 +
          bit (decide (b ∈ s.reclaim.reloc)) 8)) ∧
        (∀ c, r.eraseCount = some c → c < 2 ^ 32 → has 6 (spelled 4 c)) ∧
        (∀ q, r.closeSeq = some q → q < 2 ^ 40 → has 10 (spelled 5 q)) ∧
        (r.readers < 256 → has 15 (spelled 1 r.readers)) ∧
        (∀ front back, s.freeList = front ++ b :: back → b ∉ front → front.length < 65536 → has 16 (spelled 2 front.length)) ∧
        (∀ front back, s.reclaim.reloc = front ++ b :: back → b ∉ front → front.length < 65536 →
          has 18 (spelled 2 front.length))) ∧
      (s.diesInUse ≤ die.toNat → exec (.getBlock die block) s = .next (drive (heldReply .badArgument [] (framed 2 s)))))

/-- R188: SET PARAMETER sets one setting in its range and is answered OK; out of range, or with an unknown identifier, it is answered
BAD_ARGUMENT and keeps it. Commit delay and batch threshold go on to the batch triggers, the mask to ATTN, and the wait limit to nothing
but later waits. Reset returns the defaults, and FORMAT keeps the settings. -/
def Obligations.SetParameterSetsOneSetting : Prop :=
  ∀ (s : State) (v : BitVec 16), s.rstLow = false →
    s.mode = .unformatted ∨ s.mode = .readOnly ∨ s.mode = .active →
    let f := framed 3 s
    let bad := heldReply .badArgument [] f
    let setTo := fun (p : Settings) => heldReply .ok [] { f with maint := { f.maint with settings := p } }
    (v.toNat ≤ 250 → Effect (.setCommitDelay v) s (setTo { s.maint.settings with commitDelay := v.toNat })) ∧
    (250 < v.toNat → Effect (.setCommitDelay v) s bad) ∧
    (1 ≤ v.toNat ∧ v.toNat ≤ 16 → Effect (.setBatchThreshold v) s (setTo { s.maint.settings with threshold := v.toNat })) ∧
    (v.toNat = 0 ∨ 16 < v.toNat → Effect (.setBatchThreshold v) s bad) ∧
    (1 ≤ v.toNat ∧ v.toNat ≤ 500 →
      exec (.setWaitLimit v) s = .next (drive (setTo { s.maint.settings with waitLimit := v.toNat }))) ∧
    (v.toNat = 0 ∨ 500 < v.toNat → exec (.setWaitLimit v) s = .next (drive bad)) ∧
    (v.toNat < 16 → exec (.setAttentionMask v) s = .next (drive (setTo { s.maint.settings with mask := v.setWidth 4 }))) ∧
    (16 ≤ v.toNat → exec (.setAttentionMask v) s = .next (drive bad)) ∧
    (∀ id v1 v0 check : Byte, 4 < id.toNat ∨ id = 0 → (0x05 + 0x03 + id + v1 + v0 + check : Byte) = 0 →
      exec (.badFrame [0x05, 0x03, id, v1, v0, check]) s = .next (drive bad)) ∧
    (∃ t, exec .resetAssert s = .next t ∧
      t.maint.settings = { commitDelay := 2, threshold := 4, waitLimit := 50, mask := 0b0111 }) ∧
    (∀ table wp t, Inv s → exec (.format table wp) s = .next t → t.maint.settings = s.maint.settings)

/-- The table of R182, and a request outside the mode's accepted set: REFUSED_STATE is held and nothing else changes. -/
def Obligations.RequestOutsideModeRefused : Prop :=
  allRequests.filter (accepts .mounting) = [.getStatus, .getFaults] ∧
  allRequests.filter (accepts .parked) = [.getStatus, .getFaults] ∧
  allRequests.filter (accepts .unformatted) = [.getStatus, .getFaults, .getLine, .getBlock, .setParameter, .format] ∧
  allRequests.filter (accepts .readOnly) = [.getStatus, .getFaults, .getLine, .getBlock, .setParameter, .abort, .format] ∧
  allRequests.filter (accepts .draining) = [.getStatus, .getFaults, .getLine, .getBlock, .abort] ∧
  allRequests.filter (accepts .formatting) = [.getStatus, .getFaults, .getLine, .getBlock, .abort] ∧
  allRequests.filter (accepts .active) = allRequests ∧
  ∀ s : State, s.rstLow = false →
    let refused := fun n => heldReply .refusedState [] (framed n s)
    (accepts s.mode .getLine = false → ∀ l, exec (.getLine l) s = .next (drive (refused 3))) ∧
    (accepts s.mode .getBlock = false → ∀ d b, exec (.getBlock d b) s = .next (drive (refused 2))) ∧
    (accepts s.mode .setParameter = false → ∀ v,
      Effect (.setCommitDelay v) s (refused 3) ∧ Effect (.setBatchThreshold v) s (refused 3) ∧
        exec (.setWaitLimit v) s = .next (drive (refused 3)) ∧ exec (.setAttentionMask v) s = .next (drive (refused 3))) ∧
    (accepts s.mode .abort = false → Effect .abort s (refused 0)) ∧
    (accepts s.mode .flush = false → Effect .flush s (refused 0)) ∧
    (accepts s.mode .trim = false → ∀ b c, Effect (.trim b c) s (refused 5)) ∧
    (accepts s.mode .scrub = false → ∀ f c, Effect (.scrub f c) s (refused 6)) ∧
    (accepts s.mode .freeze = false → ∀ r w, Effect (.freeze r w) s (refused 1)) ∧
    (accepts s.mode .format = false → ∀ t w, Effect (.format t w) s (refused (1 + 7 * t.length)))

/-- A long request in an accepting mode is refused with BUSY while the slot is occupied (R182), and then by its own tests in their order:
TRIM by R138 and R185, SCRUB by R110, FREEZE by R139, each in ACTIVE, the one mode that accepts them; FORMAT by R3, R80 and R153, in ACTIVE,
READ-ONLY and UNFORMATTED, where UNFORMATTED counts no block as retired (R80). Only the held reply changes. -/
def Obligations.LongRequestRefused : Prop :=
  ∀ s : State, s.rstLow = false →
    let held := fun n c => heldReply c [] (framed n s)
    (s.mode = .active → s.maint.slot.isSome = true → ∀ (b f n : BitVec 24) (c : BitVec 16) (r : Byte) (w : Bool),
      Effect .flush s (held 0 .busy) ∧ Effect (.trim b c) s (held 5 .busy) ∧ Effect (.scrub f n) s (held 6 .busy) ∧
        Effect (.freeze r w) s (held 1 .busy)) ∧
    (s.mode = .active → s.maint.slot = none →
      (∀ (b : BitVec 24) (c : BitVec 16),
        c.toNat = 0 ∨ 4096 < c.toNat ∨ 262144 ≤ b.toNat ∨ 262144 < b.toNat + c.toNat ∨
          (∃ r ∈ s.regions, r.kind = .once ∧ r.base < b.toNat + c.toNat ∧ b.toNat < r.base + r.count) →
        Effect (.trim b c) s (held 5 .badArgument)) ∧
      (∀ f n : BitVec 24, 262144 ≤ f.toNat ∨ n.toNat = 0 ∨ 262144 < f.toNat + n.toNat →
        Effect (.scrub f n) s (held 6 .badArgument)) ∧
      (∀ r : Byte, Effect (.freeze r false) s (held 1 .isProtected) ∧
        (s.regions[r.toNat]? = none ∨ (∃ g, s.regions[r.toNat]? = some g ∧ g.kind = .plain) →
          Effect (.freeze r true) s (held 1 .badArgument)) ∧
        (∀ g, s.regions[r.toNat]? = some g → g.kind = .once → r.toNat ∈ s.frozen →
          Effect (.freeze r true) s (held 1 .refusedState)))) ∧
    (s.mode = .active ∨ s.mode = .readOnly ∨ s.mode = .unformatted → ∀ t : List RawRegion,
      let refused := fun w c => Effect (.format t w) s (held (1 + 7 * t.length) c)
      (s.maint.slot.isSome = true → ∀ w, refused w .busy) ∧
      (s.maint.slot = none →
        refused false .isProtected ∧
        (readTable t = none ∨ (∃ g, readTable t = some g ∧ validTable g = false) → refused true .badArgument) ∧
        (∀ g, readTable t = some g → validTable g = true →
          let retired := if s.mode = .unformatted then 0 else s.ident.retired.length
          let limit := (s.mount.diesPresent * 256 - 8 - retired) * 1022 * 3 / 4
          (limit < totalLines g → refused true .capacity) ∧
          (totalLines g ≤ limit → s.ident.remembered = some (2 ^ 32 - 1) → refused true .refusedState))))

/-- R3: the region table of a FORMAT is valid when it has 1 to 8 entries, each PLAIN or ONCE, of at least one line, ending by line 262,144,
with no line in two of them. FORMAT refuses an invalid table with BAD_ARGUMENT and changes nothing else; a valid one that breaks the
capacity rule it refuses with CAPACITY; and it accepts any other. -/
def Obligations.FormatTestsRegionTable : Prop :=
  ∀ (s : State) (t : List RawRegion), s.rstLow = false → s.mode = .unformatted ∨ s.mode = .readOnly ∨ s.mode = .active →
    s.maint.slot = none →
    let f := framed (1 + 7 * t.length) s
    let covers := fun (r : RawRegion) (l : Nat) => r.base.toNat ≤ l ∧ l < r.base.toNat + r.count.toNat
    let good := 1 ≤ t.length ∧ t.length ≤ 8 ∧
      (∀ r ∈ t, (r.kind = 0 ∨ r.kind = 1) ∧ 1 ≤ r.count.toNat ∧ r.base.toNat + r.count.toNat ≤ 262144) ∧
      t.Pairwise fun a b => ∀ l, ¬ (covers a l ∧ covers b l)
    let lines := (t.map fun r => r.count.toNat).sum
    let retired := if s.mode = .unformatted then 0 else s.ident.retired.length
    let limit := (s.mount.diesPresent * 256 - 8 - retired) * 1022 * 3 / 4
    (¬ good → Effect (.format t true) s (heldReply .badArgument [] f)) ∧
    (good → limit < lines → Effect (.format t true) s (heldReply .capacity [] f)) ∧
    (good → lines ≤ limit → s.ident.remembered ≠ some (2 ^ 32 - 1) →
      ∃ u, Effect (.format t true) s u ∧ u.mode = .formatting ∧
        u.maint.slot = some (.format (t.map fun r => ⟨if r.kind = 0 then .plain else .once, r.base.toNat, r.count.toNat⟩)))

/-- ABORT is answered OK and reaches the running long command (R186): FLUSH and TRIM complete ABORTED (R184, R185); SCRUB completes at once
where it waits for an entry and otherwise takes the ABORT at its line's end (R115); FREEZE goes on to its update (R142); FORMAT ends
before its step 4 and goes on after it (R157). -/
def Obligations.AbortReachesLongCommand : Prop :=
  ∀ s : State, s.rstLow = false → accepts s.mode .abort = true →
    let ok := heldReply .ok [] (framed 0 s)
    (s.maint.slot = none → Effect .abort s ok) ∧
    (s.maint.slot = some .flush → Effect .abort s (completed .flush .aborted { ok with flushTracked := [] })) ∧
    (∀ b c, s.maint.slot = some (.trim b c) →
      Effect .abort s (completed .trim .aborted { ok with trim := { s.trim with tracked := [], waiting := false } })) ∧
    (∀ f c, s.maint.slot = some (.scrub f c) →
      (s.scrub.state = .waiting →
        Effect .abort s (completed .scrub .aborted
          (markStale (·.role == .scrubRead)
            { ok with
              scrub :=
                { s.scrub with
                  current := s.scrub.current + 1, state := .idle, readSlot := none, held := none, abortPending := false } }))) ∧
      (s.scrub.state ≠ .waiting → Effect .abort s { ok with scrub := { s.scrub with abortPending := true } })) ∧
    (∀ r, s.maint.slot = some (.freeze r) →
      (s.freeze.phase = .flushing →
        Effect .abort s
          { ok with
            freeze := { s.freeze with phase := .persisting, tracked := [], aborted := true }
            ident := { s.ident with queue := s.ident.queue ++ [.frozenSet true] } }) ∧
      (s.freeze.phase ≠ .flushing → Effect .abort s { ok with freeze := { s.freeze with aborted := true } })) ∧
    (∀ t j, s.maint.slot = some (.format t) → s.format = some j →
      (4 ≤ j.step → Effect .abort s ok) ∧
      (j.step < 4 → ∃ u, Effect .abort s u ∧ (s.mode = .formatting → u.mode = .unformatted) ∧ u.format = none ∧ u.lineMap = [] ∧
        u.regions = [] ∧ u.maint.slot = none ∧ u.maint.last = some (.format, .aborted) ∧ u.maint.done = true))

/-! ### Long commands -/

/-- FLUSH starts (R184): its tracked set holds the entries the drain would wait for (R173). It completes OK when the set is empty. -/
def Obligations.FlushStartsAndCompletes : Prop :=
  ∀ s : State, s.rstLow = false → s.mode = .active →
    (s.maint.slot = none →
      ∃ l : List Nat,
        (∀ i, i ∈ l ↔ i < 32 ∧
          ((entryAt s i).state = .dirty ∨ (entryAt s i).state = .committing ∨
            ((entryAt s i).state = .loading ∧ ((entryAt s i).touched = true ∨ (entryAt s i).trimPending = true)))) ∧
        l.Nodup ∧ Effect .flush s { acceptedLong .flush (framed 0 s) with flushTracked := l }) ∧
    (s.maint.slot = some .flush → s.flushTracked = [] → longStep s = some (completed .flush .ok { s with flushTracked := [] }))

/-- TRIM starts (R185): the walk stands at the base, to end after base + count - 1; nothing is tracked. With the walk ended and nothing
tracked it completes OK. -/
def Obligations.TrimStartsAndCompletes : Prop :=
  ∀ (s : State) (b : BitVec 24) (c : BitVec 16), s.rstLow = false → s.mode = .active →
    (s.maint.slot = none → 1 ≤ c.toNat → c.toNat ≤ 4096 → b.toNat + c.toNat ≤ 262144 →
      (∀ r ∈ s.regions, r.kind = .once → r.base + r.count ≤ b.toNat ∨ b.toNat + c.toNat ≤ r.base) →
      Effect (.trim b c) s
        { acceptedLong (.trim b.toNat c.toNat) (framed 5 s) with
          trim := { current := b.toNat, stop := b.toNat + c.toNat, tracked := [], waiting := false } }) ∧
    (∀ base n, s.maint.slot = some (.trim base n) → s.trim.current = s.trim.stop → s.trim.tracked = [] →
      longStep s = some (completed .trim .ok { s with trim := { s.trim with tracked := [], waiting := false } }))

/-- SCRUB starts (R110, R111): lines that are not to be read are passed over in the event; the first that is becomes the current line and its
record is read in class SCRUB READ, and where there is none the command completes OK. -/
def Obligations.ScrubStartsWithFirstReadLine : Prop :=
  ∀ (s : State) (f n : BitVec 24), s.rstLow = false → s.mode = .active → s.maint.slot = none →
    1 ≤ n.toNat → f.toNat + n.toNat ≤ 262144 →
    let walk : State := acceptedLong (.scrub f.toNat n.toNat) (framed 6 s)
    let last := f.toNat + n.toNat - 1
    (∀ k loc seq, f.toNat ≤ k → k ≤ last → scrubReads s k loc seq →
      (∀ j, f.toNat ≤ j → j < k → ¬ ∃ loc' seq', scrubReads s j loc' seq') →
      Effect (.scrub f n) s
        (issue (mapRead .scrubRead .scrubRead k loc seq)
          { walk with
            scrub :=
              { state := .reading, current := k, last := last, readSlot := some (loc, seq), held := none,
                abortPending := false } })) ∧
    ((∀ j, f.toNat ≤ j → j ≤ last → ¬ ∃ loc seq, scrubReads s j loc seq) →
      Effect (.scrub f n) s (completed .scrub .ok
        (markStale (·.role == .scrubRead)
          { walk with
            scrub :=
              { state := .idle, current := last + 1, last := last, readSlot := none, held := none, abortPending := false } })))

/-- FREEZE starts (R139, R140): the index joins the RAM frozen set at once, and the region's LOADING, DIRTY and COMMITTING entries are
tracked. When none is left the update is handed to the identity manager (R141). -/
def Obligations.FreezeStartsAndPersists : Prop :=
  ∀ (s : State) (r : Byte), s.rstLow = false → s.mode = .active →
    (∀ g, s.maint.slot = none → s.regions[r.toNat]? = some g → g.kind = .once → r.toNat ∉ s.frozen →
      ∃ (l fr : List Nat),
        (∀ i, i ∈ l ↔ i < 32 ∧
          (∃ line q, (entryAt s i).line = some line ∧ regionOf s line = some (r.toNat, q)) ∧
          ((entryAt s i).state = .loading ∨ (entryAt s i).state = .dirty ∨ (entryAt s i).state = .committing)) ∧
        (∀ k, k ∈ fr ↔ k = r.toNat ∨ k ∈ s.frozen) ∧
        Effect (.freeze r true) s
          { acceptedLong (.freeze r.toNat) (framed 1 s) with
            frozen := fr
            freeze := { phase := .flushing, region := some r.toNat, tracked := l, aborted := false, medium := false } }) ∧
    (s.maint.slot = some (.freeze r.toNat) → s.freeze.phase = .flushing → s.freeze.tracked = [] →
      longStep s = some
        { s with
          freeze := { s.freeze with phase := .persisting, tracked := [] }
          ident := { s.ident with queue := s.ident.queue ++ [.frozenSet true] } })

/-- FORMAT is accepted (R153, R154, R163): the mode becomes FORMATTING, the new serial is fixed, step 1 clears (R13, R42, R82, R131, R151),
and step 2 issues the erases of both identity blocks, copy A first. By the model's reading step 1 clears the refresh count and keeps the
counter (log 29), and sets boost and reclaim condition from the empty free list (log 34). Step 3 begins when both are answered with a GOOD
copy left (R154, R155), step 4 when no block is left to erase or stamp, each GOOD copy gets its two pages, copy A first, and steps 5 and 6
follow with a copy written; with no copy left the part is UNFORMATTED (R13, R82, R156, R163). -/
def Obligations.FormatAcceptedClears : Prop :=
  (∀ (s : State) (t : List RawRegion) (g : List Region), s.rstLow = false → SizeInv s →
    s.mode = .unformatted ∨ s.mode = .readOnly ∨ s.mode = .active → s.maint.slot = none → readTable t = some g →
    validTable g = true →
    let retired := if s.mode = .unformatted then 0 else s.ident.retired.length
    totalLines g ≤ (s.mount.diesPresent * 256 - 8 - retired) * 1022 * 3 / 4 →
    s.ident.remembered ≠ some (2 ^ 32 - 1) →
    ∃ u, Effect (.format t true) s u ∧ u.mode = .formatting ∧ u.maint.reply = some ⟨.accepted, []⟩ ∧
      u.maint.slot = some (.format g) ∧ u.heldReadOnly = false ∧ u.maint.modeChanged = true ∧
      u.lineMap = [] ∧ u.regions = g ∧ u.frozen = [] ∧ u.staging = List.replicate 32 Entry.cleared ∧ u.lru = [] ∧
      u.commit = { queue := [], returned := [], seq := s.commit.seq, head := none, batch := none, refreshes := 0 } ∧
      u.freeList = [] ∧ u.boost = true ∧ u.reclaimCond = true ∧
      (∀ d b, d < s.mount.diesPresent → b < 256 → (d ≠ 0 ∨ 2 ≤ b) →
        blockGet u ⟨d, b⟩ = some
          { state := .erasing, valid := 0, eraseCount := (blockGet s ⟨d, b⟩).bind (·.eraseCount), closeSeq := none,
            readers := ((blockGet s ⟨d, b⟩).map (·.readers)).getD 0, work := .eraseHeld }) ∧
      u.ident.copyA = { s.ident.copyA with good := true, rollDue := false } ∧
      u.ident.copyB = { s.ident.copyB with good := true, rollDue := false } ∧
      u.ident.descriptor = none ∧ u.ident.counter = 0 ∧ u.ident.retired = [] ∧ u.ident.persistent = [] ∧ u.ident.queue = [] ∧
      u.ident.update = none ∧ u.ident.remembered = s.ident.remembered ∧
      u.format = some
        { step := 2, serial := (s.ident.remembered.map (· + 1)).getD 1, dieCount := s.mount.diesPresent, erasesOut := 2,
          limitMet := false, write := .start .a, wroteA := false, wroteB := false } ∧
      u.reclaim.state = .idle ∧ u.reclaim.victim = none ∧ u.reclaim.reloc = [] ∧ u.reclaim.head = none ∧
      u.freeze.phase = .idle ∧ (waitsFor u) = none ∧
      u.maint.settings = s.maint.settings ∧ u.now = s.now ∧ u.pfwHigh = s.pfwHigh ∧
      ((dieAt u 0).queue.map fun op => (op.role, op.block, op.cls, op.stale)) =
        ((dieAt s 0).queue.map fun op => (op.role, op.block, op.cls, true)) ++
          [(.formatErase, ⟨0, 0⟩, .identity, false), (.formatErase, ⟨0, 1⟩, .identity, false)]) ∧
  ∀ (s : State) (j : FormatJob), s.format = some j →
    let open_ := fun (r : BlockRec) => r.state = .erasing ∧
      (r.work = .eraseHeld ∨ r.work = .eraseWaiting ∨ r.work = .eraseOut ∨ r.work = .stampOut)
    let fails := ∀ g, s.mode = .formatting → s.maint.slot = some (.format g) →
      ∃ t, formatStep s = some t ∧ t.mode = .unformatted ∧ t.format = none ∧ t.maint.slot = none ∧
        t.maint.last = some (.format, .medium) ∧ t.maint.done = true ∧ t.regions = [] ∧ t.lineMap = [] ∧ t.freeList = [] ∧
        t.commit.seq = none ∧
        t.blocks = s.blocks.map fun p =>
          if p.1 < 2 then p else (p.1, { p.2 with state := .closed, valid := 0, closeSeq := none, work := .none })
    (j.step = 2 →
      (j.erasesOut ≠ 0 → formatStep s = none) ∧
      (j.erasesOut = 0 → s.ident.copyA.good = true ∨ s.ident.copyB.good = true →
        formatStep s = some
          { s with
            format := some { j with step := 3 }
            blocks := s.blocks.map fun p => if p.2.work = .eraseHeld then (p.1, { p.2 with work := .eraseWaiting }) else p }) ∧
      (j.erasesOut = 0 → s.ident.copyA.good = false → s.ident.copyB.good = false → fails)) ∧
    (j.step = 3 →
      ((∃ p ∈ s.blocks, open_ p.2) → formatStep s = none) ∧
      ((∀ p ∈ s.blocks, ¬ open_ p.2) →
        formatStep s = some
          { s with
            format := some { j with step := 4, write := .start .a }
            ident := { s.ident with counter := 1, descriptor := some ⟨j.serial, j.dieCount, s.regions⟩ } })) ∧
    (j.step = 4 →
      (∀ c d, j.write = .start c → s.ident.descriptor = some d →
        ((s.ident.copy c).good = true →
          formatStep s = some
            (issue (pageProgram .formatProgram c 0 (.descriptor d)) { s with format := some { j with write := .out c 0 } })) ∧
        ((s.ident.copy c).good = false →
          formatStep s = some { s with format := some { j with write := if c = .a then .start .b else .done } })) ∧
      (j.write = .done →
        (j.wroteA = false → j.wroteB = false → fails) ∧
        (∀ g, j.wroteA = true ∨ j.wroteB = true → s.mode = .formatting → s.maint.slot = some (.format g) →
          let ro := s.heldReadOnly || j.limitMet
          ∃ t, formatStep s = some t ∧ t.format = none ∧ t.commit.seq = some 1 ∧
            t.ident = { s.ident with
              copyA := { s.ident.copyA with next := if j.wroteA then 2 else s.ident.copyA.next }
              copyB := { s.ident.copyB with next := if j.wroteB then 2 else s.ident.copyB.next }
              persistent := []
              remembered := some j.serial } ∧
            t.reclaimCond = decide (s.freeList.length ≤ 12) ∧ t.boost = decide (s.freeList.length ≤ 6) ∧
            t.maint.slot = none ∧ t.maint.last = some (.format, if j.limitMet then .medium else .ok) ∧ t.maint.done = true ∧
            t.mode = (if s.pfwHigh then (if ro then .readOnly else .active) else .parked) ∧
            t.heldReadOnly = (ro && !s.pfwHigh))))

/-- The TRIM walk handles its current line (R39, R40, R185): an unbacked line is passed over; a CLEAN, DIRTY or LOADING entry is made a TRIM
entry or trim pending, and a read waiting on the LOADING entry gets the fill value at once (the model's reading: log 20); a line with no
entry, or a COMMITTING one, takes the entry R25 gives; and where it gives none the walk waits. A walk that waits does the same in the event
in which an entry can be had or the line has gained one (R27, R39). Where no walk is to move nothing changes (log 6). -/
def Obligations.TrimWalkHandlesLine : Prop :=
  ∀ s : State, s.rstLow = false →
    (s.trim.stop ≤ s.trim.current ∨ s.trim.waiting = true ∨ (∀ b c, s.maint.slot ≠ some (.trim b c)) →
      Effect .trimWalkLine s s) ∧
    (∀ b c, s.maint.slot = some (.trim b c) → s.trim.current < s.trim.stop →
      let moves := fun t => (s.trim.waiting = false → Effect .trimWalkLine s t) ∧
        (s.trim.waiting = true → writeWaiting s = false → grantStep s = some t)
      let line := s.trim.current
      let passed : TrimWalk := { s.trim with current := line + 1, waiting := false }
      let trimmed : Entry :=
        { state := .dirty, line := some line, kind := .trim, data := [], written := 0, trimPending := false, touched := false,
          refresh := false, dirtySince := some s.now, newer := none }
      let took := fun i => ({ passed with tracked := setAdd i s.trim.tracked } : TrimWalk)
      (isBacked s line = false → s.trim.waiting = false → Effect .trimWalkLine s { s with trim := passed }) ∧
      (isBacked s line = true →
        (∀ i, currentEntry s line = some i →
          ((entryAt s i).state = .clean →
            moves
              { s with
                lru := s.lru.filter (· != i)
                commit := { s.commit with queue := s.commit.queue ++ [i] }
                staging := s.staging.set i trimmed
                trim := took i }) ∧
          ((entryAt s i).state = .dirty →
            moves
              { s with
                staging := s.staging.set i { entryAt s i with kind := .trim, data := [], touched := false, refresh := false }
                trim := took i }) ∧
          (SizeInv s → i < 32 → (entryAt s i).state = .loading →
            moves (answeredFetch i 0xFF
              { s with
                staging := s.staging.set i
                  { entryAt s i with
                    written := 0
                    data := List.replicate 64 0xFF
                    trimPending := true
                    touched := false }
                trim := took i })) ∧
          ((entryAt s i).state = .committing →
            (∀ j u, s.lru.head? ≠ some i → allocate s = some (j, u) →
              moves
                { u with
                  commit := { u.commit with queue := u.commit.queue ++ [j] }
                  staging := (u.staging.set i { entryAt u i with newer := some j }).set j trimmed
                  trim := took j }) ∧
            (allocate s = none → s.trim.waiting = false →
              Effect .trimWalkLine s { s with trim := { s.trim with waiting := true } }))) ∧
        (currentEntry s line = none →
          (∀ j u, allocate s = some (j, u) →
            moves
              { u with
                commit := { u.commit with queue := u.commit.queue ++ [j] }
                staging := u.staging.set j trimmed
                trim := took j }) ∧
          (allocate s = none → s.trim.waiting = false →
              Effect .trimWalkLine s { s with trim := { s.trim with waiting := true } }))))

/-! ### Faults, map, free list -/

/-- A fault is raised (R189): folded into the newest record where kind and subject match, its count holding at 255; else added at the tail
with the sequence counter's value; or discarded, with the overflow flag set, where the list holds 16. -/
def Obligations.RaisedFaultIsRecorded : Prop :=
  ∀ (k : FaultKind) (x : Subject) (s : State),
    let list := s.maint.faults
    let u := raise k x s
    (∀ old r, list = old ++ [r] → r.kind = k → r.subject = x →
      u = { s with maint := { s.maint with faults := old ++ [{ r with count := min 255 (r.count + 1) }] } }) ∧
    ((∀ old r, list = old ++ [r] → r.kind ≠ k ∨ r.subject ≠ x) →
      (list.length < 16 →
        u = { s with maint := { s.maint with faults := list ++ [⟨k, x, s.commit.seq.getD 0, 1⟩] } }) ∧
      (16 ≤ list.length → u = { s with maint := { s.maint with overflow := true } }))

/-- Completions change the map for one record and leave every other line's entry. By a commit (R14) the entry is PRESENT or TRIMMED at the
written slot with the record's stamps. By a copy (R15), only where the entry still names the source slot, the location becomes the
destination and sequence and stamps stay. The block of the old location loses a valid record and that of the new one gains it (R69). -/
def Obligations.CompletionsMoveMap : Prop :=
  ∀ (s : State) (line : Nat), MapInv s →
    (∀ (seq stamps : Nat) (kind : RecKind) (loc : Loc),
      let u := commitToMap line kind seq stamps loc s
      let old := (mapGet s line).state.loc
      mapGet u line = ⟨match kind with
        | .line => .present loc seq
        | .trim => .trimmed loc seq, stamps⟩ ∧
      (∀ l, l ≠ line → mapGet u l = mapGet s l) ∧
      (∀ b r, blockGet s b = some r →
        blockGet u b = some
          { r with
            valid :=
              (r.valid - if old.map (fun o => blockKey (blockOf o)) = some (blockKey b) then 1 else 0) +
                if blockKey (blockOf loc) = blockKey b then 1 else 0 }) ∧
      u = { s with lineMap := u.lineMap, blocks := u.blocks }) ∧
    (∀ source dest : Loc,
      let u := copyToMap line source dest s
      ((mapGet s line).state.loc ≠ some source → u = s) ∧
      (∀ q, (mapGet s line).state = .present source q → mapGet u line = ⟨.present dest q, (mapGet s line).stamps⟩) ∧
      (∀ q, (mapGet s line).state = .trimmed source q → mapGet u line = ⟨.trimmed dest q, (mapGet s line).stamps⟩) ∧
      ((mapGet s line).state.loc = some source → ∀ b r, blockGet s b = some r →
        blockGet u b = some
          { r with
            valid :=
              (r.valid - if blockKey (blockOf source) = blockKey b then 1 else 0) +
                if blockKey (blockOf dest) = blockKey b then 1 else 0 }) ∧
      (∀ l, l ≠ line → mapGet u l = mapGet s l) ∧ u = { s with lineMap := u.lineMap, blocks := u.blocks })

/-- A LOST grading reaches the map (R16): UNCORRECTABLE is raised; the line becomes DAMAGED with its stamps kept where the entry still names
the slot, and a CLEAN current entry becomes a refresh entry (R106). -/
def Obligations.LostGradingDamagesLine : Prop :=
  ∀ (s : State) (line : Nat) (loc : Loc), MapInv s →
    let u := lostGrading line loc s
    u.maint = (raise .uncorrectable (.line line) s).maint ∧
    ((mapGet s line).state.loc ≠ some loc → u = raise .uncorrectable (.line line) s) ∧
    ((mapGet s line).state.loc = some loc →
      mapGet u line = ⟨.damaged, (mapGet s line).stamps⟩ ∧ (∀ l, l ≠ line → mapGet u l = mapGet s l) ∧
      (∀ b r, blockGet s b = some r →
        blockGet u b = some { r with valid := r.valid - if blockKey (blockOf loc) = blockKey b then 1 else 0 }) ∧
      (∀ i, currentEntry s line = some i → (entryAt s i).state = .clean →
        u.staging = s.staging.set i
          { entryAt s i with
            state := .dirty
            dirtySince := some s.now
            refresh := true
            written := 0
            trimPending := false
            newer := none } ∧
        u.lru = s.lru.filter (· != i) ∧ u.commit.queue = s.commit.queue ++ [i]) ∧
      ((∀ i, currentEntry s line = some i → (entryAt s i).state ≠ .clean) →
        u.staging = s.staging ∧ u.lru = s.lru ∧ u.commit = s.commit))

/-- A block joins the free list (R73, R78): its record is FREE with no valid record, the list keeps its other blocks in their order, and the
block stands behind every block that goes before it by erase count and by die and block; the space conditions follow the count (R75,
R76). -/
def Obligations.FreeBlockJoinsInOrder : Prop :=
  ∀ (s : State) (b : BlockId) (r : BlockRec), blockGet s b = some r →
    let u := joinFree b s
    let rank := fun x => (((blockGet s x).bind (·.eraseCount)).getD 0, blockKey x)
    let before := fun x y => (rank x).1 < (rank y).1 ∨ ((rank x).1 = (rank y).1 ∧ (rank x).2 < (rank y).2)
    blockGet u b = some { r with state := .free, valid := 0, closeSeq := none, work := .none } ∧
    (∃ front back, s.freeList = front ++ back ∧ u.freeList = front ++ b :: back ∧ (∀ a ∈ front, ¬ before b a) ∧
      (∀ a, back.head? = some a → before b a)) ∧
    u.boost = decide (s.freeList.length + 1 ≤ 6) ∧
    (s.freeList.length + 1 ≤ 12 → u.reclaimCond = true) ∧ (20 ≤ s.freeList.length + 1 → u.reclaimCond = false) ∧
    (12 < s.freeList.length + 1 → s.freeList.length + 1 < 20 → u.reclaimCond = s.reclaimCond) ∧
    u = { s with blocks := u.blocks, freeList := u.freeList, boost := u.boost, reclaimCond := u.reclaimCond }

/-! ### Medium answers -/

/-- COMMIT_DELAY_EXPIRY (R59): the clock stands at the front entry's age limit (the model's reading: log 16), and a batch is due. With no
age to reach nothing changes (log 6). A batch is due when one of R59's six triggers holds. In ACTIVE and DRAINING a due batch has a head
opened from the free-list front above its tier, its open sequence drawn from the counter (R53, R55, R174), or is formed on the open head:
the first entries of the queue, as many as the head page takes, get consecutive sequences and the stamps of R60, become COMMITTING and are
programmed (R58, R60). A draw past 2^40 - 1 asks for READ-ONLY (R48). -/
def Obligations.CommitDelayMakesBatchDue : Prop :=
  ∀ s : State,
    let q := s.commit.queue
    let waits := fun (l : List Nat) => ∃ i ∈ l, i ∈ q
    let due := s.maint.settings.threshold ≤ q.length ∨
      (∃ i rest t, q = i :: rest ∧ (entryAt s i).dirtySince = some t ∧ t + s.maint.settings.commitDelay * 1000 ≤ s.now) ∨
      (∃ a started limit, s.host.access = some a ∧ a.phase = .waiting started limit .entry) ∨ s.trim.waiting = true ∨
      (s.maint.slot = some .flush ∧ waits s.flushTracked) ∨ (s.freeze.phase = .flushing ∧ waits s.freeze.tracked) ∨
      s.mode = .draining ∨ waits s.commit.returned
    (s.rstLow = false →
      (∀ i rest t, q = i :: rest → (entryAt s i).dirtySince = some t →
        let u : State := { s with now := max s.now (t + s.maint.settings.commitDelay * 1000) }
        Effect .commitDelayExpiry s u ∧ batchDue u = true) ∧
      (q = [] ∨ (∃ i rest, q = i :: rest ∧ (entryAt s i).dirtySince = none) → Effect .commitDelayExpiry s s)) ∧
    (batchDue s = true ↔ due) ∧
    ((s.mode ≠ .active ∧ s.mode ≠ .draining) ∨ ¬ due → commitStep s = none) ∧
    (s.mode = .active ∨ s.mode = .draining → due →
      let tier := if s.mode = .draining then 0 else 6
      (s.commit.head = none →
        (s.freeList.length ≤ tier →
          (s.mode = .draining → (∀ p ∈ s.blocks, p.2.state ≠ .erasing) → commitStep s = some (requestReadOnly s)) ∧
          (s.mode = .active ∨ (∃ p ∈ s.blocks, p.2.state = .erasing) → commitStep s = none)) ∧
        (∀ b rest, s.freeList = b :: rest → tier < s.freeList.length →
          let t : State :=
            { blockUpd b (fun r => { r with state := .hostHead }) s with
              freeList := rest
              boost := decide (rest.length ≤ 6)
              reclaimCond := if rest.length ≤ 12 then true else if 20 ≤ rest.length then false else s.reclaimCond }
          (∀ v, s.commit.seq = some v → v < 2 ^ 40 →
            commitStep s = some
              (issue (programOp .hostOpenStamp .commitProgram b 0 1 [.openStamp .hostLog v b])
                { t with
                  commit := { s.commit with seq := some (v + 1), head := some ⟨b, 0, 2, 2, .inFlight, some v, none⟩ } })) ∧
          ((∀ v, s.commit.seq = some v → 2 ^ 40 ≤ v) →
            commitStep s = some
              (requestReadOnly { t with commit := { s.commit with head := some ⟨b, 0, 2, 2, .never, none, none⟩ } })))) ∧
      (∀ h, s.commit.head = some h →
        (h.stamp ≠ .passed ∨ s.commit.batch ≠ none ∨ q = [] → commitStep s = none) ∧
        (h.stamp = .passed → s.commit.batch = none → q ≠ [] →
          let n := min q.length (16 - h.next)
          let ids := q.take n
          (∀ v, s.commit.seq = some v → v + n ≤ 2 ^ 40 →
            let recs := ids.zipIdx.map fun (i, k) =>
              let e := entryAt s i
              let line := e.line.getD 0
              ({ entry := i, line := line, kind := e.kind, seq := v + k
                 stamps := if e.kind = .line ∧ isOnce s line = true then (mapGet s line).stamps + (if e.touched then 1 else 0)
                   else 0 } : BatchRec)
            commitStep s = some
              (issue (programOp .batchProgram .commitProgram h.block h.page h.next
                  (recs.map fun r => .record r.kind r.line r.seq r.stamps (entryAt s r.entry).data))
                { s with
                  staging := s.staging.zipIdx.map fun (e, i) => if i ∈ ids then { e with state := .committing, newer := none } else e
                  commit :=
                    { s.commit with
                      queue := q.drop n
                      returned := s.commit.returned.filter (· ∉ ids)
                      seq := some (v + n)
                      batch := some ⟨h.block, h.page, h.next, recs⟩ } })) ∧
          ((∀ v, s.commit.seq = some v → 2 ^ 40 < v + n) → commitStep s = some (requestReadOnly s)))))

/-- The check unit (R92, R93): the slot's grade, the comparison with an expectation, and the grade counts. -/
def Obligations.SlotsAreGraded : Prop :=
  ∀ (r : RawSlot) (line seq : Nat),
    (r.erasedDiff ≤ 6 → checkSlot r = .erased) ∧
    (6 < r.erasedDiff → r.headerOk = false → checkSlot r = .lostUnknown) ∧
    (6 < r.erasedDiff → r.headerOk = true →
      (r.bitErrors = 0 → checkSlot r = .good .clean r.content) ∧
      (1 ≤ r.bitErrors → r.bitErrors ≤ 3 → checkSlot r = .good .corrected r.content) ∧
      (4 ≤ r.bitErrors → r.bitErrors ≤ 6 → checkSlot r = .good .weak r.content) ∧
      (7 ≤ r.bitErrors → checkSlot r = .lostKnown r.content)) ∧
    (∀ g k st p, expectSlot (some (line, seq)) (.good g (.record k line seq st p)) = .good g (.record k line seq st p)) ∧
    (∀ g c, (∀ k st p, c ≠ .record k line seq st p) → expectSlot (some (line, seq)) (.good g c) = .lostKnown c) ∧
    expectSlot (some (line, seq)) .erased = .lostUnknown ∧
    (∀ c, expectSlot (some (line, seq)) (.lostKnown c) = .lostKnown c) ∧
    expectSlot (some (line, seq)) .lostUnknown = .lostUnknown ∧ (∀ x, expectSlot none x = x) ∧
    (∀ n : Grades,
      let up := fun k => min (2 ^ 32 - 1) (k + 1)
      countGrade .erased n = n ∧
      (∀ c, countGrade (.good .clean c) n = { n with clean := up n.clean } ∧
        countGrade (.good .corrected c) n = { n with corrected := up n.corrected } ∧
        countGrade (.good .weak c) n = { n with weak := up n.weak } ∧
        countGrade (.lostKnown c) n = { n with lost := up n.lost }) ∧
      countGrade .lostUnknown n = { n with lost := up n.lost })

/-- A die's answer frees the die (R94): it is READY, its timer stops and its timeouts are forgotten; the slots read are counted by grade
(R92); for a line map read the block's reader count falls (R71). Nothing else changes. The answer of stale work, a scrub read whose walk has
ended (R114) or work issued before an accepted FORMAT (R61, R88, R131, R154), is discarded, but that a LOST grade still reaches the line map
(R20). A stale direct read's answer leaves no direct read outstanding, and a host read that waited for it is then served afresh (R30). -/
def Obligations.AnswerFreesDie : Prop :=
  ∀ (s : State) (d : Nat) (op : Op) (raws : List RawSlot), d < s.dies.length →
    let u := answeredOp d op raws s
    dieAt u d =
      { dieAt s d with
        state := .ready
        inFlight := none
        timer := none
        timeouts := 0
        grades := raws.foldl (fun g r => countGrade (checkSlot r) g) (dieAt s d).grades } ∧
    (∀ k, k ≠ d → dieAt u k = dieAt s k) ∧
    (∀ b r, blockGet s b = some r →
      blockGet u b = some
        { r with
          readers :=
            if op.role.counted = true ∧ blockKey b = blockKey op.block then r.readers - 1 else r.readers }) ∧
    u = { s with dies := u.dies, blocks := u.blocks } ∧
    (op.role.counted = false → raws = [] → dieAnswered d s = u) ∧
    (s.rstLow = false → (dieAt s d).inFlight = some op → op.stale = true →
      let a := dieAnswered d s
      (∀ st : Status,
        (op.role = .hostOpenStamp → Effect (.hostOpenStampAnswer d st) s a) ∧
        (op.role = .batchProgram → Effect (.batchProgramAnswer d st) s a) ∧
        (op.role = .copyOpenStamp → Effect (.copyOpenStampAnswer d st) s a) ∧
        (op.role = .copyProgram → Effect (.copyProgramAnswer d st) s a) ∧
        (op.role = .erase → Effect (.eraseAnswer d st) s a) ∧
        (op.role = .eraseStamp → Effect (.eraseStampAnswer d st) s a) ∧
        (op.role = .identityProgram → d = 0 → Effect (.identityPageProgramAnswer st) s a) ∧
        (op.role = .identityErase → d = 0 → Effect (.identityEraseAnswer st) s a) ∧
        (op.role = .formatErase → d = 0 → Effect (.formatIdentityEraseAnswer st) s a) ∧
        (op.role = .formatProgram → d = 0 → Effect (.formatIdentityProgramAnswer st) s a)) ∧
      (∀ (raw : RawSlot) (line seq : Nat), expects op line seq →
        let r := answeredOp d op [raw] s
        let discarded := fun (c : Instr) =>
          (∀ g kind stamps payload, readGood raw line seq g kind stamps payload → Effect c s r) ∧
          (readLost raw line seq → Effect c s (lostGrading line op.loc r))
        (∀ i, op.role = .readFill i → discarded (.readFillAnswer d raw)) ∧
        (op.role = .copyRead → discarded (.copyReadAnswer d raw)) ∧
        (op.role = .scrubRead → discarded (.scrubReadAnswer d raw)) ∧
        (op.role = .directRead →
          let u : State := { r with host := { s.host with directOut := false } }
          let v := lostGrading line op.loc u
          let served := fun x =>
            (waitsFor s = some .earlierDirect →
              Effect (.directReadAnswer d raw) s (serveRead (accessLine s) (accessOffset s) x)) ∧
            (waitsFor s ≠ some .earlierDirect → Effect (.directReadAnswer d raw) s x)
          (∀ g kind stamps payload, readGood raw line seq g kind stamps payload → served u) ∧
          (readLost raw line seq → served v))))

/-- A read-fill answered good completes its entry (R31, R32): the stored bytes outside the written mask, inside it the host's byte for a
PLAIN line and the AND for a ONCE line. It becomes DIRTY where the host touched it or the grade is WEAK (then a refresh), or where the line
is DAMAGED by now (a refresh, R108); otherwise CLEAN. A read waiting on it is answered (R29). -/
def Obligations.ReadFillGoodCompletesEntry : Prop :=
  ∀ (s : State) (d i : Nat) (op : Op) (raw : RawSlot) (line seq stamps : Nat) (g : Grade) (kind : RecKind) (stored : LineData),
    carries d op (.readFill i) s → expects op line seq → SizeInv s → i < 32 →
    readGood raw line seq g kind stamps stored → (entryAt s i).trimPending = false →
    let u := answeredOp d op [raw] s
    let e := entryAt s i
    let data := (List.range 64).map fun k =>
      if e.written.getLsbD k then
        (if isOnce s line then stored.getD k 0xFF &&& e.data.getD k 0xFF else e.data.getD k 0xFF)
      else stored.getD k 0xFF
    let byte := ({ e with data := data } : Entry).readByte (accessOffset s)
    ((mapGet s line).state = .damaged ∨ g = .weak →
      Effect (.readFillAnswer d raw) s (answeredFetch i byte (dirtied i { e with data := data, refresh := true } u))) ∧
    ((mapGet s line).state ≠ .damaged → g ≠ .weak →
      (e.touched = true →
        Effect (.readFillAnswer d raw) s (answeredFetch i byte (dirtied i { e with data := data, refresh := false } u))) ∧
      (e.touched = false →
        Effect (.readFillAnswer d raw) s (answeredFetch i (data.getD (accessOffset s) 0xFF) (cleaned i e.line data u))))

/-- A read-fill answered LOST first reaches the line map (R16). Where the line is still PRESENT, in another slot, the read-fill is issued
again with the entry as it is (R33), in PARKED withheld and a waiting read given the fill value (R178); where it is not, the entry
completes with 0xFF outside the written mask: DIRTY if host-touched, else FREE, a waiting read given the fill value (R29, R33). -/
def Obligations.ReadFillLostReissuesOrCompletes : Prop :=
  ∀ (s : State) (d i : Nat) (op : Op) (raw : RawSlot) (line seq : Nat),
    carries d op (.readFill i) s → expects op line seq → SizeInv s → i < 32 → readLost raw line seq →
    let u := lostGrading line op.loc (answeredOp d op [raw] s)
    let e := entryAt u i
    let data := (List.range 64).map fun k => if e.written.getLsbD k then e.data.getD k 0xFF else 0xFF
    e.trimPending = false →
    (∀ loc q, (mapGet u line).state = .present loc q →
      (s.mode ≠ .parked → Effect (.readFillAnswer d raw) s (issue (mapRead (.readFill i) .hostRead line loc q) u)) ∧
      (s.mode = .parked →
        Effect (.readFillAnswer d raw) s (answeredFetch i 0xFF { u with withheld := u.withheld ++ [i] }))) ∧
    ((∀ loc q, (mapGet u line).state ≠ .present loc q) →
      (e.touched = true →
        Effect (.readFillAnswer d raw) s
          (answeredFetch i (({ e with data := data } : Entry).readByte (accessOffset s)) (dirtied i { e with data := data } u))) ∧
      (e.touched = false → Effect (.readFillAnswer d raw) s (answeredFetch i 0xFF (freed i u))))

/-- A trim-pending entry completes whatever the grade of its fetch (R40): to a DIRTY TRIM entry where no byte was written since, to a DIRTY
LINE entry of the written bytes and 0xFF otherwise. -/
def Obligations.TrimPendingFetchBecomesTrim : Prop :=
  ∀ (s : State) (d i : Nat) (op : Op) (raw : RawSlot) (line seq : Nat),
    carries d op (.readFill i) s → expects op line seq → SizeInv s → i < 32 →
    let v := answeredOp d op [raw] s
    let ends := fun (u : State) =>
      let e := entryAt u i
      let data := (List.range 64).map fun k => if e.written.getLsbD k then e.data.getD k 0xFF else 0xFF
      e.trimPending = true →
      (e.written = 0 →
        Effect (.readFillAnswer d raw) s
          (answeredFetch i 0xFF (dirtied i { e with kind := .trim, data := [], touched := false, refresh := false } u))) ∧
      (e.written ≠ 0 →
        Effect (.readFillAnswer d raw) s
          (answeredFetch i (data.getD (accessOffset s) 0xFF)
            (dirtied i { e with kind := .line, data := data, touched := true, refresh := false } u)))
    (∀ g kind stamps stored, readGood raw line seq g kind stamps stored → ends v) ∧
    (readLost raw line seq → ends (lostGrading line op.loc v))

/-- A direct read is answered (R30): the waiting read takes the stored byte; LOST, it reads the slot the line has moved to, or takes the
fill value (R16), and in PARKED, where no new read is issued, the fill value in either case (R178; the model's reading of which: log 22).
One whose access is gone is discarded but for R16 (R20); a read that waited for its answer is then served afresh. -/
def Obligations.DirectReadAnswered : Prop :=
  ∀ (s : State) (d : Nat) (op : Op) (raw : RawSlot) (line seq : Nat), carries d op .directRead s → expects op line seq →
    let u : State := { answeredOp d op [raw] s with host := { s.host with directOut := false } }
    let v := lostGrading line op.loc u
    (∀ g kind stamps stored, readGood raw line seq g kind stamps stored →
      (waitsFor s = some .direct →
        Effect (.directReadAnswer d raw) s (answeredWait (stored.getD (accessOffset s) 0xFF) u)) ∧
      (waitsFor s = some .earlierDirect →
        Effect (.directReadAnswer d raw) s (serveRead (accessLine s) (accessOffset s) u)) ∧
      (waitsFor s ≠ some .direct → waitsFor s ≠ some .earlierDirect → Effect (.directReadAnswer d raw) s u)) ∧
    (readLost raw line seq →
      (waitsFor s = some .direct →
        (∀ loc q, (mapGet v line).state = .present loc q → s.mode ≠ .parked →
          Effect (.directReadAnswer d raw) s
            (issue (mapRead .directRead .hostRead line loc q) { v with host := { s.host with directOut := true } })) ∧
        ((∀ loc q, (mapGet v line).state ≠ .present loc q) ∨ s.mode = .parked →
          Effect (.directReadAnswer d raw) s (answeredWait 0xFF v))) ∧
      (waitsFor s = some .earlierDirect →
        Effect (.directReadAnswer d raw) s (serveRead (accessLine s) (accessOffset s) v)) ∧
      (waitsFor s ≠ some .direct → waitsFor s ≠ some .earlierDirect → Effect (.directReadAnswer d raw) s v))

/-- A copy read is answered (R123): a good record whose slot the map still names joins the buffer; a LOST one reaches the line map (R16). The
last answer of a group issues the copy program of the buffer on the copy head (R124), or, with nothing gathered, ends the group; in
STOPPED the group's reads are discarded and the read cursor goes back (R130). -/
def Obligations.CopyReadAnswered : Prop :=
  ∀ (s : State) (d : Nat) (op : Op) (raw : RawSlot) (line seq : Nat), carries d op .copyRead s → expects op line seq →
    let a := answeredOp d op [raw] s
    let ends := fun (v : State) (buf : List CopyRec) =>
      let r := { v.reclaim with buffer := buf, readsOut := v.reclaim.readsOut - 1 }
      (1 < s.reclaim.readsOut → Effect (.copyReadAnswer d raw) s { v with reclaim := r }) ∧
      (∀ src, s.reclaim.readsOut = 1 → s.reclaim.source = some src →
        (s.reclaim.discard = true →
          Effect (.copyReadAnswer d raw) s
            { v with
              reclaim :=
                { r.setCursors src (r.keptCursor src) (r.keptCursor src) with
                  buffer := []
                  discard := false
                  state := if r.state = .reading then .idle else r.state } }) ∧
        (s.reclaim.discard = false →
          (buf = [] →
            Effect (.copyReadAnswer d raw) s (groupOver src { v with reclaim := { r with state := .idle, buffer := [] } })) ∧
          (∀ h, buf ≠ [] → s.reclaim.head = some h →
            Effect (.copyReadAnswer d raw) s
              (issue
                (programOp .copyProgram (match src with
                  | .victim => .reclaimCopy
                  | .relocation => .relocationCopy) h.block h.page h.next
                  (buf.map fun c => .record c.kind c.line c.seq c.stamps c.payload))
                { v with reclaim := { r with state := .programming, programOut := true } }))))
    (∀ g kind stamps payload, readGood raw line seq g kind stamps payload →
      (s.reclaim.discard = false → (mapGet s line).state.loc = some op.loc →
        ends a (bufferInsert ⟨op.loc, kind, line, seq, stamps, payload⟩ s.reclaim.buffer)) ∧
      (s.reclaim.discard = true ∨ (mapGet s line).state.loc ≠ some op.loc → ends a s.reclaim.buffer)) ∧
    (readLost raw line seq → ends (lostGrading line op.loc a) s.reclaim.buffer)

/-- A scrub read is answered (R112, R113): CLEAN and CORRECTED end the line; LOST reaches the line map and ends the line; WEAK makes a refresh
entry of the line's CLEAN entry, or of an entry R25 gives, where the map still names the slot read, and otherwise ends the line; with no
entry to be had the walker holds the payload and waits. That the map must still hold both the location and the sequence of the read slot that
R110 keeps is the model's reading (log 18). -/
def Obligations.ScrubReadAnswered : Prop :=
  ∀ (s : State) (d : Nat) (op : Op) (raw : RawSlot) (line seq : Nat), carries d op .scrubRead s → expects op line seq →
    let a := answeredOp d op [raw] s
    let ends := fun t => Effect (.scrubReadAnswer d raw) s (scrubLineDone t)
    let now := s.scrub.current
    let named := ∃ loc q, (mapGet s now).state = .present loc q ∧ s.scrub.readSlot = some (loc, q)
    (readLost raw line seq → ends (lostGrading line op.loc a)) ∧
    (∀ g kind stamps payload, readGood raw line seq g kind stamps payload →
      (g ≠ .weak → ends a) ∧
      (g = .weak → ¬ named → ends a) ∧
      (g = .weak → named →
        (∀ i, currentEntry s now = some i →
          ((entryAt s i).state = .clean →
            ends (dirtied i { entryAt s i with refresh := true } { a with lru := s.lru.filter (· != i) })) ∧
          ((entryAt s i).state ≠ .clean → ends a)) ∧
        (currentEntry s now = none →
          (∀ i t, allocate a = some (i, t) →
            ends (dirtied i { Entry.cleared with line := some now, data := payload, refresh := true } t)) ∧
          (allocate a = none → s.scrub.abortPending = true → ends a) ∧
          (allocate a = none → s.scrub.abortPending = false →
            Effect (.scrubReadAnswer d raw) s
              { a with scrub := { s.scrub with state := .waiting, held := some payload } }))))

/-- The scrub walker's line is done (R112, R115): an ABORT taken meanwhile completes the command ABORTED; after the last line it completes
OK; otherwise the next line that is to be read becomes the current line, and the command completes OK where none is left (R111). -/
def Obligations.ScrubLineDoneGoesOn : Prop :=
  ∀ (s : State) (f n : Nat), s.maint.slot = some (.scrub f n) →
    let idle := fun (k : Nat) => markStale (·.role == .scrubRead)
      { s with
        scrub := { s.scrub with current := k, state := .idle, readSlot := none, held := none, abortPending := false } }
    let next := s.scrub.current + 1
    (s.scrub.abortPending = true → scrubLineDone s = completed .scrub .aborted (idle next)) ∧
    (s.scrub.abortPending = false →
      (s.scrub.last ≤ s.scrub.current → scrubLineDone s = completed .scrub .ok (idle next)) ∧
      (∀ k loc seq, next ≤ k → k ≤ s.scrub.last → scrubReads s k loc seq →
        (∀ j, next ≤ j → j < k → ¬ ∃ loc' seq', scrubReads s j loc' seq') →
        scrubLineDone s = issue (mapRead .scrubRead .scrubRead k loc seq)
          { s with
            scrub := { s.scrub with current := k, state := .reading, readSlot := some (loc, seq), held := none } }) ∧
      (next ≤ s.scrub.last → (∀ j, next ≤ j → j ≤ s.scrub.last → ¬ ∃ loc seq, scrubReads s j loc seq) →
        scrubLineDone s = completed .scrub .ok (idle (s.scrub.last + 1))))

/-- An open stamp is answered (R54, R120): passed, the head may take programs; failed, PROGRAM_FAIL is raised, there is no head, and its
block becomes RELOCATING with its close sequence (R70): it joins the relocation list, or, empty and unread, awaits retirement (R128). A copy
head is requested, for relocation while the relocation list is not empty (R120): its tier takes the free-list front and draws the open
sequence for the stamp, or refuses, and then the engine waits for space or asks for READ-ONLY (R74, R121). With the sequence counter spent
no stamp is issued, the block stays COPY HEAD and READ-ONLY is asked for (R120); that the engine then keeps it as its head, at page 0, next
slot 2, programs used 2, with a stamp that is never issued, is the model's reading (log 43). -/
def Obligations.OpenStampAnswered : Prop :=
  ∀ (s : State) (d : Nat) (op : Op) (h : LogHead),
    let a := dieAnswered d s
    let leaves := if s.reclaim.state = .opening then EngineState.idle else s.reclaim.state
    (carries d op .hostOpenStamp s → s.commit.head = some h →
      Effect (.hostOpenStampAnswer d .pass) s { a with commit := { s.commit with head := some { h with stamp := .passed } } } ∧
      Effect (.hostOpenStampAnswer d .fail) s
        (relocateHead h { raise .programFail (.block h.block) a with commit := { s.commit with head := none } })) ∧
    (carries d op .copyOpenStamp s → s.reclaim.head = some h →
      Effect (.copyOpenStampAnswer d .pass) s
        { a with reclaim := { s.reclaim with head := some { h with stamp := .passed }, state := leaves } } ∧
      Effect (.copyOpenStampAnswer d .fail) s
        (relocateHead h
          { raise .programFail (.block h.block) a with reclaim := { s.reclaim with head := none, state := leaves } })) ∧
    (∀ r, blockGet s h.block = some r →
      let u := relocateHead h s
      let seq := if h.topSeq.isSome then h.topSeq else h.openSeq
      let q := s.reclaim
      (r.valid = 0 → r.readers = 0 →
        blockGet u h.block = some { r with state := .relocating, closeSeq := seq, work := .retireWaiting } ∧
          u = { s with blocks := u.blocks, reclaim := { q with retireWait := q.retireWait ++ [h.block] } }) ∧
      (r.valid ≠ 0 ∨ r.readers ≠ 0 →
        blockGet u h.block = some { r with state := .relocating, closeSeq := seq } ∧
          u = { s with
            blocks := u.blocks
            reclaim :=
              { q with
                reloc := q.reloc ++ [h.block]
                relocRead := if q.reloc = [] then 2 else q.relocRead
                relocKept := if q.reloc = [] then 2 else q.relocKept
                retryDue := true } }) ∧
      (∀ b, blockKey b ≠ blockKey h.block → blockGet u b = blockGet s b)) ∧
    (let q := s.reclaim
     let tier := if q.reloc = [] then 1 else 0
     (s.freeList.length ≤ tier →
       (q.reloc ≠ [] ∨ (∀ p ∈ s.blocks, p.2.state ≠ .erasing) → requestCopyHead s = requestReadOnly s) ∧
       (q.reloc = [] → (∃ p ∈ s.blocks, p.2.state = .erasing) →
         requestCopyHead s = { s with reclaim := { q with state := .spaceWait, retryDue := false } })) ∧
     (∀ b rest, s.freeList = b :: rest → tier < s.freeList.length →
       let t : State :=
         { blockUpd b (fun r => { r with state := .copyHead }) s with
           freeList := rest
           boost := decide (rest.length ≤ 6)
           reclaimCond := if rest.length ≤ 12 then true else if 20 ≤ rest.length then false else s.reclaimCond }
       (∀ v, s.commit.seq = some v → v < 2 ^ 40 →
         requestCopyHead s =
           issue (programOp .copyOpenStamp (if q.reloc = [] then .reclaimCopy else .relocationCopy) b 0 1 [.openStamp .copyLog v b])
             { t with
               commit := { s.commit with seq := some (v + 1) }
               reclaim := { q with state := .opening, head := some ⟨b, 0, 2, 2, .inFlight, some v, none⟩ } }) ∧
       ((∀ v, s.commit.seq = some v → 2 ^ 40 ≤ v) →
         requestCopyHead s =
           requestReadOnly { t with reclaim := { q with head := some ⟨b, 0, 2, 2, .never, none, none⟩ } })))

/-- A batch program passes (R14, R62, R63): each record, in batch order, reaches the map at its slot, and its entry becomes CLEAN, or FREE where
it is a TRIM or has a linked entry; a refresh is counted (R105). The head moves on by R56, and off page 63 its block is CLOSED (R57). -/
def Obligations.BatchProgramPasses : Prop :=
  ∀ (s : State) (d : Nat) (op : Op) (b : Batch) (h : LogHead), carries d op .batchProgram s → s.commit.batch = some b →
    s.commit.head = some h →
    let a : State := { dieAnswered d s with commit := { s.commit with batch := none } }
    let v := b.recs.zipIdx.foldl (fun x p => commitRec (locIn b.block b.page (b.first + p.2)) p.1 x) a
    let n := b.recs.length
    let top := b.recs.foldl (fun m r => some (max r.seq (m.getD 0))) h.topSeq
    let left := h.used + 1 = 3 ∨ h.next + n = 16
    let headed := fun x => ({ v with commit := { v.commit with head := x } } : State)
    let pass := Effect (.batchProgramAnswer d .pass) s
    (¬ left → pass (headed (some { h with next := h.next + n, used := h.used + 1, topSeq := top }))) ∧
    (left → h.page + 1 < 64 → pass (headed (some { h with page := h.page + 1, next := 0, used := 0, topSeq := top }))) ∧
    (left → 64 ≤ h.page + 1 →
      pass (blockUpd h.block (fun r => { r with state := .closed, closeSeq := if top.isSome then top else h.openSeq })
        (headed none))) ∧
    (∀ (x : State) (loc : Loc) (r : BatchRec),
      let e := entryAt x r.entry
      let m := commitToMap r.line r.kind r.seq r.stamps loc x
      let m := if e.refresh then
          ({ m with commit := { m.commit with refreshes := min (2 ^ 32 - 1) (m.commit.refreshes + 1) } } : State) else m
      (e.kind = .line → e.newer = none → commitRec loc r x = cleaned r.entry e.line e.data m) ∧
      (e.kind = .trim ∨ e.newer ≠ none → commitRec loc r x = freed r.entry m))

/-- A batch program fails (R64): PROGRAM_FAIL is raised; an entry of the batch with no linked entry is DIRTY again at the head of the queue,
in batch order, and any other is FREE; the map keeps every entry; and the failed head is RELOCATING (R128), or CLOSED in DRAINING and PARKED
(R174). In the tracked sets of FLUSH and TRIM the linked entry takes the freed entry's place (R184, R185); from FREEZE's the freed entry
leaves (R140); an entry that is DIRTY again stays. Nothing else changes. -/
def Obligations.BatchProgramFails : Prop :=
  ∀ (s : State) (d : Nat) (op : Op) (b : Batch) (h : LogHead), carries d op .batchProgram s → s.commit.batch = some b →
    s.commit.head = some h → SizeInv s → (∀ r ∈ b.recs, r.entry < 32) → (b.recs.map (·.entry)).Nodup →
    let back := (b.recs.filter fun r => (entryAt s r.entry).newer.isNone).map (·.entry)
    let freed := fun i => i ∈ b.recs.map (·.entry) ∧ (entryAt s i).newer ≠ none
    let moved := fun (tracked : List Nat) => b.recs.foldl (fun l r =>
      match (entryAt s r.entry).newer with
      | some j => (if r.entry ∈ l then setAdd j l else l).filter (· ≠ r.entry)
      | none => l) tracked
    ((∀ i j, freed i → (entryAt s i).newer = some j → ¬ freed j) →
      ∀ l k, k ∈ moved l ↔ (k ∈ l ∧ ¬ freed k) ∨ ∃ i ∈ l, freed i ∧ (entryAt s i).newer = some k) ∧
    ∃ v : State,
      (s.mode = .draining ∨ s.mode = .parked →
        Effect (.batchProgramAnswer d .fail) s
          (blockUpd h.block
            (fun r => { r with state := .closed, closeSeq := if h.topSeq.isSome then h.topSeq else h.openSeq }) v)) ∧
      (s.mode ≠ .draining → s.mode ≠ .parked → Effect (.batchProgramAnswer d .fail) s (relocateHead h v)) ∧
      v =
        { raise .programFail (.block b.block) (dieAnswered d s) with
          staging := v.staging
          flushTracked := moved s.flushTracked
          trim := { s.trim with tracked := moved s.trim.tracked }
          freeze := { s.freeze with tracked := s.freeze.tracked.filter fun i => decide (¬ freed i) }
          commit :=
            { s.commit with head := none, batch := none, queue := back ++ s.commit.queue, returned := back ++ s.commit.returned } } ∧
      (∀ r ∈ b.recs, (entryAt s r.entry).newer = none →
        entryAt v r.entry = { entryAt s r.entry with state := .dirty }) ∧
      (∀ r ∈ b.recs, (entryAt s r.entry).newer ≠ none → entryAt v r.entry = Entry.cleared) ∧
      (∀ i, i ∉ b.recs.map (·.entry) → entryAt v i = entryAt s i)

/-- A copy program is answered. Passed (R125), each record's entry moves to its slot where it still names the source (R15), the copy head moves
on (R119), and the group is over; failed (R126), PROGRAM_FAIL is raised, the read cursor goes back and the failed copy head is
RELOCATING (R128). When a group is over the kept cursor follows, and at the walk's end a victim is walked and a relocated block awaits
retirement (R126). An IDLE engine chooses in ACTIVE (R117): the relocation list's front, else the victim that is not walked, else, with the
reclaim condition set, the victim of R118, or READ-ONLY where none is left and space is out. The chosen source gets a copy head, or its next
group: the slots from the read cursor on that the map names, as many as the head's page takes, are read together (R122; log 14); but a
source whose valid count is 0 needs no copy head, and its walk ends at once (the model's reading: log 25). -/
def Obligations.CopyProgramAnswered : Prop :=
  (∀ (s : State) (d : Nat) (op : Op) (src : Source) (h : LogHead), carries d op .copyProgram s → s.reclaim.source = some src →
    s.reclaim.head = some h →
    let a := dieAnswered d s
    let buf := s.reclaim.buffer
    let ended := fun (q : Reclaim) =>
      ({ q with buffer := [], programOut := false, state := if q.state = EngineState.programming then .idle else q.state } :
        Reclaim)
    let v := buf.zipIdx.foldl (fun x p => copyToMap p.1.line p.1.source (locIn h.block h.page (h.next + p.2)) x) a
    let n := buf.length
    let top := buf.foldl (fun m c => some (max c.seq (m.getD 0))) h.topSeq
    let left := h.used + 1 = 3 ∨ h.next + n = 16
    let headed := fun x => ({ v with reclaim := { ended s.reclaim with head := x } } : State)
    let pass := fun t => Effect (.copyProgramAnswer d .pass) s (groupOver src t)
    let kept := s.reclaim.keptCursor src
    (¬ left → pass (headed (some { h with next := h.next + n, used := h.used + 1, topSeq := top }))) ∧
    (left → h.page + 1 < 64 → pass (headed (some { h with page := h.page + 1, next := 0, used := 0, topSeq := top }))) ∧
    (left → 64 ≤ h.page + 1 →
      pass (blockUpd h.block (fun r => { r with state := .closed, closeSeq := if top.isSome then top else h.openSeq })
        (headed none))) ∧
    Effect (.copyProgramAnswer d .fail) s
      (relocateHead h
        { raise .programFail (.block h.block) a with
          reclaim := { (ended s.reclaim).setCursors src kept kept with head := none } }) ∧
    (∀ x : State,
      (x.reclaim.readCursor src ≠ 1024 →
        groupOver src x =
          { x with reclaim := x.reclaim.setCursors src (x.reclaim.readCursor src) (x.reclaim.readCursor src) }) ∧
      (src = .victim → x.reclaim.victimRead = 1024 →
        groupOver src x = { x with reclaim := { x.reclaim with victimKept := 1024, victimWalked := true, source := none } }) ∧
      (∀ b rest, src = .relocation → x.reclaim.relocRead = 1024 → x.reclaim.reloc = b :: rest →
        groupOver src x =
          { blockUpd b (fun r => { r with work := .retireWaiting }) x with
            reclaim :=
              { x.reclaim with
                reloc := rest
                relocRead := 2
                relocKept := 2
                source := none
                retireWait := x.reclaim.retireWait ++ [b] } }))) ∧
  ∀ s : State, keysRise s.blocks = true →
    let q := s.reclaim
    let step := reclaimStep s
    (s.mode ≠ .active ∨ (q.state ≠ .idle ∧ (q.state = .spaceWait → q.retryDue = false)) → step = none) ∧
    (s.mode = .active → q.state = .spaceWait → q.retryDue = true →
      step = some (requestCopyHead { s with reclaim := { q with retryDue := false } })) ∧
    (s.mode = .active → q.state = .idle →
      let works := fun (src : Source) (b : BlockId) =>
        let start := q.readCursor src
        let named := (List.range 1024).filter fun k => decide (start ≤ k) && (lineAt s (locIn b (k / 16) (k % 16))).isSome
        ((blockGet s b).map (·.valid) = some 0 → step = some (groupOver src { s with reclaim := q.setCursors src 1024 1024 })) ∧
        ((blockGet s b).map (·.valid) ≠ some 0 →
          (q.head = none → step = some (requestCopyHead { s with reclaim := { q with source := some src } })) ∧
          (∀ h, q.head = some h → h.next < 16 → start ≤ 1024 →
            let n := 16 - h.next
            let group := named.take n
            let last := if named.length < n then 1024 else (group.getLast?.map (· + 1)).getD 1024
            let moved := { q.setCursors src last (q.keptCursor src) with source := some src }
            (group = [] → step = some (groupOver src { s with reclaim := moved })) ∧
            (group ≠ [] →
              step = some
                (issueTogether
                  (group.filterMap fun k =>
                    let loc := locIn b (k / 16) (k % 16)
                    (lineAt s loc).map fun l =>
                      mapRead .copyRead (match src with
                        | .victim => .reclaimCopy
                        | .relocation => .relocationCopy) l loc ((mapGet s l).state.seq.getD 0))
                  { s with reclaim := { moved with state := .reading, readsOut := group.length, buffer := [] } }))))
      let fits := fun (p : Nat × BlockRec) =>
        p ∈ s.blocks ∧ p.2.state = .closed ∧ p.2.valid < 1022 ∧ (dieAt s (p.1 / 256)).state ≠ .offline
      let first := fun (p r : Nat × BlockRec) =>
        p.2.valid < r.2.valid ∨ (p.2.valid = r.2.valid ∧ (p.2.closeSeq.getD 0 < r.2.closeSeq.getD 0 ∨
          (p.2.closeSeq.getD 0 = r.2.closeSeq.getD 0 ∧ p.1 < r.1)))
      (∀ b rest, q.reloc = b :: rest → works .relocation b) ∧
      (∀ v, q.reloc = [] → q.victim = some v →
        (q.victimWalked = true → step = none) ∧ (q.victimWalked = false → works .victim v)) ∧
      (q.reloc = [] → q.victim = none →
        (s.reclaimCond = false → step = none) ∧
        (∀ p, s.reclaimCond = true → fits p → (∀ r, fits r → r ≠ p → first p r) →
          let b : BlockId := ⟨p.1 / 256, p.1 % 256⟩
          step = some
            { blockUpd b (fun r => { r with state := .victim }) s with
              reclaim := { q with victim := some b, victimRead := 2, victimKept := 2, victimWalked := false } }) ∧
        (s.reclaimCond = true → (∀ p, ¬ fits p) →
          (s.freeList.length ≤ 6 → step = some (requestReadOnly s)) ∧ (6 < s.freeList.length → step = none)))) ∧
    (MapInv s → ∀ loc l,
      (lineAt s loc = some l → (mapGet s l).state.loc = some loc) ∧
        (lineAt s loc = none → (mapGet s l).state.loc ≠ some loc))

/-- An erase is answered (R78): passed, the erase stamp is programmed at page 0 slot 0 with the serial and the next erase count (R44, R72); the
stamp passed, the block is FREE and joins the free list, and a waiting copy-head request may be asked again (R121). A failure raises
its fault, and the block awaits retirement (R79), or is retired by the format or meets RETIRE_LIMIT (R155). In UNFORMATTED nothing
follows (R157). A walked victim that is empty and unread becomes ERASING (R127, R130); the erases that wait for neither a read nor an
earlier operation are queued together (R71, R78, R155), and so count as issued together (the model's choice: log 14); and an emptied block
that awaits retirement is handed to the identity manager, or meets RETIRE_LIMIT (R129), of several the one that came first (the model's
choice: log 27). -/
def Obligations.EraseAndStampAnswered : Prop :=
  ∀ (s : State) (d : Nat) (op : Op),
    let b := op.block
    let a := dieAnswered d s
    let failed := fun (c : Instr) (x : State) =>
      (s.format = none →
        Effect c s
          { blockUpd b (fun r => { r with work := .retireWaiting }) x with
            reclaim := { s.reclaim with retireWait := s.reclaim.retireWait ++ [b] } }) ∧
      (∀ j, s.format = some j →
        (s.ident.retired.length < 128 →
          Effect c s
            (blockUpd b (fun r => { r with state := .retired, valid := 0, closeSeq := none, work := .none })
              { x with ident := { s.ident with retired := s.ident.retired ++ [b] } })) ∧
        (128 ≤ s.ident.retired.length →
          Effect c s
            (raise .retireLimit (.block b)
              { blockUpd b (fun r => { r with work := .stuck }) x with format := some { j with limitMet := true } })))
    (carries d op .erase s →
      (s.mode ≠ .unformatted →
        Effect (.eraseAnswer d .pass) s
          (issue (programOp .eraseStamp .eraseStamp b 0 0 [.eraseStamp (currentSerial s) (nextErase s b)])
            (blockUpd b (fun r => { r with work := .stampOut }) a)) ∧
        failed (.eraseAnswer d .fail) (raise .eraseFail (.block b) a)) ∧
      (s.mode = .unformatted →
        Effect (.eraseAnswer d .pass) s a ∧ Effect (.eraseAnswer d .fail) s (raise .eraseFail (.block b) a))) ∧
    (∀ serial count, carries d op .eraseStamp s → op.data = .slots [.eraseStamp serial count] →
      let v := blockUpd b (fun r => { r with eraseCount := some count }) a
      (s.mode ≠ .unformatted →
        Effect (.eraseStampAnswer d .pass) s { joinFree b v with reclaim := { s.reclaim with retryDue := true } } ∧
        failed (.eraseStampAnswer d .fail) (raise .programFail (.block b) a)) ∧
      (s.mode = .unformatted →
        Effect (.eraseStampAnswer d .pass) s v ∧ Effect (.eraseStampAnswer d .fail) s (raise .programFail (.block b) a))) ∧
    (∀ c, (blockGet s b).bind (·.eraseCount) = some c → c < 2 ^ 32 - 1 → nextErase s b = c + 1) ∧
    ((blockGet s b).bind (·.eraseCount) = none →
      nextErase s b = if s.format.isSome then 0 else s.mount.largestErase) ∧
    (let q := s.reclaim
     let hands := s.mode = .active ∨ s.mode = .readOnly
     let emptyOne := fun (b : BlockId) => ∃ r, blockGet s b = some r ∧ r.valid = 0 ∧ r.readers = 0
     (∀ b, q.victim = some b → q.victimWalked = true → hands → emptyOne b →
       victimStep s = some
         { blockUpd b (fun r => { r with state := .erasing, closeSeq := none, work := .eraseWaiting }) s with
           reclaim := { q with victim := none, victimRead := 2, victimKept := 2, victimWalked := false } }) ∧
     ((∀ b, q.victim = some b → q.victimWalked = true → hands → ¬ emptyOne b) → victimStep s = none) ∧
     (¬ hands ∨ (∀ b ∈ q.retireWait, ¬ emptyOne b) → retireStep s = none) ∧
     (∀ front b back, hands → q.retireWait = front ++ b :: back → (∀ c ∈ front, ¬ emptyOne c) → emptyOne b →
       let left := q.retireWait.filter (· != b)
       (s.ident.retired.length + q.retirements < 128 →
         retireStep s = some
           { blockUpd b (fun r => { r with work := .retireHanded }) s with
             reclaim := { q with retireWait := left, retirements := q.retirements + 1 }
             ident := { s.ident with queue := s.ident.queue ++ [.retire b] } }) ∧
       (128 ≤ s.ident.retired.length + q.retirements →
         retireStep s = some
           (requestReadOnly (raise .retireLimit (.block b)
             { blockUpd b (fun r => { r with work := .stuck }) s with reclaim := { q with retireWait := left } }))))) ∧
    (keysRise s.blocks = true →
      let waits := fun (p : Nat × BlockRec) =>
        p.2.work == .eraseWaiting && p.2.readers == 0 &&
          (dieAt s (p.1 / 256)).ops.all (fun o => o.block != ⟨p.1 / 256, p.1 % 256⟩)
      ((∀ p ∈ s.blocks, waits p = false) → eraseStep s = none) ∧
      ((∃ p ∈ s.blocks, waits p = true) →
        eraseStep s = some
          (issueTogether ((s.blocks.filter waits).map fun p => eraseOp .erase .eraseStamp ⟨p.1 / 256, p.1 % 256⟩)
            { s with blocks := s.blocks.map fun p => if waits p then (p.1, { p.2 with work := .eraseOut }) else p })))

/-- The identity manager forms its updates and has them answered. With requests waiting and no update running, one update serves them all,
in the modes of R148. It goes to copy A and then to copy B, a copy not GOOD being passed over: its page (R149), or, where the pages are used
up or a roll is due, the roll's erase, descriptor and page (R150). A failure makes the copy FAILED and raises IDENTITY_FAIL (R151). At its
end the blocks of its retirements are RETIRED, a FREEZE it persisted completes, and with no copy written READ-ONLY is asked for (R142,
R148). A format's erases and programs are answered alike (R154, R156). R142 gives MEDIUM to a FREEZE that READ-ONLY stopped in FLUSHING,
whatever the update's answer, and ABORTED to one that met an ABORT in PERSISTING whose update was written; that a FREEZE which met both,
with its update written, completes MEDIUM is the model's reading (log 30). -/
def Obligations.IdentityWritesAnswered : Prop :=
  ∀ (s : State) (op : Op) (c : IdCopy),
    let a := dieAnswered 0 s
    let k := s.ident.copy c
    let after := if c = .a then UpdateStage.start .b else .done
    (∀ u, s.ident.update = some u →
      let staged := fun st => { s.ident with update := some { u with stage := st } }
      let written := fun n =>
        { s.ident with update := some { u with stage := after, written := true } }.setCopy c
          { k with next := n, rollDue := false }
      let failed : State :=
        { raise .identityFail (.block (copyBlock c)) a with ident := (staged after).setCopy c { k with good := false } }
      (carries 0 op .identityProgram s →
        (u.stage = .out c .page → Effect (.identityPageProgramAnswer .pass) s { a with ident := written (k.next + 1) }) ∧
        (u.stage = .out c .rollDescriptor →
          Effect (.identityPageProgramAnswer .pass) s { a with ident := staged (.ready c .rollPage) }) ∧
        (u.stage = .out c .rollPage → Effect (.identityPageProgramAnswer .pass) s { a with ident := written 2 }) ∧
        (∀ st, u.stage = .out c st → Effect (.identityPageProgramAnswer .fail) s failed)) ∧
      (carries 0 op .identityErase s → u.stage = .out c .rollErase →
        Effect (.identityEraseAnswer .pass) s { a with ident := staged (.ready c .rollDescriptor) } ∧
        Effect (.identityEraseAnswer .fail) s failed)) ∧
    (∀ j, s.format = some j →
      let copyFails : State :=
        { raise .identityFail (.block (copyBlock c)) a with ident := s.ident.setCopy c { k with good := false } }
      let next := if c = .a then FormatWrite.start .b else .done
      (carries 0 op .formatErase s → op.block = copyBlock c →
        Effect (.formatIdentityEraseAnswer .pass) s { a with format := some { j with erasesOut := j.erasesOut - 1 } } ∧
        Effect (.formatIdentityEraseAnswer .fail) s
          { copyFails with format := some { j with erasesOut := j.erasesOut - 1 } }) ∧
      (carries 0 op .formatProgram s →
        (j.write = .out c 0 →
          Effect (.formatIdentityProgramAnswer .pass) s
            (issue (pageProgram .formatProgram c 1 (.update ⟨1, [], s.ident.retired⟩))
              { a with format := some { j with write := .out c 1 } })) ∧
        (j.write = .out c 1 →
          Effect (.formatIdentityProgramAnswer .pass) s
            { a with
              format := some
                { j with write := next, wroteA := j.wroteA || c == .a, wroteB := j.wroteB || c == .b } }) ∧
        (∀ p, j.write = .out c p →
          Effect (.formatIdentityProgramAnswer .fail) s { copyFails with format := some { j with write := next } }))) ∧
    (let m := s.ident
     let works := s.mode = .active ∨ s.mode = .readOnly ∨ s.mode = .draining
     let retires := fun (l : List IdRequest) => l.filterMap fun r => match r with
       | .retire b => some b
       | .frozenSet _ => none
     (m.update = none →
       (¬ works ∨ m.queue = [] → identityStep s = none) ∧
       (works → m.queue ≠ [] →
         identityStep s = some
           { s with
             ident :=
               { m with
                 counter := m.counter + 1
                 queue := []
                 update := some
                   { served := m.queue, page := ⟨m.counter + 1, s.frozen, m.retired ++ retires m.queue⟩, stage := .start .a,
                     written := false } } })) ∧
     (∀ u, m.update = some u →
       let staged := fun st => ({ s with ident := { m with update := some { u with stage := st } } } : State)
       (u.stage = .start c →
         (k.good = false → identityStep s = some (staged after)) ∧
         (k.good = true → k.rollDue = true ∨ k.next = 64 → identityStep s = some (staged (.ready c .rollErase))) ∧
         (k.good = true → k.rollDue = false → k.next ≠ 64 → identityStep s = some (staged (.ready c .page)))) ∧
       (∀ st, u.stage = .out c st ∨ (u.stage = .ready c st ∧ ¬ works) → identityStep s = none) ∧
       (works →
         let issues := fun st o => identityStep s = some (issue o (staged (.out c st)))
         let page := fun p data =>
           ({ role := .identityProgram, cls := .identity, block := copyBlock c, page := p, slot := 0, count := 16,
              expect := none, data := .page data, stale := false, ticket := 0 } : Op)
         (u.stage = .ready c .page → issues .page (page k.next (.update u.page))) ∧
         (u.stage = .ready c .rollErase → issues .rollErase (eraseOp .identityErase .identity (copyBlock c))) ∧
         (∀ d, u.stage = .ready c .rollDescriptor → m.descriptor = some d →
           issues .rollDescriptor (page 0 (.descriptor d))) ∧
         (u.stage = .ready c .rollPage → issues .rollPage (page 1 (.update u.page)))) ∧
       (u.stage = .done →
         let bs := retires u.served
         let y : State :=
           { bs.foldl (fun x b => blockUpd b (fun r => { r with state := .retired, valid := 0, closeSeq := none, work := .none }) x)
               s with
             ident :=
               { m with
                 update := none
                 retired := m.retired ++ bs
                 persistent := if u.written then u.page.frozen else m.persistent }
             reclaim := { s.reclaim with retirements := s.reclaim.retirements - bs.length } }
         let ends := fun z => identityStep s = some (if u.written then z else requestReadOnly z)
         (IdRequest.frozenSet true ∉ u.served → ends y) ∧
         (∀ g, IdRequest.frozenSet true ∈ u.served → s.maint.slot = some g →
           ends
             { y with
               freeze := { phase := .idle, region := none, tracked := [], aborted := false, medium := false }
               maint :=
                 { s.maint with
                   slot := none
                   last := some (g.kind,
                     if u.written = false ∨ s.freeze.medium = true then .medium
                     else if s.freeze.aborted then .aborted else .ok)
                   done := true } }))))

/-! ### Mount -/

/-- An identity read of the mount is answered (R145, R147): a copy is read page by page until a page is ERASED or page 63 is read; copy B
follows copy A; then the usable copy with the greater serial, at equal serials the greater counter, at equal counters copy A, is selected
and CLASSIFY begins (R166), or, with none usable, the mount ends UNFORMATTED (R12, R81). What its slots show raises the highest sequence and
the largest erase count, as MountReadAnswered says of every page the mount reads (R164). That a page's content stands beside its slots is
the model's choice (log 10), and so are the die states at the selection and the rising order of the DIE_OFFLINE faults (log 32); that the
next pages keep their reset values where none is selected is its reading (log 42), and so is a next page of at least 1 (log 31). -/
def Obligations.IdentityReadAnswered : Prop :=
  ∀ (s : State) (op : Op) (raws : List RawSlot) (content : IdContent) (c : IdCopy), carries 0 op .identityRead s →
    op.count = 16 → op.expect = none → raws.length = 16 → op.block = copyBlock c → op.page < 64 → s.mount.phase = .identity →
    s.mode = .mounting →
    let a := answeredOp 0 op raws s
    let rs := raws.map checkSlot
    let r := judgePage c op.page rs content
    let found := fun (f : CopyFinding) =>
      match r with
      | .erased => f
      | .torn => { f with top := some op.page }
      | .descriptor d => { f with top := some op.page, descriptor := some d }
      | .update u => { f with top := some op.page, update := some u }
    let k := (seeSlots rs a).mount
    let m := if c = .a then { k with copyA := found s.mount.copyA } else { k with copyB := found s.mount.copyB }
    let answer := Effect (.identityReadAnswer raws content) s
    (r ≠ .erased → op.page < 63 →
      answer (issue (pageRead .identityRead .identity (copyBlock c) (op.page + 1)) { a with mount := m })) ∧
    (r = .erased ∨ op.page = 63 →
      (c = .a → answer (issue (pageRead .identityRead .identity ⟨0, 1⟩ 0) { a with mount := m })) ∧
      (c = .b →
        (∀ x d u, selectCopy m.copyA m.copyB = some (x, d, u) →
          let keeps := fun (y : IdCopy) (f : CopyFinding) =>
            ({ good := true
               next := (f.top.map (· + 1)).getD 1
               rollDue := decide (x ≠ y ∧ (f.descriptor.map (·.serial) ≠ some d.serial ∨ f.update = none)) } : CopyState)
          ∃ t, answer t ∧ t.mode = .mounting ∧ t.mount.phase = .classify ∧ t.diesInUse = d.dieCount ∧
            t.ident =
              { copyA := keeps .a m.copyA, copyB := keeps .b m.copyB, descriptor := some d, counter := u.counter,
                retired := u.retired, persistent := u.frozen, queue := [], update := none, remembered := some d.serial } ∧
            (let present := fun i => m.probes.getD i .absent = .present
             t.maint =
                (((List.range d.dieCount).filter fun i => ¬ present i).foldl (fun z i => raise .dieOffline (.die i) z) a).maint ∧
              (s.dies.length = 4 → ∀ i, i < 4 →
                (d.dieCount ≤ i → (dieAt t i).state = .notUsed) ∧
                (i < d.dieCount → ¬ present i → (dieAt t i).state = .offline) ∧
                (i < d.dieCount → present i →
                  (dieAt t i).state = if (dieAt a i).state = .notUsed then .ready else (dieAt a i).state))) ∧
            t.mount.findings =
              ((List.range (d.dieCount * 256)).filter fun k =>
                decide (2 ≤ k) && !isOffline t (k / 256) && !u.retired.contains ⟨k / 256, k % 256⟩).map
                  fun k => (k, Finding.initial)) ∧
        (selectCopy m.copyA m.copyB = none →
          ∃ t, answer t ∧ t.mode = .unformatted ∧ t.mount.phase = .done ∧ t.diesInUse = s.mount.diesPresent ∧
            t.regions = [] ∧ t.frozen = [] ∧ t.lineMap = [] ∧ t.freeList = [] ∧ t.maint.modeChanged = true ∧
            (∀ die block, die < s.mount.diesPresent → block < 256 →
              blockGet t ⟨die, block⟩ = some
                { state := if die = 0 ∧ block < 2 then .identity else .closed, valid := 0
                  eraseCount := if die = 0 ∧ block < 2 then some 0 else none, closeSeq := none, readers := 0, work := .none }) ∧
            t.ident =
              { s.ident with
                remembered :=
                  match m.copyA.descriptor, m.copyB.descriptor with
                  | some d, some e => some (max d.serial e.serial)
                  | some d, none => some d.serial
                  | none, some e => some e.serial
                  | none, none => none }))) ∧
    (∀ (x y : CopyFinding) (d e : Descriptor) (u w : UpdatePage),
      x.descriptor = some d → x.update = some u → y.descriptor = some e → y.update = some w →
      (d.serial < e.serial ∨ (d.serial = e.serial ∧ u.counter < w.counter) → selectCopy x y = some (.b, e, w)) ∧
      (e.serial < d.serial ∨ (d.serial = e.serial ∧ w.counter ≤ u.counter) → selectCopy x y = some (.a, d, u)) ∧
      (∀ z : CopyFinding, z.descriptor = none ∨ z.update = none →
        selectCopy x z = some (.a, d, u) ∧ selectCopy z x = some (.b, d, u))) ∧
    (∀ x y : CopyFinding, x.descriptor = none ∨ x.update = none → y.descriptor = none ∨ y.update = none →
      selectCopy x y = none) ∧
    (∀ (y : IdCopy) (page : Nat) (rs : List SlotResult) (content : IdContent),
      let judged := judgePage y page rs content
      let spells := fun (n : Nat) =>
        rs.length = 16 ∧ ∀ i, i < 16 →
          ∃ g, rs[i]? = some (.good g (.identity (if page = 0 then .descriptor else .update) y page i n))
      ((∀ q ∈ rs, q = .erased) → judged = .erased) ∧
      ((∃ q ∈ rs, q ≠ .erased) → (∀ n, ¬ spells n) → judged = .torn) ∧
      (∀ n, spells n →
        (∀ dies g, content = .descriptor dies g →
          judged =
            if page = 0 ∧ (dies = 1 ∨ dies = 2 ∨ dies = 4) ∧ validTable g = true then .descriptor ⟨n, dies, g⟩
            else .torn) ∧
        (∀ fr re, content = .update fr re → judged = if page = 0 then .torn else .update ⟨n, fr, re⟩)))

/-- A classification read of page 0 classes its block by the first two stamps (R167), and a scan read reads on until a page is all ERASED or
page 63 is read (R168). A block whose page 0 is all ERASED is read on, and is BLANK where every page is. Every slot of a LOG block is taken
by its result (R168). Every page read raises the highest sequence to the greatest in any of its record headers, the payload read or LOST, or
its readable open stamps, and the largest erase count to the greatest in its readable erase stamps (R48, R164). When every block is classed
SCAN begins; when every LOG block is scanned the mount settles (R169, R170) and hands over the map, the block table, the free list and the
sequence counter (R12, R81, R171); an unreadable open sequence counts as 0 (R167). By the model's reading a stamp graded LOST is not
readable, a BLANK block has no erase count until its stamp passes, and a LOST winner counts as valid in no block (log 31); the first scan
reads, and the erases and stamps of the hand-over, count as issued together by its choice (log 14). -/
def Obligations.MountReadAnswered : Prop :=
  (∀ (s : State) (d : Nat) (op : Op) (raws : List RawSlot), op.count = 16 → op.expect = none → raws.length = 16 →
    isOffline s op.block.die = false →
    let a := answeredOp d op raws s
    let rs := raws.map checkSlot
    let seen := seeSlots rs a
    let b := op.block
    let f := findingOf s b
    (carries d op .classifyRead s → s.mount.phase = .classify → op.page = 0 →
      let classed := fun (p : Finding → Prop) (x : State) => Effect (.classifyReadAnswer d raws) s x ∧ p (findingOf x b)
      let put := fun (g : Finding) => setFinding b g seen
      let stamped := fun n => { Finding.initial with eraseCount := some n }
      let logged := fun x => (rs.drop 2).zipIdx.foldl (fun x p => takeSlot (locIn b 0 (p.2 + 2)) p.1 x) x
      (∀ g n s2 rest, rs = .good g (.eraseStamp (currentSerial s) n) :: .erased :: s2 :: rest →
        classed (fun x => x.cls = some .free ∧ x.eraseCount = some n) (put { stamped n with cls := some .free })) ∧
      (∀ g g' n role q s2 rest, rs = .good g (.eraseStamp (currentSerial s) n) :: .good g' (.openStamp role q b) :: s2 :: rest →
        classed (fun x => x.cls = some .log ∧ x.eraseCount = some n ∧ x.role = some role ∧ x.openSeq = some q)
          (logged (put { stamped n with cls := some .log, role := some role, openSeq := some q }))) ∧
      (∀ g n s1 s2 rest, rs = .good g (.eraseStamp (currentSerial s) n) :: s1 :: s2 :: rest → s1 ≠ .erased →
        (∀ g' role q, s1 ≠ .good g' (.openStamp role q b)) →
        classed (fun x => x.eraseCount = some n ∧ x.role = none ∧ x.cls = some (if s2 = .erased then .erase else .log))
          (if s2 = .erased then put { stamped n with cls := some .erase }
           else
            let x := put { stamped n with cls := some .log }
            logged { x with mount := { x.mount with noted := x.mount.noted ++ [locIn b 0 1] } })) ∧
      (∀ g n serial s1 s2 rest, rs = .good g (.eraseStamp serial n) :: s1 :: s2 :: rest → serial ≠ currentSerial s →
        classed (fun x => x.cls = some .erase ∧ x.eraseCount = none) (put { Finding.initial with cls := some .erase })) ∧
      (∀ s0 rest, rs = s0 :: rest → (∀ g n serial, s0 ≠ .good g (.eraseStamp serial n)) → (∃ r ∈ rs, r ≠ .erased) →
        classed (fun x => x.cls = some .erase ∧ x.eraseCount = none) (put { Finding.initial with cls := some .erase })) ∧
      ((∀ r ∈ rs, r = .erased) →
        Effect (.classifyReadAnswer d raws) s
          (issue (pageRead .classifyRead .mountRead b 1) (setFinding b { Finding.initial with cursor := 1 } seen)))) ∧
    (carries d op .classifyRead s → s.mount.phase = .classify → op.page ≠ 0 →
      let blank := f.blank && rs.all (· == .erased)
      (op.page + 1 < 64 →
        Effect (.classifyReadAnswer d raws) s
          (issue (pageRead .classifyRead .mountRead b (op.page + 1))
            (setFinding b { f with blank := blank, cursor := op.page + 1 } seen))) ∧
      (64 ≤ op.page + 1 →
        Effect (.classifyReadAnswer d raws) s
          (setFinding b { f with cls := some (if blank then .blank else .erase), blank := blank } seen))) ∧
    (carries d op .scanRead s → s.mount.phase = .scan →
      let v := rs.zipIdx.foldl (fun x p => takeSlot (locIn b op.page p.2) p.1 x) seen
      let g := if rs.all (· == .erased) then findingOf v b else { findingOf v b with lastPage := op.page }
      ((∃ r ∈ rs, r ≠ .erased) → op.page + 1 ≠ 64 →
        Effect (.scanReadAnswer d raws) s
          (issue (pageRead .scanRead .mountRead b (op.page + 1)) (setFinding b { g with cursor := op.page + 1 } v))) ∧
      ((∀ r ∈ rs, r = .erased) ∨ op.page + 1 = 64 →
        Effect (.scanReadAnswer d raws) s (setFinding b { g with scanned := true } v)))) ∧
  (∀ (loc : Loc) (x : State) (g : Grade) (k : RecKind) (l q st : Nat) (p : LineData),
    let key := loc.die * 256 + loc.block
    let w := (keyGet key x.mount.findings).getD Finding.initial
    let noted : State := { x with mount := { x.mount with noted := x.mount.noted ++ [loc] } }
    let offered := fun (y : State) (cs : List Candidate) =>
      ({ y with
        mount :=
          { y.mount with
            findings := keyPut key { w with highSeq := some (max q (w.highSeq.getD 0)) } y.mount.findings
            cands := y.mount.cands ++ cs } } : State)
    let named := ∃ d, x.ident.descriptor = some d ∧ ∃ r ∈ d.regions, r.base ≤ l ∧ l < r.base + r.count
    takeSlot loc .erased x = x ∧ takeSlot loc .lostUnknown x = noted ∧
      (named →
        takeSlot loc (.good g (.record k l q st p)) x = offered x [⟨l, loc, k, q, st, false⟩] ∧
          takeSlot loc (.lostKnown (.record k l q st p)) x = offered noted [⟨l, loc, k, q, st, true⟩]) ∧
      (¬ named →
        takeSlot loc (.good g (.record k l q st p)) x = offered x [] ∧
          takeSlot loc (.lostKnown (.record k l q st p)) x = offered noted [])) ∧
  (∀ (rs : List SlotResult) (x : State),
    let seq := fun q => ∃ r ∈ rs, (∃ g role b, r = .good g (.openStamp role q b)) ∨
      ∃ k l st p, r = .lostKnown (.record k l q st p) ∨ ∃ g, r = .good g (.record k l q st p)
    let count := fun c => ∃ r ∈ rs, ∃ g serial, r = .good g (.eraseStamp serial c)
    ∃ h e, seeSlots rs x = { x with mount := { x.mount with highest := h, largestErase := e } } ∧
      (∀ n, h ≤ n ↔ x.mount.highest ≤ n ∧ ∀ q, seq q → q ≤ n) ∧
      ∀ n, e ≤ n ↔ x.mount.largestErase ≤ n ∧ ∀ c, count c → c ≤ n) ∧
  ∀ s : State,
    let fs := s.mount.findings
    (s.mount.phase = .classify →
      ((∃ p ∈ fs, p.2.cls = none) → mountStep s = none) ∧
      ((∀ p ∈ fs, p.2.cls ≠ none) →
        let reads := fs.filter fun p => p.2.cls == some .log && !isOffline s (p.1 / 256)
        let begun := fun (p : Nat × Finding) =>
          if p.2.cls = some .log then
            (p.1, if isOffline s (p.1 / 256) then { p.2 with scanned := true } else { p.2 with cursor := 1 })
          else p
        mountStep s = some
          (issueTogether (reads.map fun p => pageRead .scanRead .mountRead ⟨p.1 / 256, p.1 % 256⟩ 1)
            { s with mount := { s.mount with phase := .scan, findings := fs.map begun } }))) ∧
    (s.mount.phase = .scan →
      let scanned := fun (p : Nat × Finding) => p.2.cls = some .log → p.2.scanned = true
      ((∃ p ∈ fs, ¬ scanned p) → mountStep s = none) ∧
      ((∀ p ∈ fs, scanned p) →
        let place := fun (l : Loc) => (l.die * 256 + l.block) * 1024 + (l.page * 16 + l.slot)
        let opened := fun (l : Loc) => ((keyGet (l.die * 256 + l.block) fs).bind (·.openSeq)).getD 0
        let live := fun (d : Nat) => (dieAt s d).state ≠ .offline
        let logs := fun role (p : Nat × Finding) =>
          p ∈ fs ∧ p.2.cls = some .log ∧ p.2.role = some role ∧ live (p.1 / 256)
        let newest := fun role (p : Nat × Finding) =>
          logs role p ∧ ∀ r, logs role r → r ≠ p → r.2.openSeq.getD 0 < p.2.openSeq.getD 0
        let tail := fun (l : Loc) => ∃ role p, newest role p ∧ l.die * 256 + l.block = p.1 ∧ l.page = p.2.lastPage
        let left := fun c => c ∈ s.mount.cands ∧ live c.loc.die ∧ ¬ (c.lost = true ∧ tail c.loc)
        let beaten := fun (c w : Candidate) =>
          c.seq < w.seq ∨ (c.seq = w.seq ∧ (opened c.loc < opened w.loc ∨
            (opened c.loc = opened w.loc ∧ place c.loc < place w.loc)))
        let wins := fun c => left c ∧ ∀ e, left e → e.line = c.line → e ≠ c → beaten e c
        let off := decide (∃ d, d < s.diesInUse ∧ ¬ live d)
        (∀ role p r, logs role p → logs role r → p ≠ r → p.2.openSeq.getD 0 ≠ r.2.openSeq.getD 0) →
          ∃ (t : State) (bad : List Loc), mountStep s = some
              (if s.pfwHigh then setMode (if off then .readOnly else .active) t
               else { setMode .parked t with heldReadOnly := off }) ∧
            t =
              { s with
                lineMap := t.lineMap, regions := (s.ident.descriptor.map (·.regions)).getD [], frozen := s.ident.persistent
                blocks := t.blocks, freeList := t.freeList
                reclaimCond := decide (t.freeList.length ≤ 12)
                boost := decide (t.freeList.length ≤ 6)
                commit := { s.commit with seq := some (s.mount.highest + 1) }
                mount := { s.mount with phase := .done }
                maint := t.maint, dies := t.dies, ticket := s.ticket + 1 } ∧
            t.maint = (bad.foldl (fun x l => raise .mountBadRecord (.location l) x) s).maint ∧
            (∀ l, (live l.die → ¬ tail l → bad.count l = s.mount.noted.count l) ∧ (¬ live l.die ∨ tail l → l ∉ bad)) ∧
            bad.Pairwise (fun l m => place l ≤ place m) ∧
            mapWf t.lineMap = true ∧
            (∀ c, wins c → mapGet t c.line =
              { state :=
                  if c.lost then .damaged
                  else match c.kind with
                    | .line => .present c.loc c.seq
                    | .trim => .trimmed c.loc c.seq
                stamps := c.stamps }) ∧
            (∀ l, (∀ c, left c → c.line ≠ l) → mapGet t l = MapEntry.empty) ∧
            (∀ d n, n < 256 → (d < s.diesInUse → blockGet t ⟨d, n⟩ ≠ none) ∧ (s.diesInUse ≤ d → blockGet t ⟨d, n⟩ = none)) ∧
            (∀ d n r, n < 256 → blockGet t ⟨d, n⟩ = some r →
              let b : BlockId := ⟨d, n⟩
              let f := (keyGet (d * 256 + n) fs).getD Finding.initial
              let given := fun st e w => r = { state := st, valid := 0, eraseCount := e, closeSeq := none, readers := 0, work := w }
              (d = 0 ∧ n < 2 → given .identity (some 0) .none) ∧
              (¬ (d = 0 ∧ n < 2) →
                (b ∈ s.ident.retired → given .retired none .none) ∧
                (b ∉ s.ident.retired →
                  (¬ live d → given .closed none .none) ∧
                  (live d →
                    (f.cls = some .free → given .free f.eraseCount .none) ∧
                    (f.cls = some .blank → given .erasing none .stampOut) ∧
                    (f.cls = some .erase → given .erasing f.eraseCount .eraseOut) ∧
                    (f.cls = some .log →
                      r =
                        { state := .closed
                          valid := t.lineMap.countP fun p => p.2.state.loc.map blockOf == some b
                          eraseCount := f.eraseCount
                          closeSeq := some (f.highSeq.getD (f.openSeq.getD 0)), readers := 0, work := .none }))))) ∧
            (∀ b, b ∈ t.freeList ↔ b.block < 256 ∧ ∃ r, blockGet t b = some r ∧ r.state = .free) ∧
            t.freeList.Pairwise (fun a b =>
              let count := fun c => ((blockGet t c).bind (·.eraseCount)).getD 0
              count a < count b ∨ (count a = count b ∧ a.die * 256 + a.block < b.die * 256 + b.block)) ∧
            t.dies =
              (issueTogether
                ((List.range (s.diesInUse * 256)).filterMap fun k =>
                  let b : BlockId := ⟨k / 256, k % 256⟩
                  (blockGet t b).bind fun r =>
                    if r.work = .stampOut then
                      some (programOp .eraseStamp .eraseStamp b 0 0 [.eraseStamp (currentSerial s) (nextErase t b)])
                    else if r.work = .eraseOut then some (eraseOp .erase .eraseStamp b)
                    else none) s).dies))

/-! ### Dies -/

/-- RESET DIE ends (R99): in the probe the die is asked to IDENTIFY (R91, R165), otherwise it is READY. IDENTIFY decides the position, and
after the last one the die count is fixed and copy A of the identity is read (R91, R147, R165), or the part is UNFORMATTED with no
die 0. -/
def Obligations.DieShowsReadyAndIdentifies : Prop :=
  ∀ (s : State) (d blocks pages slots : Nat), s.rstLow = false →
    let probing := s.mode = .mounting ∧ s.mount.phase = .probe
    let r := dieAt s d
    (r.state ≠ .resetting → Effect (.dieResetReady d) s s) ∧
    (r.state = .resetting →
      (¬ (probing ∧ s.mount.probes.getD d .absent = .undecided) →
        Effect (.dieResetReady d) s { s with dies := s.dies.set d { r with state := .ready, timer := none } }) ∧
      (probing → s.mount.probes.getD d .absent = .undecided →
        Effect (.dieResetReady d) s
          { s with
            dies := s.dies.set d
              { r with
                state := .busy
                timer := some s.now
                inFlight := some
                  { role := .identify, cls := .mountRead, block := ⟨d, 0⟩, page := 0, slot := 0, count := 0, expect := none,
                    data := .none, stale := false, ticket := s.ticket } } })) ∧
    (∀ op, r.inFlight = some op → op.role = .identify → probing →
      let fits := if blocks = 256 ∧ pages = 64 ∧ slots = 16 then Probe.present else .absent
      let probes := s.mount.probes.set d fits
      let a := dieAnswered d s
      let answer := Effect (.identifyAnswer d blocks pages slots) s
      (.undecided ∈ probes → answer { a with mount := { s.mount with probes := probes } }) ∧
      (.undecided ∉ probes → presentCount probes = 0 → ∃ t, answer t ∧ t.mode = .unformatted ∧ t.diesInUse = 0) ∧
      (.undecided ∉ probes → presentCount probes ≠ 0 →
        answer (issue (pageRead .identityRead .identity ⟨0, 0⟩ 0)
          { a with
            mount := { s.mount with probes := probes, diesPresent := presentCount probes, phase := .identity }
            dies := a.dies.zipIdx.map fun (x, i) =>
              if i < presentCount probes then x else { DieRec.unused with grades := x.grades } }))) ∧
    (∀ p : Nat → Probe,
      let n := presentCount [p 0, p 1, p 2, p 3]
      (p 0 ≠ .present → n = 0) ∧ (p 0 = .present → p 1 ≠ .present → n = 1) ∧
      (p 0 = .present → p 1 = .present → p 2 ≠ .present ∨ p 3 ≠ .present → n = 2) ∧
      (p 0 = .present → p 1 = .present → p 2 = .present → p 3 = .present → n = 4))

/-- A die timer reaches 50 ms (R98): the operation is answered to its requester as failed, every slot of a read LOST with its header
unknown, DIE_TIMEOUT is raised, and the die is reset; at the second in succession the die is OFFLINE, DIE_OFFLINE is raised, its queue is
answered as failed, and the mode controller is asked for READ-ONLY (R100). A RESET DIE that times out makes the die OFFLINE (R99). In the
probe a position whose RESET DIE or IDENTIFY times out is not present, and no fault is raised (R91, R165): where its RESET DIE times out it
is not used at once, by the model's choice (log 32), and a timed-out IDENTIFY is reset as any other operation. By the model's reading the
clock is set to the 50 ms moment (log 16), each failed answer serves at once what waits for it (log 15), and with no timer running nothing
changes (log 6). -/
def Obligations.DieTimesOut : Prop :=
  ∀ (s : State) (d : Nat), s.rstLow = false →
    let r := dieAt s d
    (r.timer = none → Effect (.dieTimeout d) s s) ∧
    (∀ op t, r.timer = some t → r.inFlight = some op → op.role ≠ .identify →
      let late : State :=
        { s with now := max s.now (t + 50000), dies := s.dies.set d { r with inFlight := none, timer := none } }
      let u := raise .dieTimeout (.die d) (failOp op late)
      let q := dieAt u d
      (q.timeouts = 0 →
        Effect (.dieTimeout d) s
          { u with
            dies := u.dies.set d { q with state := .resetting, timeouts := 1, inFlight := none, timer := some u.now } }) ∧
      (q.timeouts ≠ 0 →
        Effect (.dieTimeout d) s
          (requestReadOnly
            (failQueue d q.queue.length
              (raise .dieOffline (.die d)
                { u with
                  dies := u.dies.set d
                    { q with state := .offline, timeouts := q.timeouts + 1, inFlight := none, timer := none } }))))) ∧
    (∀ (op : Op) (x : State),
      failOp op x = atOnce waiterRounds (deliver op (failedAnswer op) (countReader op (· - 1) x))) ∧
    (∀ t, r.timer = some t →
      let probing := s.mode = .mounting ∧ s.mount.phase = .probe
      let late : State := { s with now := max s.now (t + 50000) }
      let probes := s.mount.probes.set d .absent
      let absent := fun (x : State) =>
        (.undecided ∈ probes → Effect (.dieTimeout d) s { x with mount := { s.mount with probes := probes } }) ∧
        (.undecided ∉ probes → presentCount probes = 0 →
          ∃ v, Effect (.dieTimeout d) s v ∧ v.mode = .unformatted ∧ v.diesInUse = 0) ∧
        (.undecided ∉ probes → presentCount probes ≠ 0 →
          Effect (.dieTimeout d) s
            (issue (pageRead .identityRead .identity ⟨0, 0⟩ 0)
              { x with
                mount := { s.mount with probes := probes, diesPresent := presentCount probes, phase := .identity }
                dies := x.dies.zipIdx.map fun (y, i) =>
                  if i < presentCount probes then y else { DieRec.unused with grades := y.grades } }))
      (∀ op, r.inFlight = some op → op.role = .identify → probing → r.timeouts = 0 →
        absent
          { late with
            dies := s.dies.set d { r with state := .resetting, timeouts := 1, inFlight := none, timer := some late.now } }) ∧
      (r.inFlight = none → r.state = .resetting →
        (probing →
          let gone : State :=
            { late with
              dies := s.dies.set d
                { state := .notUsed, inFlight := none, queue := [], timer := none, timeouts := 0, grades := r.grades } }
          (s.mount.probes.getD d .absent ≠ .undecided → Effect (.dieTimeout d) s gone) ∧
          (s.mount.probes.getD d .absent = .undecided → absent gone)) ∧
        (¬ probing → r.timeouts ≠ 0 →
          Effect (.dieTimeout d) s
            (requestReadOnly
              (failQueue d r.queue.length
                (raise .dieOffline (.die d)
                  { raise .dieTimeout (.die d) late with
                    dies := s.dies.set d
                      { r with
                        state := .offline, timeouts := r.timeouts + 1, inFlight := none, timer := none } })))))) ∧
    (∀ op : Op, op.role.isRead = true → failedAnswer op = .read (List.replicate op.count .lostUnknown) noContent) ∧
    (∀ op : Op, op.role.isRead = false → failedAnswer op = .status .fail)

/-- The arbiter of a READY die starts the waiting operation of the highest rank (R95, R96), within a class the one issued first; with the
space boost on, relocation and reclaim copies go before commit programs. -/
def Obligations.ArbiterStartsHighestRank : Prop :=
  (∀ b, [OpClass.identity, .hostRead, .eraseStamp, .scrubRead, .mountRead].map (rank b) = [1, 2, 6, 7, 8]) ∧
  [OpClass.commitProgram, .relocationCopy, .reclaimCopy].map (rank false) = [3, 4, 5] ∧
  [OpClass.relocationCopy, .reclaimCopy, .commitProgram].map (rank true) = [3, 4, 5] ∧
  ∀ (s : State) (d : Nat) (op : Op) (front back : List Op),
    let r := dieAt s d
    (r.state ≠ .ready ∨ r.queue = [] → arbitrate d s = s) ∧
    (r.state = .ready → r.queue = front ++ op :: back →
      (∀ o ∈ front ++ back, rank s.boost op.cls < rank s.boost o.cls ∨ (op.cls = o.cls ∧ op.ticket < o.ticket)) →
      arbitrate d s =
        { s with
          dies := s.dies.set d
            { r with state := .busy, inFlight := some op, queue := front ++ back, timer := some s.now } })

/-! ### The whole part -/

/-- Every request frame is read back (R180, R191): the frame that carries a well-formed request is judged to carry that request. -/
def Obligations.RequestFramesReadBack : Prop :=
  ∀ (i : Instr) (frame : List Byte), i.wf = true → frameOf i = some frame → judgeFrame (wpOf i) frame = .request i

/-- Every step keeps the invariants: the line map's form, the fault list's bounds (R189), the settings' ranges (R188), the sizes (R22, R84),
what the mode implies (R158, R160, R164, R173), the space conditions (R75, R76); the commit queue holds exactly the DIRTY entries (R50), the
LRU order exactly the CLEAN ones (R25) and the batch in flight exactly the COMMITTING ones (R61); each block's valid count is the number of map
entries located in it (R69), the free list holds exactly the FREE blocks, each once (R73), and the heads, the victim and the blocks on the
engine's lists are in their states. Where the command at the front of the queue is well-formed, a step keeps the stamps: at most 8 for a line,
and for a ONCE line, with those pending, at most 8 (R134, R135). Every step drives the pins from the state. -/
def Obligations.StepKeepsInvariants : Prop :=
  ∀ s t : State, step s = .next t →
    (Inv s → Inv t) ∧ (Inv s → StampInv s → (∀ c ∈ s.pending.head?, c.wf = true) → StampInv t) ∧ (PinsInv s → PinsInv t)

/-- Whatever the command: only PFW_LOW and PFW_HIGH change the recorded level (R158), and only the SET PARAMETER commands and RESET_ASSERT
change the settings (R188). The rest is of the model's own fields: no command's effect touches the queue of commands (log 40), only RST_N
changes whether the part is in reset, and the clock, which a tick and the timed events move (log 4, log 16), never goes back. -/
def Obligations.OnlyItsCommandChanges : Prop :=
  ∀ (c : Instr) (s t : State), Inv s → exec c s = .next t →
    t.pending = s.pending ∧ s.now ≤ t.now ∧ (c ≠ .resetAssert → c ≠ .resetRelease → t.rstLow = s.rstLow) ∧
      (c ≠ .pfwLow → c ≠ .pfwHigh → t.pfwHigh = s.pfwHigh) ∧
      (c ≠ .resetAssert → (∀ v, c ≠ .setCommitDelay v ∧ c ≠ .setBatchThreshold v ∧ c ≠ .setWaitLimit v ∧
        c ≠ .setAttentionMask v) → t.maint.settings = s.maint.settings)

end
end

