-- ==== Sys2Proof/Laws/Events.lean ====
section
/-! SUPPORT. What an event does once a command has had its own effect: it settles, the arbiters choose, and dies that left the dies in
use are let go. -/
namespace Sys2Proof.Machine

variable {s t : State}

theorem settle_of_none (h : settleStep s = none) (n : Nat) : settle n s = s := by
  cases n with
  | zero => unfold settle; rfl
  | succ n => unfold settle; rw [h]

/-! ### Dies that rest -/

theorem DieRec.rests_iff (d : DieRec) : d.rests = true ↔ (d.state = .ready → d.queue = []) := by
  simp only [DieRec.rests, Bool.or_eq_true, bne_iff_ne, ne_eq, List.isEmpty_iff]
  tauto

theorem arbitrate_of_rests {d : Nat} (h : (dieAt s d).rests = true) : arbitrate d s = s := by
  unfold arbitrate
  dsimp only
  split
  · rename_i hr
    rw [(DieRec.rests_iff _).1 h hr]
    rfl
  · rfl

theorem dieAt_rests (h : s.dies.all (·.rests) = true) (d : Nat) : (dieAt s d).rests = true := by
  unfold dieAt
  rw [List.getD_eq_getElem?_getD]
  cases hd : s.dies[d]? with
  | none => rfl
  | some r => exact List.all_eq_true.1 h r (List.mem_of_getElem? hd)

theorem arbitrateAll_of_rests (h : s.dies.all (·.rests) = true) : arbitrateAll s = s := by
  simp [arbitrateAll, arbitrate_of_rests (dieAt_rests h _)]

/-! ### Dies that leave the dies in use -/

/-- No die is about to leave, said of each position. -/
def Stays (s : State) : Prop :=
  s.mode = .mounting ∨ ∀ i r, s.dies[i]? = some r → s.diesInUse ≤ i → ¬ (r.state = .ready ∧ r.queue = [])

theorem stays_of_noneLeaves (h : noneLeaves s = true) : Stays s := by
  unfold noneLeaves at h
  rcases Bool.or_eq_true _ _ ▸ h with h | h
  · exact .inl (by simpa using h)
  · refine .inr fun i r hi hd hr => ?_
    have hm : r ∈ s.dies.drop s.diesInUse := by
      refine List.mem_of_getElem? (i := i - s.diesInUse) ?_
      rw [List.getElem?_drop, Nat.add_sub_cancel' hd]
      exact hi
    have := List.all_eq_true.1 h r hm
    simp [hr.1, hr.2] at this

theorem leaveDies_of_stays (h : Stays s) : leaveDies s = s := by
  unfold leaveDies
  split
  · rfl
  · rename_i hm
    rcases h with h | h
    · exact absurd h hm
    · have : (s.dies.zipIdx.map fun (r, i) =>
          if s.diesInUse ≤ i ∧ r.state = .ready ∧ r.queue = [] then { r with state := .notUsed } else r) = s.dies := by
        apply List.ext_getElem?
        intro i
        simp only [List.getElem?_map, List.getElem?_zipIdx, Option.map_map]
        cases hd : s.dies[i]? with
        | none => rfl
        | some r =>
          simp only [Option.map_some, Function.comp, Nat.zero_add, Option.some.injEq]
          rw [if_neg]
          rintro ⟨h1, h2, h3⟩
          exact h i r hd h1 ⟨h2, h3⟩
      rw [this]

theorem stays_dieUpd {d : Nat} {f : DieRec → DieRec} (hf : ∀ r, (f r).state ≠ .ready) (h : Stays s) : Stays (dieUpd d f s) := by
  rcases h with h | h
  · exact .inl h
  · refine .inr fun i r hi hd hr => ?_
    simp only [dieUpd] at hi
    rw [List.getElem?_set] at hi
    split at hi
    · split at hi
      · cases hi; exact hf _ hr.1
      · cases hi
    · exact h i r hi hd hr

theorem stays_arbitrate (d : Nat) (h : Stays s) : Stays (arbitrate d s) := by
  have hs : ∀ i t, Stays t → Stays (startAt d i t) := by
    intro i t ht
    unfold startAt
    split
    · exact stays_dieUpd (fun r => by simp) ht
    · exact ht
  unfold arbitrate
  dsimp only
  split
  · split
    · exact h
    · exact hs _ _ h
    · exact hs _ _ h
  · exact h

theorem stays_arbitrateAll (h : Stays s) : Stays (arbitrateAll s) := by
  simp only [arbitrateAll, List.foldl_cons, List.foldl_nil]
  exact stays_arbitrate _ (stays_arbitrate _ (stays_arbitrate _ (stays_arbitrate _ h)))

/-! ### The end of an event -/

theorem settled_iff : settled s = true ↔ settleStep s = none ∧ noneLeaves s = true := by
  simp [settled]

/-- Where no block has anything left to do, the arbiters alone choose. -/
theorem finish_of_settled (h : settled s = true) : finish s = drive (arbitrateAll s) := by
  obtain ⟨h1, h2⟩ := settled_iff.1 h
  unfold finish
  rw [settle_of_none h1, leaveDies_of_stays (stays_arbitrateAll (stays_of_noneLeaves h2))]

/-- Where nothing is left to do, the pins are driven. -/
theorem finish_of_atRest (h : atRest s = true) : finish s = drive s := by
  simp only [atRest, Bool.and_eq_true] at h
  rw [finish_of_settled h.1, arbitrateAll_of_rests h.2]

/-- A command whose `exec` answers `finish t` has the effect `t`. -/
theorem Effect.of_finish {c : Instr} (h : exec c s = .next (finish t)) : Effect c s t :=
  ⟨h, fun k => by rw [h, finish_of_settled k], fun k => by rw [h, finish_of_atRest k]⟩

theorem event_next {f : State → State} (h : s.rstLow = false) : event f s = .next (finish (f s)) := by
  simp [event, h]

theorem quick_next {f : State → State} (h : s.rstLow = false) : quick f s = .next (drive (f s)) := by
  simp [quick, h]

end Sys2Proof.Machine
end

