-- ==== Sys2Proof/Laws/Lists.lean ====
section
/-! SUPPORT. Lists kept by rising key, the canonical form of the line map, and the fault list. -/
namespace Sys2Proof.Machine

variable {α : Type}

theorem keyGet_keyPut_same (k : Nat) (v : α) (m : List (Nat × α)) : keyGet k (keyPut k v m) = some v := by
  induction m with
  | nil => simp [keyPut, keyGet]
  | cons p t ih =>
    obtain ⟨j, w⟩ := p
    simp only [keyPut]
    split
    · simp [keyGet]
    · split
      · simp [keyGet]
      · rename_i h1 h2
        have h3 : ¬ j = k := fun e => h2 e.symm
        simp [keyGet, ih, h3]

theorem keyGet_keyPut_other {k l : Nat} (h : l ≠ k) (v : α) (m : List (Nat × α)) :
    keyGet l (keyPut k v m) = keyGet l m := by
  induction m with
  | nil => simp [keyPut, keyGet, Ne.symm h]
  | cons p t ih =>
    obtain ⟨j, w⟩ := p
    simp only [keyPut]
    split
    · simp [keyGet, Ne.symm h]
    · split
      · subst_vars; simp [keyGet, Ne.symm h]
      · simp [keyGet, ih]

/-- The greatest of a list and a start value. -/
theorem foldl_max_le {l : List Nat} {a n : Nat} : l.foldl max a ≤ n ↔ a ≤ n ∧ ∀ x ∈ l, x ≤ n := by
  induction l generalizing a with
  | nil => simp
  | cons x l ih => rw [List.foldl_cons, ih, Nat.max_le, List.forall_mem_cons, and_assoc]

/-- Every key of the list is greater. -/
def keysAbove (k : Nat) (m : List (Nat × α)) : Prop := ∀ p ∈ m, k < p.1

theorem keysRise_cons (p : Nat × α) (m : List (Nat × α)) :
    keysRise (p :: m) = true ↔ keysAbove p.1 m ∧ keysRise m = true := by
  induction m generalizing p with
  | nil => simp [keysRise, keysAbove]
  | cons q t ih =>
    obtain ⟨j, v⟩ := p
    obtain ⟨k, w⟩ := q
    simp only [keysRise, Bool.and_eq_true, decide_eq_true_eq, keysAbove, List.mem_cons]
    constructor
    · rintro ⟨h1, h2⟩
      have h3 := ((ih (k, w)).1 h2).1
      refine ⟨?_, h2⟩
      rintro r (rfl | hr)
      · exact h1
      · exact lt_trans h1 (h3 r hr)
    · rintro ⟨h1, h2⟩
      exact ⟨h1 (k, w) (Or.inl rfl), h2⟩

theorem keyGet_above {k : Nat} {m : List (Nat × α)} (h : keysAbove k m) : keyGet k m = none := by
  induction m with
  | nil => rfl
  | cons p t ih =>
    obtain ⟨j, v⟩ := p
    have h1 : k < j := h (j, v) (by simp)
    have h2 : ¬ j = k := by omega
    simp only [keyGet, h2, if_false]
    exact ih fun q hq => h q (List.mem_cons_of_mem _ hq)

/-- What a list gives, it lists. -/
theorem mem_of_keyGet {k : Nat} {v : α} {m : List (Nat × α)} (h : keyGet k m = some v) : (k, v) ∈ m := by
  induction m with
  | nil => cases h
  | cons q m ih =>
    unfold keyGet at h
    split at h
    · rename_i e
      cases h
      rw [← e]
      exact List.mem_cons_self
    · exact List.mem_cons_of_mem _ (ih h)

/-- What a list with rising keys lists, it gives. -/
theorem keyGet_mem {m : List (Nat × α)} (h : keysRise m = true) {p : Nat × α} (hp : p ∈ m) : keyGet p.1 m = some p.2 := by
  induction m with
  | nil => cases hp
  | cons q m ih =>
    obtain ⟨ha, hr⟩ := (keysRise_cons _ _).1 h
    rcases List.mem_cons.1 hp with rfl | hp
    · exact if_pos rfl
    · have := ha p hp
      exact (if_neg (by omega)).trans (ih hr hp)

theorem mem_keyPut {k : Nat} {v : α} {m : List (Nat × α)} {p : Nat × α} (h : p ∈ keyPut k v m) : p = (k, v) ∨ p ∈ m := by
  induction m with
  | nil => simpa [keyPut] using h
  | cons q t ih =>
    obtain ⟨j, w⟩ := q
    simp only [keyPut] at h
    split at h
    · simpa using h
    · split at h
      · simp only [List.mem_cons] at h ⊢; tauto
      · simp only [List.mem_cons] at h ⊢
        rcases h with h | h
        · tauto
        · rcases ih h with h | h <;> tauto

theorem keyPut_rises (k : Nat) (v : α) {m : List (Nat × α)} (h : keysRise m = true) : keysRise (keyPut k v m) = true := by
  induction m with
  | nil => rfl
  | cons q t ih =>
    obtain ⟨j, w⟩ := q
    have ⟨h1, h2⟩ := (keysRise_cons _ _).1 h
    simp only [keyPut]
    split
    · rename_i hk
      refine (keysRise_cons _ _).2 ⟨?_, h⟩
      intro p hp
      rcases List.mem_cons.1 hp with rfl | hp
      · exact hk
      · exact lt_trans hk (h1 p hp)
    · split
      · subst_vars; exact (keysRise_cons _ _).2 ⟨h1, h2⟩
      · refine (keysRise_cons _ _).2 ⟨?_, ih h2⟩
        intro p hp
        rcases mem_keyPut hp with rfl | hp
        · simp only; omega
        · exact h1 p hp

theorem mem_keyDel {k : Nat} {m : List (Nat × α)} {p : Nat × α} (h : p ∈ keyDel k m) : p ∈ m := by
  induction m with
  | nil => simp [keyDel] at h
  | cons q t ih =>
    obtain ⟨j, w⟩ := q
    simp only [keyDel] at h
    split at h
    · exact List.mem_cons_of_mem _ h
    · rcases List.mem_cons.1 h with h | h
      · exact List.mem_cons.2 (Or.inl h)
      · exact List.mem_cons_of_mem _ (ih h)

theorem keyDel_rises (k : Nat) {m : List (Nat × α)} (h : keysRise m = true) : keysRise (keyDel k m) = true := by
  induction m with
  | nil => rfl
  | cons q t ih =>
    obtain ⟨j, w⟩ := q
    have ⟨h1, h2⟩ := (keysRise_cons _ _).1 h
    simp only [keyDel]
    split
    · exact h2
    · exact (keysRise_cons _ _).2 ⟨fun p hp => h1 p (mem_keyDel hp), ih h2⟩

theorem keyGet_keyDel_other {k l : Nat} (h : l ≠ k) (m : List (Nat × α)) : keyGet l (keyDel k m) = keyGet l m := by
  induction m with
  | nil => rfl
  | cons q t ih =>
    obtain ⟨j, w⟩ := q
    simp only [keyDel]
    split
    · rename_i hj
      have : ¬ j = l := by omega
      simp [keyGet, this]
    · simp [keyGet, ih]

theorem keyGet_keyDel_same (k : Nat) {m : List (Nat × α)} (h : keysRise m = true) : keyGet k (keyDel k m) = none := by
  induction m with
  | nil => rfl
  | cons q t ih =>
    obtain ⟨j, w⟩ := q
    have ⟨h1, h2⟩ := (keysRise_cons _ _).1 h
    simp only [keyDel]
    split
    · rename_i hj
      subst hj
      exact keyGet_above h1
    · rename_i hj
      simp [keyGet, hj, ih h2]

/-! ### The line map -/

/-- Setting an entry keeps the canonical form. -/
theorem mapPut_wf (l : Nat) (e : MapEntry) {m : List (Nat × MapEntry)} (h : mapWf m = true) : mapWf (mapPut l e m) = true := by
  simp only [mapWf, Bool.and_eq_true, List.all_eq_true, bne_iff_ne, ne_eq] at h ⊢
  simp only [mapPut]
  split
  · exact ⟨keyDel_rises l h.1, fun p hp => h.2 p (mem_keyDel hp)⟩
  · rename_i he
    refine ⟨keyPut_rises l e h.1, fun p hp => ?_⟩
    rcases mem_keyPut hp with rfl | hp
    · exact he
    · exact h.2 p hp

/-- The entry set is the entry read. -/
theorem mapGet_mapSet_same (l : Nat) (e : MapEntry) {s : State} (h : MapInv s) : mapGet (mapSet l e s) l = e := by
  have h1 : keysRise s.lineMap = true := by
    simp only [MapInv, mapWf, Bool.and_eq_true] at h
    exact h.1
  simp only [mapGet, mapSet, mapPut]
  split
  · rename_i he
    simp [keyGet_keyDel_same l h1, he]
  · simp [keyGet_keyPut_same]

/-- Every other entry is as before. -/
theorem mapGet_mapSet_other {l k : Nat} (h : k ≠ l) (e : MapEntry) (s : State) : mapGet (mapSet l e s) k = mapGet s k := by
  simp only [mapGet, mapSet, mapPut]
  split
  · simp [keyGet_keyDel_other h]
  · simp [keyGet_keyPut_other h]

theorem mapSet_inv (l : Nat) (e : MapEntry) {s : State} (h : MapInv s) : MapInv (mapSet l e s) := mapPut_wf l e h

/-! ### The fault list -/

/-- Raising a fault keeps the bounds of the fault list (R189). -/
theorem faultsAfter_bounds (kind : FaultKind) (subject : Subject) (seq : Nat) {l : List FaultRec}
    (h : l.length ≤ Config.faultsMax ∧ ∀ r ∈ l, 1 ≤ r.count ∧ r.count ≤ Config.repeatMax) :
    (faultsAfter kind subject seq l).length ≤ Config.faultsMax ∧
      ∀ r ∈ faultsAfter kind subject seq l, 1 ≤ r.count ∧ r.count ≤ Config.repeatMax := by
  unfold faultsAfter
  split
  · rename_i r hr
    obtain ⟨ys, hys⟩ := List.getLast?_eq_some_iff.1 hr
    have hrm : r ∈ l := by simp [hys]
    have hlen : 0 < l.length := by rw [hys]; simp
    split
    · constructor
      · simp only [List.length_append, List.length_dropLast, List.length_cons, List.length_nil]
        omega
      · intro q hq
        rcases List.mem_append.1 hq with hq | hq
        · exact h.2 q (List.dropLast_subset _ hq)
        · have := h.2 r hrm
          simp only [List.mem_singleton] at hq
          subst hq
          simp only [Config.repeatMax] at this ⊢
          omega
    · split
      · rename_i hl
        constructor
        · simp only [List.length_append, List.length_cons, List.length_nil]
          omega
        · intro q hq
          rcases List.mem_append.1 hq with hq | hq
          · exact h.2 q hq
          · simp only [List.mem_singleton] at hq
            subst hq
            simp [Config.repeatMax]
      · exact h
  · simp [Config.faultsMax, Config.repeatMax]

end Sys2Proof.Machine
end

