-- ==== Sys2Proof/Laws/Entries.lean ====
section
/-! SUPPORT. The staging buffer's invariant through one event: `EnC` is `EntryInv` with the debts that an operation has on its way, and
one lemma for each way an entry goes from one state to another. -/
namespace Sys2Proof.Machine

/-- What is on its way inside an event: operations being answered or about to be issued, entries whose read-fill is about to be issued,
entries of a batch being answered, DIRTY entries of a failed batch that the queue has not taken back yet, and blocks that an answered
update retires. `wf` says that what the medium answers is
well-formed. -/
structure Due where
  ops : List Op
  fills : List Nat
  recs : List Nat
  back : List Nat
  reqs : List BlockId
  wf : Bool

/-- Nothing is on its way. -/
def Due.none (wf : Bool) : Due := ⟨[], [], [], [], [], wf⟩

/-- An operation is being answered, or is about to be issued. -/
def Due.op (w : Due) (op : Op) : Due := { w with ops := op :: w.ops }

/-- A read-fill of the entry is about to be issued. -/
def Due.fill (w : Due) (i : Nat) : Due := { w with fills := i :: w.fills }

/-- A record of the entry is being answered. -/
def Due.recd (w : Due) (i : Nat) : Due := { w with recs := i :: w.recs }

/-- The queue takes the entry back. -/
def Due.dirt (w : Due) (i : Nat) : Due := { w with back := i :: w.back }

theorem opsCount_append (q : OpRole → Bool → BlockId → Bool) (a c : List Op) :
    opsCount q (a ++ c) = opsCount q a + opsCount q c := List.countP_append ..

theorem opsCount_cons (q : OpRole → Bool → BlockId → Bool) (op : Op) (c : List Op) :
    opsCount q (op :: c) = opsCount q c + if q op.role op.stale op.block then 1 else 0 := List.countP_cons ..

/-- `EntryInv` over the fields it speaks of, with what is on its way. -/
structure EnC (w : Due) (st : List Entry) (lru queue : List Nat) (b : Option Batch) (dies : List DieRec) (wh : List Nat) :
    Prop where
  queue : ∀ i, queue.count i + w.back.count i = isIn st i .dirty
  lru : ∀ i, lru.count i = isIn st i .clean
  recs : ∀ i, (batchEntries b).count i + w.recs.count i = isIn st i .committing
  fills : ∀ i, opsOut (isFill i) dies + opsCount (isFill i) w.ops + wh.count i + w.fills.count i ≤ isIn st i .loading

theorem isIn_le (st : List Entry) (i : Nat) (x : EntryState) : isIn st i x ≤ 1 := by
  unfold isIn; split <;> simp

theorem isIn_pos {st : List Entry} {i : Nat} {x : EntryState} (h : 0 < isIn st i x) : (st.getD i Entry.cleared).state = x := by
  unfold isIn at h; split at h
  · assumption
  · cases h

theorem isIn_of {st : List Entry} {i : Nat} {x : EntryState} (h : (st.getD i Entry.cleared).state = x) (y : EntryState) :
    isIn st i y = if x = y then 1 else 0 := by
  unfold isIn; rw [h]

theorem isIn_lt {st : List Entry} {i : Nat} {x : EntryState} (hx : x ≠ .free) (h : 0 < isIn st i x) : i < st.length := by
  by_contra hi
  have := isIn_pos h
  rw [List.getD_eq_default _ _ (by omega)] at this
  exact hx this.symm

theorem isIn_set_other {st : List Entry} {i j : Nat} (h : j ≠ i) (e : Entry) (x : EntryState) :
    isIn (st.set i e) j x = isIn st j x := by
  unfold isIn
  rw [List.getD_eq_getElem?_getD, List.getElem?_set_ne (Ne.symm h), ← List.getD_eq_getElem?_getD]

theorem isIn_set_same {st : List Entry} {i : Nat} (h : i < st.length) (e : Entry) (x : EntryState) :
    isIn (st.set i e) i x = if e.state = x then 1 else 0 := by
  unfold isIn
  rw [List.getD_eq_getElem?_getD, List.getElem?_set_self h]
  rfl

variable {w : Due} {st : List Entry} {lru queue : List Nat} {b : Option Batch} {dies dies' : List DieRec} {wh : List Nat}

/-- Setting an entry changes nothing where its state stays. -/
theorem EnC.same (h : EnC w st lru queue b dies wh) (i : Nat) (e : Entry) (he : e.state = (st.getD i Entry.cleared).state) :
    EnC w (st.set i e) lru queue b dies wh := by
  have k : ∀ j x, isIn (st.set i e) j x = isIn st j x := by
    intro j x
    by_cases hj : j = i
    · subst hj
      by_cases hl : j < st.length
      · rw [isIn_set_same hl, he]; rfl
      · rw [List.set_eq_of_length_le (by omega)]
    · exact isIn_set_other hj e x
  exact ⟨fun j => by rw [k]; exact h.queue j, fun j => by rw [k]; exact h.lru j, fun j => by rw [k]; exact h.recs j,
    fun j => by rw [k]; exact h.fills j⟩

/-- Fewer operations outstanding keep the invariant. -/
theorem EnC.dies_le (h : EnC w st lru queue b dies wh) (hd : ∀ q, opsOut q dies' ≤ opsOut q dies) :
    EnC w st lru queue b dies' wh :=
  { h with fills := fun i => by have := h.fills i; have := hd (isFill i); omega }

theorem EnC.drop_fill {i : Nat} (h : EnC (w.fill i) st lru queue b dies wh) : EnC w st lru queue b dies wh :=
  { h with
    fills := fun j => by
      have := h.fills j
      simp only [Due.fill, List.count_cons] at this
      omega }

theorem EnC.drop_op {op : Op} (h : EnC (w.op op) st lru queue b dies wh) : EnC w st lru queue b dies wh :=
  { h with
    fills := fun j => by
      have := h.fills j
      simp only [Due.op, opsCount_cons] at this
      omega }

theorem isFill_iff {op : Op} {i : Nat} (hr : op.role = .readFill i) (hs : op.stale = false) (j : Nat) :
    (if isFill j op.role op.stale op.block then 1 else 0) = if j = i then 1 else 0 := by
  by_cases hj : j = i
  · subst hj; simp [isFill, hr, hs]
  · have : ¬ i = j := fun e => hj e.symm
    simp [isFill, hr, hs, hj, this]

theorem count_cons_nat (l : List Nat) (i j : Nat) : (i :: l).count j = l.count j + if j = i then 1 else 0 := by
  rw [List.count_cons]
  by_cases h : j = i
  · simp [h]
  · have : ¬ i = j := fun e => h e.symm
    simp [h, this]

/-- A read-fill is answered: its entry's fetch is on its way. -/
theorem EnC.op_fill {op : Op} {i : Nat} (h : EnC (w.op op) st lru queue b dies wh) (hr : op.role = .readFill i)
    (hs : op.stale = false) : EnC (w.fill i) st lru queue b dies wh :=
  { h with
    fills := fun j => by
      have := h.fills j
      have k := isFill_iff hr hs j
      simp only [Due.op, opsCount_cons, k] at this
      simp only [Due.fill, count_cons_nat]
      omega }

/-- The entry's read-fill is the operation about to be issued. -/
theorem EnC.fill_op {op : Op} {i : Nat} (h : EnC (w.fill i) st lru queue b dies wh) (hr : op.role = .readFill i)
    (hs : op.stale = false) : EnC (w.op op) st lru queue b dies wh :=
  { h with
    fills := fun j => by
      have := h.fills j
      have k := isFill_iff hr hs j
      simp only [Due.fill, count_cons_nat] at this
      simp only [Due.op, opsCount_cons, k]
      omega }

/-- An operation that is no read-fill is about to be issued. -/
theorem EnC.other {op : Op} (h : EnC w st lru queue b dies wh) (hop : op.role.isReadFill = false) :
    EnC (w.op op) st lru queue b dies wh :=
  { h with
    fills := fun j => by
      have := h.fills j
      have k : isFill j op.role op.stale op.block = false := by
        have : op.role ≠ .readFill j := fun e => by rw [e] at hop; cases hop
        simp [isFill, this]
      simp only [Due.op, opsCount_cons, k]
      simpa using this }

/-- An entry changes its state: each holder loses the entry or gains it as the states say. -/
theorem EnC.move {w' : Due} {lru' queue' : List Nat} {b' : Option Batch} {wh' : List Nat} {i : Nat}
    (h : EnC w st lru queue b dies wh) (hi : i < st.length) (e : Entry)
    (hq : ∀ j, j ≠ i → queue'.count j + w'.back.count j = queue.count j + w.back.count j)
    (hq' : queue'.count i + w'.back.count i = if e.state = .dirty then 1 else 0)
    (hl : ∀ j, j ≠ i → lru'.count j = lru.count j) (hl' : lru'.count i = if e.state = .clean then 1 else 0)
    (hr : ∀ j, j ≠ i → (batchEntries b').count j + w'.recs.count j = (batchEntries b).count j + w.recs.count j)
    (hr' : (batchEntries b').count i + w'.recs.count i = if e.state = .committing then 1 else 0)
    (hf : ∀ j, j ≠ i → opsCount (isFill j) w'.ops + wh'.count j + w'.fills.count j ≤
      opsCount (isFill j) w.ops + wh.count j + w.fills.count j)
    (hf' : opsOut (isFill i) dies + opsCount (isFill i) w'.ops + wh'.count i + w'.fills.count i ≤
      if e.state = .loading then 1 else 0) :
    EnC w' (st.set i e) lru' queue' b' dies wh' := by
  refine ⟨fun j => ?_, fun j => ?_, fun j => ?_, fun j => ?_⟩ <;> by_cases hj : j = i
  · subst hj; rw [isIn_set_same hi, hq']
  · rw [isIn_set_other hj, hq j hj, h.queue]
  · subst hj; rw [isIn_set_same hi, hl']
  · rw [isIn_set_other hj, hl j hj, h.lru]
  · subst hj; rw [isIn_set_same hi, hr']
  · rw [isIn_set_other hj, hr j hj, h.recs]
  · subst hj; rw [isIn_set_same hi]; exact hf'
  · rw [isIn_set_other hj]
    have := hf j hj
    have := h.fills j
    omega

/-- What the invariant says of an entry in a given state. -/
theorem EnC.at (h : EnC w st lru queue b dies wh) {i : Nat} {x : EntryState} (hx : (st.getD i Entry.cleared).state = x) :
    (queue.count i + w.back.count i = if x = .dirty then 1 else 0) ∧ (lru.count i = if x = .clean then 1 else 0) ∧
      ((batchEntries b).count i + w.recs.count i = if x = .committing then 1 else 0) ∧
      (opsOut (isFill i) dies + opsCount (isFill i) w.ops + wh.count i + w.fills.count i ≤ if x = .loading then 1 else 0) := by
  have k := fun y => isIn_of hx y
  exact ⟨(h.queue i).trans (k _), (h.lru i).trans (k _), (h.recs i).trans (k _), (h.fills i).trans (le_of_eq (k _))⟩

/-- An entry on its way from a read-fill is LOADING, and lies in the buffer. -/
theorem EnC.filled {i : Nat} (h : EnC (w.fill i) st lru queue b dies wh) :
    i < st.length ∧ (st.getD i Entry.cleared).state = .loading := by
  have := h.fills i
  simp only [Due.fill, List.count_cons_self] at this
  exact ⟨isIn_lt (by decide) (x := .loading) (by omega), isIn_pos (by omega)⟩

/-- An entry on its way from a batch is COMMITTING, and lies in the buffer. -/
theorem EnC.recorded {i : Nat} (h : EnC (w.recd i) st lru queue b dies wh) :
    i < st.length ∧ (st.getD i Entry.cleared).state = .committing := by
  have := h.recs i
  simp only [Due.recd, List.count_cons_self] at this
  exact ⟨isIn_lt (by decide) (x := .committing) (by omega), isIn_pos (by omega)⟩

theorem count_filter_ne (l : List Nat) (i j : Nat) : (l.filter (· != i)).count j = if j = i then 0 else l.count j := by
  split
  · subst j
    exact List.count_eq_zero.2 fun k => by simp at k
  · exact List.count_filter (by simpa using ‹_›)

theorem count_concat (l : List Nat) (i j : Nat) : (l ++ [i]).count j = l.count j + if j = i then 1 else 0 := by
  rw [List.count_append, List.count_singleton]
  by_cases h : j = i
  · simp [h]
  · have : ¬ i = j := fun e => h e.symm
    simp [h, this]

/-! ### One entry from one state to another -/

theorem EnC.free_dirty {i : Nat} (h : EnC w st lru queue b dies wh) (hi : i < st.length)
    (hs : (st.getD i Entry.cleared).state = .free) (e : Entry) (he : e.state = .dirty) :
    EnC w (st.set i e) lru (queue ++ [i]) b dies wh := by
  obtain ⟨k1, k2, k3, k4⟩ := h.at hs
  simp only [reduceCtorEq, ↓reduceIte] at k1 k2 k3 k4
  refine h.move hi e (fun j hj => ?_) ?_ (fun _ _ => rfl) ?_ (fun _ _ => rfl) ?_ (fun _ _ => le_refl _) ?_ <;>
    simp only [count_concat, reduceCtorEq, ↓reduceIte, *] <;> omega

theorem EnC.fill_dirty {i : Nat} (h : EnC (w.fill i) st lru queue b dies wh) (e : Entry) (he : e.state = .dirty) :
    EnC w (st.set i e) lru (queue ++ [i]) b dies wh := by
  obtain ⟨hi, hs⟩ := h.filled
  obtain ⟨k1, k2, k3, k4⟩ := h.at hs
  simp only [Due.fill, count_cons_nat, reduceCtorEq, ↓reduceIte] at k1 k2 k3 k4
  refine h.move hi e (fun j hj => ?_) ?_ (fun _ _ => rfl) ?_ (fun _ _ => rfl) ?_ (fun j hj => ?_) ?_ <;>
    simp only [Due.fill, count_cons_nat, count_concat, reduceCtorEq, ↓reduceIte, *] <;> omega

theorem EnC.clean_dirty {i : Nat} (h : EnC w st lru queue b dies wh) (hs : (st.getD i Entry.cleared).state = .clean)
    (e : Entry) (he : e.state = .dirty) : EnC w (st.set i e) (lru.filter (· != i)) (queue ++ [i]) b dies wh := by
  have hi : i < st.length := isIn_lt (x := .clean) (by decide) (by rw [isIn_of hs]; decide)
  obtain ⟨k1, k2, k3, k4⟩ := h.at hs
  simp only [reduceCtorEq, ↓reduceIte] at k1 k2 k3 k4
  refine h.move hi e (fun j hj => ?_) ?_ (fun j hj => ?_) ?_ (fun _ _ => rfl) ?_ (fun _ _ => le_refl _) ?_ <;>
    simp only [count_filter_ne, count_concat, reduceCtorEq, ↓reduceIte, *] <;> omega

theorem EnC.fill_clean {i : Nat} (h : EnC (w.fill i) st lru queue b dies wh) (e : Entry) (he : e.state = .clean) :
    EnC w (st.set i e) (lru ++ [i]) queue b dies wh := by
  obtain ⟨hi, hs⟩ := h.filled
  obtain ⟨k1, k2, k3, k4⟩ := h.at hs
  simp only [Due.fill, count_cons_nat, reduceCtorEq, ↓reduceIte] at k1 k2 k3 k4
  refine h.move hi e (fun j hj => ?_) ?_ (fun j hj => ?_) ?_ (fun _ _ => rfl) ?_ (fun j hj => ?_) ?_ <;>
    simp only [Due.fill, count_cons_nat, count_concat, reduceCtorEq, ↓reduceIte, *] <;> omega

theorem EnC.fill_free {i : Nat} (h : EnC (w.fill i) st lru queue b dies wh) (e : Entry) (he : e.state = .free) :
    EnC w (st.set i e) lru queue b dies wh := by
  obtain ⟨hi, hs⟩ := h.filled
  obtain ⟨k1, k2, k3, k4⟩ := h.at hs
  simp only [Due.fill, count_cons_nat, reduceCtorEq, ↓reduceIte] at k1 k2 k3 k4
  refine h.move hi e (fun j hj => ?_) ?_ (fun j hj => ?_) ?_ (fun _ _ => rfl) ?_ (fun j hj => ?_) ?_ <;>
    simp only [Due.fill, count_cons_nat, reduceCtorEq, ↓reduceIte, *] <;> omega

theorem EnC.recd_clean {i : Nat} (h : EnC (w.recd i) st lru queue b dies wh) (e : Entry) (he : e.state = .clean) :
    EnC w (st.set i e) (lru ++ [i]) queue b dies wh := by
  obtain ⟨hi, hs⟩ := h.recorded
  obtain ⟨k1, k2, k3, k4⟩ := h.at hs
  simp only [Due.recd, count_cons_nat, reduceCtorEq, ↓reduceIte] at k1 k2 k3 k4
  refine h.move hi e (fun j hj => ?_) ?_ (fun j hj => ?_) ?_ (fun j hj => ?_) ?_ (fun j hj => ?_) ?_ <;>
    simp only [Due.recd, count_cons_nat, count_concat, reduceCtorEq, ↓reduceIte, *] <;> omega

theorem EnC.recd_free {i : Nat} (h : EnC (w.recd i) st lru queue b dies wh) (e : Entry) (he : e.state = .free) :
    EnC w (st.set i e) lru queue b dies wh := by
  obtain ⟨hi, hs⟩ := h.recorded
  obtain ⟨k1, k2, k3, k4⟩ := h.at hs
  simp only [Due.recd, count_cons_nat, reduceCtorEq, ↓reduceIte] at k1 k2 k3 k4
  refine h.move hi e (fun j hj => ?_) ?_ (fun j hj => ?_) ?_ (fun j hj => ?_) ?_ (fun j hj => ?_) ?_ <;>
    simp only [Due.recd, count_cons_nat, reduceCtorEq, ↓reduceIte, *] <;> omega

/-- An entry of a failed batch is DIRTY again before the queue has it back. -/
theorem EnC.recd_dirt {i : Nat} (h : EnC (w.recd i) st lru queue b dies wh) (e : Entry) (he : e.state = .dirty) :
    EnC (w.dirt i) (st.set i e) lru queue b dies wh := by
  obtain ⟨hi, hs⟩ := h.recorded
  obtain ⟨k1, k2, k3, k4⟩ := h.at hs
  simp only [Due.recd, count_cons_nat, reduceCtorEq, ↓reduceIte] at k1 k2 k3 k4
  refine h.move hi e (fun j hj => ?_) ?_ (fun j hj => ?_) ?_ (fun j hj => ?_) ?_ (fun j hj => ?_) ?_ <;>
    simp only [Due.recd, Due.dirt, count_cons_nat, reduceCtorEq, ↓reduceIte, *] <;> omega

/-- The LRU front is evicted. -/
theorem EnC.evict {i : Nat} {t : List Nat} (h : EnC w st (i :: t) queue b dies wh) (e : Entry) (he : e.state = .free) :
    i < st.length ∧ EnC w (st.set i e) t queue b dies wh := by
  have k := h.lru i
  have k' := h.lru i
  rw [count_cons_nat, if_pos rfl] at k
  have hs : (st.getD i Entry.cleared).state = .clean := isIn_pos (by omega)
  have hi : i < st.length := isIn_lt (x := .clean) (by decide) (by omega)
  obtain ⟨k1, k2, k3, k4⟩ := h.at hs
  simp only [count_cons_nat, reduceCtorEq, ↓reduceIte] at k1 k2 k3 k4
  refine ⟨hi, h.move hi e (fun j hj => rfl) ?_ (fun j hj => ?_) ?_ (fun j hj => rfl) ?_ (fun j hj => le_refl _) ?_⟩ <;>
    simp only [count_cons_nat, reduceCtorEq, ↓reduceIte, *] <;> omega

/-- A FREE entry becomes LOADING, with its read-fill still to be issued. -/
theorem EnC.free_loading {i : Nat} (h : EnC w st lru queue b dies wh) (hi : i < st.length)
    (hs : (st.getD i Entry.cleared).state = .free) (e : Entry) (he : e.state = .loading) :
    EnC (w.fill i) (st.set i e) lru queue b dies wh := by
  obtain ⟨k1, k2, k3, k4⟩ := h.at hs
  simp only [reduceCtorEq, ↓reduceIte] at k1 k2 k3 k4
  refine h.move hi e (fun j hj => rfl) ?_ (fun _ _ => rfl) ?_ (fun _ _ => rfl) ?_ (fun j hj => ?_) ?_ <;>
    simp only [Due.fill, count_cons_nat, reduceCtorEq, ↓reduceIte, *] <;> omega

/-- A CLEAN entry moves to the back of the LRU order. -/
theorem EnC.touch {i : Nat} (h : EnC w st lru queue b dies wh) (hs : (st.getD i Entry.cleared).state = .clean) :
    EnC w st (lru.filter (· != i) ++ [i]) queue b dies wh := by
  obtain ⟨k1, k2, k3, k4⟩ := h.at hs
  refine { h with lru := fun j => ?_ }
  rw [← h.lru j, count_concat, count_filter_ne]
  by_cases hj : j = i
  · subst hj; simp [k2]
  · simp [hj]

theorem EnC.withhold {i : Nat} (h : EnC (w.fill i) st lru queue b dies wh) : EnC w st lru queue b dies (wh ++ [i]) :=
  { h with
    fills := fun j => by
      have k := h.fills j
      simp only [Due.fill, count_cons_nat] at k
      rw [count_concat]
      omega }

/-- The operation on its way is issued. -/
theorem EnC.issued {op : Op} (h : EnC (w.op op) st lru queue b dies wh)
    (hd : ∀ q, opsOut q dies' ≤ opsOut q dies + opsCount q [op]) : EnC w st lru queue b dies' wh :=
  { h with
    fills := fun j => by
      have k := h.fills j
      have := hd (isFill j)
      rw [show (w.op op).ops = [op] ++ w.ops from rfl, opsCount_append] at k
      simp only [Due.op] at k
      omega }

/-- The operation a die has answered, or that an OFFLINE die fails, is on its way. -/
theorem EnC.took {op : Op} (h : EnC w st lru queue b dies wh) (hd : ∀ q, opsOut q dies' + opsCount q [op] ≤ opsOut q dies) :
    EnC (w.op op) st lru queue b dies' wh :=
  { h with
    fills := fun j => by
      have k := h.fills j
      have := hd (isFill j)
      rw [show (w.op op).ops = [op] ++ w.ops from rfl, opsCount_append]
      simp only [Due.op]
      omega }

/-- The withheld read-fills are on their way. -/
theorem EnC.released (h : EnC w st lru queue b dies wh) : EnC { w with fills := wh ++ w.fills } st lru queue b dies [] :=
  { h with
    fills := fun j => by
      have k := h.fills j
      simp only [List.count_append, List.count_nil]
      omega }

/-- What is on its way may be listed in any order. -/
theorem EnC.fills_le {l : List Nat} (h : EnC w st lru queue b dies wh) (hl : ∀ j, l.count j ≤ w.fills.count j) :
    EnC { w with fills := l } st lru queue b dies wh :=
  { h with
    fills := fun j => by
      have k := h.fills j
      have := hl j
      simp only
      omega }

/-- The batch in flight is being answered. -/
theorem EnC.answered (h : EnC w st lru queue b dies wh) :
    EnC { w with recs := batchEntries b ++ w.recs } st lru queue none dies wh :=
  { h with
    recs := fun j => by
      have k := h.recs j
      rw [← k, List.count_append]
      exact Nat.zero_add _ }

/-- The queue takes back the entries of a failed batch. -/
theorem EnC.returned {l : List Nat} (h : EnC { w with back := l ++ w.back } st lru queue b dies wh) :
    EnC w st lru (l ++ queue) b dies wh :=
  { h with
    queue := fun j => by
      have k := h.queue j
      simp only [List.count_append] at k ⊢
      omega }

/-! ### Operations outstanding -/

theorem opsOut_set (q : OpRole → Bool → BlockId → Bool) {d : Nat} (hd : d < dies.length) (r : DieRec) :
    opsOut q (dies.set d r) + opsCount q (dies.getD d DieRec.unused).ops = opsOut q dies + opsCount q r.ops := by
  induction dies generalizing d with
  | nil => cases hd
  | cons a l ih =>
    cases d with
    | zero => simp only [List.set_cons_zero, opsOut, List.map_cons, List.sum_cons, List.getD_cons_zero]; omega
    | succ d =>
      have := ih (d := d) (by simpa using hd)
      simp only [List.set_cons_succ, opsOut, List.map_cons, List.sum_cons, List.getD_cons_succ] at this ⊢
      omega

theorem opsOut_set_le (q : OpRole → Bool → BlockId → Bool) {d k : Nat} (r : DieRec)
    (h : opsCount q r.ops ≤ opsCount q (dies.getD d DieRec.unused).ops + k) : opsOut q (dies.set d r) ≤ opsOut q dies + k := by
  by_cases hd : d < dies.length
  · have := opsOut_set q hd r
    omega
  · rw [List.set_eq_of_length_le (by omega)]; omega

theorem opsOut_map_le (q : OpRole → Bool → BlockId → Bool) (f : DieRec → DieRec)
    (hf : ∀ r, opsCount q (f r).ops ≤ opsCount q r.ops) : opsOut q (dies.map f) ≤ opsOut q dies := by
  induction dies with
  | nil => exact le_refl _
  | cons a l ih =>
    have := hf a
    simp only [opsOut, List.map_cons, List.sum_cons] at ih ⊢
    omega

theorem opsOut_zipIdx_le (q : OpRole → Bool → BlockId → Bool) (f : DieRec × Nat → DieRec)
    (hf : ∀ r n, opsCount q (f (r, n)).ops ≤ opsCount q r.ops) (n : Nat) : opsOut q ((dies.zipIdx n).map f) ≤ opsOut q dies := by
  induction dies generalizing n with
  | nil => exact le_refl _
  | cons a l ih =>
    have h1 := hf a n
    have := ih (n + 1)
    simp only [opsOut, List.zipIdx_cons, List.map_cons, List.sum_cons] at this ⊢
    omega

/-! ### A batch is formed -/

theorem foldl_set_getD (f : Entry → Entry) (l : List Nat) (hn : l.Nodup) (st : List Entry) (i : Nat) :
    (l.foldl (fun st i => st.set i (f (st.getD i Entry.cleared))) st).getD i Entry.cleared =
      if i ∈ l ∧ i < st.length then f (st.getD i Entry.cleared) else st.getD i Entry.cleared := by
  induction l generalizing st with
  | nil => simp
  | cons a l ih =>
    have ⟨h1, h2⟩ := List.nodup_cons.1 hn
    rw [List.foldl_cons, ih h2, List.length_set]
    by_cases ha : i = a
    · subst ha
      by_cases hl : i < st.length
      · simp [h1, hl, List.getD_eq_getElem?_getD]
      · simp [hl, List.getD_eq_getElem?_getD]
    · have ha' : ¬ a = i := fun e => ha e.symm
      simp [List.getD_eq_getElem?_getD, ha, ha']

/-- The first entries of the queue become COMMITTING, and the batch in flight. -/
theorem EnC.formed (h : EnC w st lru queue none dies wh) (n : Nat) (f : Entry → Entry) (hf : ∀ e, (f e).state = .committing)
    (x : Batch) (hx : x.recs.map (·.entry) = queue.take n) :
    EnC w ((queue.take n).foldl (fun st i => st.set i (f (st.getD i Entry.cleared))) st) lru (queue.drop n) (some x) dies wh := by
  have hb : batchEntries (some x) = queue.take n := hx
  have hn : (queue.take n).Nodup := by
    refine List.nodup_iff_count_le_one.2 fun i => ?_
    have := h.queue i
    have := isIn_le st i .dirty
    have := (List.take_sublist n queue).count_le i
    omega
  have hsplit : ∀ i, (queue.take n).count i + (queue.drop n).count i = queue.count i := fun i => by
    rw [← List.count_append, List.take_append_drop]
  have key : ∀ i y, isIn ((queue.take n).foldl (fun st i => st.set i (f (st.getD i Entry.cleared))) st) i y =
      if 0 < (queue.take n).count i then (if EntryState.committing = y then 1 else 0) else isIn st i y := by
    intro i y
    unfold isIn
    rw [foldl_set_getD f _ hn]
    by_cases hm : i ∈ queue.take n
    · have hc : 0 < (queue.take n).count i := List.count_pos_iff.2 hm
      have hlt : i < st.length := by
        have := h.queue i
        have := hsplit i
        exact isIn_lt (x := .dirty) (by decide) (by omega)
      simp [hm, hc, hlt, hf]
    · have hc : ¬ 0 < (queue.take n).count i := fun k => hm (List.count_pos_iff.1 k)
      simp [hm]
  have hd : ∀ i, 0 < (queue.take n).count i → (queue.take n).count i = 1 ∧ (queue.drop n).count i + w.back.count i = 0 ∧
      (st.getD i Entry.cleared).state = .dirty := by
    intro i hi
    have := h.queue i
    have := isIn_le st i .dirty
    have := hsplit i
    exact ⟨by omega, by omega, isIn_pos (by omega)⟩
  refine ⟨fun i => ?_, fun i => ?_, fun i => ?_, fun i => ?_⟩ <;> rw [key] <;> split <;> rename_i hi
  · obtain ⟨k1, k2, k3⟩ := hd i hi
    simp; omega
  · rw [← h.queue i]; have := hsplit i; omega
  · obtain ⟨k1, k2, k3⟩ := hd i hi
    have := (h.at k3).2.1
    simpa using this
  · exact h.lru i
  · obtain ⟨k1, k2, k3⟩ := hd i hi
    have := (h.at k3).2.2.1
    simp only [reduceCtorEq, ↓reduceIte] at this ⊢
    rw [hb]; omega
  · rw [hb, ← h.recs i]; simp only [batchEntries]; simp; omega
  · obtain ⟨k1, k2, k3⟩ := hd i hi
    have := (h.at k3).2.2.2
    simpa using this
  · exact h.fills i

end Sys2Proof.Machine
end

