-- ==== Sys2Proof/Laws/Blocks.lean ====
section
/-! SUPPORT. The block table's invariant through one event: `BkC` says what the table, the free list, the line map and all that holds a
block agree on, with what an operation has on its way, and one lemma for each way a block goes from one state to another. -/
namespace Sys2Proof.Machine

/-- The block table agrees with the line map, the free list, the heads, the reclaim engine, the identity manager and the erases. -/
structure BkC (w : Due) (force : Bool) (blocks : List (Nat × BlockRec)) (fl : List BlockId) (mp : List (Nat × MapEntry))
    (dies : List DieRec) (hd : Option LogHead) (bat : Option Batch) (ch : Option LogHead) (vc : Option BlockId)
    (rl wt : List BlockId) (idq : List IdRequest) (idu : Option Update) (phase : MountPhase) (fmt : Bool) : Prop where
  rise : keysRise blocks = true
  fresh : phase ≠ .done → blocks = []
  valid : ∀ k, located mp k = ((keyGet k blocks).map (·.valid)).getD 0
  free : ∀ k, (fl.map blockKey).count k = recIs blocks k (·.state == .free)
  ident : ∀ k r, keyGet k blocks = some r → isIdentityBlock (blockAt k) = true → r.state = .identity
  empty : ∀ k r, keyGet k blocks = some r → r.isEmpty = true → r.valid = 0
  works : ∀ k r, keyGet k blocks = some r → r.workFits = true
  head : ∀ k, headOn hd k ≤ recIs blocks k (·.state == .hostHead)
  copy : ∀ k, headOn ch k ≤ recIs blocks k (·.state == .copyHead)
  vic : ∀ b, vc = some b → recIs blocks (blockKey b) (·.state == .victim) = 1
  reloc : ∀ k, (rl.map blockKey).count k ≤ recIs blocks k fun r => r.state == .relocating && r.work == .none
  wait : ∀ k, (wt.map blockKey).count k ≤ recIs blocks k (·.work == .retireWaiting)
  reqs : ∀ k, (retireKeys idq idu).count k + (w.reqs.map blockKey).count k ≤ recIs blocks k (·.work == .retireHanded)
  erases : force = true →
    ∀ k, opsOut (isErase .erase k) dies + opsCount (isErase .erase k) w.ops ≤ recIs blocks k (·.work == .eraseOut)
  stamps : force = true →
    ∀ k, opsOut (isErase .eraseStamp k) dies + opsCount (isErase .eraseStamp k) w.ops ≤ recIs blocks k (·.work == .stampOut)
  opens : opsOut isOpen dies + opsCount isOpen w.ops ≤ if hd.map (·.stamp) = some .inFlight then 1 else 0
  batch : ∀ b, bat = some b → ∃ h, hd = some h ∧ h.block = b.block ∧ h.stamp = .passed
  quiet : phase ≠ .done ∨ fmt = true →
    hd = none ∧ bat = none ∧ ch = none ∧ vc = none ∧ rl = [] ∧ wt = [] ∧ retireKeys idq idu = [] ∧ w.reqs = []
  still : phase ≠ .done →
    ∀ k, opsOut (isErase .erase k) dies + opsCount (isErase .erase k) w.ops = 0 ∧
      opsOut (isErase .eraseStamp k) dies + opsCount (isErase .eraseStamp k) w.ops = 0

/-! ### Records of the table -/

theorem recIs_put (blocks : List (Nat × BlockRec)) (k : Nat) (r : BlockRec) (j : Nat) (p : BlockRec → Bool) :
    recIs (keyPut k r blocks) j p = if j = k then (if p r then 1 else 0) else recIs blocks j p := by
  unfold recIs
  by_cases hj : j = k
  · subst hj; simp [keyGet_keyPut_same]
  · simp [keyGet_keyPut_other hj, hj]

theorem recIs_of {blocks : List (Nat × BlockRec)} {k : Nat} {r : BlockRec} (h : keyGet k blocks = some r) (p : BlockRec → Bool) :
    recIs blocks k p = if p r then 1 else 0 := by
  simp [recIs, h]

theorem recIs_pos {blocks : List (Nat × BlockRec)} {k : Nat} {p : BlockRec → Bool} (h : 0 < recIs blocks k p) :
    ∃ r, keyGet k blocks = some r ∧ p r = true := by
  unfold recIs at h
  split at h
  · rename_i e
    exact Option.any_eq_true _ _ |>.1 e
  · cases h

theorem recIs_le (blocks : List (Nat × BlockRec)) (k : Nat) (p : BlockRec → Bool) : recIs blocks k p ≤ 1 := by
  unfold recIs; split <;> simp

/-- A table changed at no record's tested part passes the same tests. -/
theorem recIs_congr {blocks blocks' : List (Nat × BlockRec)} {k : Nat} {p : BlockRec → Bool}
    (h : (keyGet k blocks').map p = (keyGet k blocks).map p) : recIs blocks' k p = recIs blocks k p := by
  unfold recIs
  have e : ∀ o : Option BlockRec, o.any p = (o.map p).getD false := fun o => by cases o <;> rfl
  rw [e, e, h]

variable {w w' : Due} {force : Bool} {blocks : List (Nat × BlockRec)} {free free' : List BlockId} {map : List (Nat × MapEntry)}
  {dies dies' : List DieRec} {head : Option LogHead} {bat : Option Batch} {ch : Option LogHead} {vic : Option BlockId}
  {reloc wait : List BlockId} {idq : List IdRequest} {idu : Option Update} {phase : MountPhase} {fmt : Bool}

theorem not_quiet (hp : phase = .done) (hf : fmt = false) : ¬ (phase ≠ .done ∨ fmt = true) := by
  rintro (k | k)
  · exact k hp
  · rw [hf] at k; cases k

/-! ### Operations -/

theorem BkC.dies_le (h : BkC w force blocks free map dies head bat ch vic reloc wait idq idu phase fmt)
    (hd : ∀ q, opsOut q dies' ≤ opsOut q dies) :
    BkC w force blocks free map dies' head bat ch vic reloc wait idq idu phase fmt :=
  { h with
    erases := fun f k => by have := h.erases f k; have := hd (isErase .erase k); omega
    stamps := fun f k => by have := h.stamps f k; have := hd (isErase .eraseStamp k); omega
    opens := by have := h.opens; have := hd isOpen; omega
    still := fun f k => by
      have := h.still f k; have := hd (isErase .erase k); have := hd (isErase .eraseStamp k); omega }

/-- The operation on its way is issued. -/
theorem BkC.issued {op : Op} (h : BkC (w.op op) force blocks free map dies head bat ch vic reloc wait idq idu phase fmt)
    (hd : ∀ q, opsOut q dies' ≤ opsOut q dies + opsCount q [op]) :
    BkC w force blocks free map dies' head bat ch vic reloc wait idq idu phase fmt := by
  have e : ∀ q, opsCount q (w.op op).ops = opsCount q [op] + opsCount q w.ops := fun q => opsCount_append q [op] w.ops
  exact { h with
    erases := fun f k => by have := h.erases f k; have := hd (isErase .erase k); have := e (isErase .erase k); omega
    stamps := fun f k => by have := h.stamps f k; have := hd (isErase .eraseStamp k); have := e (isErase .eraseStamp k); omega
    opens := by have := h.opens; have := hd isOpen; have := e isOpen; omega
    still := fun f k => by
      have := h.still f k; have := hd (isErase .erase k); have := hd (isErase .eraseStamp k)
      have := e (isErase .erase k); have := e (isErase .eraseStamp k); omega }

/-- The operation a die has answered, or that an OFFLINE die fails, is on its way. -/
theorem BkC.took {op : Op} (h : BkC w force blocks free map dies head bat ch vic reloc wait idq idu phase fmt)
    (hd : ∀ q, opsOut q dies' + opsCount q [op] ≤ opsOut q dies) :
    BkC (w.op op) force blocks free map dies' head bat ch vic reloc wait idq idu phase fmt := by
  have e : ∀ q, opsCount q (w.op op).ops = opsCount q [op] + opsCount q w.ops := fun q => opsCount_append q [op] w.ops
  exact { h with
    erases := fun f k => by have := h.erases f k; have := hd (isErase .erase k); have := e (isErase .erase k); omega
    stamps := fun f k => by have := h.stamps f k; have := hd (isErase .eraseStamp k); have := e (isErase .eraseStamp k); omega
    opens := by have := h.opens; have := hd isOpen; have := e isOpen; omega
    still := fun f k => by
      have := h.still f k; have := hd (isErase .erase k); have := hd (isErase .eraseStamp k)
      have := e (isErase .erase k); have := e (isErase .eraseStamp k); omega }

/-- What is on its way may be less. -/
theorem BkC.debts (h : BkC w force blocks free map dies head bat ch vic reloc wait idq idu phase fmt)
    (ho : ∀ q, opsCount q w'.ops ≤ opsCount q w.ops) (hr : w'.reqs = w.reqs) :
    BkC w' force blocks free map dies head bat ch vic reloc wait idq idu phase fmt :=
  { h with
    reqs := fun k => by rw [hr]; exact h.reqs k
    erases := fun f k => by have := h.erases f k; have := ho (isErase .erase k); omega
    stamps := fun f k => by have := h.stamps f k; have := ho (isErase .eraseStamp k); omega
    opens := by have := h.opens; have := ho isOpen; omega
    quiet := fun f => by rw [hr]; exact h.quiet f
    still := fun f k => by
      have := h.still f k; have := ho (isErase .erase k); have := ho (isErase .eraseStamp k); omega }

theorem BkC.drop_op {op : Op} (h : BkC (w.op op) force blocks free map dies head bat ch vic reloc wait idq idu phase fmt) :
    BkC w force blocks free map dies head bat ch vic reloc wait idq idu phase fmt :=
  h.debts (fun q => by rw [show (w.op op).ops = op :: w.ops from rfl, opsCount_cons]; omega) rfl

/-- An operation that is neither an erase, an erase stamp nor a host head's open stamp is about to be issued. -/
theorem BkC.other {op : Op} (h : BkC w force blocks free map dies head bat ch vic reloc wait idq idu phase fmt)
    (h1 : op.role ≠ .erase) (h2 : op.role ≠ .eraseStamp) (h3 : op.role ≠ .hostOpenStamp) :
    BkC (w.op op) force blocks free map dies head bat ch vic reloc wait idq idu phase fmt := by
  have e1 : ∀ k, opsCount (isErase .erase k) (w.op op).ops = opsCount (isErase .erase k) w.ops := fun k => by
    rw [show (w.op op).ops = op :: w.ops from rfl, opsCount_cons]; simp [isErase, h1]
  have e2 : ∀ k, opsCount (isErase .eraseStamp k) (w.op op).ops = opsCount (isErase .eraseStamp k) w.ops := fun k => by
    rw [show (w.op op).ops = op :: w.ops from rfl, opsCount_cons]; simp [isErase, h2]
  have e3 : opsCount isOpen (w.op op).ops = opsCount isOpen w.ops := by
    rw [show (w.op op).ops = op :: w.ops from rfl, opsCount_cons]; simp [isOpen, h3]
  exact { h with
    erases := fun f k => by rw [e1]; exact h.erases f k
    stamps := fun f k => by rw [e2]; exact h.stamps f k
    opens := by rw [e3]; exact h.opens
    still := fun f k => by rw [e1, e2]; exact h.still f k }

/-- The erases outstanding may be accounted for no longer. -/
theorem BkC.reforce {force' : Bool} (h : BkC w force blocks free map dies head bat ch vic reloc wait idq idu phase fmt)
    (hf : force' = true → force = true) : BkC w force' blocks free map dies head bat ch vic reloc wait idq idu phase fmt :=
  { h with
    erases := fun f => h.erases (hf f)
    stamps := fun f => h.stamps (hf f) }

/-! ### One record from one state to another -/

/-- What the invariant says of the holders of a block. -/
structure BkAt (w : Due) (force : Bool) (k : Nat) (r : BlockRec) (fl : List BlockId) (dies : List DieRec)
    (hd ch : Option LogHead) (vc : Option BlockId) (rl wt : List BlockId) (idq : List IdRequest) (idu : Option Update) :
    Prop where
  free : (fl.map blockKey).count k = if r.state = .free then 1 else 0
  empty : r.isEmpty = true → r.valid = 0
  works : r.workFits = true
  head : headOn hd k ≤ if r.state = .hostHead then 1 else 0
  copy : headOn ch k ≤ if r.state = .copyHead then 1 else 0
  vic : ∀ b, vc = some b → blockKey b = k → r.state = .victim
  reloc : (rl.map blockKey).count k ≤ if r.state = .relocating ∧ r.work = .none then 1 else 0
  wait : (wt.map blockKey).count k ≤ if r.work = .retireWaiting then 1 else 0
  reqs : (retireKeys idq idu).count k + (w.reqs.map blockKey).count k ≤ if r.work = .retireHanded then 1 else 0
  erases : force = true →
    opsOut (isErase .erase k) dies + opsCount (isErase .erase k) w.ops ≤ if r.work = .eraseOut then 1 else 0
  stamps : force = true →
    opsOut (isErase .eraseStamp k) dies + opsCount (isErase .eraseStamp k) w.ops ≤ if r.work = .stampOut then 1 else 0

theorem BkC.at (h : BkC w force blocks free map dies head bat ch vic reloc wait idq idu phase fmt) {k : Nat} {r : BlockRec}
    (hr : keyGet k blocks = some r) : BkAt w force k r free dies head ch vic reloc wait idq idu := by
  have e := fun p => recIs_of hr p
  refine ⟨?_, h.empty k r hr, h.works k r hr, ?_, ?_, fun b hb hk => ?_, ?_, ?_, ?_, fun f => ?_, fun f => ?_⟩
  · have := h.free k; rw [e] at this; simpa using this
  · have := h.head k; rw [e] at this; simpa using this
  · have := h.copy k; rw [e] at this; simpa using this
  · subst hk; have := h.vic b hb; rw [e] at this; simpa using this
  · have := h.reloc k; rw [e] at this; simpa using this
  · have := h.wait k; rw [e] at this; simpa using this
  · have := h.reqs k; rw [e] at this; simpa using this
  · have := h.erases f k; rw [e] at this; simpa using this
  · have := h.stamps f k; rw [e] at this; simpa using this

/-- A record goes over to another with the same valid count; the free list and what is on its way go with it. -/
theorem BkC.move (h : BkC w force blocks free map dies head bat ch vic reloc wait idq idu phase fmt) {k : Nat} {r : BlockRec}
    (hr : keyGet k blocks = some r) (r' : BlockRec) (hv : r'.valid = r.valid)
    (hid : r.state = .identity → r'.state = .identity)
    (hf : ∀ j, j ≠ k → (free'.map blockKey).count j = (free.map blockKey).count j)
    (ho : ∀ role j, j ≠ k → opsCount (isErase role j) w'.ops ≤ opsCount (isErase role j) w.ops)
    (hop : opsCount isOpen w'.ops ≤ opsCount isOpen w.ops)
    (hq : ∀ j, j ≠ k → (w'.reqs.map blockKey).count j ≤ (w.reqs.map blockKey).count j) (hq' : w.reqs = [] → w'.reqs = [])
    (hs : phase ≠ .done → ∀ role, opsCount (isErase role k) w'.ops ≤ opsCount (isErase role k) w.ops)
    (hk : BkAt w' force k r' free' dies head ch vic reloc wait idq idu) :
    BkC w' force (keyPut k r' blocks) free' map dies head bat ch vic reloc wait idq idu phase fmt := by
  have e := recIs_put blocks k r'
  have g : ∀ j x, keyGet j (keyPut k r' blocks) = some x → (j = k ∧ x = r') ∨ (j ≠ k ∧ keyGet j blocks = some x) := by
    intro j x hx
    by_cases hj : j = k
    · subst hj; rw [keyGet_keyPut_same] at hx; cases hx; exact .inl ⟨rfl, rfl⟩
    · rw [keyGet_keyPut_other hj] at hx; exact .inr ⟨hj, hx⟩
  refine
    { rise := keyPut_rises _ _ h.rise
      fresh := fun f => by rw [h.fresh f] at hr; cases hr
      valid := fun j => ?_
      free := fun j => ?_
      ident := fun j x hx hi => ?_
      empty := fun j x hx => ?_
      works := fun j x hx => ?_
      head := fun j => ?_
      copy := fun j => ?_
      vic := fun b hb => ?_
      reloc := fun j => ?_
      wait := fun j => ?_
      reqs := fun j => ?_
      erases := fun f j => ?_
      stamps := fun f j => ?_
      opens := by have := h.opens; omega
      batch := h.batch
      quiet := fun f => by
        obtain ⟨a1, a2, a3, a4, a5, a6, a7, a8⟩ := h.quiet f
        exact ⟨a1, a2, a3, a4, a5, a6, a7, hq' a8⟩
      still := fun f j => ?_ }
  · rw [h.valid]
    by_cases hj : j = k
    · subst hj; rw [keyGet_keyPut_same, hr]; simp [hv]
    · rw [keyGet_keyPut_other hj]
  · rw [e]; split
    · rename_i hj; subst hj; rw [hk.free]; simp
    · rename_i hj; rw [hf j hj, h.free]
  · rcases g j x hx with ⟨rfl, rfl⟩ | ⟨_, hx⟩
    · exact hid (h.ident _ _ hr hi)
    · exact h.ident _ _ hx hi
  · rcases g j x hx with ⟨rfl, rfl⟩ | ⟨_, hx⟩
    · exact hk.empty
    · exact h.empty _ _ hx
  · rcases g j x hx with ⟨rfl, rfl⟩ | ⟨_, hx⟩
    · exact hk.works
    · exact h.works _ _ hx
  · rw [e]; split
    · rename_i hj; subst hj; simpa using hk.head
    · exact h.head j
  · rw [e]; split
    · rename_i hj; subst hj; simpa using hk.copy
    · exact h.copy j
  · rw [e]; split
    · rename_i hj; simp [hk.vic b hb hj]
    · exact h.vic b hb
  · rw [e]; split
    · rename_i hj; subst hj; simpa using hk.reloc
    · exact h.reloc j
  · rw [e]; split
    · rename_i hj; subst hj; simpa using hk.wait
    · exact h.wait j
  · rw [e]; split
    · rename_i hj; subst hj; simpa using hk.reqs
    · rename_i hj
      have := h.reqs j
      have := hq j hj
      omega
  · rw [e]; split
    · rename_i hj; subst hj; simpa using hk.erases f
    · rename_i hj
      have := h.erases f j
      have := ho .erase j hj
      omega
  · rw [e]; split
    · rename_i hj; subst hj; simpa using hk.stamps f
    · rename_i hj
      have := h.stamps f j
      have := ho .eraseStamp j hj
      omega
  · have := h.still f j
    by_cases hj : j = k
    · subst hj; have := hs f .erase; have := hs f .eraseStamp; omega
    · have := ho .erase j hj; have := ho .eraseStamp j hj; omega

/-! ### The free list and the heads -/

theorem free_work {r : BlockRec} (h : r.workFits = true) (h1 : r.state ≠ .erasing) (h2 : r.state ≠ .relocating) : r.work = .none := by
  cases r with
  | mk st v e c rd wk => cases wk <;> simp_all [BlockRec.workFits]

/-- The front block is taken. -/
theorem BkC.take {b : BlockId} {t : List BlockId} (h : BkC w force blocks (b :: t) map dies head bat ch vic reloc wait idq idu phase fmt)
    (st : BlockState) (hst : st = .hostHead ∨ st = .copyHead) :
    ∃ r, keyGet (blockKey b) blocks = some r ∧
      BkC w force (keyPut (blockKey b) { r with state := st } blocks) t map dies head bat ch vic reloc wait idq idu phase fmt ∧
      recIs (keyPut (blockKey b) { r with state := st } blocks) (blockKey b) (·.state == st) = 1 := by
  have hc : 0 < recIs blocks (blockKey b) (·.state == .free) := by
    rw [← h.free, List.map_cons, count_cons_nat]; simp
  obtain ⟨r, hr, hs⟩ := recIs_pos hc
  have hs : r.state = .free := by simpa using hs
  refine ⟨r, hr, ?_, by rw [recIs_put]; simp⟩
  obtain ⟨a1, a2, a3, a4, a5, a6, a7, a8, a9, a10, a11⟩ := h.at hr
  have hw : r.work = .none := free_work a3 (by simp [hs]) (by simp [hs])
  rw [List.map_cons, count_cons_nat] at a1
  simp only [hs, hw, reduceCtorEq, ↓reduceIte, false_and, Nat.le_zero_eq] at a1 a4 a5 a6 a7 a8 a9 a10 a11
  refine h.move hr _ rfl (fun k => by simp [hs] at k) (fun j hj => ?_) (fun _ _ _ => le_refl _) (le_refl _)
    (fun _ _ => le_refl _) id (fun _ _ => le_refl _) ⟨?_, ?_, ?_, ?_, ?_, fun x hx hk => ?_, ?_, ?_, ?_, fun f => ?_, fun f => ?_⟩
  · rw [List.map_cons, count_cons_nat, if_neg hj]; simp
  · rcases hst with rfl | rfl <;> simp at a1 ⊢ <;> omega
  · rcases hst with rfl | rfl <;> simp [BlockRec.isEmpty, hw]
  · simp [BlockRec.workFits, hw]
  · omega
  · omega
  · exact absurd (a6 x hx hk) (by simp)
  · omega
  · omega
  · simp [hw]; simpa using a9
  · simp [hw]; simpa using a10 f
  · simp [hw]; simpa using a11 f

theorem headOn_of (h : LogHead) (k : Nat) : headOn (some h) k = if blockKey h.block = k then 1 else 0 := by
  simp [headOn]

/-- A host head is set on a block taken for it. -/
theorem BkC.openHost (h : BkC w force blocks free map dies none bat ch vic reloc wait idq idu phase fmt) (x : LogHead)
    (hx : recIs blocks (blockKey x.block) (·.state == .hostHead) = 1) (hp : phase = .done) (hf : fmt = false) :
    BkC w force blocks free map dies (some x) bat ch vic reloc wait idq idu phase fmt :=
  { h with
    head := fun k => by
      rw [headOn_of]; split
      · rename_i e; rw [← e, hx]
      · exact Nat.zero_le _
    opens := by have := h.opens; simp at this; simp [this]
    batch := fun b hb => by obtain ⟨y, hy, _⟩ := h.batch b hb; cases hy
    quiet := fun f => absurd f (not_quiet hp hf) }

/-- Its open stamp is about to be issued. -/
theorem BkC.openStamp {op : Op} {x : LogHead} (h : BkC w force blocks free map dies (some x) bat ch vic reloc wait idq idu phase fmt)
    (hz : opsOut isOpen dies + opsCount isOpen w.ops = 0) (hx : x.stamp = .inFlight) (hop : op.role = .hostOpenStamp) :
    BkC (w.op op) force blocks free map dies (some x) bat ch vic reloc wait idq idu phase fmt := by
  have e1 : ∀ k, opsCount (isErase .erase k) (w.op op).ops = opsCount (isErase .erase k) w.ops := fun k => by
    rw [show (w.op op).ops = op :: w.ops from rfl, opsCount_cons]; simp [isErase, hop]
  have e2 : ∀ k, opsCount (isErase .eraseStamp k) (w.op op).ops = opsCount (isErase .eraseStamp k) w.ops := fun k => by
    rw [show (w.op op).ops = op :: w.ops from rfl, opsCount_cons]; simp [isErase, hop]
  exact { h with
    erases := fun f k => by rw [e1]; exact h.erases f k
    stamps := fun f k => by rw [e2]; exact h.stamps f k
    opens := by
      rw [show (w.op op).ops = op :: w.ops from rfl, opsCount_cons]
      simp only [Option.map_some, hx, ↓reduceIte]
      split <;> omega
    still := fun f k => by rw [e1, e2]; exact h.still f k }

/-- The host head goes on, on the same block and with its stamp where it stands. -/
theorem BkC.headOnward {x y : LogHead} (h : BkC w force blocks free map dies (some x) bat ch vic reloc wait idq idu phase fmt)
    (hb : y.block = x.block) (hs : y.stamp = x.stamp) : BkC w force blocks free map dies (some y) bat ch vic reloc wait idq idu phase fmt :=
  { h with
    head := fun k => by rw [headOn_of, hb, ← headOn_of]; exact h.head k
    opens := by have := h.opens; simpa [hs] using this
    batch := fun b hbt => by
      obtain ⟨z, hz, h1, h2⟩ := h.batch b hbt
      cases hz
      exact ⟨y, rfl, hb.trans h1, hs.trans h2⟩
    quiet := fun f => by obtain ⟨k, _⟩ := h.quiet f; cases k }

/-- The host head's open stamp is answered: nothing else asks for it, and there is no batch. -/
theorem BkC.stampAnswered {op : Op} {x : LogHead} (h : BkC (w.op op) force blocks free map dies (some x) bat ch vic reloc wait idq idu phase fmt)
    (hop : op.role = .hostOpenStamp) (hs : op.stale = false) :
    x.stamp = .inFlight ∧ opsOut isOpen dies + opsCount isOpen w.ops = 0 ∧ bat = none := by
  have k := h.opens
  rw [show (w.op op).ops = op :: w.ops from rfl, opsCount_cons] at k
  have e : isOpen op.role op.stale op.block = true := by simp [isOpen, hop, hs]
  simp only [e, ↓reduceIte, Option.map_some, Option.some.injEq] at k
  have hx : x.stamp = .inFlight := by by_contra hx; rw [if_neg hx] at k; omega
  refine ⟨hx, by rw [if_pos hx] at k; omega, ?_⟩
  cases hb : bat with
  | none => rfl
  | some b =>
    obtain ⟨z, hz, _, h2⟩ := h.batch b hb
    cases hz
    rw [hx] at h2
    cases h2

/-- The host head's stamp has passed. -/
theorem BkC.stampPassed {x : LogHead} (h : BkC w force blocks free map dies (some x) bat ch vic reloc wait idq idu phase fmt) (hz : opsOut isOpen dies + opsCount isOpen w.ops = 0)
    (hb : bat = none) : BkC w force blocks free map dies (some { x with stamp := .passed }) bat ch vic reloc wait idq idu phase fmt :=
  { h with
    head := fun k => h.head k
    opens := by rw [hz]; exact Nat.zero_le _
    batch := fun b k => by rw [hb] at k; cases k
    quiet := fun f => by obtain ⟨k, _⟩ := h.quiet f; cases k }

/-- No host head is left. -/
theorem BkC.headGone (h : BkC w force blocks free map dies head bat ch vic reloc wait idq idu phase fmt) (hz : opsOut isOpen dies + opsCount isOpen w.ops = 0)
    (hb : bat = none) : BkC w force blocks free map dies none bat ch vic reloc wait idq idu phase fmt :=
  { h with
    head := fun k => Nat.zero_le _
    opens := by rw [hz]; exact Nat.zero_le _
    batch := fun b k => by rw [hb] at k; cases k
    quiet := fun f => by obtain ⟨_, k⟩ := h.quiet f; exact ⟨rfl, k⟩ }

/-- The batch in flight has been answered. -/
theorem BkC.batchGone (h : BkC w force blocks free map dies head bat ch vic reloc wait idq idu phase fmt) : BkC w force blocks free map dies head none ch vic reloc wait idq idu phase fmt :=
  { h with
    batch := fun b k => nomatch k
    quiet := fun f => by obtain ⟨k1, _, k⟩ := h.quiet f; exact ⟨k1, rfl, k⟩ }

/-- A batch is formed on a head whose stamp has passed. -/
theorem BkC.formed {x : LogHead} (h : BkC w force blocks free map dies (some x) bat ch vic reloc wait idq idu phase fmt) (b : Batch)
    (hb : x.block = b.block) (hs : x.stamp = .passed) : BkC w force blocks free map dies (some x) (some b) ch vic reloc wait idq idu phase fmt :=
  { h with
    batch := fun c k => by cases k; exact ⟨x, rfl, hb, hs⟩
    quiet := fun f => by obtain ⟨k, _⟩ := h.quiet f; cases k }

/-- A copy head is set on a block taken for it. -/
theorem BkC.openCopy (h : BkC w force blocks free map dies head bat ch vic reloc wait idq idu phase fmt) (x : LogHead)
    (hx : recIs blocks (blockKey x.block) (·.state == .copyHead) = 1) (hp : phase = .done) (hf : fmt = false) :
    BkC w force blocks free map dies head bat (some x) vic reloc wait idq idu phase fmt :=
  { h with
    copy := fun k => by
      rw [headOn_of]; split
      · rename_i e; rw [← e, hx]
      · exact Nat.zero_le _
    quiet := fun f => absurd f (not_quiet hp hf) }

/-- The copy head goes on, on the same block. -/
theorem BkC.copyOnward {x y : LogHead} (h : BkC w force blocks free map dies head bat (some x) vic reloc wait idq idu phase fmt) (hb : y.block = x.block) : BkC w force blocks free map dies head bat (some y) vic reloc wait idq idu phase fmt :=
  { h with
    copy := fun k => by rw [headOn_of, hb, ← headOn_of]; exact h.copy k
    quiet := fun f => by obtain ⟨_, _, k, _⟩ := h.quiet f; cases k }

/-- No copy head is left. -/
theorem BkC.copyGone (h : BkC w force blocks free map dies head bat ch vic reloc wait idq idu phase fmt) : BkC w force blocks free map dies head bat none vic reloc wait idq idu phase fmt :=
  { h with
    copy := fun k => Nat.zero_le _
    quiet := fun f => by obtain ⟨k1, k2, _, k⟩ := h.quiet f; exact ⟨k1, k2, rfl, k⟩ }

/-! ### Blocks that leave a head, victims and relocated blocks -/

/-- A head's block has no head left and becomes CLOSED or RELOCATING. -/
theorem BkC.leave {k : Nat} {r : BlockRec} (h : BkC w force blocks free map dies head bat ch vic reloc wait idq idu phase fmt) (hr : keyGet k blocks = some r)
    (hs : (r.state = .hostHead ∧ headOn head k = 0) ∨ (r.state = .copyHead ∧ headOn ch k = 0)) (st : BlockState)
    (hst : st = .closed ∨ st = .relocating) (c : Option Nat) :
    BkC w force (keyPut k { r with state := st, closeSeq := c } blocks) free map dies head bat ch vic reloc wait idq idu phase fmt ∧
      (reloc.map blockKey).count k = 0 ∧ (wait.map blockKey).count k = 0 := by
  obtain ⟨a1, a2, a3, a4, a5, a6, a7, a8, a9, a10, a11⟩ := h.at hr
  have hw : r.work = .none := free_work a3 (by rcases hs with ⟨e, _⟩ | ⟨e, _⟩ <;> simp [e]) (by rcases hs with ⟨e, _⟩ | ⟨e, _⟩ <;> simp [e])
  have n1 : r.state ≠ .relocating := by rcases hs with ⟨e, _⟩ | ⟨e, _⟩ <;> simp [e]
  have n2 : r.state ≠ .free := by rcases hs with ⟨e, _⟩ | ⟨e, _⟩ <;> simp [e]
  have n3 : r.state ≠ .victim := by rcases hs with ⟨e, _⟩ | ⟨e, _⟩ <;> simp [e]
  have n4 : r.state ≠ .identity := by rcases hs with ⟨e, _⟩ | ⟨e, _⟩ <;> simp [e]
  have z4 : headOn head k = 0 := by
    rcases hs with ⟨_, e⟩ | ⟨e, _⟩
    · exact e
    · rw [if_neg (by simp [e])] at a4; omega
  have z5 : headOn ch k = 0 := by
    rcases hs with ⟨e, _⟩ | ⟨_, e⟩
    · rw [if_neg (by simp [e])] at a5; omega
    · exact e
  simp only [n1, n2, hw, false_and, reduceCtorEq, ↓reduceIte, Nat.le_zero_eq] at a1 a7 a8 a9 a10 a11
  refine ⟨h.move hr _ rfl (fun e => absurd e n4) (fun _ _ => rfl) (fun _ _ _ => le_refl _) (le_refl _) (fun _ _ => le_refl _) id
    (fun _ _ => le_refl _) ⟨?_, ?_, ?_, by omega, by omega, fun b hb e => absurd (a6 b hb e) n3, by omega, by omega, ?_,
      fun f => ?_, fun f => ?_⟩, a7, a8⟩
  · rcases hst with rfl | rfl <;> simpa using a1
  · rcases hst with rfl | rfl <;> simp [BlockRec.isEmpty, hw]
  · simp [BlockRec.workFits, hw]
  · simp [hw]; simpa using a9
  · simp [hw]; simpa using a10 f
  · simp [hw]; simpa using a11 f

/-- A RELOCATING block joins the relocation list. -/
theorem BkC.addReloc {b : BlockId} (h : BkC w force blocks free map dies head bat ch vic reloc wait idq idu phase fmt)
    (hb : recIs blocks (blockKey b) (fun r => r.state == .relocating && r.work == .none) = 1)
    (hz : (reloc.map blockKey).count (blockKey b) = 0) (hp : phase = .done) (hf : fmt = false) :
    BkC w force blocks free map dies head bat ch vic (reloc ++ [b]) wait idq idu phase fmt :=
  { h with
    reloc := fun k => by
      rw [List.map_append, List.map_singleton, count_concat]
      split
      · rename_i e; subst e; rw [hz, hb]
      · exact h.reloc k
    quiet := fun f => absurd f (not_quiet hp hf) }

/-- The relocation list's first block leaves it. -/
theorem BkC.relocGone {b : BlockId} {t : List BlockId} (h : BkC w force blocks free map dies head bat ch vic (b :: t) wait idq idu phase fmt) :
    BkC w force blocks free map dies head bat ch vic t wait idq idu phase fmt ∧
      recIs blocks (blockKey b) (fun r => r.state == .relocating && r.work == .none) = 1 ∧
      (t.map blockKey).count (blockKey b) = 0 := by
  have k := h.reloc (blockKey b)
  have := recIs_le blocks (blockKey b) (fun r => r.state == .relocating && r.work == .none)
  rw [List.map_cons, count_cons_nat, if_pos rfl] at k
  refine ⟨{ h with
    reloc := fun j => by
      have := h.reloc j
      rw [List.map_cons, count_cons_nat] at this
      omega
    quiet := fun f => by obtain ⟨_, _, _, _, k, _⟩ := h.quiet f; cases k }, by omega, by omega⟩

/-- The work of a RELOCATING block that no list holds, or of an ERASING block whose operation has failed, goes over to retirement. -/
theorem BkC.awaits {b : BlockId} {r : BlockRec} (h : BkC w force blocks free map dies head bat ch vic reloc wait idq idu phase fmt)
    (hr : keyGet (blockKey b) blocks = some r) (hs : r.state = .relocating ∨ r.state = .erasing)
    (h1 : r.work ≠ .retireWaiting) (h2 : r.work ≠ .retireHanded)
    (hz : (reloc.map blockKey).count (blockKey b) = 0)
    (he : force = true → ∀ role, (role = .erase ∨ role = .eraseStamp) →
      opsOut (isErase role (blockKey b)) dies + opsCount (isErase role (blockKey b)) w.ops = 0) :
    BkC w force (keyPut (blockKey b) { r with work := .retireWaiting } blocks) free map dies head bat ch vic reloc wait idq idu phase fmt ∧
      (wait.map blockKey).count (blockKey b) = 0 := by
  obtain ⟨a1, a2, a3, a4, a5, a6, a7, a8, a9, a10, a11⟩ := h.at hr
  have n2 : r.state ≠ .free := by rcases hs with e | e <;> simp [e]
  have n3 : r.state ≠ .victim := by rcases hs with e | e <;> simp [e]
  have n4 : r.state ≠ .identity := by rcases hs with e | e <;> simp [e]
  have n5 : r.state ≠ .hostHead := by rcases hs with e | e <;> simp [e]
  have n6 : r.state ≠ .copyHead := by rcases hs with e | e <;> simp [e]
  rw [if_neg n2] at a1
  rw [if_neg n5] at a4
  rw [if_neg n6] at a5
  rw [if_neg h1] at a8
  rw [if_neg h2] at a9
  refine ⟨h.move hr _ rfl (fun e => absurd e n4) (fun _ _ => rfl) (fun _ _ _ => le_refl _) (le_refl _) (fun _ _ => le_refl _) id
    (fun _ _ => le_refl _)
    { free := by rw [if_neg n2]; exact a1
      empty := fun e => a2 (by simp [BlockRec.isEmpty] at e ⊢; tauto)
      works := by rcases hs with e | e <;> simp [BlockRec.workFits, e]
      head := a4.trans (Nat.zero_le _)
      copy := a5.trans (Nat.zero_le _)
      vic := fun x hx e => absurd (a6 x hx e) n3
      reloc := by rw [hz]; exact Nat.zero_le _
      wait := a8.trans (Nat.zero_le _)
      reqs := a9.trans (Nat.zero_le _)
      erases := fun f => by
        rw [he f _ (.inl rfl)]; exact Nat.zero_le _
      stamps := fun f => by
        rw [he f _ (.inr rfl)]; exact Nat.zero_le _ }, Nat.le_zero.1 a8⟩

/-- The block joins the list of those that await retirement. -/
theorem BkC.addWait {b : BlockId} (h : BkC w force blocks free map dies head bat ch vic reloc wait idq idu phase fmt)
    (hb : recIs blocks (blockKey b) (·.work == .retireWaiting) = 1) (hz : (wait.map blockKey).count (blockKey b) = 0)
    (hp : phase = .done) (hf : fmt = false) :
    BkC w force blocks free map dies head bat ch vic reloc (wait ++ [b]) idq idu phase fmt :=
  { h with
    wait := fun k => by
      rw [List.map_append, List.map_singleton, count_concat]
      split
      · rename_i e; subst e; rw [hz, hb]
      · exact h.wait k
    quiet := fun f => absurd f (not_quiet hp hf) }

/-- A CLOSED block becomes the victim. -/
theorem BkC.takeVictim {b : BlockId} {r : BlockRec} (h : BkC w force blocks free map dies head bat ch vic reloc wait idq idu phase fmt)
    (hr : keyGet (blockKey b) blocks = some r) (hs : r.state = .closed) (hp : phase = .done) (hf : fmt = false) :
    BkC w force (keyPut (blockKey b) { r with state := .victim } blocks) free map dies head bat ch (some b) reloc wait idq idu phase fmt := by
  obtain ⟨a1, a2, a3, a4, a5, a6, a7, a8, a9, a10, a11⟩ := h.at hr
  have hw : r.work = .none := free_work a3 (by simp [hs]) (by simp [hs])
  simp only [hs, hw, reduceCtorEq, ↓reduceIte, false_and, Nat.le_zero_eq] at a1 a4 a5 a7 a8 a9 a10 a11
  have m : BkC w force (keyPut (blockKey b) { r with state := .victim } blocks) free map dies head bat ch vic reloc wait idq idu phase fmt :=
    h.move hr _ rfl (fun e => by simp [hs] at e) (fun _ _ => rfl) (fun _ _ _ => le_refl _) (le_refl _) (fun _ _ => le_refl _) id
      (fun _ _ => le_refl _)
      { free := by simpa using a1
        empty := fun e => by simp [BlockRec.isEmpty, hw] at e
        works := by simp [BlockRec.workFits, hw]
        head := by omega
        copy := by omega
        vic := fun x hx e => rfl
        reloc := by omega
        wait := by omega
        reqs := by simp [hw]; simpa using a9
        erases := fun f => by simp [hw]; simpa using a10 f
        stamps := fun f => by simp [hw]; simpa using a11 f }
  exact { m with
    vic := fun x hx => by cases hx; rw [recIs_put]; simp
    quiet := fun f => absurd f (not_quiet hp hf) }

/-- A walked victim with nothing valid in it becomes ERASING. -/
theorem BkC.eraseVictim {b : BlockId} {r : BlockRec} (h : BkC w force blocks free map dies head bat ch (some b) reloc wait idq idu phase fmt)
    (hr : keyGet (blockKey b) blocks = some r) (hv : r.valid = 0) :
    BkC w force (keyPut (blockKey b) { r with state := .erasing, closeSeq := none, work := .eraseWaiting } blocks) free map dies head bat ch none reloc wait idq idu phase fmt := by
  have g : BkC w force blocks free map dies head bat ch none reloc wait idq idu phase fmt :=
    { h with
      vic := fun x hx => nomatch hx
      quiet := fun f => by obtain ⟨_, _, _, k, _⟩ := h.quiet f; cases k }
  obtain ⟨a1, a2, a3, a4, a5, a6, a7, a8, a9, a10, a11⟩ := h.at hr
  have hs : r.state = .victim := a6 b rfl rfl
  have hw : r.work = .none := free_work a3 (by simp [hs]) (by simp [hs])
  simp only [hs, hw, reduceCtorEq, ↓reduceIte, false_and, Nat.le_zero_eq] at a1 a4 a5 a7 a8 a9 a10 a11
  exact g.move hr _ rfl (fun e => by simp [hs] at e) (fun _ _ => rfl) (fun _ _ _ => le_refl _) (le_refl _) (fun _ _ => le_refl _) id
      (fun _ _ => le_refl _)
      { free := by simpa using a1
        empty := fun _ => hv
        works := by simp [BlockRec.workFits]
        head := by omega
        copy := by omega
        vic := fun x hx e => nomatch hx
        reloc := by omega
        wait := by omega
        reqs := by simp; simpa using a9
        erases := fun f => by simp; simpa using a10 f
        stamps := fun f => by simp; simpa using a11 f }

/-! ### Retirement -/

theorem count_filter_key (l : List BlockId) (b : BlockId) (k : Nat) :
    ((l.filter (· != b)).map blockKey).count k ≤ (l.map blockKey).count k :=
  (List.filter_sublist.map _).count_le k

theorem count_filter_key_lt {l : List BlockId} {b : BlockId} (h : b ∈ l) :
    ((l.filter (· != b)).map blockKey).count (blockKey b) + 1 ≤ (l.map blockKey).count (blockKey b) := by
  induction l with
  | nil => cases h
  | cons a l ih =>
    by_cases ha : a = b
    · subst ha
      rw [List.filter_cons_of_neg (by simp), List.map_cons, count_cons_nat, if_pos rfl]
      have := count_filter_key l a (blockKey a)
      omega
    · have hb : b ∈ l := by
        rcases List.mem_cons.1 h with e | e
        · exact absurd e.symm ha
        · exact e
      have := ih hb
      rw [List.filter_cons_of_pos (by simpa using ha), List.map_cons, List.map_cons, count_cons_nat, count_cons_nat]
      omega

/-- A block that awaits retirement leaves the list and its work goes on to another. -/
theorem BkC.waitGone {b : BlockId} (h : BkC w force blocks free map dies head bat ch vic reloc wait idq idu phase fmt)
    (hb : b ∈ wait) (wk : BlockWork) (hwk : wk = .retireHanded ∨ wk = .stuck) (hv : ∀ r, keyGet (blockKey b) blocks = some r → r.valid = 0) :
    ∃ r, keyGet (blockKey b) blocks = some r ∧
      BkC w force (keyPut (blockKey b) { r with work := wk } blocks) free map dies head bat ch vic reloc (wait.filter (· != b)) idq idu phase fmt ∧
      (retireKeys idq idu).count (blockKey b) + (w.reqs.map blockKey).count (blockKey b) = 0 := by
  have k := h.wait (blockKey b)
  have k' := count_filter_key_lt hb
  obtain ⟨r, hr, hw⟩ := recIs_pos (blocks := blocks) (k := blockKey b) (p := fun r => r.work == .retireWaiting) (by omega)
  have hw : r.work = .retireWaiting := by simpa using hw
  have g : BkC w force blocks free map dies head bat ch vic reloc (wait.filter (· != b)) idq idu phase fmt :=
    { h with
      wait := fun j => le_trans (count_filter_key _ _ _) (h.wait j)
      quiet := fun f => by
        obtain ⟨k1, k2, k3, k4, k5, k6, k7⟩ := h.quiet f
        rw [k6] at hb
        cases hb }
  obtain ⟨a1, a2, a3, a4, a5, a6, a7, a8, a9, a10, a11⟩ := h.at hr
  have hs : r.state = .erasing ∨ r.state = .relocating := by simpa [BlockRec.workFits, hw] using a3
  have n2 : r.state ≠ .free := by rcases hs with e | e <;> simp [e]
  have n3 : r.state ≠ .victim := by rcases hs with e | e <;> simp [e]
  have n4 : r.state ≠ .identity := by rcases hs with e | e <;> simp [e]
  have n5 : r.state ≠ .hostHead := by rcases hs with e | e <;> simp [e]
  have n6 : r.state ≠ .copyHead := by rcases hs with e | e <;> simp [e]
  rw [hw] at a8
  simp only [n2, n5, n6, hw, and_false, reduceCtorEq, ↓reduceIte, Nat.le_zero_eq] at a1 a4 a5 a7 a8 a9 a10 a11
  refine ⟨r, hr, ?_, a9⟩
  exact g.move hr _ rfl (fun e => absurd e n4) (fun _ _ => rfl) (fun _ _ _ => le_refl _) (le_refl _) (fun _ _ => le_refl _) id
      (fun _ _ => le_refl _)
      { free := by simpa [n2] using a1
        empty := fun _ => hv r hr
        works := by rcases hwk with rfl | rfl <;> simpa [BlockRec.workFits] using hs
        head := by omega
        copy := by omega
        vic := fun x hx e => absurd (a6 x hx e) n3
        reloc := by omega
        wait := by omega
        reqs := by omega
        erases := fun f => by have := a10 f; omega
        stamps := fun f => by have := a11 f; omega }

/-- A block that is handed is asked to be retired. -/
theorem BkC.addReq {b : BlockId} (h : BkC w force blocks free map dies head bat ch vic reloc wait idq idu phase fmt)
    (hb : recIs blocks (blockKey b) (·.work == .retireHanded) = 1)
    (hz : (retireKeys idq idu).count (blockKey b) + (w.reqs.map blockKey).count (blockKey b) = 0)
    (hp : phase = .done) (hf : fmt = false) :
    BkC w force blocks free map dies head bat ch vic reloc wait (idq ++ [.retire b]) idu phase fmt := by
  have e : ∀ k, (retireKeys (idq ++ [.retire b]) idu).count k = (retireKeys idq idu).count k + if k = blockKey b then 1 else 0 := by
    intro k
    have e1 : retireBlocks [.retire b] = [b] := rfl
    have e2 : ∀ a c, retireBlocks (a ++ c) = retireBlocks a ++ retireBlocks c := fun a c => List.filterMap_append
    simp only [retireKeys, e1, e2, List.map_append, List.count_append, List.map_cons, List.map_nil, count_cons_nat, List.count_nil]
    omega
  exact { h with
    reqs := fun k => by
      have := h.reqs k
      rw [e]
      split
      · rename_i ek; subst ek; omega
      · omega
    quiet := fun f => absurd f (not_quiet hp hf) }

/-- The requests are served: an update is formed of them. -/
theorem BkC.requests (h : BkC w force blocks free map dies head bat ch vic reloc wait idq idu phase fmt)
    {idq' : List IdRequest} {idu' : Option Update} (he : retireKeys idq' idu' = retireKeys idq idu) :
    BkC w force blocks free map dies head bat ch vic reloc wait idq' idu' phase fmt :=
  { h with
    reqs := fun k => by rw [he]; exact h.reqs k
    quiet := fun f => by rw [he]; exact h.quiet f }

/-- An update is answered: the blocks it retires are on their way. -/
theorem BkC.answered {u : Update} (h : BkC w force blocks free map dies head bat ch vic reloc wait idq (some u) phase fmt) :
    BkC ({ w with reqs := retireBlocks u.served ++ w.reqs }) force blocks free map dies head bat ch vic reloc wait idq none phase fmt :=
  { h with
    reqs := fun k => by
      have := h.reqs k
      simp only [retireKeys, retireBlocks, Option.map_some, Option.map_none, Option.getD_some, Option.getD_none, List.append_nil,
        List.filterMap_append, List.map_append, List.count_append] at this ⊢
      omega
    quiet := fun f => by
      obtain ⟨k1, k2, k3, k4, k5, k6, k7, k8⟩ := h.quiet f
      simp only [retireKeys, retireBlocks, Option.map_some, Option.getD_some, List.filterMap_append, List.map_append,
        List.append_eq_nil_iff, List.map_eq_nil_iff] at k7
      refine ⟨k1, k2, k3, k4, k5, k6, ?_, ?_⟩
      · simp only [retireKeys, retireBlocks, Option.map_none, Option.getD_none, List.append_nil, List.map_eq_nil_iff]
        exact k7.1
      · simp only [List.append_eq_nil_iff]
        exact ⟨k7.2, k8⟩ }

/-- A block whose retirement is answered is RETIRED. -/
theorem BkC.retire {b : BlockId} {l : List BlockId} (h : BkC ({ w with reqs := b :: l }) force blocks free map dies head bat ch vic reloc wait idq idu phase fmt) :
    ∃ r, keyGet (blockKey b) blocks = some r ∧
      BkC ({ w with reqs := l }) force (keyPut (blockKey b) { r with state := .retired, valid := 0, closeSeq := none, work := .none } blocks) free map dies head bat ch vic reloc wait idq idu phase fmt := by
  have k := h.reqs (blockKey b)
  simp only [List.map_cons, count_cons_nat, ↓reduceIte] at k
  obtain ⟨r, hr, hw⟩ := recIs_pos (blocks := blocks) (k := blockKey b) (p := fun r => r.work == .retireHanded) (by omega)
  have hw : r.work = .retireHanded := by simpa using hw
  obtain ⟨a1, a2, a3, a4, a5, a6, a7, a8, a9, a10, a11⟩ := h.at hr
  have hs : r.state = .erasing ∨ r.state = .relocating := by simpa [BlockRec.workFits, hw] using a3
  have hv : r.valid = 0 := a2 (by simp [BlockRec.isEmpty, hw])
  have n2 : r.state ≠ .free := by rcases hs with e | e <;> simp [e]
  have n3 : r.state ≠ .victim := by rcases hs with e | e <;> simp [e]
  have n4 : r.state ≠ .identity := by rcases hs with e | e <;> simp [e]
  have n5 : r.state ≠ .hostHead := by rcases hs with e | e <;> simp [e]
  have n6 : r.state ≠ .copyHead := by rcases hs with e | e <;> simp [e]
  simp only [n2, n5, n6, hw, and_false, reduceCtorEq, ↓reduceIte, Nat.le_zero_eq, List.map_cons, count_cons_nat]
    at a1 a4 a5 a7 a8 a9 a10 a11
  refine ⟨r, hr, h.move hr _ hv.symm (fun e => absurd e n4) (fun _ _ => rfl) (fun _ _ _ => le_refl _) (le_refl _)
    (fun j hj => ?_) (fun e => nomatch e) (fun _ _ => le_refl _)
      { free := by simpa using a1
        empty := fun _ => rfl
        works := rfl
        head := by omega
        copy := by omega
        vic := fun x hx e => absurd (a6 x hx e) n3
        reloc := by omega
        wait := by omega
        reqs := by simp only; omega
        erases := fun f => by have := a10 f; simp only; omega
        stamps := fun f => by have := a11 f; simp only; omega }⟩
  show _ ≤ ((b :: l).map blockKey).count j
  rw [List.map_cons, count_cons_nat, if_neg hj]
  exact le_refl _

/-! ### Erases -/

theorem isEmpty_congr {r r' : BlockRec} (hs : r'.state = r.state) (hw : r'.work = r.work) : r'.isEmpty = r.isEmpty := by
  simp [BlockRec.isEmpty, hs, hw]

theorem workFits_congr {r r' : BlockRec} (hs : r'.state = r.state) (hw : r'.work = r.work) : r'.workFits = r.workFits := by
  simp [BlockRec.workFits, hs, hw]

/-- A record's counts and sequence change, but not its state, its valid count or its work. -/
theorem BkC.same {k : Nat} {r : BlockRec} (h : BkC w force blocks free map dies head bat ch vic reloc wait idq idu phase fmt)
    (hr : keyGet k blocks = some r) (r' : BlockRec) (hs : r'.state = r.state) (hv : r'.valid = r.valid) (hw : r'.work = r.work) :
    BkC w force (keyPut k r' blocks) free map dies head bat ch vic reloc wait idq idu phase fmt := by
  obtain ⟨a1, a2, a3, a4, a5, a6, a7, a8, a9, a10, a11⟩ := h.at hr
  refine h.move hr r' hv (fun e => hs.trans e) (fun _ _ => rfl) (fun _ _ _ => le_refl _) (le_refl _) (fun _ _ => le_refl _) id
    (fun _ _ => le_refl _) ⟨?_, ?_, ?_, ?_, ?_, ?_, ?_, ?_, ?_, ?_, ?_⟩
  · rw [hs]; exact a1
  · rw [isEmpty_congr hs hw, hv]; exact a2
  · rw [workFits_congr hs hw]; exact a3
  · rw [hs]; exact a4
  · rw [hs]; exact a5
  · rw [hs]; exact a6
  · rw [hs, hw]; exact a7
  · rw [hw]; exact a8
  · rw [hw]; exact a9
  · rw [hw]; exact a10
  · rw [hw]; exact a11

/-- The work of an ERASING block, which retirement does not concern, goes on. -/
theorem BkC.work {k : Nat} {r : BlockRec} (h : BkC w force blocks free map dies head bat ch vic reloc wait idq idu phase fmt)
    (hr : keyGet k blocks = some r) (hs : r.state = .erasing) (h1 : r.work ≠ .retireWaiting) (h2 : r.work ≠ .retireHanded)
    (wk : BlockWork) (hwk : wk ≠ .none)
    (he : force = true → ∀ role, (role = .erase ∨ role = .eraseStamp) →
      opsOut (isErase role k) dies + opsCount (isErase role k) w.ops = 0) :
    BkC w force (keyPut k { r with work := wk } blocks) free map dies head bat ch vic reloc wait idq idu phase fmt := by
  obtain ⟨a1, a2, a3, a4, a5, a6, a7, a8, a9, a10, a11⟩ := h.at hr
  have hv : r.valid = 0 := a2 (by simp [BlockRec.isEmpty, hs])
  simp only [hs, h1, h2, reduceCtorEq, ↓reduceIte, false_and] at a1 a4 a5 a6 a7 a8 a9
  refine h.move hr _ rfl (fun e => by simp [hs] at e) (fun _ _ => rfl) (fun _ _ _ => le_refl _) (le_refl _) (fun _ _ => le_refl _) id
    (fun _ _ => le_refl _) ⟨?_, fun _ => hv, ?_, ?_, ?_, fun x hx e => absurd (a6 x hx e) (by simp), ?_, ?_, ?_, fun f => ?_, fun f => ?_⟩
  · simp [hs, a1]
  · cases wk <;> simp_all [BlockRec.workFits]
  · exact a4.trans (Nat.zero_le _)
  · exact a5.trans (Nat.zero_le _)
  · exact a7.trans (Nat.zero_le _)
  · exact a8.trans (Nat.zero_le _)
  · exact a9.trans (Nat.zero_le _)
  · rw [he f _ (.inl rfl)]; exact Nat.zero_le _
  · rw [he f _ (.inr rfl)]; exact Nat.zero_le _

/-- The work that an erase or an erase stamp belongs to. -/
def eraseWork : OpRole → BlockWork
  | .erase => .eraseOut
  | _ => .stampOut

/-- An erase or erase stamp is about to be issued, for a block whose work asks for it. -/
theorem BkC.eraseIssue {op : Op} (h : BkC w force blocks free map dies head bat ch vic reloc wait idq idu phase fmt)
    (ho : op.role = .erase ∨ op.role = .eraseStamp) (_hs : op.stale = false)
    (hz : force = true → opsOut (isErase op.role (blockKey op.block)) dies + opsCount (isErase op.role (blockKey op.block)) w.ops = 0)
    (hb : recIs blocks (blockKey op.block) (·.work == eraseWork op.role) = 1) :
    BkC (w.op op) force blocks free map dies head bat ch vic reloc wait idq idu phase fmt := by
  have hp : phase = .done := by
    by_contra hp
    rw [h.fresh hp] at hb
    cases hb
  have e : ∀ q, opsCount q (w.op op).ops = opsCount q w.ops + if q op.role op.stale op.block then 1 else 0 := fun q => opsCount_cons q op w.ops
  have e3 : opsCount isOpen (w.op op).ops = opsCount isOpen w.ops := by
    rw [e]; rcases ho with ho | ho <;> simp [isOpen, ho]
  refine { h with
    erases := fun f k => ?_
    stamps := fun f k => ?_
    opens := by rw [e3]; exact h.opens
    still := fun f => absurd hp f }
  · have h1 := h.erases f k
    have h2 := hz f
    rw [e]
    rcases ho with ho | ho
    · by_cases hk : blockKey op.block = k
      · subst hk
        rw [ho] at h2 hb
        simp only [eraseWork] at hb
        rw [hb]
        split <;> omega
      · have : isErase .erase k op.role op.stale op.block = false := by simp [isErase, hk]
        rw [this]; simpa using h.erases f k
    · have : isErase .erase k op.role op.stale op.block = false := by simp [isErase, ho]
      rw [this]; simpa using h.erases f k
  · have h1 := h.stamps f k
    have h2 := hz f
    rw [e]
    rcases ho with ho | ho
    · have : isErase .eraseStamp k op.role op.stale op.block = false := by simp [isErase, ho]
      rw [this]; simpa using h.stamps f k
    · by_cases hk : blockKey op.block = k
      · subst hk
        rw [ho] at h2 hb
        simp only [eraseWork] at hb
        rw [hb]
        split <;> omega
      · have : isErase .eraseStamp k op.role op.stale op.block = false := by simp [isErase, hk]
        rw [this]; simpa using h.stamps f k

/-- An answer taken of an erase or erase stamp finds its block with that work, and nothing more asks for it. -/
theorem BkC.eraseTaken {op : Op} (h : BkC (w.op op) force blocks free map dies head bat ch vic reloc wait idq idu phase fmt)
    (ho : op.role = .erase ∨ op.role = .eraseStamp) (hs : op.stale = false) (hf : force = true) :
    phase = .done ∧ ∃ r, keyGet (blockKey op.block) blocks = some r ∧ r.state = .erasing ∧ r.valid = 0 ∧ r.work = eraseWork op.role ∧
      ∀ role, (role = .erase ∨ role = .eraseStamp) →
        opsOut (isErase role (blockKey op.block)) dies + opsCount (isErase role (blockKey op.block)) w.ops = 0 := by
  have e : ∀ q, opsCount q (w.op op).ops = opsCount q w.ops + if q op.role op.stale op.block then 1 else 0 := fun q => opsCount_cons q op w.ops
  have hp : phase = .done := by
    by_contra hp
    have := h.still hp (blockKey op.block)
    rw [e, e] at this
    rcases ho with ho | ho <;> simp [isErase, ho, hs] at this
  have h1 := h.erases hf (blockKey op.block)
  have h2 := h.stamps hf (blockKey op.block)
  rw [e] at h1 h2
  refine ⟨hp, ?_⟩
  rcases ho with ho | ho
  · have i1 : isErase .erase (blockKey op.block) op.role op.stale op.block = true := by simp [isErase, ho, hs]
    have i2 : isErase .eraseStamp (blockKey op.block) op.role op.stale op.block = false := by simp [isErase, ho]
    rw [i1, if_pos rfl] at h1
    rw [i2] at h2
    obtain ⟨r, hr, hw⟩ := recIs_pos (blocks := blocks) (k := blockKey op.block) (p := (·.work == .eraseOut)) (by omega)
    have hw : r.work = .eraseOut := by simpa using hw
    have := recIs_le blocks (blockKey op.block) (·.work == .eraseOut)
    rw [recIs_of hr] at h2
    simp only [hw, reduceCtorEq, beq_iff_eq, ↓reduceIte, Bool.false_eq_true] at h2
    have hst : r.state = .erasing := by have := h.works _ _ hr; simpa [BlockRec.workFits, hw] using this
    refine ⟨r, hr, hst, h.empty _ _ hr (by simp [BlockRec.isEmpty, hst]), by rw [hw, ho]; rfl, ?_⟩
    rintro role (rfl | rfl) <;> omega
  · have i1 : isErase .erase (blockKey op.block) op.role op.stale op.block = false := by simp [isErase, ho]
    have i2 : isErase .eraseStamp (blockKey op.block) op.role op.stale op.block = true := by simp [isErase, ho, hs]
    rw [i1] at h1
    rw [i2, if_pos rfl] at h2
    obtain ⟨r, hr, hw⟩ := recIs_pos (blocks := blocks) (k := blockKey op.block) (p := (·.work == .stampOut)) (by omega)
    have hw : r.work = .stampOut := by simpa using hw
    have := recIs_le blocks (blockKey op.block) (·.work == .stampOut)
    rw [recIs_of hr] at h1
    simp only [hw, reduceCtorEq, beq_iff_eq, ↓reduceIte, Bool.false_eq_true] at h1
    have hst : r.state = .erasing := by have := h.works _ _ hr; simpa [BlockRec.workFits, hw] using this
    refine ⟨r, hr, hst, h.empty _ _ hr (by simp [BlockRec.isEmpty, hst]), by rw [hw, ho]; rfl, ?_⟩
    rintro role (rfl | rfl) <;> omega

/-- A block that waits for its erase, or is held for it, has nothing outstanding. -/
theorem BkC.unerased {k : Nat} {r : BlockRec} (h : BkC w force blocks free map dies head bat ch vic reloc wait idq idu phase fmt)
    (hr : keyGet k blocks = some r) (h1 : r.work ≠ .eraseOut) (h2 : r.work ≠ .stampOut) (f : force = true) :
    ∀ role, (role = .erase ∨ role = .eraseStamp) → opsOut (isErase role k) dies + opsCount (isErase role k) w.ops = 0 := by
  have k1 := (h.at hr).erases f
  have k2 := (h.at hr).stamps f
  rw [if_neg h1] at k1
  rw [if_neg h2] at k2
  rintro role (rfl | rfl) <;> omega

theorem count_freeInsert (s : State) (b : BlockId) (l : List BlockId) (k : Nat) :
    ((freeInsert s b l).map blockKey).count k = (l.map blockKey).count k + if k = blockKey b then 1 else 0 := by
  induction l with
  | nil => rw [freeInsert, List.map_cons, count_cons_nat]
  | cons a l ih =>
    unfold freeInsert
    split
    · rw [List.map_cons, count_cons_nat]
    · rw [List.map_cons, count_cons_nat, ih, List.map_cons, count_cons_nat]; omega

/-- A stamped block becomes FREE and joins the free list. -/
theorem BkC.join {b : BlockId} {r : BlockRec} (h : BkC w force blocks free map dies head bat ch vic reloc wait idq idu phase fmt)
    (hr : keyGet (blockKey b) blocks = some r) (hs : r.state = .erasing) (hw : r.work = .stampOut) (hv : r.valid = 0)
    (hz : ∀ role, (role = .erase ∨ role = .eraseStamp) →
      opsOut (isErase role (blockKey b)) dies + opsCount (isErase role (blockKey b)) w.ops = 0)
    (r' : BlockRec) (h1 : r'.state = .free) (h2 : r'.valid = 0) (h3 : r'.work = .none)
    (hf : ∀ k, (free'.map blockKey).count k = (free.map blockKey).count k + if k = blockKey b then 1 else 0) :
    BkC w force (keyPut (blockKey b) r' blocks) free' map dies head bat ch vic reloc wait idq idu phase fmt := by
  obtain ⟨a1, a2, a3, a4, a5, a6, a7, a8, a9, a10, a11⟩ := h.at hr
  simp only [hs, hw, reduceCtorEq, ↓reduceIte, false_and] at a1 a4 a5 a6 a7 a8 a9
  refine h.move hr _ (h2.trans hv.symm) (fun e => by simp [hs] at e) (fun j hj => by rw [hf, if_neg hj]; rfl) (fun _ _ _ => le_refl _)
    (le_refl _) (fun _ _ => le_refl _) id (fun _ _ => le_refl _)
    ⟨?_, fun _ => h2, ?_, ?_, ?_, fun x hx e => absurd (a6 x hx e) (by simp), ?_, ?_, ?_, fun f => ?_, fun f => ?_⟩
  · rw [hf, a1, if_pos rfl, if_pos h1]
  · simp [BlockRec.workFits, h3]
  · exact a4.trans (Nat.zero_le _)
  · exact a5.trans (Nat.zero_le _)
  · exact a7.trans (Nat.zero_le _)
  · exact a8.trans (Nat.zero_le _)
  · exact a9.trans (Nat.zero_le _)
  · rw [hz _ (.inl rfl)]; exact Nat.zero_le _
  · rw [hz _ (.inr rfl)]; exact Nat.zero_le _

/-- A block whose erase or stamp failed in a format is RETIRED. -/
theorem BkC.retireNow {k : Nat} {r : BlockRec} (h : BkC w force blocks free map dies head bat ch vic reloc wait idq idu phase fmt)
    (hr : keyGet k blocks = some r) (hs : r.state = .erasing) (h1 : r.work ≠ .retireWaiting) (h2 : r.work ≠ .retireHanded)
    (he : force = true → ∀ role, (role = .erase ∨ role = .eraseStamp) →
      opsOut (isErase role k) dies + opsCount (isErase role k) w.ops = 0) :
    BkC w force (keyPut k { r with state := .retired, valid := 0, closeSeq := none, work := .none } blocks) free map dies head bat ch vic reloc wait idq idu phase fmt := by
  obtain ⟨a1, a2, a3, a4, a5, a6, a7, a8, a9, a10, a11⟩ := h.at hr
  have hv : r.valid = 0 := a2 (by simp [BlockRec.isEmpty, hs])
  simp only [hs, h1, h2, reduceCtorEq, ↓reduceIte, false_and] at a1 a4 a5 a6 a7 a8 a9
  refine h.move hr _ hv.symm (fun e => by simp [hs] at e) (fun _ _ => rfl) (fun _ _ _ => le_refl _) (le_refl _) (fun _ _ => le_refl _) id
    (fun _ _ => le_refl _) ⟨?_, fun _ => rfl, rfl, ?_, ?_, fun x hx e => absurd (a6 x hx e) (by simp), ?_, ?_, ?_, fun f => ?_, fun f => ?_⟩
  · simp [a1]
  · exact a4.trans (Nat.zero_le _)
  · exact a5.trans (Nat.zero_le _)
  · exact a7.trans (Nat.zero_le _)
  · exact a8.trans (Nat.zero_le _)
  · exact a9.trans (Nat.zero_le _)
  · rw [he f _ (.inl rfl)]; exact Nat.zero_le _
  · rw [he f _ (.inr rfl)]; exact Nat.zero_le _

end Sys2Proof.Machine
end

