-- ==== Sys2Proof/Laws/Tables.lean ====
section
/-! SUPPORT. The block table's invariant where the line map changes (R14 to R16), and where a whole table is made (R81, R82). -/
namespace Sys2Proof.Machine

/-! ### Lists kept by rising key -/

theorem keyGet_range {α : Type} (n : Nat) (f : Nat → α) (k : Nat) :
    keyGet k ((List.range n).map fun j => (j, f j)) = if k < n then some (f k) else none := by
  induction n with
  | zero => rfl
  | succ n ih =>
    have e : ∀ l m : List (Nat × α), keyGet k (l ++ m) = (keyGet k l).orElse fun _ => keyGet k m := by
      intro l m
      induction l with
      | nil => rfl
      | cons p l ih =>
        simp only [List.cons_append, keyGet]
        split
        · rfl
        · exact ih
    rw [List.range_succ, List.map_append, e, ih]
    by_cases h : k < n
    · rw [if_pos h, if_pos (by omega)]; rfl
    · rw [if_neg h]
      by_cases hk : n = k
      · subst hk; simp [keyGet]
      · rw [if_neg (by omega)]; simp [keyGet, hk]

theorem keysRise_pairwise {α : Type} (m : List (Nat × α)) : keysRise m = true ↔ m.Pairwise fun p q => p.1 < q.1 := by
  induction m with
  | nil => simp [keysRise]
  | cons p m ih => rw [keysRise_cons, List.pairwise_cons, ih]; rfl

theorem keysRise_range {α : Type} (n : Nat) (f : Nat → α) : keysRise ((List.range n).map fun j => (j, f j)) = true := by
  rw [keysRise_pairwise, List.pairwise_map]
  exact List.pairwise_lt_range

theorem keyGet_mapSnd {α : Type} (g : Nat → α → α) (k : Nat) (l : List (Nat × α)) :
    keyGet k (l.map fun p => (p.1, g p.1 p.2)) = (keyGet k l).map (g k) := by
  induction l with
  | nil => rfl
  | cons p l ih =>
    rw [List.map_cons]
    simp only [keyGet]
    split
    · rename_i e; subst e; rfl
    · exact ih

theorem keysRise_mapSnd {α : Type} (g : Nat → α → α) (l : List (Nat × α)) :
    keysRise (l.map fun p => (p.1, g p.1 p.2)) = keysRise l := by
  rw [Bool.eq_iff_iff, keysRise_pairwise, keysRise_pairwise, List.pairwise_map]

/-! ### Locations of the line map -/

/-- 1 where a location lies in the block of a key. -/
def locIs (l : Option Loc) (k : Nat) : Nat := if l.map (fun l => blockKey (blockOf l)) = some k then 1 else 0

theorem located_cons (p : Nat × MapEntry) (m : List (Nat × MapEntry)) (k : Nat) :
    located (p :: m) k = located m k + locIs p.2.state.loc k := by
  unfold located locIs
  rw [List.countP_cons]
  simp

theorem located_keyDel (l : Nat) (m : List (Nat × MapEntry)) (k : Nat) :
    located (keyDel l m) k + locIs ((keyGet l m).getD MapEntry.empty).state.loc k = located m k := by
  induction m with
  | nil => rfl
  | cons p m ih =>
    obtain ⟨j, v⟩ := p
    simp only [keyDel, keyGet]
    by_cases hj : j = l
    · rw [if_pos hj, if_pos hj, located_cons]; rfl
    · rw [if_neg hj, if_neg hj, located_cons, located_cons]; dsimp only; omega

theorem located_keyPut (l : Nat) (e : MapEntry) {m : List (Nat × MapEntry)} (h : keysRise m = true) (k : Nat) :
    located (keyPut l e m) k + locIs ((keyGet l m).getD MapEntry.empty).state.loc k = located m k + locIs e.state.loc k := by
  induction m with
  | nil => simp only [keyPut, keyGet]; rw [located_cons]; rfl
  | cons p m ih =>
    obtain ⟨ha, hr⟩ := (keysRise_cons _ _).1 h
    obtain ⟨j, v⟩ := p
    dsimp only at ha
    simp only [keyPut, keyGet]
    by_cases hj : l < j
    · have hn : ¬ j = l := by omega
      have : keyGet l m = none := keyGet_above fun q hq => by have := ha q hq; omega
      rw [if_pos hj, if_neg hn, this, located_cons, located_cons]
      rfl
    · by_cases he : l = j
      · rw [if_neg hj, if_pos he, if_pos he.symm, located_cons, located_cons]
        dsimp only [Option.getD_some]
        omega
      · have hn : ¬ j = l := fun e => he e.symm
        rw [if_neg hj, if_neg he, if_neg hn, located_cons, located_cons]
        have := ih hr
        dsimp only
        omega

theorem located_mapPut (l : Nat) (e : MapEntry) {m : List (Nat × MapEntry)} (h : mapWf m = true) (k : Nat) :
    located (mapPut l e m) k + locIs ((keyGet l m).getD MapEntry.empty).state.loc k = located m k + locIs e.state.loc k := by
  unfold mapPut
  split
  · rename_i he
    rw [located_keyDel, he]; rfl
  · exact located_keyPut l e (by simp only [mapWf, Bool.and_eq_true] at h; exact h.1) k

theorem locIs_le (l : Nat) (m : List (Nat × MapEntry)) (k : Nat) :
    locIs ((keyGet l m).getD MapEntry.empty).state.loc k ≤ located m k := by
  have := located_keyDel l m k
  omega

/-! ### One record of the table changed where it is -/

/-- A table with one record changed, where it holds it. -/
def updAt (k : Nat) (f : BlockRec → BlockRec) (blocks : List (Nat × BlockRec)) : List (Nat × BlockRec) :=
  match keyGet k blocks with
  | some r => keyPut k (f r) blocks
  | none => blocks

theorem blockUpd_eq (b : BlockId) (f : BlockRec → BlockRec) (s : State) :
    blockUpd b f s = { s with blocks := updAt (blockKey b) f s.blocks } := by
  unfold blockUpd updAt blockGet
  split <;> simp_all

theorem keyGet_updAt (k : Nat) (f : BlockRec → BlockRec) (blocks : List (Nat × BlockRec)) (j : Nat) :
    keyGet j (updAt k f blocks) = (keyGet j blocks).map fun r => if j = k then f r else r := by
  unfold updAt
  split
  · rename_i r hr
    by_cases hj : j = k
    · subst hj; rw [keyGet_keyPut_same, hr]; simp
    · rw [keyGet_keyPut_other hj]; simp [hj]
  · rename_i hr
    by_cases hj : j = k
    · subst hj; rw [hr]; rfl
    · simp [hj]

theorem updAt_rises (k : Nat) (f : BlockRec → BlockRec) {blocks : List (Nat × BlockRec)} (h : keysRise blocks = true) :
    keysRise (updAt k f blocks) = true := by
  unfold updAt
  split
  · exact keyPut_rises _ _ h
  · exact h

/-- The table after a block has lost, or gained, a valid record (R69). -/
def shiftAt (f : Nat → Nat) (l : Option Loc) (blocks : List (Nat × BlockRec)) : List (Nat × BlockRec) :=
  match l with
  | some l => updAt (blockKey (blockOf l)) (fun r => { r with valid := f r.valid }) blocks
  | none => blocks

theorem keyGet_shiftAt (f : Nat → Nat) (l : Option Loc) (blocks : List (Nat × BlockRec)) (k : Nat) :
    keyGet k (shiftAt f l blocks) =
      (keyGet k blocks).map fun r => { r with valid := if locIs l k = 1 then f r.valid else r.valid } := by
  cases l with
  | none => simp [shiftAt, locIs]
  | some l =>
    simp only [shiftAt, keyGet_updAt]
    congr 1
    funext r
    by_cases h : k = blockKey (blockOf l)
    · subst h; simp [locIs]
    · have h' : ¬ blockKey (blockOf l) = k := fun e => h e.symm
      simp [locIs, h, h']

theorem shiftAt_rises (f : Nat → Nat) (l : Option Loc) {blocks : List (Nat × BlockRec)} (h : keysRise blocks = true) :
    keysRise (shiftAt f l blocks) = true := by
  cases l with
  | none => exact h
  | some l => exact updAt_rises _ _ h

variable {w : Due} {force : Bool} {blocks blocks' : List (Nat × BlockRec)} {free free' : List BlockId}
  {map map' : List (Nat × MapEntry)}
  {dies : List DieRec} {head : Option LogHead} {bat : Option Batch} {ch : Option LogHead} {vic : Option BlockId}
  {reloc wait : List BlockId} {idq : List IdRequest} {idu : Option Update} {phase : MountPhase} {fmt : Bool}

theorem recIs_map {g : BlockRec → BlockRec} {k : Nat} (hb : keyGet k blocks' = (keyGet k blocks).map g) (p : BlockRec → Bool)
    (hp : ∀ r, keyGet k blocks = some r → p (g r) = p r) : recIs blocks' k p = recIs blocks k p := by
  refine recIs_congr ?_
  rw [hb]
  cases hr : keyGet k blocks with
  | none => rfl
  | some r => simp [hp r hr]

/-- The valid counts and the line map change together. -/
theorem BkC.revalue (h : BkC w force blocks free map dies head bat ch vic reloc wait idq idu phase fmt)
    (hrise : keysRise blocks' = true) (g : Nat → Nat → Nat)
    (hb : ∀ k, keyGet k blocks' = (keyGet k blocks).map fun r => { r with valid := g k r.valid })
    (hl : ∀ k, located map' k = ((keyGet k blocks).map fun r => g k r.valid).getD 0)
    (he : ∀ k r, keyGet k blocks = some r → r.isEmpty = true → g k r.valid = 0) :
    BkC w force blocks' free map' dies head bat ch vic reloc wait idq idu phase fmt := by
  have e := fun k p hp => recIs_map (hb k) p hp
  refine { h with
    rise := hrise
    fresh := fun f => ?_
    valid := fun k => ?_
    free := fun k => by rw [e _ _ (fun _ _ => rfl)]; exact h.free k
    ident := fun k r hr hi => ?_
    empty := fun k r hr hi => ?_
    works := fun k r hr => ?_
    head := fun k => by rw [e _ _ (fun _ _ => rfl)]; exact h.head k
    copy := fun k => by rw [e _ _ (fun _ _ => rfl)]; exact h.copy k
    vic := fun b hb' => by rw [e _ _ (fun _ _ => rfl)]; exact h.vic b hb'
    reloc := fun k => by rw [e _ _ (fun _ _ => rfl)]; exact h.reloc k
    wait := fun k => by rw [e _ _ (fun _ _ => rfl)]; exact h.wait k
    reqs := fun k => by rw [e _ _ (fun _ _ => rfl)]; exact h.reqs k
    erases := fun f k => by rw [e _ _ (fun _ _ => rfl)]; exact h.erases f k
    stamps := fun f k => by rw [e _ _ (fun _ _ => rfl)]; exact h.stamps f k }
  · have e0 := h.fresh f
    cases hb' : blocks' with
    | nil => rfl
    | cons p t =>
      have := hb p.1
      rw [e0, hb'] at this
      simp [keyGet] at this
  · rw [hl, hb, Option.map_map]; rfl
  all_goals
    rw [hb] at hr
    cases hr' : keyGet k blocks with
    | none => rw [hr'] at hr; cases hr
    | some r' =>
      rw [hr'] at hr
      cases hr
      first
      | exact h.ident k r' hr' hi
      | exact he k r' hr' hi
      | exact h.works k r' hr'

/-- A line's map entry changes, and the valid counts of the blocks of its old and its new location with it (R14 to R16, R69). -/
theorem BkC.remap (h : BkC w force blocks free map dies head bat ch vic reloc wait idq idu phase fmt) (hm : mapWf map = true)
    (line : Nat) (e : MapEntry)
    (hnew : ∀ l, e.state.loc = some l → ∃ r, keyGet (blockKey (blockOf l)) blocks = some r ∧ r.isEmpty = false) :
    BkC w force (shiftAt (· + 1) e.state.loc (shiftAt (· - 1) ((keyGet line map).getD MapEntry.empty).state.loc blocks)) free
      (mapPut line e map) dies head bat ch vic reloc wait idq idu phase fmt := by
  have old : ∀ k, locIs ((keyGet line map).getD MapEntry.empty).state.loc k ≤ 1 := fun k => by unfold locIs; split <;> omega
  have new : ∀ k, locIs e.state.loc k ≤ 1 := fun k => by unfold locIs; split <;> omega
  have newr : ∀ k, locIs e.state.loc k = 1 → ∃ r, keyGet k blocks = some r ∧ r.isEmpty = false := by
    intro k hk
    unfold locIs at hk
    split at hk
    · rename_i e1
      obtain ⟨l, hl, rfl⟩ := Option.map_eq_some_iff.1 e1
      exact hnew l hl
    · cases hk
  refine h.revalue (shiftAt_rises _ _ (shiftAt_rises _ _ h.rise))
    (fun k v => v - locIs ((keyGet line map).getD MapEntry.empty).state.loc k + locIs e.state.loc k) (fun k => ?_) (fun k => ?_)
    (fun k r hr hi => ?_)
  · rw [keyGet_shiftAt, keyGet_shiftAt, Option.map_map]
    congr 1
    funext r
    have := old k
    have := new k
    simp only [Function.comp]
    congr 1
    split <;> split <;> omega
  · have k1 := located_mapPut line e hm k
    have k2 := locIs_le line map k
    have k3 := h.valid k
    cases hr : keyGet k blocks with
    | none =>
      rw [hr] at k3
      simp only [Option.map_none, Option.getD_none] at k3 ⊢
      have : locIs e.state.loc k ≠ 1 := fun c => by
        obtain ⟨r, hr', _⟩ := newr k c
        rw [hr] at hr'
        cases hr'
      have := new k
      omega
    | some r =>
      rw [hr] at k3
      simp only [Option.map_some, Option.getD_some] at k3 ⊢
      omega
  · have : locIs e.state.loc k ≠ 1 := fun c => by
      obtain ⟨r', hr', hi'⟩ := newr k c
      rw [hr] at hr'
      cases hr'
      rw [hi] at hi'
      cases hi'
    have := new k
    have := h.empty k r hr hi
    omega

/-- A head's block is one that can gain a valid record. -/
theorem BkC.fills {x : LogHead} {st : BlockState} (h : BkC w force blocks free map dies head bat ch vic reloc wait idq idu phase fmt)
    (hst : st = .hostHead ∧ head = some x ∨ st = .copyHead ∧ ch = some x) :
    ∃ r, keyGet (blockKey x.block) blocks = some r ∧ r.state = st ∧ r.isEmpty = false := by
  have k : 0 < recIs blocks (blockKey x.block) (·.state == st) := by
    rcases hst with ⟨rfl, rfl⟩ | ⟨rfl, rfl⟩
    · have := h.head (blockKey x.block); rw [headOn_of, if_pos rfl] at this; omega
    · have := h.copy (blockKey x.block); rw [headOn_of, if_pos rfl] at this; omega
  obtain ⟨r, hr, hs⟩ := recIs_pos k
  have hs : r.state = st := by simpa using hs
  have hw : r.work = .none := free_work (h.works _ _ hr) (by rcases hst with ⟨e, _⟩ | ⟨e, _⟩ <;> simp [hs, e])
    (by rcases hst with ⟨e, _⟩ | ⟨e, _⟩ <;> simp [hs, e])
  refine ⟨r, hr, hs, ?_⟩
  rcases hst with ⟨e, _⟩ | ⟨e, _⟩ <;> simp [BlockRec.isEmpty, hs, hw, e]

/-! ### Whole tables -/

/-- A table made anew, with no head, victim or request. -/
theorem BkC.made (n : Nat) (f : Nat → BlockRec)
    (hv : ∀ k, located map k = if k < n then (f k).valid else 0)
    (hfree : ∀ k, (free.map blockKey).count k = if k < n ∧ (f k).state = .free then 1 else 0)
    (hid : ∀ k, k < n → isIdentityBlock (blockAt k) = true → (f k).state = .identity)
    (hem : ∀ k, k < n → (f k).isEmpty = true → (f k).valid = 0) (hw : ∀ k, k < n → (f k).workFits = true)
    (he : force = true → ∀ k, opsOut (isErase .erase k) dies + opsCount (isErase .erase k) w.ops ≤
      if k < n ∧ (f k).work = .eraseOut then 1 else 0)
    (hs : force = true → ∀ k, opsOut (isErase .eraseStamp k) dies + opsCount (isErase .eraseStamp k) w.ops ≤
      if k < n ∧ (f k).work = .stampOut then 1 else 0)
    (ho : opsOut isOpen dies + opsCount isOpen w.ops = 0) (hr : w.reqs = []) (hq : retireKeys idq idu = []) :
    BkC w force ((List.range n).map fun k => (k, f k)) free map dies none none none none [] [] idq idu .done fmt := by
  have g := keyGet_range n f
  have e : ∀ k p, recIs ((List.range n).map fun k => (k, f k)) k p = if k < n ∧ p (f k) = true then 1 else 0 := by
    intro k p
    unfold recIs
    rw [g]
    by_cases hk : k < n <;> simp [hk]
  have gs : ∀ k r, keyGet k ((List.range n).map fun k => (k, f k)) = some r → k < n ∧ r = f k := by
    intro k r hr
    rw [g] at hr
    split at hr
    · rename_i hk; cases hr; exact ⟨hk, rfl⟩
    · cases hr
  refine
    { rise := keysRise_range n f
      fresh := fun k => absurd rfl k
      valid := fun k => by rw [hv, g]; split <;> rfl
      free := fun k => by rw [e, hfree]; simp
      ident := fun k r hr hi => by obtain ⟨hk, rfl⟩ := gs k r hr; exact hid k hk hi
      empty := fun k r hr => by obtain ⟨hk, rfl⟩ := gs k r hr; exact hem k hk
      works := fun k r hr => by obtain ⟨hk, rfl⟩ := gs k r hr; exact hw k hk
      head := fun k => Nat.zero_le _
      copy := fun k => Nat.zero_le _
      vic := fun b k => nomatch k
      reloc := fun k => Nat.zero_le _
      wait := fun k => Nat.zero_le _
      reqs := fun k => by rw [hr, hq]; exact Nat.zero_le _
      erases := fun c k => by rw [e]; simpa using he c k
      stamps := fun c k => by rw [e]; simpa using hs c k
      opens := by rw [ho]; exact Nat.zero_le _
      batch := fun b k => nomatch k
      quiet := fun _ => ⟨rfl, rfl, rfl, rfl, rfl, rfl, hq, hr⟩
      still := fun k => absurd rfl k }

/-- The record that a block of a key has after a format has ended UNFORMATTED. -/
def unformattedOf (k : Nat) (r : BlockRec) : BlockRec :=
  if isIdentityBlock (blockAt k) then r else { r with state := .closed, valid := 0, closeSeq := none, work := .none }

/-- A format that ends UNFORMATTED closes every block (R82). -/
theorem BkC.unformatted (h : BkC w force blocks free map dies head bat ch vic reloc wait idq idu phase true) (hp : phase = .done) :
    BkC w false (blocks.map unformattedRec) [] [] dies head bat ch vic reloc wait idq idu phase false := by
  obtain ⟨rfl, rfl, rfl, rfl, rfl, rfl, hq, hr⟩ := h.quiet (.inr rfl)
  have e' : blocks.map unformattedRec = blocks.map fun p => (p.1, unformattedOf p.1 p.2) :=
    List.map_congr_left fun p _ => by unfold unformattedRec unformattedOf; split <;> rfl
  have g := fun k => (congrArg (keyGet k) e').trans (keyGet_mapSnd unformattedOf k blocks)
  have gs : ∀ k r, keyGet k (blocks.map unformattedRec) = some r →
      (r.state = .identity ∧ r.valid = 0 ∧ r.workFits = true) ∨ (isIdentityBlock (blockAt k) = false ∧ r.state = .closed ∧ r.valid = 0 ∧ r.work = .none) := by
    intro k r hr'
    rw [g] at hr'
    obtain ⟨x, hx, rfl⟩ := Option.map_eq_some_iff.1 hr'
    unfold unformattedOf
    split
    · rename_i hi
      have hs := h.ident k x hx hi
      exact .inl ⟨hs, h.empty k x hx (by simp [BlockRec.isEmpty, hs]), h.works k x hx⟩
    · rename_i hi
      exact .inr ⟨by simpa using hi, rfl, rfl, rfl⟩
  refine
    { rise := by rw [e', keysRise_mapSnd]; exact h.rise
      fresh := fun k => absurd hp k
      valid := fun k => ?_
      free := fun k => ?_
      ident := fun k r hr' hi => ?_
      empty := fun k r hr' _ => ?_
      works := fun k r hr' => ?_
      head := fun k => Nat.zero_le _
      copy := fun k => Nat.zero_le _
      vic := fun b k => nomatch k
      reloc := fun k => Nat.zero_le _
      wait := fun k => Nat.zero_le _
      reqs := fun k => by rw [hr, hq]; exact Nat.zero_le _
      erases := fun c => nomatch c
      stamps := fun c => nomatch c
      opens := h.opens
      batch := fun b k => nomatch k
      quiet := fun _ => ⟨rfl, rfl, rfl, rfl, rfl, rfl, hq, hr⟩
      still := fun k => absurd hp k }
  · show 0 = _
    cases hk : keyGet k (blocks.map unformattedRec) with
    | none => rfl
    | some r => rcases gs k r hk with ⟨_, c, _⟩ | ⟨_, _, c, _⟩ <;> simp [c]
  · show 0 = _
    symm
    unfold recIs
    cases hk : keyGet k (blocks.map unformattedRec) with
    | none => rfl
    | some r => rcases gs k r hk with ⟨c, _⟩ | ⟨_, c, _⟩ <;> simp [c]
  · rcases gs k r hr' with ⟨c, _⟩ | ⟨c, _⟩
    · exact c
    · rw [hi] at c; cases c
  · rcases gs k r hr' with ⟨_, c, _⟩ | ⟨_, _, c, _⟩ <;> exact c
  · rcases gs k r hr' with ⟨_, _, c⟩ | ⟨_, _, _, c⟩
    · exact c
    · simp [BlockRec.workFits, c]

/-- The record that a block has once its erase is held no longer. -/
def releasedOf (_ : Nat) (r : BlockRec) : BlockRec := if r.work = .eraseHeld then { r with work := .eraseWaiting } else r

/-- Step 3 of a format begins: the erases held until now wait only for their blocks (R155). -/
theorem BkC.released (h : BkC w force blocks free map dies head bat ch vic reloc wait idq idu phase fmt) :
    BkC w force (blocks.map fun p => if p.2.work = .eraseHeld then (p.1, { p.2 with work := .eraseWaiting }) else p) free map
      dies head bat ch vic reloc wait idq idu phase fmt := by
  have e' : (blocks.map fun p => if p.2.work = .eraseHeld then (p.1, { p.2 with work := BlockWork.eraseWaiting }) else p) =
      blocks.map fun p => (p.1, releasedOf p.1 p.2) := by
    refine List.map_congr_left fun p _ => ?_
    unfold releasedOf; split <;> rfl
  rw [e']
  have g := fun k => keyGet_mapSnd releasedOf k blocks
  have hb : keysRise (blocks.map fun p => (p.1, releasedOf p.1 p.2)) = true := (keysRise_mapSnd releasedOf blocks).trans h.rise
  have hb' : phase ≠ .done → (blocks.map fun p => (p.1, releasedOf p.1 p.2)) = [] := fun f => by rw [h.fresh f]; rfl
  generalize (blocks.map fun p => (p.1, releasedOf p.1 p.2)) = blocks' at g hb hb'
  have e := fun k p hp => recIs_map (g k) p hp
  refine { h with
    rise := hb
    fresh := hb'
    valid := fun k => ?_
    free := fun k => by rw [e _ _ (fun r _ => by unfold releasedOf; split <;> rfl)]; exact h.free k
    ident := fun k r hr hi => ?_
    empty := fun k r hr hi => ?_
    works := fun k r hr => ?_
    head := fun k => by rw [e _ _ (fun r _ => by unfold releasedOf; split <;> rfl)]; exact h.head k
    copy := fun k => by rw [e _ _ (fun r _ => by unfold releasedOf; split <;> rfl)]; exact h.copy k
    vic := fun b hb' => by rw [e _ _ (fun r _ => by unfold releasedOf; split <;> rfl)]; exact h.vic b hb'
    reloc := fun k => by
      rw [e _ _ (fun r _ => by
        unfold releasedOf
        split
        · rename_i c
          simp only [c, show (BlockWork.eraseWaiting == .none) = false from rfl, show (BlockWork.eraseHeld == .none) = false from rfl]
        · rfl)]
      exact h.reloc k
    wait := fun k => by rw [e _ _ (fun r _ => by unfold releasedOf; split <;> simp_all)]; exact h.wait k
    reqs := fun k => by rw [e _ _ (fun r _ => by unfold releasedOf; split <;> simp_all)]; exact h.reqs k
    erases := fun f k => by rw [e _ _ (fun r _ => by unfold releasedOf; split <;> simp_all)]; exact h.erases f k
    stamps := fun f k => by rw [e _ _ (fun r _ => by unfold releasedOf; split <;> simp_all)]; exact h.stamps f k }
  · rw [h.valid, g, Option.map_map]
    congr 2
    funext r
    simp only [Function.comp, releasedOf]
    split <;> rfl
  all_goals
    rw [g] at hr
    obtain ⟨x, hx, rfl⟩ := Option.map_eq_some_iff.1 hr
  · have := h.ident k x hx hi; unfold releasedOf; split <;> exact this
  · have k1 : x.isEmpty = true := by
      revert hi; unfold releasedOf; split
      · rename_i c; intro hi; simpa [BlockRec.isEmpty, c] using hi
      · exact id
    have := h.empty k x hx k1; unfold releasedOf; split <;> exact this
  · have := h.works k x hx
    unfold releasedOf
    split
    · rename_i c; simpa [BlockRec.workFits, c] using this
    · exact this

end Sys2Proof.Machine
end

