-- ==== Sys2Proof/Laws/Ops.lean ====
section
/-! SUPPORT. What each shared operation does, said once: entries and allocation, the block table, issuing operations, requests, and
the state a command leaves before its event settles. Statements about commands cite these and unfold nothing. -/
namespace Sys2Proof.Machine

/-! ### Commands and their effect -/

/-- A command that is an event has the effect its own function gives. -/
theorem Effect.of_event {c : Instr} {s t : State} {f : State → State} (h : exec c s = event f s) (hr : s.rstLow = false)
    (ht : f s = t) : Effect c s t := by
  apply Effect.of_finish
  rw [h, event_next hr, ht]

/-- A request that is answered without an event leaves the state its function gives, with the pins driven. -/
theorem exec_of_quick {c : Instr} {s t : State} {f : State → State} (h : exec c s = quick f s) (hr : s.rstLow = false)
    (ht : f s = t) : exec c s = .next (drive t) := by
  rw [h, quick_next hr, ht]

/-! ### Requests (R182) -/

theorem shortRequest_taken {r : Request} {f : State → State} {s : State} (h : accepts s.mode r = true) :
    shortRequest r f s = f s := by
  simp [shortRequest, h]

theorem shortRequest_refused {r : Request} {f : State → State} {s : State} (h : accepts s.mode r = false) :
    shortRequest r f s = heldReply .refusedState [] s := by
  simp [shortRequest, h]; rfl

theorem longRequest_refusedState {r : Request} {f : State → Option ReplyCode} {g : State → State} {s : State}
    (h : accepts s.mode r = false) : longRequest r f g s = heldReply .refusedState [] s := by
  simp [longRequest, h]; rfl

theorem longRequest_busy {r : Request} {f : State → Option ReplyCode} {g : State → State} {s : State}
    (h : accepts s.mode r = true) (hs : s.maint.slot.isSome = true) : longRequest r f g s = heldReply .busy [] s := by
  simp [longRequest, h, hs]; rfl

theorem longRequest_refused {r : Request} {f : State → Option ReplyCode} {g : State → State} {s : State} {c : ReplyCode}
    (h : accepts s.mode r = true) (hs : s.maint.slot = none) (hf : f s = some c) :
    longRequest r f g s = heldReply c [] s := by
  simp [longRequest, h, hs, hf]; rfl

theorem longRequest_accepted {r : Request} {f : State → Option ReplyCode} {g : State → State} {s : State}
    (h : accepts s.mode r = true) (hs : s.maint.slot = none) (hf : f s = none) :
    longRequest r f g s = g (heldReply .accepted [] s) := by
  simp [longRequest, h, hs, hf]; rfl

theorem accepts_active {s : State} (h : s.mode = .active) (r : Request) : accepts s.mode r = true := by rw [h]; rfl

/-! ### What the mount sees (R48, R164) -/

theorem seeSlots_highest_le {rs : List SlotResult} {s : State} {n : Nat} :
    (seeSlots rs s).mount.highest ≤ n ↔ s.mount.highest ≤ n ∧ ∀ r ∈ rs, ∀ q, seqSeen r = some q → q ≤ n := by
  show (rs.filterMap seqSeen).foldl max s.mount.highest ≤ n ↔ _
  rw [foldl_max_le]
  simp only [List.mem_filterMap, forall_exists_index, and_imp]
  tauto

theorem seeSlots_largestErase_le {rs : List SlotResult} {s : State} {n : Nat} :
    (seeSlots rs s).mount.largestErase ≤ n ↔ s.mount.largestErase ≤ n ∧ ∀ r ∈ rs, ∀ c, countSeen r = some c → c ≤ n := by
  show (rs.filterMap countSeen).foldl max s.mount.largestErase ≤ n ↔ _
  rw [foldl_max_le]
  simp only [List.mem_filterMap, forall_exists_index, and_imp]
  tauto

/-! ### Entries and allocation (R24, R25) -/

theorem entryAt_set (s : State) (i j : Nat) (e : Entry) :
    entryAt { s with staging := s.staging.set i e } j = if i = j ∧ i < s.staging.length then e else entryAt s j := by
  unfold entryAt
  simp only [List.getD_eq_getElem?_getD, List.getElem?_set]
  by_cases h : i = j
  · subst h
    by_cases h2 : i < s.staging.length
    · simp [h2]
    · simp [h2]
  · simp [h]

theorem entryAt_setEntry_same {s : State} {i : Nat} (h : i < s.staging.length) (e : Entry) :
    entryAt (setEntry i e s) i = e := by
  rw [show entryAt (setEntry i e s) i = _ from entryAt_set s i i e, if_pos ⟨rfl, h⟩]

theorem findEntry_none {s : State} {p : Entry → Bool} (h : findEntry p s = none) {j : Nat} (hj : j < 32) :
    p (entryAt s j) = false := by
  unfold findEntry at h
  simpa using List.find?_eq_none.1 h j (by simpa using hj)

theorem findEntry_some {s : State} {p : Entry → Bool} {i : Nat} (h : findEntry p s = some i) :
    i < 32 ∧ p (entryAt s i) = true ∧ ∀ j < i, p (entryAt s j) = false := by
  unfold findEntry at h
  have h1 := List.mem_range.1 (List.mem_of_find?_eq_some h)
  refine ⟨h1, List.find?_some (p := fun i => p (entryAt s i)) h, ?_⟩
  intro j hj
  by_contra hc
  simp only [Bool.not_eq_false] at hc
  rw [List.find?_eq_some_iff_append] at h
  obtain ⟨-, as, bs, e, hn⟩ := h
  have hji : j ∈ as := by
    have : List.range Config.entries = as ++ i :: bs := e
    have hl : as.length = i := by
      have h3 : (List.range Config.entries)[as.length]? = some i := by rw [this]; simp
      rw [List.getElem?_range] at h3
      · simpa using h3
      · have := congrArg List.length this
        simp at this
        have : Config.entries = 32 := rfl
        omega
    have h3 : (List.range Config.entries)[j]? = some j := by
      rw [List.getElem?_range]; exact lt_trans hj h1
    rw [this, List.getElem?_append_left (by omega)] at h3
    exact List.mem_of_getElem? h3
  have := hn j hji
  simp [hc] at this

/-- An allocation leaves every field but the entries and the LRU order. -/
theorem allocate_eq {i : Nat} {s u : State} (h : allocate s = some (i, u)) :
    u = { s with staging := u.staging, lru := u.lru } := by
  unfold allocate at h
  repeat' split at h
  all_goals first | (cases h; rfl) | cases h

theorem currentEntry_none_alloc {s u : State} {i line : Nat} (hal : allocate s = some (i, u))
    (hc : currentEntry s line = none) : currentEntry u line = none := by
  unfold allocate at hal
  split at hal
  · cases hal; exact hc
  · split at hal
    · rename_i k l e
      cases hal
      unfold currentEntry at hc ⊢
      have hc1 : findEntry (·.holds line) s = none := by
        cases h : findEntry (·.holds line) s with
        | none => rfl
        | some x => rw [h] at hc; cases hc
      have hc2 : findEntry (·.commits line) s = none := by rw [hc1] at hc; exact hc
      have key : ∀ p : Entry → Bool, p Entry.cleared = false → findEntry p s = none →
          findEntry p { setEntry i Entry.cleared s with lru := l } = none := by
        intro p hp h
        unfold findEntry
        rw [List.find?_eq_none]
        intro j hj
        have hj : j < 32 := List.mem_range.1 hj
        have : entryAt { setEntry i Entry.cleared s with lru := l } j =
            if i = j ∧ i < s.staging.length then Entry.cleared else entryAt s j := entryAt_set s i j _
        rw [this]
        split
        · simp [hp]
        · simp [findEntry_none h hj]
      rw [key _ rfl hc1, key _ rfl hc2]
      rfl
    · cases hal

theorem currentEntry_linked_alloc {s u : State} {i j line : Nat} (hal : allocate s = some (i, u)) (hc : currentEntry s line = some j)
    (hj : (entryAt s j).state = .committing) (hl : s.lru.head? ≠ some j) : currentEntry u line = some j := by
  unfold allocate at hal
  split at hal
  · cases hal; exact hc
  · split at hal
    · rename_i k l e
      cases hal
      have hij : i ≠ j := fun h => hl (by rw [e, h]; rfl)
      unfold currentEntry at hc ⊢
      have hc1 : findEntry (·.holds line) s = none := by
        cases h : findEntry (·.holds line) s with
        | none => rfl
        | some x =>
          rw [h] at hc
          cases hc
          have := (findEntry_some h).2.1
          simp [Entry.holds, hj] at this
      have hc2 : findEntry (·.commits line) s = some j := by rw [hc1] at hc; exact hc
      have en : ∀ x, entryAt { setEntry i Entry.cleared s with lru := l } x =
          if i = x ∧ i < s.staging.length then Entry.cleared else entryAt s x :=
        fun x => entryAt_set s i x _
      have key : findEntry (·.holds line) { setEntry i Entry.cleared s with lru := l } = none := by
        unfold findEntry
        rw [List.find?_eq_none]
        intro x hx
        have hx : x < 32 := List.mem_range.1 hx
        rw [en]
        split
        · simp [Entry.holds, Entry.cleared]
        · simp [findEntry_none hc1 hx]
      have key2 : findEntry (·.commits line) { setEntry i Entry.cleared s with lru := l } = some j := by
        obtain ⟨a, b, c⟩ := findEntry_some hc2
        unfold findEntry
        rw [List.find?_range_eq_some]
        refine ⟨?_, by simpa using a, ?_⟩
        · rw [en, if_neg (fun h => hij h.1)]; exact b
        · intro x hx
          rw [en]
          split
          · simp [Entry.commits, Entry.cleared]
          · simp [c x hx]
      rw [key, key2]
      rfl
    · cases hal

/-! ### Reads that wait for a fetch (R29) -/

theorem answer_waiting {s : State} (h : waitsFor s ≠ none) (b : Byte) : answer (some b) s = answeredWait b s := by
  unfold waitsFor at h
  unfold answer setAccess answeredWait
  cases ha : s.host.access with
  | none => rw [ha] at h; exact absurd rfl h
  | some a => rfl

theorem answerFetch_eq (i : Nat) (s : State) :
    answerFetch i s =
      answeredFetch i (if (entryAt s i).state = .free then Config.fill else (entryAt s i).readByte (accessOffset s)) s := by
  unfold answerFetch answeredFetch answeredWait
  split
  · rename_i h
    unfold waitsFor at h
    unfold answer setAccess
    cases ha : s.host.access with
    | none => rw [ha] at h; cases h
    | some a => rfl
  · rfl

theorem answerFetch_held {i : Nat} {s : State} (h : (entryAt s i).state ≠ .free) :
    answerFetch i s = answeredFetch i ((entryAt s i).readByte (accessOffset s)) s := by
  rw [answerFetch_eq, if_neg h]

theorem answerFetch_freed {i : Nat} {s : State} (h : (entryAt s i).state = .free) :
    answerFetch i s = answeredFetch i Config.fill s := by
  rw [answerFetch_eq, if_pos h]

theorem accessOffset_lt (s : State) : accessOffset s < 64 := by
  unfold accessOffset
  cases s.host.access with
  | none => decide
  | some a => exact Nat.mod_lt _ (by decide)

/-- Every byte of a line with no stored bytes, and of a TRIM, reads as the fill value (R10, R29). -/
theorem readByte_fill {e : Entry} {off : Nat} (ho : off < 64) (hd : e.data = fillLine) : e.readByte off = 0xFF := by
  unfold Entry.readByte
  split
  · rw [hd]; unfold fillLine
    rw [List.getD_eq_getElem?_getD, List.getElem?_replicate]
    simp [ho]
  · rfl

/-! ### The block table (R66) -/

theorem blockGet_blockUpd (b c : BlockId) (f : BlockRec → BlockRec) (s : State) :
    blockGet (blockUpd c f s) b = if blockKey c = blockKey b then (blockGet s b).map f else blockGet s b := by
  unfold blockUpd
  split
  · rename_i r hr
    unfold blockGet at hr ⊢
    dsimp only
    split
    · rename_i h; rw [← h, keyGet_keyPut_same, hr]; rfl
    · rename_i h; rw [keyGet_keyPut_other (Ne.symm h)]
  · rename_i hr
    split
    · rename_i h
      unfold blockGet at hr ⊢
      rw [← h, hr]; rfl
    · rfl

theorem loseOld_eq (o : Option Loc) (s : State) : loseOld o s = { s with blocks := (loseOld o s).blocks } := by
  unfold loseOld loseValid
  split
  · rw [blockUpd_eq]
  · rfl

/-! ### Dies and issued operations (R94) -/

theorem dieAt_dieUpd_same {d : Nat} {s : State} (h : d < s.dies.length) (f : DieRec → DieRec) :
    dieAt (dieUpd d f s) d = f (dieAt s d) := by
  unfold dieAt dieUpd
  rw [List.getD_eq_getElem?_getD, List.getElem?_set_self h]
  rfl

theorem dieAt_dieUpd_other {d k : Nat} (s : State) (h : k ≠ d) (f : DieRec → DieRec) : dieAt (dieUpd d f s) k = dieAt s k := by
  unfold dieAt dieUpd
  rw [List.getD_eq_getElem?_getD, List.getElem?_set_ne (Ne.symm h), ← List.getD_eq_getElem?_getD]

theorem die_lt {s : State} {d : Nat} {op : Op} (h : (dieAt s d).inFlight = some op) : d < s.dies.length := by
  by_contra hc
  unfold dieAt at h
  rw [List.getD_eq_getElem?_getD, List.getElem?_eq_none (by omega)] at h
  cases h

/-- Issuing an operation changes the queue of its die, the reader count of its block and the ticket, and nothing else. -/
theorem issue_eq (op : Op) (s : State) :
    issue op s =
      { s with
        dies := s.dies.set op.block.die
          { dieAt s op.block.die with queue := (dieAt s op.block.die).queue ++ [{ op with ticket := s.ticket }] }
        blocks := if op.role.counted then updAt (blockKey op.block) (fun r => { r with readers := r.readers + 1 }) s.blocks
          else s.blocks
        ticket := s.ticket + 1 } := by
  unfold issue enqueue countReader
  split
  · rw [blockUpd_eq]; rfl
  · rfl

/-- Recording an answer changes the die and the reader count of the block read, and nothing else. -/
theorem answeredOp_eq (d : Nat) (op : Op) (raws : List RawSlot) (s : State) :
    answeredOp d op raws s =
      { s with
        dies := (answeredOp d op raws s).dies
        blocks := if op.role.counted then updAt (blockKey op.block) (fun r => { r with readers := r.readers - 1 }) s.blocks
          else s.blocks } := by
  unfold answeredOp countReader
  split
  · rw [blockUpd_eq]; rfl
  · rfl

/-- What the scrub walker looks for at a WEAK answer and at a grant (R112, R113). -/
theorem scrubNamed_iff (s : State) :
    scrubNamed s = true ↔
      ∃ loc q, (mapGet s s.scrub.current).state = .present loc q ∧ s.scrub.readSlot = some (loc, q) := by
  unfold scrubNamed
  cases (mapGet s s.scrub.current).state with
  | present loc q =>
    cases s.scrub.readSlot with
    | none => simp
    | some r => simp only [beq_iff_eq, MapState.present.injEq, Option.some.injEq]; aesop
  | unwritten => simp
  | trimmed _ _ => simp
  | damaged => simp

end Sys2Proof.Machine
end

