-- ==== Sys2Proof/Laws/Answers.lean ====
section
/-! SUPPORT. What an answer of a die hands to its requester, said once for each shape of operation, and what the operations that fold over
lists leave unchanged. -/
namespace Sys2Proof.Machine

/-! ### A die answers the operation it carries (R94) -/

theorem carries_role {d : Nat} {op : Op} {role : OpRole} {s : State} (h : carries d op role s) :
    op.role = role ∧ op.stale = false := ⟨h.2.2.1, h.2.2.2⟩

/-- A program or erase that is answered leaves what its requester makes of the status. -/
theorem effect_status {c : Instr} {want : OpRole → Bool} {s t : State} {d : Nat} {op : Op} {role : OpRole} {st : Status}
    (hc : exec c s = event (answerStatus want d st) s) (h : carries d op role s) (hw : want role = true)
    (ht : deliverStatus op st (dieAnswered d s) = t) : Effect c s t := by
  obtain ⟨hr, hf, hro, -⟩ := h
  refine Effect.of_event hc hr ?_
  unfold answerStatus carried
  rw [hf, Option.filter_some, if_pos (by rw [hro]; exact hw)]
  exact ht

/-- A line map read that is answered leaves what its requester makes of the slot compared with its expectation. -/
theorem effect_read {c : Instr} {want : OpRole → Bool} {s t : State} {d : Nat} {op : Op} {role : OpRole} {raw : RawSlot}
    {line seq : Nat} (hc : exec c s = event (answerRead want d [raw] noContent) s) (h : carries d op role s)
    (hw : want role = true) (he : expects op line seq)
    (ht : deliverRead op [expectSlot (some (line, seq)) (checkSlot raw)] noContent (answeredOp d op [raw] s) = t) :
    Effect c s t := by
  obtain ⟨hr, hf, hro, -⟩ := h
  refine Effect.of_event hc hr ?_
  unfold answerRead carried
  rw [hf, Option.filter_some, if_pos (by rw [hro]; exact hw)]
  dsimp only
  rw [if_pos (by rw [he.1]; rfl), ← ht]
  show deliverRead op [expectSlot op.expect (checkSlot raw)] noContent _ = _
  rw [he.2]; rfl

/-- A page read of the mount that is answered leaves what the mount makes of its 16 graded slots. -/
theorem effect_page {c : Instr} {want : OpRole → Bool} {s t : State} {d : Nat} {op : Op} {role : OpRole} {raws : List RawSlot}
    {content : IdContent} (hc : exec c s = event (answerRead want d raws content) s) (h : carries d op role s)
    (hw : want role = true) (hn : op.count = 16) (he : op.expect = none) (hl : raws.length = 16)
    (ht : deliverRead op (raws.map checkSlot) content (answeredOp d op raws s) = t) : Effect c s t := by
  obtain ⟨hr, hf, hro, -⟩ := h
  refine Effect.of_event hc hr ?_
  unfold answerRead carried
  rw [hf, Option.filter_some, if_pos (by rw [hro]; exact hw)]
  dsimp only
  rw [if_pos (by rw [hl, hn]), ← ht]
  have : raws.map (fun r => expectSlot op.expect (checkSlot r)) = raws.map checkSlot := by
    rw [he]
    exact List.map_congr_left fun r _ => by cases checkSlot r <;> rfl
  show deliverRead op (raws.map (fun r => expectSlot op.expect (checkSlot r))) content _ = _
  rw [this]; rfl

theorem expectSlot_of_readGood {raw : RawSlot} {line seq stamps : Nat} {g : Grade} {kind : RecKind} {stored : LineData}
    (h : readGood raw line seq g kind stamps stored) :
    expectSlot (some (line, seq)) (checkSlot raw) = .good g (.record kind line seq stamps stored) := by
  unfold readGood at h
  rw [h]; simp [expectSlot, meets]

theorem expectSlot_of_readLost {raw : RawSlot} {line seq : Nat} (h : readLost raw line seq) :
    ∀ g c, expectSlot (some (line, seq)) (checkSlot raw) ≠ .good g c := by
  intro g c hc
  unfold expectSlot at hc
  dsimp only at hc
  split at hc
  · rename_i g' c' hg
    split at hc
    · rename_i hm
      unfold meets at hm
      split at hm
      · rename_i k l q st p
        simp only [Bool.and_eq_true, beq_iff_eq] at hm
        obtain ⟨rfl, rfl⟩ := hm
        exact h _ _ _ _ hg
      · cases hm
    · cases hc
  · cases hc
  · rename_i hx _; exact hx _ _ hc

/-! ### Operations that fold over lists -/

/-- Records taken one by one from a slot on are taken at the slots numbered from it. -/
theorem slots_fold {α : Type} (f : Loc → α → State → State) (g : BlockId → Nat → Nat → List α → State → State) (b : BlockId)
    (p : Nat) (h0 : ∀ k s, g b p k [] s = s) (h1 : ∀ k r l s, g b p k (r :: l) s = g b p (k + 1) l (f (locIn b p k) r s))
    (l : List α) (k j : Nat) (s : State) :
    g b p (k + j) l s = (l.zipIdx j).foldl (fun x q => f (locIn b p (k + q.2)) q.1 x) s := by
  induction l generalizing j s with
  | nil => rw [h0]; rfl
  | cons r l ih =>
    rw [h1, List.zipIdx_cons, List.foldl_cons]
    exact ih (j + 1) _

/-- Issuing several operations changes the dies, the block table and the ticket, and nothing else. -/
theorem issues_keep {α : Type} (f : α → Op) (l : List α) (s : State) :
    ∃ di bl ti, l.foldl (fun t b => issue (f b) t) s = { s with dies := di, blocks := bl, ticket := ti } := by
  induction l generalizing s with
  | nil => exact ⟨_, _, _, rfl⟩
  | cons b l ih =>
    rw [List.foldl_cons, issue_eq]
    obtain ⟨_, _, _, e⟩ := ih _
    rw [e]
    exact ⟨_, _, _, rfl⟩

/-- Raising several faults changes the maintenance port's state alone (R189). -/
theorem raises_keep {α : Type} (k : FaultKind) (f : α → Subject) (l : List α) (s : State) :
    ∃ ma, l.foldl (fun t b => raise k (f b) t) s = { s with maint := ma } := by
  induction l generalizing s with
  | nil => exact ⟨_, rfl⟩
  | cons b l ih =>
    rw [List.foldl_cons]
    obtain ⟨ma, e⟩ := ih (raise k (f b) s)
    rw [e]
    exact ⟨_, rfl⟩

/-! ### Mode changes (R159) -/

theorem endWaitingWrite_eq (m : Mode) (t : State) : ∃ ho ma, endWaitingWrite m t = { t with host := ho, maint := ma } := by
  unfold endWaitingWrite
  split
  · unfold answer setAccess writeAnswer raiseOpt raise
    cases ha : t.host.access <;> cases m <;> exact ⟨_, _, rfl⟩
  · exact ⟨_, _, rfl⟩

theorem endWaitingRead_eq (m : Mode) (t : State) : ∃ ho, endWaitingRead m t = { t with host := ho } := by
  unfold endWaitingRead
  split
  · unfold answer setAccess
    cases ha : t.host.access <;> exact ⟨_, rfl⟩
  · exact ⟨_, rfl⟩

end Sys2Proof.Machine
end

