-- ==== Sys2Proof/Laws/Mount.lean ====
section
/-! SUPPORT. The mount scan's invariant through one event: `MiC` says what the findings, the candidates and the mount reads agree on
(R164 to R168); and the block table and the line map of the hand-over agree (R12, R69, R81, R171). -/
namespace Sys2Proof.Machine

/-- The findings agree with the mount reads outstanding and with the candidates. -/
structure MiC (w : Due) (phase : MountPhase) (findings : List (Nat × Finding)) (cands : List Candidate) (n : Nat)
    (retired : List BlockId) (dies : List DieRec) : Prop where
  early : phase = .probe ∨ phase = .identity → findings = [] ∧ cands = []
  rise : keysRise findings = true
  range : phase ≠ .done → ∀ k f, keyGet k findings = some f →
    k < n * Config.dieBlocks ∧ isIdentityBlock (blockAt k) = false ∧ retired.contains (blockAt k) = false
  cls : ∀ b, opsOut (isReadAt .classifyRead b) dies + opsCount (isReadAt .classifyRead b) w.ops ≤
    if foundIs findings b (·.cls.isNone) then 1 else 0
  scan : ∀ b, 0 < opsOut (isReadAt .scanRead b) dies + opsCount (isReadAt .scanRead b) w.ops → foundIs findings b (·.isLog) = true
  cands : ∀ c ∈ cands, foundIs findings (blockOf c.loc) (·.isLog) = true

theorem blockKey_blockAt (k : Nat) : blockKey (blockAt k) = k := by
  simp only [blockKey, blockAt, Config.dieBlocks]
  omega

theorem blockAt_blockKey {b : BlockId} (h : b.block < Config.dieBlocks) : blockAt (blockKey b) = b := by
  cases b with
  | mk d k =>
    simp only [Config.dieBlocks] at h
    simp only [blockKey, blockAt, Config.dieBlocks, BlockId.mk.injEq]
    omega

theorem blockKey_inj {b c : BlockId} (hb : b.block < Config.dieBlocks) (hc : c.block < Config.dieBlocks)
    (h : blockKey b = blockKey c) : b = c := by
  rw [← blockAt_blockKey hb, h, blockAt_blockKey hc]

theorem blockAt_lt (k : Nat) : (blockAt k).block < Config.dieBlocks := Nat.mod_lt _ (by decide)

theorem foundIs_of {fs : List (Nat × Finding)} {b : BlockId} {p : Finding → Bool} (h : foundIs fs b p = true) :
    b.block < Config.dieBlocks ∧ ∃ f, keyGet (blockKey b) fs = some f ∧ p f = true := by
  simp only [foundIs, Bool.and_eq_true, decide_eq_true_eq, Option.any_eq_true] at h
  exact h

theorem foundIs_mk {fs : List (Nat × Finding)} {b : BlockId} {p : Finding → Bool} {f : Finding} (hb : b.block < Config.dieBlocks)
    (hf : keyGet (blockKey b) fs = some f) (hp : p f = true) : foundIs fs b p = true := by
  simp [foundIs, hb, hf, hp]

variable {w w' : Due} {phase : MountPhase} {fs : List (Nat × Finding)} {cands : List Candidate} {n : Nat} {retired : List BlockId}
  {dies dies' : List DieRec}

theorem MiC.dies_le (h : MiC w phase fs cands n retired dies) (hd : ∀ q, opsOut q dies' ≤ opsOut q dies) :
    MiC w phase fs cands n retired dies' :=
  { h with
    cls := fun b => by have := h.cls b; have := hd (isReadAt .classifyRead b); omega
    scan := fun b k => h.scan b (by have := hd (isReadAt .scanRead b); omega) }

theorem MiC.issued {op : Op} (h : MiC (w.op op) phase fs cands n retired dies)
    (hd : ∀ q, opsOut q dies' ≤ opsOut q dies + opsCount q [op]) : MiC w phase fs cands n retired dies' := by
  have e : ∀ q, opsCount q (w.op op).ops = opsCount q [op] + opsCount q w.ops := fun q => opsCount_append q [op] w.ops
  exact { h with
    cls := fun b => by have := h.cls b; have := hd (isReadAt .classifyRead b); have := e (isReadAt .classifyRead b); omega
    scan := fun b k => h.scan b (by have := hd (isReadAt .scanRead b); have := e (isReadAt .scanRead b); omega) }

theorem MiC.took {op : Op} (h : MiC w phase fs cands n retired dies)
    (hd : ∀ q, opsOut q dies' + opsCount q [op] ≤ opsOut q dies) : MiC (w.op op) phase fs cands n retired dies' := by
  have e : ∀ q, opsCount q (w.op op).ops = opsCount q [op] + opsCount q w.ops := fun q => opsCount_append q [op] w.ops
  exact { h with
    cls := fun b => by have := h.cls b; have := hd (isReadAt .classifyRead b); have := e (isReadAt .classifyRead b); omega
    scan := fun b k => h.scan b (by have := hd (isReadAt .scanRead b); have := e (isReadAt .scanRead b); omega) }

theorem MiC.debts (h : MiC w phase fs cands n retired dies) (ho : ∀ q, opsCount q w'.ops ≤ opsCount q w.ops) :
    MiC w' phase fs cands n retired dies :=
  { h with
    cls := fun b => by have := h.cls b; have := ho (isReadAt .classifyRead b); omega
    scan := fun b k => h.scan b (by have := ho (isReadAt .scanRead b); omega) }

theorem MiC.drop_op {op : Op} (h : MiC (w.op op) phase fs cands n retired dies) : MiC w phase fs cands n retired dies :=
  h.debts fun q => by rw [show (w.op op).ops = op :: w.ops from rfl, opsCount_cons]; omega

theorem opsCount_op (q : OpRole → Bool → BlockId → Bool) (w : Due) (op : Op) :
    opsCount q (w.op op).ops = opsCount q w.ops + if q op.role op.stale op.block then 1 else 0 := opsCount_cons q op w.ops

/-- An operation that is no mount read is about to be issued. -/
theorem MiC.other {op : Op} (h : MiC w phase fs cands n retired dies) (h1 : op.role ≠ .classifyRead) (h2 : op.role ≠ .scanRead) :
    MiC (w.op op) phase fs cands n retired dies := by
  have e1 : ∀ b, opsCount (isReadAt .classifyRead b) (w.op op).ops = opsCount (isReadAt .classifyRead b) w.ops := fun b => by
    rw [opsCount_op]; simp [isReadAt, h1]
  have e2 : ∀ b, opsCount (isReadAt .scanRead b) (w.op op).ops = opsCount (isReadAt .scanRead b) w.ops := fun b => by
    rw [opsCount_op]; simp [isReadAt, h2]
  exact { h with
    cls := fun b => by rw [e1]; exact h.cls b
    scan := fun b => by rw [e2]; exact h.scan b }

/-- A classification read is about to be issued, for a block that has not been classed and has none outstanding. -/
theorem MiC.readCls {op : Op} (h : MiC w phase fs cands n retired dies) (ho : op.role = .classifyRead)
    (hz : opsOut (isReadAt .classifyRead op.block) dies + opsCount (isReadAt .classifyRead op.block) w.ops = 0)
    (hf : foundIs fs op.block (·.cls.isNone) = true) : MiC (w.op op) phase fs cands n retired dies := by
  refine { h with
    cls := fun b => ?_
    scan := fun b => ?_ }
  · rw [opsCount_op]
    by_cases hb : op.block = b
    · subst hb; rw [if_pos hf]; split <;> omega
    · have : isReadAt .classifyRead b op.role op.stale op.block = false := by simp [isReadAt, hb]
      rw [this]; simpa using h.cls b
  · rw [opsCount_op]
    have : isReadAt .scanRead b op.role op.stale op.block = false := by simp [isReadAt, ho]
    rw [this]; simpa using h.scan b

/-- A scan read is about to be issued, for a LOG block. -/
theorem MiC.readScan {op : Op} (h : MiC w phase fs cands n retired dies) (ho : op.role = .scanRead)
    (hf : foundIs fs op.block (·.isLog) = true) : MiC (w.op op) phase fs cands n retired dies := by
  refine { h with
    cls := fun b => ?_
    scan := fun b => ?_ }
  · rw [opsCount_op]
    have : isReadAt .classifyRead b op.role op.stale op.block = false := by simp [isReadAt, ho]
    rw [this]; simpa using h.cls b
  · rw [opsCount_op]
    by_cases hb : op.block = b
    · subst hb; exact fun _ => hf
    · have : isReadAt .scanRead b op.role op.stale op.block = false := by simp [isReadAt, hb]
      rw [this]; simpa using h.scan b

/-- A classification read that is answered finds its block not classed, and no other is outstanding on it. -/
theorem MiC.clsTaken {op : Op} (h : MiC (w.op op) phase fs cands n retired dies) (ho : op.role = .classifyRead) :
    foundIs fs op.block (·.cls.isNone) = true ∧
      opsOut (isReadAt .classifyRead op.block) dies + opsCount (isReadAt .classifyRead op.block) w.ops = 0 := by
  have := h.cls op.block
  rw [opsCount_op, if_pos (show isReadAt .classifyRead op.block op.role op.stale op.block = true by simp [isReadAt, ho])] at this
  by_cases hf : foundIs fs op.block (·.cls.isNone) = true
  · rw [if_pos hf] at this; exact ⟨hf, by omega⟩
  · rw [if_neg hf] at this; omega

/-- A scan read that is answered finds a LOG block. -/
theorem MiC.scanTaken {op : Op} (h : MiC (w.op op) phase fs cands n retired dies) (ho : op.role = .scanRead) :
    foundIs fs op.block (·.isLog) = true :=
  h.scan _ (by rw [opsCount_op, if_pos (show isReadAt .scanRead op.block op.role op.stale op.block = true by simp [isReadAt, ho])]; omega)

theorem foundIs_put {b : BlockId} {f : Finding} {p : Finding → Bool} (c : BlockId) :
    foundIs (keyPut (blockKey b) f fs) c p =
      if blockKey c = blockKey b then decide (c.block < Config.dieBlocks) && p f else foundIs fs c p := by
  unfold foundIs
  split
  · rename_i h; rw [h, keyGet_keyPut_same]; rfl
  · rename_i h; rw [keyGet_keyPut_other h]

/-- The finding on a block changes: it stays a LOG block if it was one, and no classification read is left on it unless it is still
not classed. -/
theorem MiC.put {b : BlockId} (h : MiC w phase fs cands n retired dies) {f0 : Finding} (hb : b.block < Config.dieBlocks)
    (h0 : keyGet (blockKey b) fs = some f0) (f : Finding) (hl : f0.isLog = true → f.isLog = true)
    (hc : f.cls.isNone = true ∨ opsOut (isReadAt .classifyRead b) dies + opsCount (isReadAt .classifyRead b) w.ops = 0) :
    MiC w phase (keyPut (blockKey b) f fs) cands n retired dies := by
  have lg : ∀ c, foundIs fs c (·.isLog) = true → foundIs (keyPut (blockKey b) f fs) c (·.isLog) = true := by
    intro c hc
    rw [foundIs_put]
    split
    · rename_i e
      obtain ⟨hb', f', hf', hl'⟩ := foundIs_of hc
      rw [e, h0] at hf'
      cases hf'
      simp [hb', hl hl']
    · exact hc
  refine
    { early := fun k => by rw [(h.early k).1] at h0; cases h0
      rise := keyPut_rises _ _ h.rise
      range := fun k j g hg => ?_
      cls := fun c => ?_
      scan := fun c k => lg c (h.scan c k)
      cands := fun c hc => lg _ (h.cands c hc) }
  · by_cases hj : j = blockKey b
    · subst hj; exact h.range k _ f0 h0
    · rw [keyGet_keyPut_other hj] at hg; exact h.range k j g hg
  · have k := h.cls c
    rw [foundIs_put]
    split
    · rename_i e
      by_cases hcb : c.block < Config.dieBlocks
      · have := blockKey_inj hcb hb e
        subst this
        rcases hc with hc | hc
        · rw [if_pos (by simp [hcb, hc])]
          refine k.trans ?_
          split <;> omega
        · rw [hc]; exact Nat.zero_le _
      · rw [if_neg (by simp [foundIs, hcb])] at k
        exact k.trans (Nat.zero_le _)
    · exact k

/-- A record of a LOG block becomes a candidate. -/
theorem MiC.offer (h : MiC w phase fs cands n retired dies) (c : Candidate) (hc : foundIs fs (blockOf c.loc) (·.isLog) = true) :
    MiC w phase fs (cands ++ [c]) n retired dies :=
  { h with
    early := fun k => by rw [(h.early k).1] at hc; simp [foundIs, keyGet] at hc
    cands := fun d hd => by
      rcases List.mem_append.1 hd with hd | hd
      · exact h.cands d hd
      · rw [List.mem_singleton.1 hd]; exact hc }

/-! ### The winners and the map they give (R12, R169) -/

theorem winnersOf_spec (s : State) (l : List Candidate) :
    keysRise (winnersOf s l) = true ∧ ∀ p ∈ winnersOf s l, p.2 ∈ l := by
  unfold winnersOf
  have k : ∀ (m : List Candidate) (acc : List (Nat × Candidate)), keysRise acc = true → (∀ p ∈ acc, p.2 ∈ l) → (∀ c ∈ m, c ∈ l) →
      keysRise (m.foldl (fun acc c =>
        match keyGet c.line acc with
        | none => keyPut c.line c acc
        | some w => if candBeats s c w then keyPut c.line c acc else acc) acc) = true ∧
      ∀ p ∈ m.foldl (fun acc c =>
        match keyGet c.line acc with
        | none => keyPut c.line c acc
        | some w => if candBeats s c w then keyPut c.line c acc else acc) acc, p.2 ∈ l := by
    intro m
    induction m with
    | nil => exact fun acc h1 h2 _ => ⟨h1, h2⟩
    | cons c m ih =>
      intro acc h1 h2 h3
      rw [List.foldl_cons]
      have hp : keysRise (keyPut c.line c acc) = true ∧ ∀ p ∈ keyPut c.line c acc, p.2 ∈ l :=
        ⟨keyPut_rises _ _ h1, fun p hp => by
          rcases mem_keyPut hp with rfl | hp
          · exact h3 c List.mem_cons_self
          · exact h2 p hp⟩
      have h4 : ∀ c ∈ m, c ∈ l := fun d hd => h3 d (List.mem_cons_of_mem _ hd)
      split
      · exact ih _ hp.1 hp.2 h4
      · split
        · exact ih _ hp.1 hp.2 h4
        · exact ih _ h1 h2 h4
  exact k l [] rfl (fun p hp => nomatch hp) fun c hc => hc

/-- The winners that a block of a key holds. -/
def winnerIn (k : Nat) (p : Nat × Candidate) : Bool := decide (locIs (winnerEntry p.2).state.loc k = 1)

theorem winnerEntry_ne (c : Candidate) : winnerEntry c ≠ MapEntry.empty := by
  unfold winnerEntry MapEntry.empty
  split
  · simp
  · split <;> simp

theorem keyGet_mapPut_other {l j : Nat} (h : j ≠ l) (e : MapEntry) (m : List (Nat × MapEntry)) :
    keyGet j (mapPut l e m) = keyGet j m := by
  unfold mapPut
  split
  · exact keyGet_keyDel_other h m
  · exact keyGet_keyPut_other h _ _

theorem winners_located (ws : List (Nat × Candidate)) (hw : keysRise ws = true) (k : Nat) (m : List (Nat × MapEntry))
    (hm : mapWf m = true) (hd : ∀ p ∈ ws, keyGet p.1 m = none) :
    located (ws.foldl (fun m p => mapPut p.1 (winnerEntry p.2) m) m) k = located m k + ws.countP (winnerIn k) := by
  induction ws generalizing m with
  | nil => rfl
  | cons p ws ih =>
    obtain ⟨ha, hr⟩ := (keysRise_cons _ _).1 hw
    rw [List.foldl_cons, ih hr _ (mapPut_wf _ _ hm) fun q hq => ?_]
    · have := located_mapPut p.1 (winnerEntry p.2) hm k
      rw [hd p List.mem_cons_self] at this
      have e0 : locIs ((none : Option MapEntry).getD MapEntry.empty).state.loc k = 0 := rfl
      rw [List.countP_cons]
      have e : locIs (winnerEntry p.2).state.loc k = if winnerIn k p then 1 else 0 := by
        unfold winnerIn locIs
        split <;> simp
      omega
    · have := ha q hq
      rw [keyGet_mapPut_other (by omega)]
      exact hd q (List.mem_cons_of_mem _ hq)

theorem winner_loc (c : Candidate) (k : Nat) (hb : (blockOf c.loc).block < Config.dieBlocks) :
    locIs (winnerEntry c).state.loc k = 1 ↔ c.lost = false ∧ blockOf c.loc = blockAt k := by
  have key : blockKey (blockOf c.loc) = k ↔ blockOf c.loc = blockAt k :=
    ⟨fun e => by rw [← e, blockAt_blockKey hb], fun e => by rw [e, blockKey_blockAt]⟩
  rw [← key]
  cases hl : c.lost
  · have : (winnerEntry c).state.loc = some c.loc := by
      unfold winnerEntry
      rw [hl]
      simp only [Bool.false_eq_true, ↓reduceIte]
      split <;> rfl
    rw [this]
    simp [locIs]
  · have : (winnerEntry c).state.loc = none := by
      unfold winnerEntry
      rw [hl]
      rfl
    rw [this]
    simp [locIs]

/-! ### The hand-over (R171) -/

theorem handoverRec_fits (s : State) (ws : List (Nat × Candidate)) (k : Nat) :
    (isIdentityBlock (blockAt k) = true → (handoverRec s ws k).state = .identity) ∧
      ((handoverRec s ws k).isEmpty = true → (handoverRec s ws k).valid = 0) ∧ (handoverRec s ws k).workFits = true := by
  unfold handoverRec
  dsimp only
  split
  · exact ⟨fun _ => rfl, fun _ => rfl, rfl⟩
  · rename_i hi
    refine ⟨fun h => absurd h hi, ?_⟩
    repeat' split
    all_goals
      refine And.intro ?_ rfl
      first
      | exact fun _ => rfl
      | simp [closedRec, BlockRec.isEmpty]

theorem handoverRec_valid {s : State} (h : MiC w s.mount.phase s.mount.findings s.mount.cands s.diesInUse s.ident.retired s.dies)
    (hp : s.mount.phase ≠ .done) (k : Nat) :
    (winnersOf s (settledCands s)).countP (winnerIn k) =
      if k < s.diesInUse * Config.dieBlocks then (handoverRec s (winnersOf s (settledCands s)) k).valid else 0 := by
  generalize hw : winnersOf s (settledCands s) = ws
  have spec : ∀ p ∈ ws, p.2 ∈ s.mount.cands ∧ isOffline s p.2.loc.die = false := by
    intro p hp
    have := (winnersOf_spec s (settledCands s)).2 p (hw ▸ hp)
    unfold settledCands at this
    obtain ⟨h1, h2⟩ := List.mem_filter.1 this
    simp only [Bool.and_eq_true, Bool.not_eq_true'] at h2
    exact ⟨h1, h2.1⟩
  have e : ws.countP (winnerIn k) = winnersIn ws (blockAt k) := by
    unfold winnersIn
    refine List.countP_congr fun p hp => ?_
    have hb := (foundIs_of (h.cands _ (spec p hp).1)).1
    have := winner_loc p.2 k hb
    simp only [winnerIn, decide_eq_true_eq, Bool.and_eq_true, Bool.not_eq_true', beq_iff_eq]
    exact this
  by_cases hz : ws.countP (winnerIn k) = 0
  · rw [hz]
    split
    · unfold handoverRec
      dsimp only
      repeat' split
      all_goals first
        | rfl
        | (rw [hz] at e; exact e)
    · rfl
  · obtain ⟨p, hp', hpk⟩ := List.countP_pos_iff.1 (Nat.pos_of_ne_zero hz)
    obtain ⟨hc, ho⟩ := spec p hp'
    obtain ⟨hb, f, hf, hl⟩ := foundIs_of (h.cands _ hc)
    have hk : blockOf p.2.loc = blockAt k :=
      ((winner_loc p.2 k hb).1 (by simpa [winnerIn] using hpk)).2
    rw [hk, blockKey_blockAt] at hf
    obtain ⟨r1, r2, r3⟩ := h.range hp k f hf
    have ho' : isOffline s (blockAt k).die = false := by rw [← hk]; exact ho
    have hcls : f.cls = some .log := by simpa [Finding.isLog] using hl
    rw [if_pos r1, e]
    unfold handoverRec
    dsimp only
    rw [if_neg (by simp [r2]), if_neg (by simpa using r3), if_neg (by simp [ho'])]
    have : findingOf s (blockAt k) = f := by unfold findingOf; rw [blockKey_blockAt, hf]; rfl
    rw [this, hcls]

theorem count_freeInserts (s : State) (l m : List BlockId) (k : Nat) :
    ((l.foldl (fun l b => freeInsert s b l) m).map blockKey).count k = (m.map blockKey).count k + (l.map blockKey).count k := by
  induction l generalizing m with
  | nil => rfl
  | cons b l ih =>
    rw [List.foldl_cons, ih, count_freeInsert, List.map_cons, count_cons_nat]
    omega

theorem freeBlocks_count (n : Nat) (f : Nat → BlockRec) (k : Nat) :
    ((freeBlocks ((List.range n).map fun k => (k, f k))).map blockKey).count k = if k < n ∧ (f k).state = .free then 1 else 0 := by
  unfold freeBlocks
  induction n with
  | zero => rfl
  | succ n ih =>
    rw [List.range_succ, List.map_append, List.filter_append, List.map_append, List.map_append, List.count_append, ih]
    by_cases hn : (f n).state = .free
    · simp only [List.map_cons, List.map_nil, hn, beq_self_eq_true, List.filter_cons_of_pos, List.filter_nil, count_cons_nat,
        List.count_nil, blockKey_blockAt]
      by_cases hk : k = n
      · subst hk; simp [hn]
      · have e : (k < n ∧ (f k).state = .free) ↔ (k < n + 1 ∧ (f k).state = .free) := by
          constructor <;> rintro ⟨a, b⟩ <;> exact ⟨by omega, b⟩
        simp [hk, e]
    · have hn' : ((f n).state == BlockState.free) = false := by simpa using hn
      simp only [List.map_cons, List.map_nil, hn', List.filter_cons, List.filter_nil, List.count_nil, Bool.false_eq_true, ↓reduceIte]
      by_cases hk : k = n
      · subst hk; simp [hn]
      · have e : (k < n ∧ (f k).state = .free) ↔ (k < n + 1 ∧ (f k).state = .free) := by
          constructor <;> rintro ⟨a, b⟩ <;> exact ⟨by omega, b⟩
        simp [e]

theorem handoverOps_count (t : State) (n : Nat) (f : Nat → BlockRec) (role : OpRole) (hr : role = .erase ∨ role = .eraseStamp) (k : Nat) :
    opsCount (isErase role k) (((List.range n).map fun k => (k, f k)).filterMap (handoverOp t)) ≤
      if k < n ∧ (f k).work = eraseWork role then 1 else 0 := by
  induction n with
  | zero => exact Nat.le_refl _
  | succ n ih =>
    rw [List.range_succ, List.map_append, List.filterMap_append, opsCount_append]
    have one : opsCount (isErase role k) ([(n, f n)].filterMap (handoverOp t)) ≤ if k = n ∧ (f k).work = eraseWork role then 1 else 0 := by
      rw [List.filterMap_cons]
      split
      · exact Nat.zero_le _
      · rename_i op hop
        rw [List.filterMap_nil, opsCount_cons]
        show 0 + _ ≤ _
        unfold handoverOp at hop
        dsimp only at hop
        split at hop
        · rename_i hw
          cases hop
          simp only [isErase, eraseStampOp, programOp, blockKey_blockAt]
          by_cases hk : n = k
          · subst hk
            rcases hr with rfl | rfl <;> simp [hw, eraseWork]
          · simp [hk]
        · rename_i hw
          cases hop
          simp only [isErase, eraseOp, blockKey_blockAt]
          by_cases hk : n = k
          · subst hk
            rcases hr with rfl | rfl <;> simp [hw, eraseWork]
          · simp [hk]
        · cases hop
    refine (Nat.add_le_add ih one).trans ?_
    by_cases hk : k = n
    · subst hk; simp
    · have e : (k < n ∧ (f k).work = eraseWork role) ↔ (k < n + 1 ∧ (f k).work = eraseWork role) := by
        constructor <;> rintro ⟨a, b⟩ <;> exact ⟨by omega, b⟩
      simp [hk, e]

end Sys2Proof.Machine
end

