-- ==== Sys2Proof/Laws/Stamps.lean ====
section
/-! SUPPORT. The stamps invariant through one event (R134 to R137): `StC` says that no line's stamps pass the limit, with what the
staging buffer and the batch in flight will add to them. -/
namespace Sys2Proof.Machine

/-- 1 where the pending term counts an entry for a line. -/
def pend (l : Nat) (e : Entry) : Nat := if e.pends l then 1 else 0

/-- No line's stamps pass the limit. -/
structure StC (st : List Entry) (map : List (Nat × MapEntry)) (regions : List Region) (bat : Option Batch) (acc : Bool)
    (phase : MountPhase) (cands : List Candidate) : Prop where
  le : ∀ l, stampsOf map l ≤ Config.stampsMax
  sum : ∀ l, onceIn regions l = true → stampsOf map l + pendingIn st l ≤ Config.stampsMax
  recs : ∀ b, bat = some b → ∀ r ∈ b.recs, RecOk st map regions r
  entries : ∀ i, EntryOk phase (st.getD i Entry.cleared)
  acc : acc = true → phase = .done
  cands : ∀ c ∈ cands, c.stamps ≤ Config.stampsMax

theorem EntryOk.cleared (phase : MountPhase) : EntryOk phase Entry.cleared :=
  ⟨(nomatch ·), (nomatch ·), (nomatch ·), fun _ => rfl⟩

theorem pend_untouched {l : Nat} {e : Entry} (h : e.touched = false) : pend l e = 0 := by simp [pend, Entry.pends, h]

theorem pend_other {l : Nat} {e : Entry} (h : e.line ≠ some l) : pend l e = 0 := by simp [pend, Entry.pends, h]

/-- An entry that goes on in a state which the pending term counts is counted as before. -/
theorem pend_same (l : Nat) {e e' : Entry} (h1 : e'.line = e.line) (h2 : e'.touched = e.touched)
    (h3 : e.state = .loading ∨ e.state = .dirty ∨ e.state = .committing) : pend l e' ≤ pend l e := by
  have k : (e.state == .loading || e.state == .dirty || e.state == .committing) = true := by
    rcases h3 with h | h | h <;> simp [h]
  unfold pend Entry.pends
  rw [h1, h2, k]
  generalize (e'.state == .loading || e'.state == .dirty || e'.state == .committing) = x
  cases x <;> simp

theorem pendingIn_set {st : List Entry} {i : Nat} (h : i < st.length) (e : Entry) (l : Nat) :
    pendingIn (st.set i e) l + pend l (st.getD i Entry.cleared) = pendingIn st l + pend l e := by
  unfold pendingIn pend
  induction st generalizing i with
  | nil => cases h
  | cons a st ih =>
    cases i with
    | zero =>
      simp only [List.set_cons_zero, List.countP_cons, List.getD_cons_zero]
      omega
    | succ i =>
      have := ih (i := i) (by simpa using h)
      simp only [List.set_cons_succ, List.countP_cons, List.getD_cons_succ]
      omega

theorem pend_le (st : List Entry) (i l : Nat) : pend l (st.getD i Entry.cleared) ≤ pendingIn st l := by
  by_cases h : i < st.length
  · have := pendingIn_set h Entry.cleared l
    have e : pend l Entry.cleared = 0 := pend_untouched rfl
    omega
  · rw [List.getD_eq_default _ _ (by omega), pend_untouched rfl]
    exact Nat.zero_le _

theorem getD_set {st : List Entry} {i j : Nat} (e : Entry) :
    (st.set i e).getD j Entry.cleared = if j = i ∧ i < st.length then e else st.getD j Entry.cleared := by
  rw [List.getD_eq_getElem?_getD, List.getD_eq_getElem?_getD, List.getElem?_set]
  by_cases h : i = j
  · subst h
    by_cases hl : i < st.length
    · simp [hl]
    · simp [hl]
  · have h' : ¬ j = i := fun e => h e.symm
    simp [h, h']

variable {st : List Entry} {map : List (Nat × MapEntry)} {regions : List Region} {bat : Option Batch} {acc : Bool}
  {phase : MountPhase} {cands : List Candidate}

theorem pendingIn_set_le {i : Nat} {e : Entry} {l : Nat} (hle : pend l e ≤ pend l (st.getD i Entry.cleared)) :
    pendingIn (st.set i e) l ≤ pendingIn st l := by
  by_cases h : i < st.length
  · have := pendingIn_set h e l
    omega
  · rw [List.set_eq_of_length_le (by omega)]

theorem EntryOk.set {i : Nat} {e : Entry} (h : ∀ i, EntryOk phase (st.getD i Entry.cleared)) (he : EntryOk phase e) (j : Nat) :
    EntryOk phase ((st.set i e).getD j Entry.cleared) := by
  rw [getD_set]
  split
  · exact he
  · exact h j

theorem RecOk.set {i : Nat} {e : Entry} {r : BatchRec} (h : RecOk st map regions r)
    (hb : r.entry = i → e.line = (st.getD i Entry.cleared).line ∧ e.touched = (st.getD i Entry.cleared).touched) :
    RecOk (st.set i e) map regions r := by
  refine ⟨h.le, ?_, ?_⟩ <;> rw [getD_set] <;> split
  · rename_i c
    have := hb c.1
    rw [this.1, this.2, ← c.1]
    exact h.line
  · exact h.line
  · rename_i c
    have := hb c.1
    unfold touch
    rw [this.2, ← c.1]
    exact h.sum
  · exact h.sum

/-- An entry changes and the pending term of no line grows. -/
theorem StC.set {i : Nat} {e : Entry} (h : StC st map regions bat acc phase cands)
    (hle : ∀ l, pend l e ≤ pend l (st.getD i Entry.cleared)) (he : EntryOk phase e)
    (hb : ∀ b, bat = some b → ∀ r ∈ b.recs, r.entry = i →
      e.line = (st.getD i Entry.cleared).line ∧ e.touched = (st.getD i Entry.cleared).touched) :
    StC (st.set i e) map regions bat acc phase cands :=
  { h with
    sum := fun l hl => by have := h.sum l hl; have := pendingIn_set_le (hle l); omega
    recs := fun b k r hr => (h.recs b k r hr).set (hb b k r hr)
    entries := EntryOk.set h.entries he }

/-- An entry is host-touched for a line whose stamps leave room for it (R135). -/
theorem StC.touched {i : Nat} {e : Entry} {line : Nat} (h : StC st map regions bat acc phase cands) (hl : e.line = some line)
    (hs : onceIn regions line = true →
      stampsOf map line + pendingIn st line + 1 ≤ Config.stampsMax + pend line (st.getD i Entry.cleared))
    (he : EntryOk phase e)
    (hb : ∀ b, bat = some b → ∀ r ∈ b.recs, r.entry ≠ i) : StC (st.set i e) map regions bat acc phase cands :=
  { h with
    sum := fun l hl' => by
      have k := h.sum l hl'
      by_cases hi : i < st.length
      · have k1 := pendingIn_set hi e l
        by_cases hll : l = line
        · subst hll
          have := hs hl'
          have : pend l e ≤ 1 := by unfold pend; split <;> omega
          omega
        · have : pend l e = 0 := pend_other (by rw [hl]; simpa using fun c => hll c.symm)
          omega
      · rw [List.set_eq_of_length_le (by omega)]; exact k
    recs := fun b k r hr => (h.recs b k r hr).set fun c => absurd c (hb b k r hr)
    entries := EntryOk.set h.entries he }

theorem stampsOf_mapPut (l : Nat) (e : MapEntry) {m : List (Nat × MapEntry)} (h : mapWf m = true) (k : Nat) :
    stampsOf (mapPut l e m) k = if k = l then e.stamps else stampsOf m k := by
  have hr : keysRise m = true := by simp only [mapWf, Bool.and_eq_true] at h; exact h.1
  unfold stampsOf mapPut
  by_cases hk : k = l
  · subst hk
    rw [if_pos rfl]
    split
    · rename_i he
      rw [keyGet_keyDel_same _ hr, he]; rfl
    · rw [keyGet_keyPut_same]; rfl
  · rw [if_neg hk]
    split
    · rw [keyGet_keyDel_other hk]
    · rw [keyGet_keyPut_other hk]

/-- A line's map entry changes and its stamps leave room for what is pending. -/
theorem StC.remap (h : StC st map regions bat acc phase cands) (hm : mapWf map = true) (line : Nat) (e : MapEntry)
    (he : e.stamps ≤ Config.stampsMax) (hs : onceIn regions line = true → e.stamps + pendingIn st line ≤ Config.stampsMax)
    (hb : e.stamps = stampsOf map line ∨ bat = none) : StC st (mapPut line e map) regions bat acc phase cands := by
  have k := stampsOf_mapPut line e hm
  refine { h with
    le := fun l => ?_
    sum := fun l hl => ?_
    recs := fun b hbt r hr => ?_ }
  · rw [k]; split
    · exact he
    · exact h.le l
  · rw [k]; split
    · rename_i c; subst c; exact hs hl
    · exact h.sum l hl
  · have q := h.recs b hbt r hr
    rcases hb with hb | hb
    · refine ⟨q.le, q.line, fun c => ?_⟩
      rw [k]; split
      · rename_i c'; rw [hb, ← c']; exact q.sum c
      · exact q.sum c
    · rw [hb] at hbt; cases hbt

/-- A map entry goes on with the stamps it has. -/
theorem StC.keep (h : StC st map regions bat acc phase cands) (hm : mapWf map = true) (line : Nat) (e : MapEntry)
    (he : e.stamps = stampsOf map line) : StC st (mapPut line e map) regions bat acc phase cands :=
  h.remap hm line e (he ▸ h.le line) (fun c => he ▸ h.sum line c) (.inl he)

/-- What holds of a record whose batch is being answered: its stamps leave room for what else is pending. -/
structure RecDue (st : List Entry) (regions : List Region) (r : BatchRec) : Prop where
  le : r.stamps ≤ Config.stampsMax
  line : (st.getD r.entry Entry.cleared).touched = true → (st.getD r.entry Entry.cleared).line = some r.line
  sum : onceIn regions r.line = true →
    r.stamps + pendingIn st r.line ≤ Config.stampsMax + touch (st.getD r.entry Entry.cleared)

theorem StC.due (h : StC st map regions bat acc phase cands) {b : Batch} (hb : bat = some b) {r : BatchRec} (hr : r ∈ b.recs) :
    RecDue st regions r := by
  have q := h.recs b hb r hr
  exact ⟨q.le, q.line, fun c => by have := q.sum c; have := h.sum _ c; omega⟩

/-- Another record is answered. -/
theorem RecDue.next {r : BatchRec} (h : RecDue st regions r) {i : Nat} (hi : r.entry ≠ i) (e : Entry) (he : e.touched = false) :
    RecDue (st.set i e) regions r := by
  have g : (st.set i e).getD r.entry Entry.cleared = st.getD r.entry Entry.cleared := by
    rw [getD_set, if_neg fun c => hi c.1]
  refine ⟨h.le, by rw [g]; exact h.line, fun c => ?_⟩
  rw [g]
  have := h.sum c
  have := pendingIn_set_le (st := st) (i := i) (e := e) (l := r.line) (by rw [pend_untouched he]; exact Nat.zero_le _)
  omega

/-- The record's own entry leaves COMMITTING: its stamps leave room for what is pending. -/
theorem RecDue.done {r : BatchRec} (h : RecDue st regions r) (hi : r.entry < st.length)
    (hs : (st.getD r.entry Entry.cleared).state = .committing) (e : Entry) (he : e.touched = false)
    (c : onceIn regions r.line = true) : r.stamps + pendingIn (st.set r.entry e) r.line ≤ Config.stampsMax := by
  have k := pendingIn_set hi e r.line
  have := h.sum c
  rw [pend_untouched he] at k
  have : pend r.line (st.getD r.entry Entry.cleared) = touch (st.getD r.entry Entry.cleared) := by
    unfold pend touch Entry.pends
    cases ht : (st.getD r.entry Entry.cleared).touched
    · simp
    · rw [h.line ht, hs]; simp
  omega

/-- Every record's entry is as it was, but for its state and what it is linked to. -/
theorem StC.formed (h : StC st map regions none acc phase cands) (ids : List Nat) (f : Entry → Entry)
    (hf : ∀ e, (f e).state = .committing ∧ (f e).line = e.line ∧ (f e).touched = e.touched)
    (hd : ∀ i ∈ ids, (st.getD i Entry.cleared).state = .dirty ∨ (st.getD i Entry.cleared).state = .committing) :
    StC (ids.foldl (fun st i => st.set i (f (st.getD i Entry.cleared))) st) map regions none acc phase cands ∧
      ∀ j, ((ids.foldl (fun st i => st.set i (f (st.getD i Entry.cleared))) st).getD j Entry.cleared).touched =
          (st.getD j Entry.cleared).touched ∧
        ((ids.foldl (fun st i => st.set i (f (st.getD i Entry.cleared))) st).getD j Entry.cleared).line =
          (st.getD j Entry.cleared).line := by
  induction ids generalizing st with
  | nil => exact ⟨h, fun _ => ⟨rfl, rfl⟩⟩
  | cons i ids ih =>
    rw [List.foldl_cons]
    obtain ⟨f1, f2, f3⟩ := hf (st.getD i Entry.cleared)
    have q := h.entries i
    have h' : StC (st.set i (f (st.getD i Entry.cleared))) map regions none acc phase cands :=
      h.set (fun l => pend_same l f2 f3 (by
        rcases hd i List.mem_cons_self with c | c
        · exact .inr (.inl c)
        · exact .inr (.inr c)))
        { clean := fun c => by rw [f1] at c; cases c
          loading := fun c => by rw [f1] at c; cases c
          line := by rw [f2, f3]; exact q.line
          mount := by rw [f3]; exact q.mount }
        (fun b c => nomatch c)
    obtain ⟨k1, k2⟩ := ih h' fun j hj => by
      rw [getD_set]
      split
      · exact .inr f1
      · exact hd j (List.mem_cons_of_mem _ hj)
    refine ⟨k1, fun j => ?_⟩
    obtain ⟨k3, k4⟩ := k2 j
    rw [k3, k4, getD_set]
    split
    · rename_i c
      rw [c.1]
      exact ⟨f3, f2⟩
    · exact ⟨rfl, rfl⟩

/-- A batch is formed whose records have the stamps that their lines and entries give (R60, R137). -/
theorem StC.batched (h : StC st map regions none acc phase cands) (b : Batch) (hb : ∀ r ∈ b.recs, RecOk st map regions r) :
    StC st map regions (some b) acc phase cands :=
  { h with recs := fun c k r hr => by cases k; exact hb r hr }

theorem StC.unbatched (h : StC st map regions bat acc phase cands) : StC st map regions none acc phase cands :=
  { h with recs := fun _ k => nomatch k }

end Sys2Proof.Machine
end

