-- ==== Sys2Proof/Laws/KeepsOps.lean ====
section
/-! SUPPORT. The invariants of Sys2Proof/Safety.lean through one event: `Ok s w u` says what every operation inside an event keeps, and
one lemma for each shared operation says that it keeps it. -/
namespace Sys2Proof.Machine

/-- The fault list's bounds. -/
def FaultsOk (l : List FaultRec) : Prop :=
  l.length ≤ Config.faultsMax ∧ ∀ r ∈ l, 1 ≤ r.count ∧ r.count ≤ Config.repeatMax

/-- The mode's part of `Ok`. -/
def ModeOk (mode : Mode) (held drain : Bool) (phase : MountPhase) (fmt : Bool) : Prop :=
  (phase ≠ .done → mode = .mounting) ∧ (fmt = true → mode = .formatting) ∧ (drain = true ↔ mode = .draining) ∧
    (held = true → mode = .parked ∨ mode = .formatting)

/-- The free list's part of `Ok`. -/
def SpaceOk (phase : MountPhase) (n : Nat) (boost cond : Bool) : Prop :=
  phase = .done →
    (boost = true ↔ n ≤ Config.hostReserve) ∧ (n ≤ Config.lowWater → cond = true) ∧ (Config.highWater ≤ n → cond = false)

/-- What is on its way among operations and retirements alone. -/
def Due.bare (w : Due) : Due := { Due.none false with ops := w.ops, reqs := w.reqs }

/-- `Ok` over the fields it speaks of. -/
structure OkC (s : State) (force rst : Bool) (pend : List Instr) (pfw : Bool) (now : Nat) (set : Settings) (slen dlen : Nat)
    (map : List (Nat × MapEntry)) (faults : List FaultRec) (mode : Mode) (held drain : Bool) (phase : MountPhase) (fmt : Bool)
    (nfree : Nat) (boost cond : Bool) (w : Due) (st : List Entry) (lru queue : List Nat) (bat : Option Batch)
    (dies : List DieRec) (wh : List Nat) (blocks : List (Nat × BlockRec)) (free : List BlockId) (hd ch : Option LogHead)
    (vc : Option BlockId) (rl wt : List BlockId) (idq : List IdRequest) (idu : Option Update) (findings : List (Nat × Finding))
    (cands : List Candidate) (n : Nat) (retired : List BlockId) (regions : List Region) (access : Option Access) : Prop where
  bk : BkC w.bare force blocks free map dies hd bat ch vc rl wt idq idu phase fmt
  mi : MiC w.bare phase findings cands n retired dies
  stc : w.wf = true → StC st map regions bat (waitsEntry access) phase cands
  rst : rst = false
  pend : pend = s.pending
  pfw : pfw = s.pfwHigh
  now : now = s.now
  set : set = s.maint.settings
  slen : slen = Config.entries
  dlen : dlen = 4
  map : mapWf map = true
  faults : FaultsOk faults
  mode : ModeOk mode held drain phase fmt
  space : SpaceOk phase nfree boost cond
  en : EnC w st lru queue bat dies wh

/-- What every operation of an event that began in `s` keeps: the queue, the PFW level, the clock and the settings are those of `s`, and
the invariants hold. -/
abbrev Ok (s : State) (w : Due) (u : State) : Prop :=
  OkC s (u.mode != .unformatted) u.rstLow u.pending u.pfwHigh u.now u.maint.settings u.staging.length u.dies.length u.lineMap u.maint.faults u.mode
    u.heldReadOnly u.drainRunning u.mount.phase u.format.isSome u.freeList.length u.boost u.reclaimCond w u.staging u.lru
    u.commit.queue u.commit.batch u.dies u.withheld u.blocks u.freeList u.commit.head u.reclaim.head u.reclaim.victim
    u.reclaim.reloc u.reclaim.retireWait u.ident.queue u.ident.update u.mount.findings u.mount.cands u.diesInUse u.ident.retired
    u.regions u.host.access

variable {s t u : State} {w : Due}

/-! ### Shared operations -/

theorem foldl_ok {α : Type} (f : State → α → State) (hf : ∀ t a, Ok s w t → Ok s w (f t a)) (l : List α) (h : Ok s w t) :
    Ok s w (l.foldl f t) := by
  induction l generalizing t with
  | nil => exact h
  | cons a l ih => exact ih (hf t a h)

theorem raise_ok (k : FaultKind) (x : Subject) (h : Ok s w t) : Ok s w (raise k x t) :=
  { h with faults := faultsAfter_bounds _ _ _ h.faults }

/-- An entry changes where it is, and the stamps leave room for what it then is. -/
theorem setEntry_ok (i : Nat) (e : Entry) (he : e.state = (entryAt t i).state)
    (hs : w.wf = true → StC (t.staging.set i e) t.lineMap t.regions t.commit.batch (waitsEntry t.host.access) t.mount.phase
      t.mount.cands) (h : Ok s w t) : Ok s w (setEntry i e t) :=
  { h with slen := by simpa [setEntry] using h.slen, en := h.en.same i e he, stc := hs }



/-- A die's record changes: no operation more is outstanding on it. -/
theorem dieUpd_ok (d : Nat) (f : DieRec → DieRec) (hf : ∀ q, opsCount q (f (dieAt t d)).ops ≤ opsCount q (dieAt t d).ops)
    (h : Ok s w t) : Ok s w (dieUpd d f t) :=
  have hd := fun q => opsOut_set_le q (k := 0) _ (hf q)
  { h with
    dlen := by simpa [dieUpd] using h.dlen
    en := h.en.dies_le hd
    bk := h.bk.dies_le hd
    mi := h.mi.dies_le hd }

/-- Marking operations as stale leaves as many that pass a test which no stale operation passes alone. -/
theorem opsCount_markStale (q : OpRole → Bool → BlockId → Bool) (hq : ∀ r b, q r true b = true → q r false b = true)
    (p : Op → Bool) (r : DieRec) : opsCount q (r.markStale p).ops ≤ opsCount q r.ops := by
  have e : (r.markStale p).ops = r.ops.map fun op => if p op then { op with stale := true } else op := by
    cases r with
    | mk st fl q => cases fl <;> simp [DieRec.markStale, DieRec.ops]
  rw [e, opsCount, opsCount, List.countP_map]
  refine List.countP_mono_left fun op _ => ?_
  simp only [Function.comp]
  split
  · intro k
    cases hs : op.stale
    · exact hq _ _ k
    · exact k
  · exact id

theorem opsOut_markStale (q : OpRole → Bool → BlockId → Bool) (hq : ∀ r b, q r true b = true → q r false b = true)
    (p : Op → Bool) (dies : List DieRec) : opsOut q (dies.map (·.markStale p)) ≤ opsOut q dies :=
  opsOut_map_le q _ fun r => opsCount_markStale q hq p r

theorem EnC.stale {st : List Entry} {lru queue : List Nat} {b : Option Batch} {dies : List DieRec} {wh : List Nat}
    (h : EnC w st lru queue b dies wh) (p : Op → Bool) : EnC w st lru queue b (dies.map (·.markStale p)) wh :=
  { h with
    fills := fun i => by
      have := h.fills i
      have := opsOut_markStale (isFill i) (fun _ _ k => nomatch k) p dies
      omega }

theorem BkC.stale {w : Due} {force : Bool} {blocks : List (Nat × BlockRec)} {free : List BlockId} {map : List (Nat × MapEntry)}
    {dies : List DieRec} {head : Option LogHead} {bat : Option Batch} {ch : Option LogHead} {vic : Option BlockId}
    {reloc wait : List BlockId} {idq : List IdRequest} {idu : Option Update} {phase : MountPhase} {fmt : Bool}
    (h : BkC w force blocks free map dies head bat ch vic reloc wait idq idu phase fmt) (p : Op → Bool) :
    BkC w force blocks free map (dies.map (·.markStale p)) head bat ch vic reloc wait idq idu phase fmt := by
  have e := fun role k => opsOut_markStale (isErase role k) (fun _ _ c => nomatch c) p dies
  exact { h with
    erases := fun f k => by have := h.erases f k; have := e .erase k; omega
    stamps := fun f k => by have := h.stamps f k; have := e .eraseStamp k; omega
    opens := by have := h.opens; have := opsOut_markStale isOpen (fun _ _ c => nomatch c) p dies; omega
    still := fun f k => by have := h.still f k; have := e .erase k; have := e .eraseStamp k; omega }

theorem MiC.stale {w : Due} {phase : MountPhase} {fs : List (Nat × Finding)} {cands : List Candidate} {n : Nat} {retired : List BlockId}
    {dies : List DieRec} (h : MiC w phase fs cands n retired dies) (p : Op → Bool) :
    MiC w phase fs cands n retired (dies.map (·.markStale p)) :=
  { h with
    cls := fun b => by have := h.cls b; have := opsOut_markStale (isReadAt .classifyRead b) (fun _ _ c => c) p dies; omega
    scan := fun b k => h.scan b (by have := opsOut_markStale (isReadAt .scanRead b) (fun _ _ c => c) p dies; omega) }

theorem markStale_ok (p : Op → Bool) (h : Ok s w t) : Ok s w (markStale p t) :=
  { h with
    dlen := by simpa [markStale] using h.dlen
    en := h.en.stale p
    bk := h.bk.stale p
    mi := h.mi.stale p }

theorem leaveDies_ok (h : Ok s w t) : Ok s w (leaveDies t) := by
  unfold leaveDies
  split
  · exact h
  · have hd := fun q => opsOut_zipIdx_le (dies := t.dies) q (fun p : DieRec × Nat =>
      if t.diesInUse ≤ p.2 ∧ p.1.state = .ready ∧ p.1.queue = [] then { p.1 with state := .notUsed } else p.1)
      (fun r n => by dsimp only; split <;> exact le_refl _) 0
    exact { h with
      dlen := by simpa using h.dlen
      en := h.en.dies_le hd
      bk := h.bk.dies_le hd
      mi := h.mi.dies_le hd }

/-- `Ok` but for the space conditions. -/
abbrev Pre (s : State) (w : Due) (u : State) : Prop :=
  OkC s (u.mode != .unformatted) u.rstLow u.pending u.pfwHigh u.now u.maint.settings u.staging.length u.dies.length u.lineMap u.maint.faults u.mode
    u.heldReadOnly u.drainRunning u.mount.phase u.format.isSome 0 true true w u.staging u.lru
    u.commit.queue u.commit.batch u.dies u.withheld u.blocks u.freeList u.commit.head u.reclaim.head u.reclaim.victim
    u.reclaim.reloc u.reclaim.retireWait u.ident.queue u.ident.update u.mount.findings u.mount.cands u.diesInUse u.ident.retired
    u.regions u.host.access

theorem OkC.pre (h : Ok s w t) : Pre s w t := { h with space := fun _ => by simp [Config.lowWater, Config.highWater] }

theorem reconsiderSpace_space (ph : MountPhase) (t : State) :
    SpaceOk ph (reconsiderSpace t).freeList.length (reconsiderSpace t).boost (reconsiderSpace t).reclaimCond := by
  refine fun _ => ⟨?_, ?_, ?_⟩
  · show decide (t.freeList.length ≤ 6) = true ↔ t.freeList.length ≤ 6
    exact decide_eq_true_iff
  · intro h'
    have h' : t.freeList.length ≤ 12 := h'
    simp [reconsiderSpace, freeCount, h']
  · intro h'
    have h' : 20 ≤ t.freeList.length := h'
    have : ¬ t.freeList.length ≤ 12 := by omega
    simp [reconsiderSpace, freeCount, this, h']

theorem setSpace_space (ph : MountPhase) (t : State) :
    SpaceOk ph (setSpace t).freeList.length (setSpace t).boost (setSpace t).reclaimCond := by
  refine fun _ => ⟨decide_eq_true_iff, fun h => decide_eq_true_iff.2 h, fun h => decide_eq_false_iff_not.2 fun k => ?_⟩
  have h' : 20 ≤ t.freeList.length := h
  have k' : t.freeList.length ≤ 12 := k
  omega

theorem reconsiderSpace_ok (h : Pre s w t) : Ok s w (reconsiderSpace t) :=
  { h with space := reconsiderSpace_space _ _ }

/-- `Ok` but for the held READ-ONLY flag and whether the erases outstanding are accounted for. -/
abbrev HOk (force : Bool) (s : State) (w : Due) (u : State) : Prop :=
  OkC s force u.rstLow u.pending u.pfwHigh u.now u.maint.settings u.staging.length u.dies.length u.lineMap u.maint.faults u.mode
    false u.drainRunning u.mount.phase u.format.isSome u.freeList.length u.boost u.reclaimCond w u.staging u.lru
    u.commit.queue u.commit.batch u.dies u.withheld u.blocks u.freeList u.commit.head u.reclaim.head u.reclaim.victim
    u.reclaim.reloc u.reclaim.retireWait u.ident.queue u.ident.update u.mount.findings u.mount.cands u.diesInUse u.ident.retired
    u.regions u.host.access

theorem OkC.unheld (h : Ok s w t) : HOk (t.mode != .unformatted) s w t :=
  { h with mode := ⟨h.mode.1, h.mode.2.1, h.mode.2.2.1, fun k => nomatch k⟩ }

theorem raise_hok {force : Bool} (k : FaultKind) (x : Subject) (h : HOk force s w t) : HOk force s w (raise k x t) :=
  { h with faults := faultsAfter_bounds _ _ _ h.faults }

theorem markStale_hok {force : Bool} (p : Op → Bool) (h : HOk force s w t) : HOk force s w (markStale p t) :=
  { h with
    dlen := by simpa [markStale] using h.dlen
    en := h.en.stale p
    bk := h.bk.stale p
    mi := h.mi.stale p }

/-- A block's counts change, but not its state, its valid count or its work. -/
theorem blockUpd_ok (b : BlockId) (f : BlockRec → BlockRec)
    (hf : ∀ r, (f r).state = r.state ∧ (f r).valid = r.valid ∧ (f r).work = r.work) (h : Ok s w t) : Ok s w (blockUpd b f t) := by
  unfold blockUpd
  split
  · rename_i r hr
    exact { h with bk := h.bk.same hr _ (hf r).1 (hf r).2.1 (hf r).2.2 }
  · exact h



/-- A stamped block becomes FREE and joins the free list. -/
theorem joinFree_ok {b : BlockId} {r : BlockRec} (hr : blockGet t b = some r) (hs : r.state = .erasing) (hw : r.work = .stampOut)
    (hv : r.valid = 0)
    (hz : ∀ role, (role = .erase ∨ role = .eraseStamp) →
      opsOut (isErase role (blockKey b)) t.dies + opsCount (isErase role (blockKey b)) w.ops = 0)
    (h : Ok s w t) : Ok s w (joinFree b t) := by
  unfold joinFree
  dsimp only
  rw [blockUpd_eq]
  have e : updAt (blockKey b) (fun r => { r with state := .free, valid := 0, closeSeq := none, work := .none }) t.blocks =
      keyPut (blockKey b) { r with state := .free, valid := 0, closeSeq := none, work := .none } t.blocks := by
    unfold updAt; rw [show keyGet (blockKey b) t.blocks = some r from hr]
  rw [e]
  exact reconsiderSpace_ok { h.pre with
    bk := h.bk.join hr hs hw hv hz _ rfl rfl rfl fun k => count_freeInsert _ b _ k }

/-- The front block is taken: its record is in the state asked for. -/
theorem takeFront_ok {st : BlockState} {b : BlockId} (hst : st = .hostHead ∨ st = .copyHead) (e : takeFront st t = some (b, u))
    (h : Ok s w t) :
    Ok s w u ∧ recIs u.blocks (blockKey b) (·.state == st) = 1 ∧ u.commit = t.commit ∧ u.reclaim = t.reclaim ∧
      u.mount = t.mount ∧ u.format = t.format := by
  unfold takeFront at e
  split at e
  · cases e
  · rename_i l hl
    cases e
    have hb := h.bk
    rw [hl] at hb
    obtain ⟨r, hr, hk, hi⟩ := hb.take st hst
    have e : blockUpd b (fun r => { r with state := st }) { t with freeList := l } =
        { t with freeList := l, blocks := keyPut (blockKey b) { r with state := st } t.blocks } := by
      rw [blockUpd_eq]
      unfold updAt
      rw [hr]
    rw [e]
    exact ⟨reconsiderSpace_ok { h.pre with bk := hk }, hi, rfl, rfl, rfl, rfl⟩

/-- An entry that is not COMMITTING is none of the batch in flight. -/
theorem OkC.not_rec (h : Ok s w t) {i : Nat} (hs : (entryAt t i).state ≠ .committing) :
    ∀ b, t.commit.batch = some b → ∀ r ∈ b.recs, r.entry ≠ i := by
  intro b hb r hr c
  have k := h.en.recs i
  rw [hb] at k
  have e : isIn t.staging i .committing = 0 := if_neg hs
  rw [e] at k
  have : 0 < (batchEntries (some b)).count i := List.count_pos_iff.2 (List.mem_map.2 ⟨r, hr, c⟩)
  omega

/-- The stamps leave room for an entry that is not host-touched. -/
theorem OkC.stc_untouched (h : Ok s w t) {i : Nat} (hs : (entryAt t i).state ≠ .committing) (e : Entry) (he : e.touched = false)
    (hl : e.state = .loading → e.written = 0) (hw : w.wf = true) :
    StC (t.staging.set i e) t.lineMap t.regions t.commit.batch (waitsEntry t.host.access) t.mount.phase t.mount.cands :=
  (h.stc hw).set (fun l => by rw [pend_untouched he]; exact Nat.zero_le _)
    { clean := fun _ => he
      loading := fun c k => absurd (hl c) k
      line := fun c => by rw [he] at c; cases c
      mount := fun _ => he } fun b hb r hr c => absurd c (h.not_rec hs b hb r hr)

/-- A line's stamps leave room for one more (R135), once the mount is over. -/
def Room (t : State) (line : Nat) : Prop :=
  t.mount.phase = .done ∧
    (onceIn t.regions line = true → stampsOf t.lineMap line + pendingIn t.staging line + 1 ≤ Config.stampsMax)

/-- The stamps leave room for an entry that becomes host-touched. -/
theorem OkC.stc_room (h : Ok s w t) {i line : Nat} (hs : (entryAt t i).state ≠ .committing) (e : Entry) (hl : e.line = some line)
    (hr : Room t line) (hc : e.state ≠ .clean) (ht : e.touched = true) (hw : w.wf = true) :
    StC (t.staging.set i e) t.lineMap t.regions t.commit.batch (waitsEntry t.host.access) t.mount.phase t.mount.cands :=
  (h.stc hw).touched hl (fun c => (hr.2 c).trans (Nat.le_add_right _ _))
    { clean := fun c => absurd c hc
      loading := fun _ _ => ht
      line := fun _ => by rw [hl]; rfl
      mount := fun c => absurd hr.1 c } fun b hb r hr' c => h.not_rec hs b hb r hr' c

/-- The stamps leave room for an entry that stays host-touched, or stays not. -/
theorem OkC.stc_same (h : Ok s w t) {i : Nat} (e : Entry) (hl : e.line = (entryAt t i).line) (ht : e.touched = (entryAt t i).touched)
    (hs : (entryAt t i).state = .loading ∨ (entryAt t i).state = .dirty ∨ (entryAt t i).state = .committing)
    (hc : e.state ≠ .clean) (hld : e.state = .loading → e.written ≠ 0 → e.touched = true) (hw : w.wf = true) :
    StC (t.staging.set i e) t.lineMap t.regions t.commit.batch (waitsEntry t.host.access) t.mount.phase t.mount.cands :=
  have k := (h.stc hw).entries i
  (h.stc hw).set (fun l => pend_same l hl ht hs)
    { clean := fun c => absurd c hc
      loading := hld
      line := by rw [hl, ht]; exact k.line
      mount := by rw [ht]; exact k.mount } fun _ _ _ _ _ => ⟨hl, ht⟩

/-- The stamps leave room for an entry that is linked. -/
theorem OkC.stc_link (h : Ok s w t) (i : Nat) (x : Option Nat) (hw : w.wf = true) :
    StC (t.staging.set i { entryAt t i with newer := x }) t.lineMap t.regions t.commit.batch (waitsEntry t.host.access) t.mount.phase
      t.mount.cands :=
  have k := (h.stc hw).entries i
  (h.stc hw).set (fun _ => le_refl _) ⟨k.clean, k.loading, k.line, k.mount⟩ fun _ _ _ _ _ => ⟨rfl, rfl⟩

/-- The read-fill of an entry is the operation about to be issued. -/
theorem OkC.fill_op {op : Op} {i : Nat} (h : Ok s (w.fill i) t) (hr : op.role = .readFill i) (hs : op.stale = false) :
    Ok s (w.op op) t :=
  { h with
    en := h.en.fill_op hr hs
    bk := BkC.other (w := w.bare) h.bk (by simp [hr]) (by simp [hr]) (by simp [hr])
    mi := MiC.other (w := w.bare) h.mi (by simp [hr]) (by simp [hr]) }

/-- A read-fill is answered: its entry's fetch is on its way. -/
theorem OkC.op_fill {op : Op} {i : Nat} (h : Ok s (w.op op) t) (hr : op.role = .readFill i) (hs : op.stale = false) :
    Ok s (w.fill i) t :=
  { h with
    en := h.en.op_fill hr hs
    bk := BkC.drop_op (w := w.bare) h.bk
    mi := MiC.drop_op (w := w.bare) h.mi }

/-- What `allocate` gives: an entry of the buffer that is FREE; no line has more pending. -/
theorem allocate_ok {i : Nat} (e : allocate t = some (i, u)) (h : Ok s w t) :
    Ok s w u ∧ i < u.staging.length ∧ (entryAt u i).state = .free ∧ u.regions = t.regions ∧ u.lineMap = t.lineMap ∧
      u.mount = t.mount ∧ ∀ l, pendingIn u.staging l ≤ pendingIn t.staging l := by
  unfold allocate at e
  split at e
  · rename_i j hj
    cases e
    unfold lowestFree findEntry at hj
    have k := List.find?_some hj
    have m := List.mem_of_find?_eq_some hj
    have hl := h.slen
    simp only [List.mem_range] at m
    exact ⟨h, by omega, by simpa using k, rfl, rfl, rfl, fun _ => le_refl _⟩
  · split at e
    · rename_i k l hl
      cases e
      have := h.en
      rw [hl] at this
      have hc : (entryAt t i).state = .clean := isIn_pos (by rw [← this.lru, count_cons_nat]; simp)
      obtain ⟨hi, hen⟩ := this.evict Entry.cleared rfl
      refine ⟨{ h with slen := by simpa [setEntry] using h.slen, en := hen, stc := ?_ }, by simpa [setEntry] using hi, ?_, rfl, rfl,
        rfl, fun l => pendingIn_set_le (by rw [pend_untouched rfl]; exact Nat.zero_le _)⟩
      · exact h.stc_untouched (by rw [hc]; simp) _ rfl (fun c => nomatch c)
      · simp [entryAt, setEntry, List.getD_eq_getElem?_getD, hi, Entry.cleared]
    · cases e

/-! ### Ops -/

theorem takeFree_ok (n : Nat) (hk : Ok s w t) : Ok s w (takeFree n t) := by
  unfold takeFree
  repeat' first
    | with_reducible assumption

theorem untrack_ok (i : Nat) (hk : Ok s w t) : Ok s w (untrack i t) := by
  unfold untrack
  repeat' first
    | with_reducible assumption

theorem OkC.drop_fill {i : Nat} (h : Ok s (w.fill i) t) : Ok s w t := { h with en := h.en.drop_fill }

theorem OkC.drop_op {op : Op} (h : Ok s (w.op op) t) : Ok s w t :=
  { h with en := h.en.drop_op, bk := BkC.drop_op (w := w.bare) h.bk, mi := MiC.drop_op (w := w.bare) h.mi }

/-- An entry whose read-fill is on its way is LOADING. -/
theorem OkC.fill_state {i : Nat} (h : Ok s (w.fill i) t) : (entryAt t i).state = .loading := h.en.filled.2

theorem freeEntry_fill (i : Nat) (h : Ok s (w.fill i) t) : Ok s w (freeEntry i t) :=
  untrack_ok i { h with
    slen := by simpa [setEntry] using h.slen
    en := h.en.fill_free _ rfl
    stc := h.stc_untouched (by rw [h.fill_state]; simp) _ rfl (fun c => nomatch c) }

theorem cleanEntry_fill (i : Nat) (data : LineData) (h : Ok s (w.fill i) t) : Ok s w (cleanEntry i data t) :=
  untrack_ok i { h with
    slen := by simpa [setEntry] using h.slen
    en := h.en.fill_clean _ rfl
    stc := h.stc_untouched (by rw [h.fill_state]; simp) _ rfl (fun c => nomatch c) }

/-- A FREE entry becomes DIRTY. -/
theorem dirtyEntry_free (i : Nat) (e : Entry) (hi : i < t.staging.length) (hs : (entryAt t i).state = .free)
    (he : w.wf = true → e.touched = false ∨ ∃ line, e.line = some line ∧ e.touched = true ∧ Room t line) (h : Ok s w t) :
    Ok s w (dirtyEntry i e t) :=
  have hn : (entryAt t i).state ≠ .committing := by rw [hs]; simp
  { h with
    slen := by simpa [dirtyEntry, setEntry] using h.slen
    en := h.en.free_dirty hi hs _ rfl
    stc := fun hw => by
      rcases he hw with he | ⟨line, hl, ht, hr⟩
      · exact h.stc_untouched hn _ he (fun c => nomatch c) hw
      · exact h.stc_room hn _ hl hr (fun c => nomatch c) ht hw }

/-- An entry whose read-fill is answered becomes DIRTY; it is host-touched only if it was. -/
theorem dirtyEntry_fill (i : Nat) (e : Entry)
    (he : w.wf = true → e.touched = false ∨ (e.line = (entryAt t i).line ∧ e.touched = (entryAt t i).touched))
    (h : Ok s (w.fill i) t) : Ok s w (dirtyEntry i e t) :=
  { h with
    slen := by simpa [dirtyEntry, setEntry] using h.slen
    en := h.en.fill_dirty _ rfl
    stc := fun hw => by
      rcases he hw with he | ⟨hl, ht⟩
      · exact h.stc_untouched (by rw [h.fill_state]; simp) _ he (fun c => nomatch c) hw
      · exact h.stc_same _ hl ht (.inl h.fill_state) (fun c => nomatch c) (fun c => nomatch c) hw }

/-- A CLEAN entry leaves the LRU order and becomes DIRTY. -/
theorem dirtyEntry_clean (i : Nat) (e : Entry) (hs : (entryAt t i).state = .clean)
    (he : w.wf = true → e.touched = false ∨ ∃ line, e.line = some line ∧ e.touched = true ∧ Room t line) (h : Ok s w t) :
    Ok s w (dirtyEntry i e { t with lru := t.lru.filter (· != i) }) :=
  have hn : (entryAt t i).state ≠ .committing := by rw [hs]; simp
  { h with
    slen := by simpa [dirtyEntry, setEntry] using h.slen
    en := h.en.clean_dirty hs _ rfl
    stc := fun hw => by
      rcases he hw with he | ⟨line, hl, ht, hr⟩
      · exact h.stc_untouched hn _ he (fun c => nomatch c) hw
      · exact h.stc_room hn _ hl hr (fun c => nomatch c) ht hw }

/-- A FREE entry becomes LOADING, its read-fill about to be issued. -/
theorem setLoading_ok (i line : Nat) (data : LineData) (written : OffsetSet) (touched : Bool) (hi : i < t.staging.length)
    (hs : (entryAt t i).state = .free) (he : w.wf = true → (touched = false ∧ written = 0) ∨ (touched = true ∧ Room t line)) (h : Ok s w t) :
    Ok s (w.fill i) (setEntry i (loadingEntry line data written touched) t) :=
  have hn : (entryAt t i).state ≠ .committing := by rw [hs]; simp
  { h with
    slen := by simpa [setEntry] using h.slen
    en := h.en.free_loading hi hs _ rfl
    stc := fun hw => by
      rcases he hw with ⟨he, h0⟩ | ⟨ht, hr⟩
      · exact h.stc_untouched hn _ he (fun _ => h0) hw
      · exact h.stc_room hn _ rfl hr (fun c => nomatch c) ht hw }

theorem gainValid_eq (loc : Loc) (t : State) : gainValid loc t = { t with blocks := shiftAt (· + 1) (some loc) t.blocks } :=
  blockUpd_eq _ _ _

theorem loseOld_shift (old : Option Loc) (t : State) : loseOld old t = { t with blocks := shiftAt (· - 1) old t.blocks } := by
  cases old with
  | none => rfl
  | some l => exact blockUpd_eq _ _ _

/-- A line's map entry changes, with the valid counts of the blocks of its old and new locations. -/
theorem mapped_ok (line : Nat) (e : MapEntry) {old : Option Loc} (ho : (mapGet t line).state.loc = old)
    (hnew : ∀ l, e.state.loc = some l → ∃ r, keyGet (blockKey (blockOf l)) t.blocks = some r ∧ r.isEmpty = false)
    (hs : w.wf = true → StC t.staging (mapPut line e t.lineMap) t.regions t.commit.batch (waitsEntry t.host.access) t.mount.phase
      t.mount.cands) (h : Ok s w t) :
    Ok s w { t with
      blocks := shiftAt (· + 1) e.state.loc (shiftAt (· - 1) old t.blocks)
      lineMap := mapPut line e t.lineMap } := by
  have k := h.bk.remap h.map line e hnew
  rw [show ((keyGet line t.lineMap).getD MapEntry.empty).state.loc = old from ho] at k
  exact { h with map := mapPut_wf line e h.map, bk := k, stc := hs }

/-- A record of a batch on the host head's block reaches the map (R14). -/
theorem commitToMap_ok (line : Nat) (kind : RecKind) (seq stamps : Nat) (loc : Loc) {x : LogHead} (hx : t.commit.head = some x)
    (hb : x.block = blockOf loc) (hn : t.commit.batch = none)
    (hs : w.wf = true → stamps ≤ Config.stampsMax ∧
      (onceIn t.regions line = true → stamps + pendingIn t.staging line ≤ Config.stampsMax))
    (h : Ok s w t) : Ok s w (commitToMap line kind seq stamps loc t) := by
  have hr : ∃ r, keyGet (blockKey (blockOf loc)) t.blocks = some r ∧ r.isEmpty = false := by
    obtain ⟨r, hr, _, hi⟩ := h.bk.fills (x := x) (st := .hostHead) (.inl ⟨rfl, hx⟩)
    rw [hb] at hr
    exact ⟨r, hr, hi⟩
  unfold commitToMap
  dsimp only
  rw [gainValid_eq, loseOld_shift]
  cases kind
  · exact mapped_ok line ⟨.present loc seq, stamps⟩ rfl (fun l hl => by cases hl; exact hr)
      (fun hw => (h.stc hw).remap h.map line _ (hs hw).1 (hs hw).2 (.inr hn)) h
  · exact mapped_ok line ⟨.trimmed loc seq, stamps⟩ rfl (fun l hl => by cases hl; exact hr)
      (fun hw => (h.stc hw).remap h.map line _ (hs hw).1 (hs hw).2 (.inr hn)) h

/-- A record of a copy group on the copy head's block reaches the map (R15). -/
theorem copyToMap_ok (line : Nat) (source dest : Loc) {x : LogHead} (hx : t.reclaim.head = some x) (hb : x.block = blockOf dest)
    (h : Ok s w t) : Ok s w (copyToMap line source dest t) := by
  have hr : ∃ r, keyGet (blockKey (blockOf dest)) t.blocks = some r ∧ r.isEmpty = false := by
    obtain ⟨r, hr, _, hi⟩ := h.bk.fills (x := x) (st := .copyHead) (.inr ⟨rfl, hx⟩)
    rw [hb] at hr
    exact ⟨r, hr, hi⟩
  unfold copyToMap
  split
  · rename_i hn
    have hn : (mapGet t line).state.loc = some source := by simpa [namesSlot] using hn
    dsimp only
    rw [show loseValid source t = loseOld (some source) t from rfl, gainValid_eq, loseOld_shift]
    cases he : (mapGet t line).state with
    | present l q =>
      exact mapped_ok line ⟨.present dest q, (mapGet t line).stamps⟩ hn (fun l hl => by cases hl; exact hr)
        (fun hw => (h.stc hw).keep h.map line _ rfl) h
    | trimmed l q =>
      exact mapped_ok line ⟨.trimmed dest q, (mapGet t line).stamps⟩ hn (fun l hl => by cases hl; exact hr)
        (fun hw => (h.stc hw).keep h.map line _ rfl) h
    | unwritten => rw [he] at hn; cases hn
    | damaged => rw [he] at hn; cases hn
  · exact h

theorem refreshClean_ok (i : Nat) (hs : (entryAt t i).state = .clean) (h : Ok s w t) : Ok s w (refreshClean i t) :=
  dirtyEntry_clean i _ hs (fun hw => .inl (((h.stc hw).entries i).clean hs)) h

/-- A line's record is lost: the line is DAMAGED. -/
theorem damaged_ok (line : Nat) (loc : Loc) (hn : namesSlot t line loc = true) (h : Ok s w t) :
    Ok s w (mapSet line { mapGet t line with state := .damaged } (loseValid loc t)) := by
  have hn : (mapGet t line).state.loc = some loc := by simpa [namesSlot] using hn
  rw [show loseValid loc t = loseOld (some loc) t from rfl, loseOld_shift]
  exact mapped_ok line ⟨.damaged, (mapGet t line).stamps⟩ hn (fun l hl => nomatch hl)
    (fun hw => (h.stc hw).keep h.map line _ rfl) h

theorem lostGrading_ok (line : Nat) (loc : Loc) (h : Ok s w t) : Ok s w (lostGrading line loc t) := by
  unfold lostGrading
  dsimp only
  split
  · rename_i hn
    have k := damaged_ok (t := raise .uncorrectable (.line line) t) line loc hn (raise_ok .uncorrectable (.line line) h)
    split
    · split
      · exact refreshClean_ok _ (by assumption) k
      · exact k
    · exact k
  · exact raise_ok _ _ h

theorem countReader_ok (op : Op) (f : Nat → Nat) (h : Ok s w t) : Ok s w (countReader op f t) := by
  unfold countReader
  split
  · exact blockUpd_ok _ _ (fun _ => ⟨rfl, rfl, rfl⟩) h
  · exact h

theorem enqueue_dies (op : Op) (t : State) :
    (enqueue op t).dies =
      t.dies.set op.block.die
        { dieAt t op.block.die with queue := (dieAt t op.block.die).queue ++ [{ op with ticket := t.ticket }] } := by
  unfold enqueue countReader blockUpd
  split
  · split <;> rfl
  · rfl

theorem enqueue_ops (op : Op) (t : State) (q : OpRole → Bool → BlockId → Bool) :
    opsOut q (enqueue op t).dies ≤ opsOut q t.dies + opsCount q [op] := by
  rw [enqueue_dies]
  refine opsOut_set_le q _ ?_
  simp only [DieRec.ops, ← List.append_assoc]
  rw [opsCount_append]
  exact le_refl _

/-- The operation on its way enters its die's queue. -/
theorem enqueue_ok (op : Op) (h : Ok s (w.op op) t) : Ok s w (enqueue op t) := by
  have hd := fun q => by
    have k1 := enqueue_ops op t q
    rwa [enqueue_dies] at k1
  have k : Ok s w (dieUpd op.block.die (fun d => { d with queue := d.queue ++ [{ op with ticket := t.ticket }] }) t) :=
    { h with
      dlen := by simpa [dieUpd] using h.dlen
      en := h.en.issued hd
      bk := BkC.issued (w := w.bare) h.bk hd
      mi := MiC.issued (w := w.bare) h.mi hd }
  exact countReader_ok _ _ k

/-- An operation that no part of the invariant speaks of. -/
def OpRole.plain : OpRole → Bool
  | .readFill _ | .hostOpenStamp | .erase | .eraseStamp | .classifyRead | .scanRead => false
  | _ => true

theorem OkC.plain {op : Op} (h : Ok s w t) (hop : op.role.plain = true) : Ok s (w.op op) t :=
  { h with
    en := h.en.other (by
      revert hop
      cases op.role <;> simp [OpRole.plain, OpRole.isReadFill])
    bk := BkC.other (w := w.bare) h.bk (fun c => by rw [c] at hop; cases hop) (fun c => by rw [c] at hop; cases hop)
      (fun c => by rw [c] at hop; cases hop)
    mi := MiC.other (w := w.bare) h.mi (fun c => by rw [c] at hop; cases hop) (fun c => by rw [c] at hop; cases hop) }

theorem issue_ok (op : Op) (h : Ok s (w.op op) t) : Ok s w (issue op t) := by
  unfold issue
  exact enqueue_ok op h

theorem issue_plain (op : Op) (hop : op.role.plain = true) (h : Ok s w t) : Ok s w (issue op t) := issue_ok op (h.plain hop)

theorem enqueues_ok (ops : List Op) (h : Ok s { w with ops := ops ++ w.ops } t) :
    Ok s w (ops.foldl (fun t op => enqueue op t) t) := by
  induction ops generalizing t with
  | nil => exact h
  | cons op ops ih => exact ih (enqueue_ok (w := { w with ops := ops ++ w.ops }) op h)

theorem issueTogether_ok (ops : List Op) (h : Ok s { w with ops := ops ++ w.ops } t) : Ok s w (issueTogether ops t) := by
  unfold issueTogether
  have k := enqueues_ok ops h
  exact k

theorem OkC.plains {ops : List Op} (h : Ok s w t) (hops : ∀ op ∈ ops, op.role.plain = true) :
    Ok s { w with ops := ops ++ w.ops } t := by
  induction ops with
  | nil => exact h
  | cons op ops ih =>
    exact OkC.plain (w := { w with ops := ops ++ w.ops }) (ih fun o ho => hops o (List.mem_cons_of_mem _ ho))
      (hops op List.mem_cons_self)

theorem issueTogether_plain (ops : List Op) (hops : ∀ op ∈ ops, op.role.plain = true) (h : Ok s w t) :
    Ok s w (issueTogether ops t) := issueTogether_ok ops (h.plains hops)

/-- No operation of a list made by a function that gives no read-fill is one. -/
theorem plain_map {α : Type} (l : List α) (f : α → Op) (hf : ∀ a, (f a).role.plain = true) :
    ∀ op ∈ l.map f, op.role.plain = true := by
  intro op h
  obtain ⟨a, _, rfl⟩ := List.mem_map.1 h
  exact hf a

end Sys2Proof.Machine
end

