-- ==== Sys2Proof/Laws/KeepsStaging.lean ====
section
/-! SUPPORT. What the staging buffer, the long commands and the mode controller do keeps the invariants. -/
namespace Sys2Proof.Machine

variable {s t u : State} {w : Due}

/-! ### Staging -/

theorem raiseOpt_ok (f : Option FaultKind) (line : Nat) (hk : Ok s w t) : Ok s w (raiseOpt f line t) := by
  unfold raiseOpt
  repeat' first
    | with_reducible assumption | with_reducible apply raise_ok | split

theorem raiseOpt_hok {force : Bool} (f : Option FaultKind) (line : Nat) (hk : HOk force s w t) : HOk force s w (raiseOpt f line t) := by
  unfold raiseOpt
  repeat' first
    | with_reducible assumption | with_reducible apply raise_hok | split

theorem setAccess_ok (a : Option Access) (ha : waitsEntry a = true → t.mount.phase = .done) (h : Ok s w t) :
    Ok s w (setAccess a t) :=
  { h with stc := fun hw => { h.stc hw with acc := ha } }

theorem setAccess_hok {force : Bool} (a : Option Access) (ha : waitsEntry a = true → t.mount.phase = .done) (h : HOk force s w t) :
    HOk force s w (setAccess a t) :=
  { h with stc := fun hw => { h.stc hw with acc := ha } }

theorem answer_ok (byte : Option Byte) (h : Ok s w t) : Ok s w (answer byte t) := by
  unfold answer
  split
  · exact setAccess_ok _ (fun c => nomatch c) h
  · exact h

theorem answer_hok {force : Bool} (byte : Option Byte) (h : HOk force s w t) : HOk force s w (answer byte t) := by
  unfold answer
  split
  · exact setAccess_hok _ (fun c => nomatch c) h
  · exact h

theorem waitOn_ok (why : WaitFor) (hy : why = .entry → t.mount.phase = .done) (h : Ok s w t) : Ok s w (waitOn why t) := by
  have k : ∀ (a : Access) n m, waitsEntry (some { a with phase := .waiting n m why }) = true → t.mount.phase = .done := by
    intro a n m c
    cases why <;> first | exact hy rfl | cases c
  unfold waitOn
  split
  · split
    · exact setAccess_ok _ (k _ _ _) h
    · exact setAccess_ok _ (k _ _ _) h
  · exact h

theorem issueFill_ok (i line : Nat) (loc : Loc) (seq : Nat) (h : Ok s (w.fill i) t) : Ok s w (issueFill i line loc seq t) := by
  unfold issueFill
  exact issue_ok _ (h.fill_op rfl rfl)

theorem issueDirect_ok (line : Nat) (loc : Loc) (seq : Nat) (hk : Ok s w t) : Ok s w (issueDirect line loc seq t) := by
  unfold issueDirect
  repeat' first
    | with_reducible assumption | ((with_reducible apply issue_plain); · rfl)

theorem touchLru_ok (i : Nat) (hs : (entryAt t i).state = .clean) (h : Ok s w t) : Ok s w (touchLru i t) :=
  { h with en := h.en.touch hs }

theorem answer_entryAt (byte : Option Byte) (t : State) (i : Nat) : entryAt (answer byte t) i = entryAt t i := by
  unfold answer
  split <;> rfl

theorem serveHit_ok (i line off : Nat) (h : Ok s w t) : Ok s w (serveHit i line off t) := by
  unfold serveHit
  dsimp only
  split
  · split
    · exact answer_ok _ h
    · exact waitOn_ok _ (fun c => nomatch c) h
  · rename_i hs
    exact touchLru_ok _ (by rwa [answer_entryAt]) (answer_ok _ h)
  · exact answer_ok _ h

theorem serveMiss_ok (line : Nat) (h : Ok s w t) : Ok s w (serveMiss line t) := by
  unfold serveMiss
  split
  · split
    · exact answer_ok _ h
    · split
      · rename_i e
        obtain ⟨h1, hi, hs, _⟩ := allocate_ok e h
        exact waitOn_ok _ (fun c => nomatch c) (issueFill_ok _ _ _ _
          (takeFree_ok _ (setLoading_ok _ _ _ _ _ hi hs (fun _ => .inl ⟨rfl, rfl⟩) h1)))
      · split
        · exact waitOn_ok _ (fun c => nomatch c) h
        · exact waitOn_ok _ (fun c => nomatch c) (issueDirect_ok _ _ _ h)
  · exact answer_ok _ h

theorem serveRead_ok (line off : Nat) (hk : Ok s w t) : Ok s w (serveRead line off t) := by
  unfold serveRead
  repeat' first
    | with_reducible assumption | with_reducible apply serveHit_ok | with_reducible apply serveMiss_ok
    | with_reducible apply answer_ok | split

theorem findEntry_holds {p : Entry → Bool} {i : Nat} (h : findEntry p t = some i) : p (entryAt t i) = true :=
  List.find?_some (p := fun i => p (entryAt t i)) h

/-- The current entry of a line holds the line. -/
theorem currentEntry_line {l i : Nat} (h : currentEntry t l = some i) : (entryAt t i).line = some l := by
  unfold currentEntry at h
  cases hf : findEntry (·.holds l) t with
  | some j =>
    rw [hf] at h
    cases h
    have := findEntry_holds hf
    simp only [Entry.holds, Bool.and_eq_true, beq_iff_eq] at this
    exact this.1
  | none =>
    rw [hf] at h
    have := findEntry_holds (show findEntry (·.commits l) t = some i from h)
    simp only [Entry.commits, Bool.and_eq_true, beq_iff_eq] at this
    exact this.1

/-- The acceptance test of R135 has let a write to the line pass, once the mount is over. -/
def Accepts (t : State) (line : Nat) : Prop :=
  t.mount.phase = .done ∧
    (onceIn t.regions line = true → stampsOf t.lineMap line + pendingIn t.staging line + newStamps t line ≤ Config.stampsMax)

theorem Accepts.room {line : Nat} (h : Accepts t line) (hn : newStamps t line = 1) : Room t line :=
  ⟨h.1, fun c => by have := h.2 c; rw [hn] at this; exact this⟩

/-- A host write makes a LOADING or DIRTY entry of its line host-touched. -/
theorem touched_ok {i line : Nat} (e : Entry) (hc : currentEntry t line = some i)
    (hs : (entryAt t i).state = .loading ∨ (entryAt t i).state = .dirty) (he : e.state = (entryAt t i).state)
    (hl : e.line = (entryAt t i).line) (ht : e.touched = true) (ha : w.wf = true → Accepts t line) (h : Ok s w t) :
    Ok s w (setEntry i e t) := by
  have hne : e.state ≠ .clean := by rcases hs with c | c <;> simp [he, c]
  have hnc : (entryAt t i).state ≠ .committing := by rcases hs with c | c <;> simp [c]
  refine setEntry_ok i e he (fun hw => ?_) h
  by_cases hto : (entryAt t i).touched = true
  · exact h.stc_same e hl (by rw [ht, hto]) (by rcases hs with c | c; exact .inl c; exact .inr (.inl c)) hne (fun _ _ => ht) hw
  · have hn : newStamps t line = 1 := by
      unfold newStamps
      rw [hc]
      simp [hto]
    exact h.stc_room hnc e (hl.trans (currentEntry_line hc)) ((ha hw).room hn) hne ht hw

theorem mergeHeld_ok {line off : Nat} {b : Byte} (e : mergeHeld line off b t = some u) (ha : w.wf = true → Accepts t line)
    (h : Ok s w t) : Ok s w u := by
  unfold mergeHeld at e
  split at e
  · rename_i i hc
    split at e
    · rename_i hs
      cases e
      exact touched_ok _ hc (.inl hs) rfl rfl rfl ha h
    · rename_i hs
      cases e
      have hn : newStamps t line = 1 := by
        unfold newStamps
        rw [hc]
        simp [hs]
      exact dirtyEntry_clean i _ hs (fun hw => .inr ⟨line, currentEntry_line hc, rfl, (ha hw).room hn⟩) h
    · rename_i hs
      cases e
      unfold mergeDirty
      dsimp only
      split <;> exact touched_ok _ hc (.inr hs) rfl rfl rfl ha h
    · cases e
  · cases e

/-- A line without a LOADING, CLEAN or DIRTY entry takes a new stamp (R135). -/
theorem newStamps_given {line off : Nat} {b : Byte} (e : mergeHeld line off b t = none) : newStamps t line = 1 := by
  unfold newStamps
  cases hc : currentEntry t line with
  | none => rfl
  | some i =>
    unfold mergeHeld at e
    rw [hc] at e
    dsimp only at e ⊢
    cases hs : (entryAt t i).state <;> rw [hs] at e <;> simp_all

/-- Setting an entry with its state kept leaves every state. -/
theorem setEntry_state (i j : Nat) (e : Entry) (he : e.state = (entryAt t j).state) :
    (entryAt (setEntry j e t) i).state = (entryAt t i).state := by
  by_cases hj : i = j
  · subst hj
    by_cases hl : i < t.staging.length
    · simp [entryAt, setEntry, List.getD_eq_getElem?_getD, hl, he]
    · simp [entryAt, setEntry, List.getD_eq_getElem?_getD, hl]
  · have : ¬ j = i := fun e => hj e.symm
    simp [entryAt, setEntry, List.getD_eq_getElem?_getD, this]

theorem mergeGiven_ok (i line off : Nat) (b : Byte) (hi : i < t.staging.length) (hs : (entryAt t i).state = .free)
    (hr : w.wf = true → Room t line) (h : Ok s w t) : Ok s w (mergeGiven i line off b t) := by
  unfold mergeGiven
  dsimp only
  split
  · rename_i j _
    refine dirtyEntry_free _ _ (by simpa [setEntry] using hi) ?_ (fun hw => .inr ⟨line, rfl, rfl, (hr hw).1, fun c => ?_⟩)
      (setEntry_ok _ _ rfl (h.stc_link j (some i)) h)
    · refine Eq.trans (setEntry_state _ _ _ ?_) hs
      rfl
    · have k := (hr hw).2 c
      have : pendingIn (setEntry j { entryAt t j with newer := some i } t).staging line ≤ pendingIn t.staging line :=
        pendingIn_set_le (le_refl _)
      exact le_trans (Nat.add_le_add_right (Nat.add_le_add_left this _) 1) k
  · split
    · exact issueFill_ok _ _ _ _ (takeFree_ok _ (setLoading_ok _ _ _ _ _ hi hs (fun hw => .inr ⟨rfl, hr hw⟩) h))
    · exact dirtyEntry_free _ _ hi hs (fun hw => .inr ⟨line, rfl, rfl, hr hw⟩) h

/-- The entry that `allocate` gives leaves the room there was. -/
theorem Room.given {line i : Nat} (h : Room t line) (e : allocate t = some (i, u)) (ho : Ok s w t) : Room u line := by
  obtain ⟨_, _, _, h1, h2, h3, h4⟩ := allocate_ok e ho
  refine ⟨by rw [h3]; exact h.1, fun c => ?_⟩
  rw [h1] at c
  rw [h2]
  have := h.2 c
  have := h4 line
  omega

theorem stageWrite_ok (line off : Nat) (b : Byte) (hp : t.mount.phase = .done) (ha : w.wf = true → Accepts t line) (h : Ok s w t) :
    Ok s w (stageWrite line off b t) := by
  unfold stageWrite
  split
  · exact answer_ok _ (mergeHeld_ok (by assumption) ha h)
  · rename_i hn
    split
    · rename_i e
      obtain ⟨h1, hi, hs, _⟩ := allocate_ok e h
      exact answer_ok _ (mergeGiven_ok _ _ _ _ hi hs (fun hw => ((ha hw).room (newStamps_given hn)).given e h) h1)
    · exact waitOn_ok _ (fun _ => hp) h

theorem trackFreeze_ok (line : Nat) (hk : Ok s w t) : Ok s w (trackFreeze line t) := by
  unfold trackFreeze
  repeat' first
    | with_reducible assumption | split

theorem grantWrite_ok (hp : w.wf = true → t.mount.phase = .done) (h : Ok s w t) : Ok s w (grantWrite t) := by
  unfold grantWrite
  dsimp only
  split
  · rename_i a _
    split
    · exact answer_ok _ (raise_ok _ _ h)
    · rename_i ho
      have ha : w.wf = true → Accepts t (lineOf a.addr) := fun hw => ⟨hp hw, fun c => by
        have c : isOnce t (lineOf a.addr) = true := c
        simp only [c, Bool.true_and, Bool.not_eq_true', Bool.not_eq_false] at ho
        exact of_decide_eq_true ho⟩
      split
      · exact answer_ok _ (trackFreeze_ok _ (mergeHeld_ok (by assumption) ha h))
      · rename_i hn
        split
        · rename_i e
          obtain ⟨h1, hi, hs, _⟩ := allocate_ok e h
          exact answer_ok _ (trackFreeze_ok _ (mergeGiven_ok _ _ _ _ hi hs
            (fun hw => ((ha hw).room (newStamps_given hn)).given e h) h1))
        · exact h
  · exact h

theorem answerFetch_ok (i : Nat) (hk : Ok s w t) : Ok s w (answerFetch i t) := by
  unfold answerFetch
  try dsimp only
  repeat' first
    | with_reducible assumption | with_reducible apply answer_ok | split

theorem completeTrimPending_ok (i : Nat) (h : Ok s (w.fill i) t) : Ok s w (completeTrimPending i t) := by
  unfold completeTrimPending
  dsimp only
  split
  · exact dirtyEntry_fill _ _ (fun _ => .inl rfl) h
  · rename_i hw0
    exact dirtyEntry_fill _ _ (fun hw => .inr ⟨rfl, (((h.stc hw).entries i).loading h.fill_state hw0).symm⟩) h

theorem completeGood_ok (i line : Nat) (g : Grade) (stored : LineData) (h : Ok s (w.fill i) t) :
    Ok s w (completeGood i line g stored t) := by
  unfold completeGood
  dsimp only
  split
  · exact dirtyEntry_fill _ _ (fun _ => .inr ⟨rfl, rfl⟩) h
  · split
    · exact dirtyEntry_fill _ _ (fun _ => .inr ⟨rfl, rfl⟩) h
    · exact cleanEntry_fill _ _ h

theorem completeLost_ok (i : Nat) (h : Ok s (w.fill i) t) : Ok s w (completeLost i t) := by
  unfold completeLost
  dsimp only
  split
  · exact dirtyEntry_fill _ _ (fun _ => .inr ⟨rfl, rfl⟩) h
  · exact freeEntry_fill _ h

theorem fillLost_ok (i line : Nat) (h : Ok s (w.fill i) t) : Ok s w (fillLost i line t) := by
  unfold fillLost
  split
  · exact answerFetch_ok _ (completeTrimPending_ok _ h)
  · split
    · split
      · have k : Ok s w { t with withheld := t.withheld ++ [i] } := { h with en := h.en.withhold }
        dsimp only
        split
        · exact answer_ok _ k
        · exact k
      · exact issueFill_ok _ _ _ _ h
    · exact answerFetch_ok _ (completeLost_ok _ h)

theorem onReadFill_ok (i : Nat) (op : Op) (r : SlotResult) (hop : op.role = .readFill i) (h : Ok s (w.op op) t) :
    Ok s w (onReadFill i op r t) := by
  unfold onReadFill
  have hw : ∀ {u}, ¬ op.stale = true → Ok s (w.op op) u → Ok s (w.fill i) u := fun hs k =>
    k.op_fill hop (by simpa using hs)
  split
  · split
    · exact h.drop_op
    · rename_i hs
      split
      · exact answerFetch_ok _ (completeTrimPending_ok _ (hw hs h))
      · exact answerFetch_ok _ (completeGood_ok _ _ _ _ (hw hs h))
  · dsimp only
    split
    · exact lostGrading_ok _ _ h.drop_op
    · rename_i hs
      exact fillLost_ok _ _ (lostGrading_ok _ _ (hw hs h))

theorem fillLosts_ok (g : State → Nat → Nat) (l : List Nat) (h : Ok s { w with fills := l ++ w.fills } t) :
    Ok s w (l.foldl (fun t i => fillLost i (g t i) t) t) := by
  induction l generalizing t with
  | nil => exact h
  | cons i l ih => exact ih (fillLost_ok (w := { w with fills := l ++ w.fills }) i _ h)

theorem issueFills_ok (l : List Nat) (r : Nat → Option Op) (hr : ∀ i op, r i = some op → op.role = .readFill i ∧ op.stale = false)
    (h : Ok s { w with fills := (l.filter fun i => (r i).isSome) ++ w.fills } t) :
    Ok s w ((l.filterMap r).foldl (fun t op => enqueue op t) t) := by
  induction l generalizing t with
  | nil => exact h
  | cons i l ih =>
    cases e : r i with
    | none =>
      rw [List.filterMap_cons_none e]
      rw [List.filter_cons_of_neg (by simp [e])] at h
      exact ih h
    | some op =>
      rw [List.filterMap_cons_some e, List.foldl_cons]
      rw [List.filter_cons_of_pos (by simp [e])] at h
      have k : Ok s { w with fills := i :: ((l.filter fun i => (r i).isSome) ++ w.fills) } t := h
      exact ih (enqueue_ok (w := { w with fills := (l.filter fun i => (r i).isSome) ++ w.fills }) op
        (OkC.fill_op (w := { w with fills := (l.filter fun i => (r i).isSome) ++ w.fills }) k (hr i op e).1 (hr i op e).2))

theorem withheldRead_role {i : Nat} {op : Op} (h : withheldRead t i = some op) :
    op.role = .readFill i ∧ op.stale = false := by
  unfold withheldRead at h
  dsimp only at h
  split at h
  · cases h; exact ⟨rfl, rfl⟩
  · cases h

theorem OkC.fills_le {l : List Nat} (h : Ok s w t) (hl : ∀ j, l.count j ≤ w.fills.count j) : Ok s { w with fills := l } t :=
  { h with en := h.en.fills_le hl }

theorem count_split (p : Nat → Bool) (l : List Nat) (j : Nat) :
    (l.filter p).count j + (l.filter fun i => !p i).count j = l.count j := by
  induction l with
  | nil => rfl
  | cons a l ih =>
    rw [List.count_cons]
    cases hp : p a <;> simp [hp, List.count_cons] <;> omega

theorem issueWithheld_ok (h : Ok s w t) : Ok s w (issueWithheld t) := by
  unfold issueWithheld
  dsimp only
  generalize hr : withheldRead t = r
  have role : ∀ i op, r i = some op → op.role = .readFill i ∧ op.stale = false := fun i op k => withheldRead_role (by rw [hr]; exact k)
  have h1 : Ok s { w with fills := t.withheld ++ w.fills } { t with withheld := [] } := { h with en := h.en.released }
  have h2 : Ok s { w with fills := (t.withheld.filter fun i => (r i).isNone) ++
      ((t.withheld.filter fun i => (r i).isSome) ++ w.fills) } { t with withheld := [] } := by
    refine h1.fills_le fun j => ?_
    have e : (t.withheld.filter fun i => (r i).isNone) = t.withheld.filter fun i => !(r i).isSome := by
      congr 1; funext i; cases r i <;> rfl
    rw [e]
    have := count_split (fun i => (r i).isSome) t.withheld j
    simp only [List.count_append] at this ⊢
    omega
  have h3 := fillLosts_ok (w := { w with fills := (t.withheld.filter fun i => (r i).isSome) ++ w.fills })
    (fun t i => (entryAt t i).line.getD 0) _ h2
  split
  · exact h3.fills_le (l := w.fills) fun j => by simp
  · exact issueFills_ok _ _ role h3

theorem serveWaiting_ok (hk : Ok s w t) : Ok s w (serveWaiting t) := by
  unfold serveWaiting
  repeat' first
    | with_reducible assumption | with_reducible apply serveRead_ok | split

theorem onDirectRead_ok (op : Op) (r : SlotResult) (hk : Ok s w t) : Ok s w (onDirectRead op r t) := by
  unfold onDirectRead
  try dsimp only
  repeat' first
    | with_reducible assumption | with_reducible apply answer_ok | with_reducible apply serveWaiting_ok
    | with_reducible apply lostGrading_ok | (with_reducible apply waitOn_ok; · exact fun c => nomatch c)
    | with_reducible apply issueDirect_ok | split

theorem trimNext_ok (hk : Ok s w t) : Ok s w (trimNext t) := by
  unfold trimNext
  repeat' first
    | with_reducible assumption

theorem trimTrack_ok (i : Nat) (hk : Ok s w t) : Ok s w (trimTrack i t) := by
  unfold trimTrack
  repeat' first
    | with_reducible assumption

theorem trimHeld_ok {i line : Nat} (e : trimHeld i line t = some u) (h : Ok s w t) : Ok s w u := by
  unfold trimHeld at e
  dsimp only at e
  split at e
  · cases e; exact dirtyEntry_clean _ _ (by assumption) (fun _ => .inl rfl) h
  · rename_i hs
    cases e
    exact setEntry_ok _ _ rfl (h.stc_untouched (by rw [hs]; simp) _ rfl fun c => by
      have c : (entryAt t i).state = .loading := c
      rw [hs] at c
      cases c) h
  · rename_i hs
    cases e
    exact answerFetch_ok _ (setEntry_ok _ _ rfl (h.stc_untouched (by rw [hs]; simp) _ rfl fun _ => rfl) h)
  · cases e

theorem trimGiven_ok (i line : Nat) (hi : i < t.staging.length) (hs : (entryAt t i).state = .free) (h : Ok s w t) :
    Ok s w (trimGiven i line t) := by
  unfold trimGiven
  split
  · rename_i j _
    refine dirtyEntry_free _ _ (by simpa [setEntry] using hi) ?_ (fun _ => .inl rfl) (setEntry_ok _ _ rfl (h.stc_link j (some i)) h)
    refine Eq.trans (setEntry_state _ _ _ ?_) hs
    rfl
  · exact dirtyEntry_free _ _ hi hs (fun _ => .inl rfl) h

theorem trimAct_ok (h : Ok s w t) : Ok s w (trimAct t) := by
  unfold trimAct
  dsimp only
  split
  · exact trimNext_ok h
  · split
    · rename_i i u e
      obtain ⟨j, hj, e⟩ := Option.bind_eq_some_iff.1 e
      obtain ⟨v, hv, e⟩ := Option.map_eq_some_iff.1 e
      cases e
      exact trimNext_ok (trimTrack_ok _ (trimHeld_ok hv h))
    · split
      · rename_i e
        obtain ⟨h1, hi, hs, _⟩ := allocate_ok e h
        exact trimNext_ok (trimTrack_ok _ (trimGiven_ok _ _ hi hs h1))
      · exact h

/-! ### LongCommands -/

theorem completeLong_ok (r : Result) (hk : Ok s w t) : Ok s w (completeLong r t) := by
  unfold completeLong
  repeat' first
    | with_reducible assumption | split

theorem completeLong_hok {force : Bool} (r : Result) (hk : HOk force s w t) : HOk force s w (completeLong r t) := by
  unfold completeLong
  repeat' first
    | with_reducible assumption | split

theorem scrubIdle_ok (hk : Ok s w t) : Ok s w (scrubIdle t) := by
  unfold scrubIdle
  repeat' first
    | with_reducible assumption | with_reducible apply markStale_ok

theorem scrubIdle_hok {force : Bool} (hk : HOk force s w t) : HOk force s w (scrubIdle t) := by
  unfold scrubIdle
  repeat' first
    | with_reducible assumption | with_reducible apply markStale_hok

theorem scrubEnd_ok (r : Result) (hk : Ok s w t) : Ok s w (scrubEnd r t) := by
  unfold scrubEnd
  repeat' first
    | with_reducible assumption | with_reducible apply completeLong_ok | with_reducible apply scrubIdle_ok

theorem scrubEnd_hok {force : Bool} (r : Result) (hk : HOk force s w t) : HOk force s w (scrubEnd r t) := by
  unfold scrubEnd
  repeat' first
    | with_reducible assumption | with_reducible apply completeLong_hok | with_reducible apply scrubIdle_hok

theorem scrubAt_ok (line : Nat) (hk : Ok s w t) : Ok s w (scrubAt line t) := by
  unfold scrubAt
  repeat' first
    | with_reducible assumption

theorem scrubDecide_ok (n : Nat) (h : Ok s w t) : Ok s w (scrubDecide n t) := by
  induction n generalizing t with
  | zero => exact h
  | succ n ih =>
    unfold scrubDecide
    split
    · exact issue_plain _ rfl h
    · split
      · exact scrubEnd_ok _ (scrubAt_ok _ h)
      · exact ih (scrubAt_ok _ h)

theorem scrubDecideNow_ok (hk : Ok s w t) : Ok s w (scrubDecideNow t) := by
  unfold scrubDecideNow
  repeat' first
    | with_reducible assumption | with_reducible apply scrubDecide_ok

theorem scrubLineDone_ok (hk : Ok s w t) : Ok s w (scrubLineDone t) := by
  unfold scrubLineDone
  try dsimp only
  repeat' first
    | with_reducible assumption | with_reducible apply scrubEnd_ok | with_reducible apply scrubAt_ok
    | with_reducible apply scrubDecideNow_ok | split

theorem scrubWeak_ok (payload : LineData) (h : Ok s w t) : Ok s w (scrubWeak payload t) := by
  unfold scrubWeak
  dsimp only
  split
  · split
    · split
      · exact scrubLineDone_ok (refreshClean_ok _ (by assumption) h)
      · exact scrubLineDone_ok h
    · split
      · rename_i e
        obtain ⟨h1, hi, hs, _⟩ := allocate_ok e h
        exact scrubLineDone_ok (dirtyEntry_free _ _ hi hs (fun _ => .inl rfl) h1)
      · split
        · exact scrubLineDone_ok h
        · exact h
  · exact scrubLineDone_ok h

theorem onScrubRead_ok (op : Op) (r : SlotResult) (hk : Ok s w t) : Ok s w (onScrubRead op r t) := by
  unfold onScrubRead
  try dsimp only
  repeat' first
    | with_reducible assumption | with_reducible apply scrubWeak_ok | with_reducible apply scrubLineDone_ok
    | with_reducible apply lostGrading_ok | split

theorem grantScrub_ok (h : Ok s w t) : Ok s w (grantScrub t) := by
  unfold grantScrub
  dsimp only
  split
  · exact h
  · rename_i e
    obtain ⟨h1, hi, hs, _⟩ := allocate_ok e h
    split
    · split
      · split
        · exact scrubLineDone_ok (refreshClean_ok _ (by assumption) h1)
        · exact scrubLineDone_ok h1
      · exact scrubLineDone_ok (dirtyEntry_free _ _ hi hs (fun _ => .inl rfl) h1)
    · exact scrubLineDone_ok h1

theorem retireBlocks_append (a b : List IdRequest) : retireBlocks (a ++ b) = retireBlocks a ++ retireBlocks b := List.filterMap_append

theorem retireKeys_frozen (q : List IdRequest) (u : Option Update) (b : Bool) :
    retireKeys (q ++ [.frozenSet b]) u = retireKeys q u := by
  have e : retireBlocks [.frozenSet b] = [] := rfl
  simp only [retireKeys, retireBlocks_append, e, List.append_nil]

theorem retireBlocks_orphan (l : List IdRequest) : retireBlocks (l.map orphanRequest) = retireBlocks l := by
  induction l with
  | nil => rfl
  | cons r l ih =>
    have e : retireBlocks [orphanRequest r] = retireBlocks [r] := by cases r <;> rfl
    rw [List.map_cons, ← List.singleton_append, retireBlocks_append, e, ih, ← retireBlocks_append]
    rfl

theorem retireKeys_orphan (q : List IdRequest) (u : Option Update) :
    retireKeys (q.map orphanRequest) (u.map fun u => { u with served := u.served.map orphanRequest }) = retireKeys q u := by
  cases u with
  | none => simp [retireKeys, retireBlocks_orphan]
  | some u => simp [retireKeys, retireBlocks_append, retireBlocks_orphan]

theorem freezePersist_ok (h : Ok s w t) : Ok s w (freezePersist t) :=
  { h with bk := h.bk.requests (retireKeys_frozen _ _ _) }

theorem freezePersist_hok {force : Bool} (h : HOk force s w t) : HOk force s w (freezePersist t) :=
  { h with bk := h.bk.requests (retireKeys_frozen _ _ _) }

theorem freezeDrain_ok (h : Ok s w t) : Ok s w (freezeDrain t) :=
  completeLong_ok _ { h with bk := h.bk.requests (retireKeys_orphan _ _) }

theorem freezeDrain_hok {force : Bool} (h : HOk force s w t) : HOk force s w (freezeDrain t) :=
  completeLong_hok _ { h with bk := h.bk.requests (retireKeys_orphan _ _) }

theorem freezeReadOnly_ok (hk : Ok s w t) : Ok s w (freezeReadOnly t) := by
  unfold freezeReadOnly
  repeat' first
    | with_reducible assumption | with_reducible apply freezePersist_ok | split

theorem freezeReadOnly_hok {force : Bool} (hk : HOk force s w t) : HOk force s w (freezeReadOnly t) := by
  unfold freezeReadOnly
  repeat' first
    | with_reducible assumption | with_reducible apply freezePersist_hok | split

theorem freezeAnswered_ok (written : Bool) (hk : Ok s w t) : Ok s w (freezeAnswered written t) := by
  unfold freezeAnswered
  try dsimp only
  repeat' first
    | with_reducible assumption | with_reducible apply completeLong_ok

theorem freezeAbort_ok (hk : Ok s w t) : Ok s w (freezeAbort t) := by
  unfold freezeAbort
  repeat' first
    | with_reducible assumption | with_reducible apply freezePersist_ok | split

theorem flushEnd_ok (r : Result) (hk : Ok s w t) : Ok s w (flushEnd r t) := by
  unfold flushEnd
  repeat' first
    | with_reducible assumption | with_reducible apply completeLong_ok

theorem flushEnd_hok {force : Bool} (r : Result) (hk : HOk force s w t) : HOk force s w (flushEnd r t) := by
  unfold flushEnd
  repeat' first
    | with_reducible assumption | with_reducible apply completeLong_hok

theorem trimEnd_ok (r : Result) (hk : Ok s w t) : Ok s w (trimEnd r t) := by
  unfold trimEnd
  repeat' first
    | with_reducible assumption | with_reducible apply completeLong_ok

theorem trimEnd_hok {force : Bool} (r : Result) (hk : HOk force s w t) : HOk force s w (trimEnd r t) := by
  unfold trimEnd
  repeat' first
    | with_reducible assumption | with_reducible apply completeLong_hok

theorem trackLinked_ok (i j : Nat) (hk : Ok s w t) : Ok s w (trackLinked i j t) := by
  unfold trackLinked
  try dsimp only
  repeat' first
    | with_reducible assumption | split

/-! ### Modes -/

theorem endWaitingWrite_hok {force : Bool} (m : Mode) (hk : HOk force s w t) : HOk force s w (endWaitingWrite m t) := by
  unfold endWaitingWrite
  try dsimp only
  repeat' first
    | with_reducible assumption | with_reducible apply answer_hok | with_reducible apply raiseOpt_hok | split

theorem endWaitingRead_hok {force : Bool} (m : Mode) (hk : HOk force s w t) : HOk force s w (endWaitingRead m t) := by
  unfold endWaitingRead
  repeat' first
    | with_reducible assumption | with_reducible apply answer_hok | split

theorem stopLong_hok {force : Bool} (m : Mode) (hk : HOk force s w t) : HOk force s w (stopLong m t) := by
  unfold stopLong
  repeat' first
    | with_reducible assumption | with_reducible apply flushEnd_hok | with_reducible apply trimEnd_hok
    | with_reducible apply scrubEnd_hok | with_reducible apply freezeDrain_hok | with_reducible apply freezeReadOnly_hok | split

theorem endWaitingWrite_same (m : Mode) (t : State) :
    (endWaitingWrite m t).mount = t.mount ∧ (endWaitingWrite m t).format = t.format ∧
      (endWaitingWrite m t).heldReadOnly = t.heldReadOnly ∧ (endWaitingWrite m t).mode = t.mode := by
  unfold endWaitingWrite answer raiseOpt
  repeat' first
    | exact ⟨rfl, rfl, rfl, rfl⟩
    | split

theorem endWaitingRead_same (m : Mode) (t : State) :
    (endWaitingRead m t).mount = t.mount ∧ (endWaitingRead m t).format = t.format ∧
      (endWaitingRead m t).heldReadOnly = t.heldReadOnly ∧ (endWaitingRead m t).mode = t.mode := by
  unfold endWaitingRead answer
  repeat' first
    | exact ⟨rfl, rfl, rfl, rfl⟩
    | split

theorem completeLong_same (r : Result) (t : State) :
    (completeLong r t).mount = t.mount ∧ (completeLong r t).format = t.format ∧
      (completeLong r t).heldReadOnly = t.heldReadOnly ∧ (completeLong r t).mode = t.mode := by
  unfold completeLong
  split <;> exact ⟨rfl, rfl, rfl, rfl⟩

theorem stopLong_same (m : Mode) (t : State) :
    (stopLong m t).mount = t.mount ∧ (stopLong m t).format = t.format ∧
      (stopLong m t).heldReadOnly = t.heldReadOnly ∧ (stopLong m t).mode = t.mode := by
  unfold stopLong flushEnd trimEnd scrubEnd freezeDrain freezeReadOnly completeLong freezePersist
  repeat' first
    | exact ⟨rfl, rfl, rfl, rfl⟩
    | split


theorem engineMode_same (old new : Mode) (r : Reclaim) :
    (engineMode old new r).head = r.head ∧ (engineMode old new r).victim = r.victim ∧ (engineMode old new r).reloc = r.reloc ∧
      (engineMode old new r).retireWait = r.retireWait := by
  unfold engineMode
  split
  · exact ⟨rfl, rfl, rfl, rfl⟩
  · split <;> exact ⟨rfl, rfl, rfl, rfl⟩

/-- A mode change keeps the invariants where the mount is over, no format goes on in another mode than FORMATTING, READ-ONLY is not held
into a mode that cannot hold it, and the erases outstanding are accounted for in every mode but UNFORMATTED. -/
theorem setMode_ok {force : Bool} (m : Mode) (hp : t.mount.phase = .done) (hf : t.format.isSome = true → m = .formatting)
    (hh : t.heldReadOnly = true → m = .parked ∨ m = .formatting ∨ m = .readOnly ∨ m = .unformatted)
    (hn : t.mode ≠ m) (hu : m ≠ .unformatted → force = true) (h : HOk force s w t) : Ok s w (setMode m t) := by
  unfold setMode
  rw [if_neg hn]
  dsimp only
  have h' : HOk force s w (stopLong m (endWaitingRead m (endWaitingWrite m t))) :=
    stopLong_hok _ (endWaitingRead_hok _ (endWaitingWrite_hok _ h))
  have e1 := stopLong_same m (endWaitingRead m (endWaitingWrite m t))
  have e2 := endWaitingRead_same m (endWaitingWrite m t)
  have e3 := endWaitingWrite_same m t
  rw [e2.1, e2.2.1, e2.2.2.1, e2.2.2.2, e3.1, e3.2.1, e3.2.2.1, e3.2.2.2] at e1
  generalize stopLong m (endWaitingRead m (endWaitingWrite m t)) = T at h' e1
  have hM : ModeOk m (if m = .readOnly ∨ m = .unformatted then false else T.heldReadOnly) (decide (m = .draining))
      T.mount.phase T.format.isSome := by
    rw [e1.1, e1.2.1, e1.2.2.1]
    refine ⟨fun k => absurd hp k, hf, by simp, ?_⟩
    intro k
    split at k
    · cases k
    · rename_i k'
      rcases hh k with k1 | k1 | k1 | k1
      · exact .inl k1
      · exact .inr k1
      · exact absurd (.inl k1) k'
      · exact absurd (.inr k1) k'
  obtain ⟨r1, r2, r3, r4⟩ := engineMode_same t.mode m T.reclaim
  have hB : BkC w.bare (m != .unformatted) T.blocks T.freeList T.lineMap T.dies T.commit.head T.commit.batch
      (engineMode t.mode m T.reclaim).head (engineMode t.mode m T.reclaim).victim (engineMode t.mode m T.reclaim).reloc
      (engineMode t.mode m T.reclaim).retireWait T.ident.queue T.ident.update T.mount.phase T.format.isSome := by
    rw [r1, r2, r3, r4]
    exact h'.bk.reforce fun c => hu (by simpa using c)
  split
  · exact issueWithheld_ok { h' with mode := hM, bk := hB }
  · exact { h' with mode := hM, bk := hB }

/-- A change from another mode than PARKED gives the mode asked for. -/
theorem setMode_mode (m : Mode) (hp : t.mode ≠ .parked) : (setMode m t).mode = m := by
  unfold setMode
  split
  · assumption
  · rfl

/-- What `Ok` gives outside MOUNTING. -/
theorem OkC.phase_done (h : Ok s w t) (hm : t.mode ≠ .mounting) : t.mount.phase = .done := by
  by_contra hp
  exact hm (h.mode.1 hp)

theorem OkC.no_format (h : Ok s w t) (hm : t.mode ≠ .formatting) : t.format.isSome = false := by
  cases hf : t.format.isSome
  · rfl
  · exact absurd (h.mode.2.1 hf) hm

theorem OkC.not_held (h : Ok s w t) (hm : t.mode ≠ .formatting) (hp : t.mode ≠ .parked) : t.heldReadOnly = false := by
  cases hf : t.heldReadOnly
  · rfl
  · rcases h.mode.2.2.2 hf with k | k
    · exact absurd k hp
    · exact absurd k hm

theorem requestReadOnly_ok (h : Ok s w t) : Ok s w (requestReadOnly t) := by
  unfold requestReadOnly
  split
  · rename_i hm
    have n1 : t.mode ≠ .mounting := by simp [hm]
    have n2 : t.mode ≠ .formatting := by simp [hm]
    have n3 : t.mode ≠ .parked := by simp [hm]
    exact setMode_ok _ (h.phase_done n1) (by simp [h.no_format n2]) (by simp [h.not_held n2 n3]) (by simp [hm]) (fun _ => by simp [hm]) h.unheld
  · rename_i hm
    have n1 : t.mode ≠ .mounting := by simp [hm]
    have n2 : t.mode ≠ .formatting := by simp [hm]
    have n3 : t.mode ≠ .parked := by simp [hm]
    have h1 : Ok s w (setMode .parked { t with heldReadOnly := true }) :=
      setMode_ok _ (h.phase_done n1) (by simp [h.no_format n2]) (fun _ => .inl rfl) n3 (fun _ => by simp [hm]) h.unheld
    have m1 : (setMode .parked { t with heldReadOnly := true }).mode = .parked := setMode_mode _ n3
    dsimp only
    split
    · have k1 : (setMode .parked { t with heldReadOnly := true }).mode ≠ .mounting := by simp [m1]
      have k2 : (setMode .parked { t with heldReadOnly := true }).mode ≠ .formatting := by simp [m1]
      exact setMode_ok _ (h1.phase_done k1) (by simp [h1.no_format k2]) (fun _ => .inr (.inr (.inl rfl))) (by simp [m1]) (fun _ => by simp [m1]) h1.unheld
    · exact h1
  · rename_i hm
    exact { h with mode := ⟨h.mode.1, h.mode.2.1, h.mode.2.2.1, fun _ => .inl hm⟩ }
  · rename_i hm
    exact { h with mode := ⟨h.mode.1, h.mode.2.1, h.mode.2.2.1, fun _ => .inr hm⟩ }
  · exact h
  · exact h
  · exact h

theorem pfwFalls_ok (h : Ok s w t) : Ok { s with pfwHigh := false } w (pfwFalls t) := by
  have h0 : Ok { s with pfwHigh := false } w { t with pfwHigh := false } := { h with pfw := rfl }
  unfold pfwFalls
  dsimp only
  split
  · rename_i hm
    have n1 : t.mode ≠ .mounting := by simp [hm]
    have n2 : t.mode ≠ .formatting := by simp [hm]
    have n3 : t.mode ≠ .parked := by simp [hm]
    exact setMode_ok _ (h.phase_done n1) (by simp [h.no_format n2]) (by simp [h.not_held n2 n3]) (by simp [hm]) (fun _ => by simp [hm]) h0.unheld
  · rename_i hm
    have n1 : t.mode ≠ .mounting := by simp [hm]
    have n2 : t.mode ≠ .formatting := by simp [hm]
    have n3 : t.mode ≠ .parked := by simp [hm]
    have h1 : Ok { s with pfwHigh := false } w (setMode .parked { t with pfwHigh := false }) :=
      setMode_ok _ (h.phase_done n1) (by simp [h.no_format n2]) (by simp [h.not_held n2 n3]) n3 (fun _ => by simp [hm]) h0.unheld
    have m1 : (setMode .parked { t with pfwHigh := false }).mode = .parked := setMode_mode _ n3
    exact { h1 with mode := ⟨h1.mode.1, h1.mode.2.1, h1.mode.2.2.1, fun _ => .inl m1⟩ }
  · exact h0

theorem pfwRises_ok (h : Ok s w t) : Ok { s with pfwHigh := true } w (pfwRises t) := by
  have h0 : Ok { s with pfwHigh := true } w { t with pfwHigh := true } := { h with pfw := rfl }
  unfold pfwRises
  dsimp only
  split
  · rename_i hm
    have n1 : t.mode ≠ .mounting := by simp [hm]
    have n2 : t.mode ≠ .formatting := by simp [hm]
    split
    · exact setMode_ok _ (h.phase_done n1) (by simp [h.no_format n2]) (fun _ => .inr (.inr (.inl rfl))) (by simp [hm]) (fun _ => by simp [hm]) h0.unheld
    · rename_i hh
      exact setMode_ok _ (h.phase_done n1) (by simp [h.no_format n2]) (by simp [hh]) (by simp [hm]) (fun _ => by simp [hm]) h0.unheld
  · exact h0

theorem drainEnd_ok (hm : t.mode = .draining) (h : Ok s w t) : Ok s w (drainEnd t) := by
  have n1 : t.mode ≠ .mounting := by simp [hm]
  have n2 : t.mode ≠ .formatting := by simp [hm]
  have n3 : t.mode ≠ .parked := by simp [hm]
  unfold drainEnd
  split
  · exact setMode_ok _ (h.phase_done n1) (by simp [h.no_format n2]) (by simp [h.not_held n2 n3]) (by simp [hm]) (fun _ => by simp [hm]) h.unheld
  · exact setMode_ok _ (h.phase_done n1) (by simp [h.no_format n2]) (by simp [h.not_held n2 n3]) (by simp [hm]) (fun _ => by simp [hm]) h.unheld

theorem endMode_ok (ro : Bool) (hp : t.mount.phase = .done) (hf : t.format.isSome = false)
    (hh : t.heldReadOnly = true → ro = true) (hm : t.mode = .mounting ∨ t.mode = .formatting) (h : HOk true s w t) :
    Ok s w (endMode ro t) := by
  have n3 : t.mode ≠ .parked := by rcases hm with hm | hm <;> simp [hm]
  unfold endMode
  split
  · split
    · exact setMode_ok _ hp (by simp [hf]) (fun _ => .inr (.inr (.inl rfl))) (by rcases hm with hm | hm <;> simp [hm]) (fun _ => rfl) h
    · rename_i hr
      exact setMode_ok _ hp (by simp [hf]) (fun k => absurd (hh k) hr) (by rcases hm with hm | hm <;> simp [hm]) (fun _ => rfl) h
  · have h1 : Ok s w (setMode .parked t) := setMode_ok _ hp (by simp [hf]) (fun _ => .inl rfl) n3 (fun _ => rfl) h
    have m1 : (setMode .parked t).mode = .parked := setMode_mode _ n3
    exact { h1 with mode := ⟨h1.mode.1, h1.mode.2.1, h1.mode.2.2.1, fun _ => .inl m1⟩ }

/-- The block was a head's, and no head is left on it. -/
def Left (t : State) (b : BlockId) : Prop :=
  ∃ r, blockGet t b = some r ∧ ((r.state = .hostHead ∧ headOn t.commit.head (blockKey b) = 0) ∨
    (r.state = .copyHead ∧ headOn t.reclaim.head (blockKey b) = 0))

theorem updAt_some {k : Nat} {r : BlockRec} {blocks : List (Nat × BlockRec)} (h : keyGet k blocks = some r) (f : BlockRec → BlockRec) :
    updAt k f blocks = keyPut k (f r) blocks := by
  unfold updAt
  rw [h]

theorem closeHead_ok (x : LogHead) (hl : Left t x.block) (h : Ok s w t) : Ok s w (closeHead x t) := by
  obtain ⟨r, hr, hs⟩ := hl
  unfold closeHead
  rw [blockUpd_eq, updAt_some hr]
  exact { h with bk := (h.bk.leave hr hs .closed (.inl rfl) _).1 }

theorem awaitRetire_ok {b : BlockId} {r : BlockRec} (hr : blockGet t b = some r) (hs : r.state = .relocating ∨ r.state = .erasing)
    (h1 : r.work ≠ .retireWaiting) (h2 : r.work ≠ .retireHanded) (hz : (t.reclaim.reloc.map blockKey).count (blockKey b) = 0)
    (he : t.mode ≠ .unformatted → ∀ role, (role = .erase ∨ role = .eraseStamp) →
      opsOut (isErase role (blockKey b)) t.dies + opsCount (isErase role (blockKey b)) w.ops = 0)
    (hp : t.mount.phase = .done) (hf : t.format.isSome = false) (h : Ok s w t) : Ok s w (awaitRetire b t) := by
  unfold awaitRetire
  dsimp only
  rw [blockUpd_eq, updAt_some hr]
  obtain ⟨k, kz⟩ := h.bk.awaits hr hs h1 h2 hz (fun c => he (by simpa using c))
  exact { h with bk := k.addWait (by rw [recIs_put]; simp) kz hp hf }

/-- A failed head's block becomes RELOCATING, and joins the relocation list or awaits retirement. -/
theorem relocateHead_ok (x : LogHead) (hl : Left t x.block) (hp : t.mount.phase = .done) (hf : t.format.isSome = false)
    (h : Ok s w t) : Ok s w (relocateHead x t) := by
  obtain ⟨r, hr, hs⟩ := hl
  have hw : r.work = .none := free_work (h.bk.works _ _ hr) (by rcases hs with ⟨c, _⟩ | ⟨c, _⟩ <;> simp [c])
    (by rcases hs with ⟨c, _⟩ | ⟨c, _⟩ <;> simp [c])
  obtain ⟨k, k1, k2⟩ := h.bk.leave hr hs .relocating (.inr rfl) x.closeSeq
  have hu := h.bk.unerased hr (by rw [hw]; simp) (by rw [hw]; simp)
  unfold relocateHead
  dsimp only
  rw [blockUpd_eq, updAt_some hr]
  have g : blockGet { t with blocks := keyPut (blockKey x.block) { r with state := .relocating, closeSeq := x.closeSeq } t.blocks } x.block =
      some { r with state := .relocating, closeSeq := x.closeSeq } := keyGet_keyPut_same _ _ _
  have h' : Ok s w { t with blocks := keyPut (blockKey x.block) { r with state := .relocating, closeSeq := x.closeSeq } t.blocks } :=
    { h with bk := k }
  rw [g]
  dsimp only
  split
  · exact awaitRetire_ok g (.inl rfl) (by simp [hw]) (by simp [hw]) k1 (fun c => hu (by simpa using c)) hp hf h'
  · have e := k.addReloc (b := x.block) (by rw [recIs_put]; simp [hw]) k1 hp hf
    split
    · exact { h' with bk := e }
    · exact { h' with bk := e }

end Sys2Proof.Machine
end

