-- ==== Sys2Proof/Laws/KeepsEngines.lean ====
section
/-! SUPPORT. What the commit engine, the reclaim engine, the identity manager and FORMAT do keeps the invariants. -/
namespace Sys2Proof.Machine

variable {s t u : State} {w : Due}

/-- Where an engine holds a block, the mount is over and no format goes on. -/
theorem OkC.busy (h : Ok s w t)
    (k : t.commit.head ≠ none ∨ t.commit.batch ≠ none ∨ t.reclaim.head ≠ none ∨ t.reclaim.victim ≠ none ∨ t.reclaim.reloc ≠ [] ∨
      t.reclaim.retireWait ≠ [] ∨ retireKeys t.ident.queue t.ident.update ≠ []) :
    t.mount.phase = .done ∧ t.format.isSome = false := by
  by_contra c
  have q := h.bk.quiet (by
    by_cases hp : t.mount.phase = .done
    · exact .inr (by cases e : t.format.isSome; exacts [absurd ⟨hp, e⟩ c, rfl])
    · exact .inl hp)
  obtain ⟨q1, q2, q3, q4, q5, q6, q7, _⟩ := q
  rcases k with k | k | k | k | k | k | k <;> contradiction

/-! ### Commit -/

theorem openHostHead_ok (hh : t.commit.head = none) (hp : t.mount.phase = .done) (hf : t.format.isSome = false) (h : Ok s w t) :
    Ok s w (openHostHead t) := by
  unfold openHostHead
  split
  · exact h
  · rename_i b u e
    obtain ⟨h1, hx, e1, e2, e3, e4⟩ := takeFront_ok (.inl rfl) e h
    have hh1 : u.commit.head = none := by rw [e1, hh]
    have hp1 : u.mount.phase = .done := by rw [e3, hp]
    have hf1 : u.format.isSome = false := by rw [e4, hf]
    have hb := h1.bk
    rw [hh1] at hb
    have hz : opsOut isOpen u.dies + opsCount isOpen w.bare.ops = 0 := by have := hb.opens; simpa using this
    dsimp only
    split
    · refine issue_ok _ { h1 with
        en := h1.en.other rfl
        bk := BkC.openStamp (w := w.bare) (hb.openHost ⟨b, 0, 2, 2, .inFlight, some (seqValue u), none⟩ hx hp1 hf1) hz rfl rfl
        mi := MiC.other (w := w.bare) h1.mi (by simp [programOp]) (by simp [programOp]) }
    · exact requestReadOnly_ok { h1 with bk := hb.openHost ⟨b, 0, 2, 2, .never, none, none⟩ hx hp1 hf1 }

theorem startCommit_staging (ids : List Nat) (t : State) :
    startCommit ids t =
      { t with
        staging :=
          ids.foldl (fun st i => st.set i { st.getD i Entry.cleared with state := .committing, newer := none }) t.staging } := by
  unfold startCommit
  induction ids generalizing t with
  | nil => rfl
  | cons i ids ih => rw [List.foldl_cons, ih]; rfl

theorem batchRecs_entries (t : State) (q : Nat) (l : List Nat) : (batchRecs t q l).map (·.entry) = l := by
  induction l generalizing q with
  | nil => rfl
  | cons i l ih => simp [batchRecs, ih]

theorem mem_batchRecs {q : Nat} {l : List Nat} {r : BatchRec} (h : r ∈ batchRecs t q l) :
    r.entry ∈ l ∧ r.line = (entryAt t r.entry).line.getD 0 ∧ r.stamps = recordStamps t (entryAt t r.entry) r.line := by
  induction l generalizing q with
  | nil => cases h
  | cons i l ih =>
    rcases List.mem_cons.1 h with rfl | h
    · exact ⟨List.mem_cons_self, rfl, rfl⟩
    · exact ⟨List.mem_cons_of_mem _ (ih h).1, (ih h).2⟩

/-- A record formed of a DIRTY entry has the stamps that its line and its entry give (R60, R137). -/
theorem recordStamps_ok {phase : MountPhase} {cands : List Candidate} {bat : Option Batch} {acc : Bool}
    (h : StC t.staging t.lineMap t.regions bat acc phase cands) {i : Nat} (hs : (entryAt t i).state = .dirty) :
    recordStamps t (entryAt t i) ((entryAt t i).line.getD 0) ≤ Config.stampsMax ∧
      ((entryAt t i).touched = true → (entryAt t i).line = some ((entryAt t i).line.getD 0)) ∧
      recordStamps t (entryAt t i) ((entryAt t i).line.getD 0) ≤
        stampsOf t.lineMap ((entryAt t i).line.getD 0) + touch (entryAt t i) := by
  have hl : (entryAt t i).touched = true → (entryAt t i).line = some ((entryAt t i).line.getD 0) := fun c => by
    obtain ⟨l, hl⟩ := Option.isSome_iff_exists.1 ((h.entries i).line c)
    rw [show (entryAt t i).line = some l from hl]; rfl
  have hp : touch (entryAt t i) ≤ pendingIn t.staging ((entryAt t i).line.getD 0) := by
    refine le_trans (le_of_eq ?_) (pend_le t.staging i _)
    show touch (entryAt t i) = pend _ (entryAt t i)
    unfold touch pend Entry.pends
    cases c : (entryAt t i).touched
    · simp
    · have e := hl c
      generalize (entryAt t i).line.getD 0 = l at e
      simp [hs, e]
  refine ⟨?_, hl, ?_⟩ <;> unfold recordStamps <;> split
  · exact Nat.zero_le _
  · split
    · rename_i ho
      exact le_trans (Nat.add_le_add_left hp _) (h.sum _ ho)
    · exact Nat.zero_le _
  · exact Nat.zero_le _
  · split
    · exact le_refl _
    · exact Nat.zero_le _

theorem formBatch_ok (x : LogHead) (hx : t.commit.head = some x) (hs : x.stamp = .passed) (hb : t.commit.batch = none) (h : Ok s w t) :
    Ok s w (formBatch x t) := by
  unfold formBatch
  dsimp only
  refine issue_plain _ rfl ?_
  rw [startCommit_staging]
  have e := h.en
  rw [hb] at e
  have k := e.formed (batchSize x t) (fun e => { e with state := .committing, newer := none }) (fun _ => rfl)
    ⟨x.block, x.page, x.next, batchRecs t (seqValue t) (t.commit.queue.take (batchSize x t))⟩ (batchRecs_entries ..)
  have hd : ∀ i ∈ t.commit.queue.take (batchSize x t), (entryAt t i).state = .dirty := fun i hi => by
    have := e.queue i
    have := List.count_pos_iff.2 (List.mem_of_mem_take hi)
    exact isIn_pos (by omega)
  have hl : ∀ (l : List Nat) (st : List Entry),
      (l.foldl (fun st i => st.set i { st.getD i Entry.cleared with state := .committing, newer := none }) st).length =
        st.length := by
    intro l
    induction l with
    | nil => intro st; rfl
    | cons i l ih => intro st; rw [List.foldl_cons, ih, List.length_set]
  have hbk := h.bk
  rw [hx] at hbk
  refine { h with
    slen := (hl _ _).trans h.slen
    en := k
    bk := hx ▸ hbk.formed _ rfl hs
    stc := fun hw => ?_ }
  have q := h.stc hw
  rw [hb] at q
  obtain ⟨q1, q2⟩ := q.formed (t.commit.queue.take (batchSize x t)) (fun e => { e with state := .committing, newer := none })
    (fun _ => ⟨rfl, rfl, rfl⟩) (fun i hi => .inl (hd i hi))
  refine q1.batched _ fun r hr => ?_
  obtain ⟨m1, m2, m3⟩ := mem_batchRecs hr
  obtain ⟨r1, r2, r3⟩ := recordStamps_ok q (hd _ m1)
  rw [← m2, ← m3] at r1 r3
  rw [← m2] at r2
  obtain ⟨g1, g2⟩ := q2 r.entry
  refine ⟨r1, ?_, fun _ => ?_⟩
  · rw [g1, g2]; exact r2
  · unfold touch; rw [g1]; exact r3

/-- A head's block, once no head is left on it. -/
theorem OkC.left {x : LogHead} (h : Ok s w t)
    (hx : t.commit.head = some x ∧ u.commit.head = none ∨ t.reclaim.head = some x ∧ u.reclaim.head = none)
    (hb : u.blocks = t.blocks) : Left u x.block := by
  rcases hx with ⟨hx, hn⟩ | ⟨hx, hn⟩
  · obtain ⟨r, hr, hs, _⟩ := h.bk.fills (x := x) (.inl ⟨rfl, hx⟩)
    exact ⟨r, by unfold blockGet; rw [hb]; exact hr, .inl ⟨hs, by rw [hn]; rfl⟩⟩
  · obtain ⟨r, hr, hs, _⟩ := h.bk.fills (x := x) (.inr ⟨rfl, hx⟩)
    exact ⟨r, by unfold blockGet; rw [hb]; exact hr, .inr ⟨hs, by rw [hn]; rfl⟩⟩

theorem onHostOpenStamp_ok {op : Op} (st : Status) (hr : op.role = .hostOpenStamp) (hs : op.stale = false) (h : Ok s (w.op op) t) :
    Ok s w (onHostOpenStamp st t) := by
  unfold onHostOpenStamp
  split
  · rename_i x hx
    have hb := h.bk
    rw [hx] at hb
    obtain ⟨hi, hz, hn⟩ := BkC.stampAnswered (w := w.bare) hb hr hs
    have hd : BkC w.bare _ _ _ _ _ _ _ _ _ _ _ _ _ _ _ := BkC.drop_op (w := w.bare) hb
    split
    · exact { h.drop_op with bk := hd.stampPassed hz hn }
    · obtain ⟨hp, hf⟩ := h.busy (.inl (by simp [hx]))
      refine relocateHead_ok x ?_ hp hf { raise_ok .programFail (.block x.block) h.drop_op with bk := hd.headGone hz hn }
      exact h.left (.inl ⟨hx, rfl⟩) rfl
  · exact h.drop_op

/-- An entry whose record is answered becomes FREE. -/
theorem freeEntry_recd (i : Nat) (hn : t.commit.batch = none) (h : Ok s (w.recd i) t) : Ok s w (freeEntry i t) :=
  untrack_ok i { h with
    slen := by simpa [setEntry] using h.slen
    en := h.en.recd_free _ rfl
    stc := fun hw => (h.stc hw).set (fun l => Nat.zero_le _) (EntryOk.cleared _) fun b hb => by
      rw [show t.commit.batch = some b from hb] at hn; cases hn }

/-- An entry whose record is answered becomes CLEAN. -/
theorem cleanEntry_recd (i : Nat) (data : LineData) (hn : t.commit.batch = none) (h : Ok s (w.recd i) t) :
    Ok s w (cleanEntry i data t) :=
  untrack_ok i { h with
    slen := by simpa [setEntry] using h.slen
    en := h.en.recd_clean _ rfl
    stc := fun hw => (h.stc hw).set (fun l => by rw [pend_untouched rfl]; exact Nat.zero_le _)
      ⟨fun _ => rfl, (nomatch ·), (nomatch ·), fun _ => rfl⟩ fun b hb => by
        rw [show t.commit.batch = some b from hb] at hn; cases hn }

/-- A commit completion writes the block table and the line map, and reads nothing else. -/
theorem commitToMap_eq (line : Nat) (kind : RecKind) (seq stamps : Nat) (loc : Loc) (t : State) :
    commitToMap line kind seq stamps loc t =
      { t with
        blocks := (commitToMap line kind seq stamps loc t).blocks
        lineMap := (commitToMap line kind seq stamps loc t).lineMap } := by
  unfold commitToMap
  dsimp only
  rw [gainValid_eq, loseOld_shift]
  rfl

/-- What the answer to one record leaves as it was. -/
theorem commitRec_same (loc : Loc) (r : BatchRec) (t : State) :
    (commitRec loc r t).regions = t.regions ∧ (commitRec loc r t).commit.head = t.commit.head ∧
      (commitRec loc r t).commit.batch = t.commit.batch ∧
      ∃ e, e.touched = false ∧ (commitRec loc r t).staging = t.staging.set r.entry e := by
  unfold commitRec
  rw [commitToMap_eq]
  dsimp only
  split <;> split <;> exact ⟨rfl, rfl, rfl, _, rfl, rfl⟩

theorem commitRec_ok (loc : Loc) (r : BatchRec) {x : LogHead} (hx : t.commit.head = some x) (hb : x.block = blockOf loc)
    (hn : t.commit.batch = none) (hr : w.wf = true → RecDue t.staging t.regions r) (h : Ok s (w.recd r.entry) t) :
    Ok s w (commitRec loc r t) := by
  have hi := h.en.recorded
  have k1 := commitToMap_ok r.line r.kind r.seq r.stamps loc (t := freeEntry r.entry t) hx hb hn
    (fun hw => ⟨(hr hw).le, (hr hw).done hi.1 hi.2 _ rfl⟩) (freeEntry_recd _ hn h)
  have k2 := commitToMap_ok r.line r.kind r.seq r.stamps loc (t := cleanEntry r.entry (entryAt t r.entry).data t) hx hb hn
    (fun hw => ⟨(hr hw).le, (hr hw).done hi.1 hi.2 _ rfl⟩) (cleanEntry_recd _ _ hn h)
  unfold commitRec
  unfold commitToMap at k1 k2 ⊢
  dsimp only at k1 k2 ⊢
  rw [gainValid_eq, loseOld_shift] at k1 k2 ⊢
  split <;> split
  · exact k2
  · exact k2
  · exact k1
  · exact k1

theorem commitRecs_ok (b : BlockId) (page slot : Nat) (l : List BatchRec) {x : LogHead} (hx : t.commit.head = some x)
    (hb : x.block = b) (hn : t.commit.batch = none) (hl : (l.map (·.entry)).Nodup)
    (hr : w.wf = true → ∀ r ∈ l, RecDue t.staging t.regions r)
    (h : Ok s { w with recs := l.map (·.entry) ++ w.recs } t) :
    Ok s w (commitRecs b page slot l t) ∧ (commitRecs b page slot l t).commit.head = some x ∧
      (commitRecs b page slot l t).commit.batch = none := by
  induction l generalizing t slot with
  | nil => exact ⟨h, hx, hn⟩
  | cons r l ih =>
    have ⟨n1, n2⟩ := List.nodup_cons.1 hl
    obtain ⟨e1, e2, e3, e, e4, e5⟩ := commitRec_same (locIn b page slot) r t
    refine ih (slot + 1) (e2.trans hx) (e3.trans hn) n2 (fun hw y hy => ?_)
      (commitRec_ok (w := { w with recs := l.map (·.entry) ++ w.recs }) _ _ hx (by rw [hb]; rfl) hn
        (fun hw => hr hw r List.mem_cons_self) h)
    rw [e1, e5]
    exact (hr hw y (List.mem_cons_of_mem _ hy)).next (fun c => n1 (List.mem_map.2 ⟨y, hy, c⟩)) _ e4

/-- The entries of a batch in flight are distinct. -/
theorem OkC.batch_nodup (h : Ok s w t) {b : Batch} (hb : t.commit.batch = some b) : (b.recs.map (·.entry)).Nodup := by
  have e := h.en
  rw [hb] at e
  refine List.nodup_iff_count_le_one.2 fun i => ?_
  have k1 := e.recs i
  have := isIn_le t.staging i .committing
  simp only [batchEntries, Option.map_some, Option.getD_some] at k1
  omega

/-- A batch that is answered is in flight no longer: its records are on their way. -/
theorem OkC.unbatched (h : Ok s w t) {b : Batch} (hb : t.commit.batch = some b) :
    Ok s { w with recs := b.recs.map (·.entry) ++ w.recs } { t with commit := { t.commit with batch := none } } ∧
      ∃ x, t.commit.head = some x ∧ x.block = b.block ∧ x.stamp = .passed := by
  have e := h.en
  rw [hb] at e
  exact ⟨{ h with en := e.answered, bk := h.bk.batchGone, stc := fun hw => (h.stc hw).unbatched }, h.bk.batch b hb⟩

/-- No open stamp is outstanding for a head whose stamp has passed. -/
theorem OkC.no_open (h : Ok s w t) {x : LogHead} (hx : t.commit.head = some x) (hs : x.stamp = .passed) :
    opsOut isOpen t.dies + opsCount isOpen w.bare.ops = 0 := by
  have := h.bk.opens
  simpa [hx, hs] using this

theorem advance_same {x y : LogHead} {n : Nat} (h : x.advance n = some y) : y.block = x.block ∧ y.stamp = x.stamp := by
  unfold LogHead.advance at h
  split at h
  · split at h
    · cases h; exact ⟨rfl, rfl⟩
    · cases h
  · cases h; exact ⟨rfl, rfl⟩

theorem batchPass_ok (b : Batch) (hb : t.commit.batch = some b) (h : Ok s w t) : Ok s w (batchPass b t) := by
  obtain ⟨h0, x, hx, hxb, hs⟩ := h.unbatched hb
  obtain ⟨h1, h2, h3⟩ := commitRecs_ok (w := w) (t := { t with commit := { t.commit with batch := none } }) b.block b.page b.first b.recs hx hxb rfl (h.batch_nodup hb)
    (fun hw r hr => (h.stc hw).due hb hr) h0
  unfold batchPass
  dsimp only
  generalize commitRecs b.block b.page b.first b.recs { t with commit := { t.commit with batch := none } } = T at h1 h2 h3 ⊢
  rw [h2]
  dsimp only
  have hk := h1.bk
  split
  · rename_i y hy
    obtain ⟨y1, y2⟩ := advance_same hy
    rw [h2] at hk
    exact { h1 with bk := hk.headOnward y1 y2 }
  · exact closeHead_ok _ (h1.left (x := x) (.inl ⟨h2, rfl⟩) rfl) { h1 with bk := hk.headGone (h1.no_open h2 hs) h3 }

/-- What `failRec` leaves of an entry that is not the record's. -/
theorem failRec_other (r : BatchRec) (t : State) {j : Nat} (hj : j ≠ r.entry) : entryAt (failRec r t) j = entryAt t j := by
  have e : ∀ x, entryAt (setEntry r.entry x t) j = entryAt t j := fun x => by
    simp [entryAt, setEntry, List.getD_eq_getElem?_getD, Ne.symm hj]
  unfold failRec
  dsimp only
  split
  · have : (freeEntry r.entry (trackLinked r.entry ‹Nat› t)).staging = (setEntry r.entry Entry.cleared t).staging := by
      unfold freeEntry untrack trackLinked setEntry
      dsimp only
      split <;> split <;> rfl
    unfold entryAt
    rw [this]
    exact e _
  · exact e _

/-- What the failure of one record leaves as it was. -/
theorem failRec_same (r : BatchRec) (t : State) :
    (failRec r t).commit = t.commit ∧ (failRec r t).mount = t.mount ∧ (failRec r t).format = t.format := by
  unfold failRec freeEntry untrack trackLinked setEntry
  repeat' first
    | exact ⟨rfl, rfl, rfl⟩
    | split
    | dsimp only

/-- `failRec` reads and writes nothing of the commit engine. -/
theorem failRec_commit (c : CommitEngine) (r : BatchRec) (t : State) :
    failRec r { t with commit := c } = { failRec r t with commit := c } := by
  have e : entryAt { t with commit := c } r.entry = entryAt t r.entry := rfl
  unfold failRec
  simp only [e]
  split
  · unfold freeEntry untrack trackLinked setEntry
    dsimp only
    split <;> split <;> rfl
  · rfl

theorem failRecs_commit (c : CommitEngine) (l : List BatchRec) (t : State) :
    l.foldl (fun u r => failRec r u) { t with commit := c } = { l.foldl (fun u r => failRec r u) t with commit := c } := by
  induction l generalizing t with
  | nil => rfl
  | cons r l ih => rw [List.foldl_cons, List.foldl_cons, failRec_commit, ih]

theorem failRecs_same (l : List BatchRec) (t : State) :
    (l.foldl (fun u r => failRec r u) t).commit = t.commit ∧ (l.foldl (fun u r => failRec r u) t).mount = t.mount ∧
      (l.foldl (fun u r => failRec r u) t).format = t.format := by
  induction l generalizing t with
  | nil => exact ⟨rfl, rfl, rfl⟩
  | cons r l ih =>
    obtain ⟨e1, e2, e3⟩ := failRec_same r t
    rw [List.foldl_cons, ← e1, ← e2, ← e3]
    exact ih _

theorem failRec_ok (r : BatchRec) (hn : t.commit.batch = none) (h : Ok s (w.recd r.entry) t) :
    Ok s (if (entryAt t r.entry).newer.isNone then w.dirt r.entry else w) (failRec r t) := by
  unfold failRec
  cases hj : (entryAt t r.entry).newer with
  | some j =>
    simp only [hj]
    refine freeEntry_recd _ ?_ (trackLinked_ok _ _ h)
    unfold trackLinked
    dsimp only
    split <;> split <;> exact hn
  | none =>
    simp only [hj]
    refine { h with
      slen := by simpa [setEntry] using h.slen
      en := h.en.recd_dirt _ rfl
      stc := fun hw => ?_ }
    have k := (h.stc hw).entries r.entry
    exact (h.stc hw).set (fun l => pend_same l rfl rfl (.inr (.inr h.en.recorded.2)))
      ⟨fun c => (nomatch c), fun c => (nomatch c), k.line, k.mount⟩ fun b hb => by
        rw [show t.commit.batch = some b from hb] at hn; cases hn

/-- The records of a failed batch: those with no newer entry are DIRTY again and owed to the queue. -/
theorem failRecs_ok (l : List BatchRec) (hl : (l.map (·.entry)).Nodup) (hn : t.commit.batch = none)
    (h : Ok s { w with recs := l.map (·.entry) ++ w.recs } t) :
    Ok s { w with back := ((l.filter fun r => (entryAt t r.entry).newer.isNone).map (·.entry)).reverse ++ w.back }
      (l.foldl (fun u r => failRec r u) t) := by
  induction l generalizing t w with
  | nil => exact h
  | cons r l ih =>
    rw [List.map_cons] at hl
    have ⟨n1, n2⟩ := List.nodup_cons.1 hl
    have k := failRec_ok (w := { w with recs := l.map (·.entry) ++ w.recs }) r hn h
    have hn' : (failRec r t).commit.batch = none := by rw [(failRec_same r t).1, hn]
    have e : ∀ x ∈ l, entryAt (failRec r t) x.entry = entryAt t x.entry := fun x hx =>
      failRec_other r t fun e => n1 (by rw [← e]; exact List.mem_map_of_mem hx)
    have e' : (l.filter fun x => (entryAt (failRec r t) x.entry).newer.isNone) =
        l.filter fun x => (entryAt t x.entry).newer.isNone := List.filter_congr fun x hx => by rw [e x hx]
    rw [List.foldl_cons]
    cases hr : (entryAt t r.entry).newer.isNone with
    | true =>
      rw [hr] at k
      have := ih (w := w.dirt r.entry) n2 hn' k
      rw [e'] at this
      rw [List.filter_cons_of_pos (by simpa using hr)]
      simpa [Due.dirt] using this
    | false =>
      rw [hr] at k
      have := ih (w := w) n2 hn' k
      rw [e'] at this
      rwa [List.filter_cons_of_neg (by simp [hr])]

theorem batchFail_ok (b : Batch) (hb : t.commit.batch = some b) (h : Ok s w t) : Ok s w (batchFail b t) := by
  obtain ⟨hp, hf⟩ := h.busy (.inr (.inl (by simp [hb])))
  obtain ⟨h0, x, hx, hxb, hs⟩ := h.unbatched hb
  have h1 := failRecs_ok (w := w) b.recs (h.batch_nodup hb) rfl (raise_ok .programFail (.block b.block) h0)
  rw [show raise .programFail (.block b.block) { t with commit := { t.commit with batch := none } } =
    { raise .programFail (.block b.block) t with commit := { t.commit with batch := none } } from rfl, failRecs_commit] at h1
  obtain ⟨e1, e2, e3⟩ := failRecs_same b.recs (raise .programFail (.block b.block) t)
  have hp1 := (congrArg (·.phase) e2).trans hp
  have hf1 := (congrArg (·.isSome) e3).trans hf
  unfold batchFail
  dsimp only
  rw [e1]
  generalize b.recs.foldl (fun u r => failRec r u) (raise .programFail (.block b.block) t) = T at h1 hp1 hf1 ⊢
  have h2 : Ok s w { T with commit := { t.commit with
      batch := none
      queue := ((b.recs.filter fun r => (entryAt t r.entry).newer.isNone).map (·.entry)) ++ t.commit.queue
      returned := ((b.recs.filter fun r => (entryAt t r.entry).newer.isNone).map (·.entry)) ++ t.commit.returned } } := by
    refine { h1 with en := { h1.en.returned with queue := fun j => ?_ } }
    have k := h1.en.returned.queue j
    rw [List.count_append, List.count_reverse] at k
    show ((b.recs.filter fun r => (entryAt t r.entry).newer.isNone).map (·.entry) ++ t.commit.queue).count j + _ = _
    rw [List.count_append]
    exact k
  split
  · rename_i y hy
    have hy : t.commit.head = some y := hy
    rw [hx] at hy
    cases hy
    have h3 := { h2 with bk := h2.bk.headGone (h2.no_open hx hs) rfl }
    have hl := h2.left (u := setHead none { T with commit := { t.commit with
      batch := none
      queue := ((b.recs.filter fun r => (entryAt t r.entry).newer.isNone).map (·.entry)) ++ t.commit.queue
      returned := ((b.recs.filter fun r => (entryAt t r.entry).newer.isNone).map (·.entry)) ++ t.commit.returned } })
      (.inl ⟨hx, rfl⟩) rfl
    split
    · exact closeHead_ok x hl h3
    · exact relocateHead_ok x hl hp1 hf1 h3
  · exact h2

theorem onBatchProgram_ok (st : Status) (h : Ok s w t) : Ok s w (onBatchProgram st t) := by
  unfold onBatchProgram
  split
  · split
    · exact batchPass_ok _ (by assumption) h
    · exact batchFail_ok _ (by assumption) h
  · exact h

/-! ### ReclaimEngine -/

/-- The engine changes, but holds the blocks it held. -/
theorem engine_ok (f : Reclaim → Reclaim)
    (hf : (f t.reclaim).head = t.reclaim.head ∧ (f t.reclaim).victim = t.reclaim.victim ∧ (f t.reclaim).reloc = t.reclaim.reloc ∧
      (f t.reclaim).retireWait = t.reclaim.retireWait) (h : Ok s w t) : Ok s w (engine f t) := by
  obtain ⟨e1, e2, e3, e4⟩ := hf
  refine { h with bk := ?_ }
  show BkC _ _ _ _ _ _ _ _ (f t.reclaim).head (f t.reclaim).victim (f t.reclaim).reloc (f t.reclaim).retireWait _ _ _ _
  rw [e1, e2, e3, e4]
  exact h.bk

theorem setCursors_same (r : Reclaim) (src : Source) (a b : Nat) :
    (r.setCursors src a b).head = r.head ∧ (r.setCursors src a b).victim = r.victim ∧ (r.setCursors src a b).reloc = r.reloc ∧
      (r.setCursors src a b).retireWait = r.retireWait := by
  cases src <;> exact ⟨rfl, rfl, rfl, rfl⟩

/-- A victim chosen is a CLOSED block (R118). -/
theorem chooseVictim_closed {b : BlockId} (hr : keysRise t.blocks = true) (h : chooseVictim t = some b) :
    ∃ r, blockGet t b = some r ∧ r.state = .closed := by
  unfold chooseVictim at h
  obtain ⟨p, hp, rfl⟩ := Option.map_eq_some_iff.1 h
  have key : ∀ (l : List (Nat × BlockRec)) (o : Option (Nat × BlockRec)) (q : Nat × BlockRec),
      l.foldl (fun best p => match best with
        | none => some p
        | some q => if victimBefore p q then some p else some q) o = some q → q ∈ l ∨ o = some q := by
    intro l
    induction l with
    | nil => exact fun o q e => .inr e
    | cons a l ih =>
      intro o q e
      rw [List.foldl_cons] at e
      rcases ih _ _ e with k | k
      · exact .inl (List.mem_cons_of_mem _ k)
      · split at k
        · cases k; exact .inl List.mem_cons_self
        · split at k
          · cases k; exact .inl List.mem_cons_self
          · exact .inr k
  rcases key _ _ _ hp with k | k
  · obtain ⟨m, q⟩ := List.mem_filter.1 k
    simp only [qualifies, Bool.and_eq_true, beq_iff_eq] at q
    refine ⟨p.2, ?_, q.1.1⟩
    unfold blockGet
    rw [blockKey_blockAt]
    exact keyGet_mem hr m
  · cases k

theorem takeVictim_ok (b : BlockId) (hc : chooseVictim t = some b) (hp : t.mount.phase = .done) (hf : t.format.isSome = false)
    (h : Ok s w t) : Ok s w (takeVictim b t) := by
  obtain ⟨r, hr, hs⟩ := chooseVictim_closed h.bk.rise hc
  unfold takeVictim
  rw [blockUpd_eq, updAt_some hr]
  exact { h with bk := h.bk.takeVictim hr hs hp hf }

theorem openCopyHead_ok (forRelocation : Bool) (hp : t.mount.phase = .done) (hf : t.format.isSome = false) (h : Ok s w t) :
    Ok s w (openCopyHead forRelocation t) := by
  unfold openCopyHead
  split
  · exact h
  · rename_i b u e
    obtain ⟨h1, hx, e1, e2, e3, e4⟩ := takeFront_ok (.inr rfl) e h
    have hp1 : u.mount.phase = .done := by rw [e3, hp]
    have hf1 : u.format.isSome = false := by rw [e4, hf]
    dsimp only
    split
    · exact issue_plain _ rfl
        { h1 with bk := h1.bk.openCopy ⟨b, 0, 2, 2, .inFlight, some (seqValue u), none⟩ hx hp1 hf1 }
    · exact requestReadOnly_ok { h1 with bk := h1.bk.openCopy ⟨b, 0, 2, 2, .never, none, none⟩ hx hp1 hf1 }

theorem requestCopyHead_ok (hp : t.mount.phase = .done) (hf : t.format.isSome = false) (h : Ok s w t) :
    Ok s w (requestCopyHead t) := by
  unfold requestCopyHead
  dsimp only
  split
  · exact openCopyHead_ok _ hp hf h
  · split
    · exact requestReadOnly_ok h
    · split
      · exact engine_ok _ ⟨rfl, rfl, rfl, rfl⟩ h
      · exact requestReadOnly_ok h

theorem endWalk_ok (src : Source) (h : Ok s w t) : Ok s w (endWalk src t) := by
  unfold endWalk
  split
  · exact engine_ok _ ⟨rfl, rfl, rfl, rfl⟩ h
  · split
    · rename_i b l hl
      obtain ⟨hp, hf⟩ := h.busy (.inr (.inr (.inr (.inr (.inl (by simp [hl]))))))
      have hb := h.bk
      rw [hl] at hb
      obtain ⟨k1, k2, k3⟩ := hb.relocGone
      obtain ⟨r, hr, hs⟩ := recIs_pos (k2 ▸ Nat.one_pos)
      simp only [Bool.and_eq_true, beq_iff_eq] at hs
      exact awaitRetire_ok hr (.inl hs.1) (by simp [hs.2]) (by simp [hs.2]) k3
        (fun c => k1.unerased hr (by simp [hs.2]) (by simp [hs.2]) (bne_iff_ne.2 c)) hp hf { h with bk := k1 }
    · exact h

theorem groupOver_ok (src : Source) (h : Ok s w t) : Ok s w (groupOver src t) := by
  unfold groupOver
  dsimp only
  have k := engine_ok (fun r => r.setCursors src (t.reclaim.readCursor src) (t.reclaim.readCursor src)) (setCursors_same _ _ _ _) h
  split
  · exact endWalk_ok _ k
  · exact k

theorem startGroup_ok (src : Source) (b : BlockId) (x : LogHead) (h : Ok s w t) : Ok s w (startGroup src b x t) := by
  unfold startGroup
  dsimp only
  have k := engine_ok (fun r => { r.setCursors src (walk t b (cursorEnd - t.reclaim.readCursor src) x.slotsLeft
    (t.reclaim.readCursor src)).2 (r.keptCursor src) with source := some src }) (setCursors_same _ _ _ _) h
  split
  · exact groupOver_ok _ k
  · exact issueTogether_plain _ (plain_map _ _ fun _ => rfl) (engine_ok _ ⟨rfl, rfl, rfl, rfl⟩ k)

theorem workOn_ok (src : Source) (b : BlockId) (hp : t.mount.phase = .done) (hf : t.format.isSome = false) (h : Ok s w t) :
    Ok s w (workOn src b t) := by
  unfold workOn
  split
  · exact groupOver_ok _ (engine_ok _ (setCursors_same _ _ _ _) h)
  · split
    · exact startGroup_ok _ _ _ h
    · exact requestCopyHead_ok hp hf (engine_ok _ ⟨rfl, rfl, rfl, rfl⟩ h)

theorem issueCopyProgram_ok (src : Source) (x : LogHead) (h : Ok s w t) : Ok s w (issueCopyProgram src x t) := by
  unfold issueCopyProgram
  exact issue_plain _ rfl (engine_ok _ ⟨rfl, rfl, rfl, rfl⟩ h)

theorem groupRead_ok (h : Ok s w t) : Ok s w (groupRead t) := by
  unfold groupRead
  split
  · exact h
  · split
    · exact engine_ok _ (setCursors_same _ _ _ _) h
    · split
      · exact issueCopyProgram_ok _ _ h
      · exact groupOver_ok _ (engine_ok _ ⟨rfl, rfl, rfl, rfl⟩ h)

/-- A copy read is counted as answered. -/
theorem readAnswered_ok (h : Ok s w t) :
    Ok s w (if (engine (fun e => { e with readsOut := e.readsOut - 1 }) t).reclaim.readsOut = 0 then
        groupRead (engine (fun e => { e with readsOut := e.readsOut - 1 }) t)
      else engine (fun e => { e with readsOut := e.readsOut - 1 }) t) := by
  have k := engine_ok (fun e => { e with readsOut := e.readsOut - 1 }) ⟨rfl, rfl, rfl, rfl⟩ h
  split
  · exact groupRead_ok k
  · exact k

theorem onCopyRead_ok (op : Op) (r : SlotResult) (h : Ok s w t) : Ok s w (onCopyRead op r t) := by
  unfold onCopyRead
  dsimp only
  cases r with
  | good g c =>
    dsimp only
    split
    · exact h
    · refine readAnswered_ok ?_
      split
      · exact h
      · split
        · exact engine_ok _ ⟨rfl, rfl, rfl, rfl⟩ h
        · exact h
  | _ =>
    have k := lostGrading_ok op.line op.loc h
    dsimp only
    split
    · exact k
    · exact readAnswered_ok k

/-- What a copy completion leaves as it was. -/
theorem copyToMap_same (line : Nat) (source dest : Loc) (t : State) :
    (copyToMap line source dest t).reclaim = t.reclaim := by
  unfold copyToMap
  dsimp only
  split
  · rw [show loseValid source t = loseOld (some source) t from rfl, gainValid_eq, loseOld_shift]
    rfl
  · rfl

theorem copyRecs_ok (b : BlockId) (page slot : Nat) (l : List CopyRec) {x : LogHead} (hx : t.reclaim.head = some x)
    (hb : x.block = b) (h : Ok s w t) :
    Ok s w (copyRecs b page slot l t) ∧ (copyRecs b page slot l t).reclaim.head = some x := by
  induction l generalizing t slot with
  | nil => exact ⟨h, hx⟩
  | cons r l ih =>
    exact ih (slot + 1) (by rw [copyToMap_same]; exact hx) (copyToMap_ok _ _ _ hx (by rw [hb]; rfl) h)

theorem programOver_ok (h : Ok s w t) : Ok s w (programOver t) := engine_ok _ ⟨rfl, rfl, rfl, rfl⟩ h

theorem copyPass_ok (src : Source) (x : LogHead) (hx : t.reclaim.head = some x) (h : Ok s w t) : Ok s w (copyPass src x t) := by
  obtain ⟨h1, h2⟩ := copyRecs_ok x.block x.page x.next t.reclaim.buffer hx rfl h
  have h3 := programOver_ok h1
  have h4 : (programOver (copyRecs x.block x.page x.next t.reclaim.buffer t)).reclaim.head = some x := h2
  unfold copyPass
  dsimp only
  generalize programOver (copyRecs x.block x.page x.next t.reclaim.buffer t) = T at h3 h4 ⊢
  refine groupOver_ok _ ?_
  have hk := h3.bk
  split
  · rename_i y hy
    rw [h4] at hk
    exact { h3 with bk := hk.copyOnward (advance_same hy).1 }
  · exact closeHead_ok _ (h3.left (x := x) (.inr ⟨h4, rfl⟩) rfl) { h3 with bk := hk.copyGone }

theorem copyFail_ok (src : Source) (x : LogHead) (hx : t.reclaim.head = some x) (h : Ok s w t) : Ok s w (copyFail src x t) := by
  obtain ⟨hp, hf⟩ := h.busy (.inr (.inr (.inl (by simp [hx]))))
  have h1 := programOver_ok (raise_ok .programFail (.block x.block) h)
  unfold copyFail
  dsimp only
  have h2 : (programOver (raise .programFail (.block x.block) t)).reclaim.head = some x := hx
  have hp2 : (programOver (raise .programFail (.block x.block) t)).mount.phase = .done := hp
  have hf2 : (programOver (raise .programFail (.block x.block) t)).format.isSome = false := hf
  generalize programOver (raise .programFail (.block x.block) t) = T at h1 h2 hp2 hf2 ⊢
  obtain ⟨e1, e2, e3, e4⟩ := setCursors_same T.reclaim src (T.reclaim.keptCursor src) (T.reclaim.keptCursor src)
  refine relocateHead_ok x (h1.left (x := x) (.inr ⟨h2, rfl⟩) rfl) hp2 hf2 { h1 with bk := ?_ }
  show BkC _ _ _ _ _ _ _ _ none (T.reclaim.setCursors src (T.reclaim.keptCursor src) (T.reclaim.keptCursor src)).victim
    (T.reclaim.setCursors src (T.reclaim.keptCursor src) (T.reclaim.keptCursor src)).reloc
    (T.reclaim.setCursors src (T.reclaim.keptCursor src) (T.reclaim.keptCursor src)).retireWait _ _ _ _
  rw [e2, e3, e4]
  exact h1.bk.copyGone

theorem onCopyProgram_ok (st : Status) (h : Ok s w t) : Ok s w (onCopyProgram st t) := by
  unfold onCopyProgram
  split
  · rename_i hx
    split
    · exact copyPass_ok _ _ hx h
    · exact copyFail_ok _ _ hx h
  · exact h

theorem onCopyOpenStamp_ok (st : Status) (h : Ok s w t) : Ok s w (onCopyOpenStamp st t) := by
  unfold onCopyOpenStamp
  split
  · rename_i x hx
    have hk := h.bk
    dsimp only
    split
    · rw [hx] at hk
      exact { h with bk := hk.copyOnward (y := { x with stamp := .passed }) rfl }
    · obtain ⟨hp, hf⟩ := h.busy (.inr (.inr (.inl (by simp [hx]))))
      exact relocateHead_ok x (h.left (x := x) (.inr ⟨hx, rfl⟩) rfl) hp hf
        { raise_ok .programFail (.block x.block) h with bk := hk.copyGone }
  · exact h

theorem handRetire_ok (b : BlockId) (hb : b ∈ t.reclaim.retireWait) (hv : emptied t b = true) (h : Ok s w t) :
    Ok s w (handRetire b t) := by
  obtain ⟨hp, hf⟩ := h.busy (.inr (.inr (.inr (.inr (.inr (.inl fun c => by rw [c] at hb; cases hb))))))
  have hv : ∀ r, keyGet (blockKey b) t.blocks = some r → r.valid = 0 := fun r hr => by
    unfold emptied blockGet at hv
    rw [hr] at hv
    simp only [Bool.and_eq_true, beq_iff_eq] at hv
    exact hv.1
  unfold handRetire
  dsimp only
  split
  · obtain ⟨r, hr, k, kz⟩ := h.bk.waitGone hb .retireHanded (.inl rfl) hv
    rw [blockUpd_eq, updAt_some (show keyGet (blockKey b) (engine _ t).blocks = some r from hr)]
    exact { h with bk := k.addReq (by rw [recIs_put]; simp) kz hp hf }
  · obtain ⟨r, hr, k, kz⟩ := h.bk.waitGone hb .stuck (.inr rfl) hv
    rw [blockUpd_eq, updAt_some (show keyGet (blockKey b) (engine _ t).blocks = some r from hr)]
    exact requestReadOnly_ok (raise_ok _ _ { h with bk := k })

/-- The victim's blocks become ERASING once it is walked, empty and unread (R127). -/
theorem victimStep_ok (e : victimStep t = some u) (h : Ok s w t) : Ok s w u := by
  unfold victimStep at e
  split at e
  · rename_i b hb
    split at e
    · rename_i hv
      cases e
      simp only [Bool.and_eq_true] at hv
      have hv := hv.2
      unfold emptied at hv
      cases hr : blockGet t b with
      | none => rw [hr] at hv; cases hv
      | some r =>
        rw [hr] at hv
        simp only [Bool.and_eq_true, beq_iff_eq] at hv
        have hk := h.bk
        rw [hb] at hk
        rw [blockUpd_eq, updAt_some hr]
        exact { h with bk := hk.eraseVictim hr hv.1 }
    · cases e
  · cases e

/-! ### IdentityManager -/

theorem retireKeys_def (q : List IdRequest) (x : Option Update) :
    retireKeys q x = (retireBlocks q).map blockKey ++ (retireBlocks ((x.map (·.served)).getD [])).map blockKey := by
  unfold retireKeys
  rw [retireBlocks_append, List.map_append]

/-- The manager changes, but the retirements asked of it stay. -/
theorem identity_ok (f : Identity → Identity)
    (hq : retireKeys (f t.ident).queue (f t.ident).update = retireKeys t.ident.queue t.ident.update)
    (hr : t.mount.phase = .done ∨ (f t.ident).retired = t.ident.retired) (h : Ok s w t) : Ok s w (identity f t) :=
  { h with
    bk := h.bk.requests hq
    mi := { h.mi with
      range := fun k => by
        rcases hr with hr | hr
        · exact absurd hr k
        · show ∀ j x, _ → _ ∧ _ ∧ (f t.ident).retired.contains _ = false
          rw [hr]
          exact h.mi.range k } }

theorem setCopy_same (m : Identity) (c : IdCopy) (v : CopyState) :
    (m.setCopy c v).queue = m.queue ∧ (m.setCopy c v).update = m.update ∧ (m.setCopy c v).retired = m.retired := by
  cases c <;> exact ⟨rfl, rfl, rfl⟩

theorem failCopy_ok (c : IdCopy) (h : Ok s w t) : Ok s w (failCopy c t) := by
  obtain ⟨e1, e2, e3⟩ := setCopy_same t.ident c { t.ident.copy c with good := false }
  unfold failCopy
  exact raise_ok _ _ (identity_ok _ (by rw [e1, e2]) (.inr e3) h)

theorem formUpdate_ok (hu : t.ident.update = none) (h : Ok s w t) : Ok s w (formUpdate t) := by
  unfold formUpdate
  refine identity_ok _ ?_ (.inr rfl) h
  rw [hu, retireKeys_def, retireKeys_def]
  simp [retireBlocks]

/-- A change of the update in flight that serves the same requests asks for the same retirements. -/
theorem retireKeys_update (q : List IdRequest) (x : Option Update) (f : Update → Update) (hf : ∀ y, (f y).served = y.served) :
    retireKeys q (x.map f) = retireKeys q x := by
  cases x with
  | none => rfl
  | some y => simp [retireKeys, hf]

theorem updateStage_ok (st : UpdateStage) (h : Ok s w t) : Ok s w (updateStage st t) := by
  unfold updateStage
  exact identity_ok _ (retireKeys_update _ _ _ fun _ => rfl) (.inr rfl) h

theorem startCopy_ok (c : IdCopy) (h : Ok s w t) : Ok s w (startCopy c t) := by
  unfold startCopy
  exact updateStage_ok _ h

theorem issueStep_ok (c : IdCopy) (step : IdStep) (page : UpdatePage) (h : Ok s w t) : Ok s w (issueStep c step page t) := by
  unfold issueStep
  dsimp only
  have k := updateStage_ok (.out c step) h
  repeat' first
    | with_reducible assumption
    | ((with_reducible apply issue_plain); · rfl)
    | split

theorem answerFreeze_ok (x : Update) (h : Ok s w t) : Ok s w (answerFreeze x t) := by
  unfold answerFreeze
  split
  · exact freezeAnswered_ok _ h
  · exact h

theorem setRetired_eq (b : BlockId) (t : State) :
    setRetired b t =
      { t with blocks := updAt (blockKey b) (fun r => { r with state := .retired, valid := 0, closeSeq := none, work := .none }) t.blocks } :=
  blockUpd_eq _ _ _

theorem setRetireds_eq (l : List BlockId) (t : State) :
    l.foldl (fun x b => setRetired b x) t = { t with blocks := (l.foldl (fun x b => setRetired b x) t).blocks } ∧
      ∀ u : State, u.blocks = t.blocks → (l.foldl (fun x b => setRetired b x) u).blocks = (l.foldl (fun x b => setRetired b x) t).blocks := by
  induction l generalizing t with
  | nil => exact ⟨rfl, fun u e => e⟩
  | cons b l ih =>
    rw [List.foldl_cons]
    obtain ⟨k1, k2⟩ := ih (setRetired b t)
    refine ⟨?_, fun u e => k2 _ ?_⟩
    · rw [k1, setRetired_eq]
    · dsimp only
      rw [setRetired_eq, setRetired_eq, e]

/-- The blocks whose retirement is answered are RETIRED. -/
theorem setRetireds_ok (l : List BlockId) (h : Ok s { w with reqs := l ++ w.reqs } t) :
    Ok s w (l.foldl (fun x b => setRetired b x) t) := by
  induction l generalizing t with
  | nil => exact h
  | cons b l ih =>
    obtain ⟨r, hr, k⟩ := BkC.retire (w := w.bare) (b := b) (l := l ++ w.reqs) h.bk
    refine ih ?_
    dsimp only
    rw [setRetired_eq, updAt_some hr]
    exact { h with en := { h.en with }, mi := { h.mi with }, bk := k }

theorem updateAnswered_ok (x : Update) (hx : t.ident.update = some x) (h : Ok s w t) : Ok s w (updateAnswered x t) := by
  have hr : t.mount.phase = .done ∨ retireBlocks x.served = [] := by
    by_cases hn : retireBlocks x.served = []
    · exact .inr hn
    · refine .inl (h.busy (.inr (.inr (.inr (.inr (.inr (.inr ?_))))))).1
      rw [retireKeys_def, hx]
      simp [hn]
  have hk := h.bk
  rw [hx] at hk
  have h1 : Ok s { w with reqs := retireBlocks x.served ++ w.reqs } { t with ident := { t.ident with
      update := none
      retired := t.ident.retired ++ retireBlocks x.served
      persistent := if x.written then x.page.frozen else t.ident.persistent } } :=
    { h with
      en := { h.en with }
      bk := hk.answered
      mi := { h.mi with
        range := fun k => by
          rcases hr with hr | hr
          · exact absurd hr k
          · show ∀ j f, _ → _ ∧ _ ∧ (t.ident.retired ++ retireBlocks x.served).contains _ = false
            rw [hr, List.append_nil]
            exact h.mi.range k } }
  have h2 := setRetireds_ok _ h1
  obtain ⟨e1, _⟩ := setRetireds_eq (retireBlocks x.served) t
  have e2 := fun T (e : t.blocks = T.blocks) => (setRetireds_eq (retireBlocks x.served) T).2 t e
  rw [(setRetireds_eq (retireBlocks x.served) _).1, ← e2] at h2
  rotate_left
  · rfl
  unfold updateAnswered
  dsimp only
  rw [e1]
  have h3 : Ok s w (answerFreeze x (engine (fun r => { r with retirements := r.retirements - (retireBlocks x.served).length })
      (identity (fun m => { m with
        update := none
        retired := m.retired ++ retireBlocks x.served
        persistent := if x.written then x.page.frozen else m.persistent })
        { t with blocks := ((retireBlocks x.served).foldl (fun x b => setRetired b x) t).blocks }))) :=
    answerFreeze_ok _ (engine_ok _ ⟨rfl, rfl, rfl, rfl⟩ h2)
  revert h3
  generalize answerFreeze x _ = U
  intro h3
  split
  · exact h3
  · exact requestReadOnly_ok h3

theorem copyWritten_ok (c : IdCopy) (next : Nat) (h : Ok s w t) : Ok s w (copyWritten c next t) := by
  obtain ⟨e1, e2, e3⟩ := setCopy_same t.ident c { t.ident.copy c with next := next, rollDue := false }
  unfold copyWritten
  refine updateStage_ok _ (identity_ok _ ?_ (.inr e3) h)
  dsimp only
  rw [e1]
  exact retireKeys_update _ _ _ fun _ => rfl

theorem onIdentityProgram_ok (st : Status) (h : Ok s w t) : Ok s w (onIdentityProgram st t) := by
  unfold onIdentityProgram
  split
  · exact copyWritten_ok _ _ h
  · exact updateStage_ok _ h
  · exact copyWritten_ok _ _ h
  · exact updateStage_ok _ (failCopy_ok _ h)
  · exact h

theorem onIdentityErase_ok (st : Status) (h : Ok s w t) : Ok s w (onIdentityErase st t) := by
  unfold onIdentityErase
  split
  · exact updateStage_ok _ h
  · exact updateStage_ok _ (failCopy_ok _ h)
  · exact h

/-! ### Erases and erase stamps -/

theorem job_ok (f : FormatJob → FormatJob) (h : Ok s w t) : Ok s w (job f t) :=
  have e : (t.format.map f).isSome = t.format.isSome := by simp
  { h with mode := by simpa [job] using h.mode
           bk := by
            show BkC _ _ _ _ _ _ _ _ _ _ _ _ _ _ _ (t.format.map f).isSome
            rw [e]
            exact h.bk }

/-- What holds of a block whose erase or erase stamp is answered: the mount is over, the block is ERASING and empty, and nothing more is
outstanding on it. -/
structure Erasing (w : Due) (t : State) (b : BlockId) (r : BlockRec) : Prop where
  done : t.mount.phase = .done
  get : keyGet (blockKey b) t.blocks = some r
  state : r.state = .erasing
  valid : r.valid = 0
  waiting : r.work ≠ .retireWaiting
  handed : r.work ≠ .retireHanded
  none : ∀ role, (role = .erase ∨ role = .eraseStamp) →
    opsOut (isErase role (blockKey b)) t.dies + opsCount (isErase role (blockKey b)) w.bare.ops = 0

theorem OkC.erasing {op : Op} (h : Ok s (w.op op) t) (ho : op.role = .erase ∨ op.role = .eraseStamp) (hs : op.stale = false)
    (hm : t.mode ≠ .unformatted) : ∃ r, Erasing w t op.block r ∧ r.work = eraseWork op.role := by
  obtain ⟨hp, r, hr, h1, h2, h3, h4⟩ := BkC.eraseTaken (w := w.bare) h.bk ho hs (bne_iff_ne.2 hm)
  refine ⟨r, ⟨hp, hr, h1, h2, ?_, ?_, h4⟩, h3⟩ <;> rcases ho with ho | ho <;> rw [h3, ho] <;> simp [eraseWork]

theorem formatRetire_ok {b : BlockId} {r : BlockRec} (hb : Erasing w t b r) (h : Ok s w t) : Ok s w (formatRetire b t) := by
  unfold formatRetire
  split
  · rw [setRetired_eq, updAt_some (show keyGet (blockKey b) (identity _ t).blocks = some r from hb.get)]
    have k := identity_ok (fun m => { m with retired := m.retired ++ [b] }) rfl (.inl hb.done) h
    exact { k with bk := k.bk.retireNow hb.get hb.state hb.waiting hb.handed fun _ => hb.none }
  · refine raise_ok _ _ (job_ok _ ?_)
    rw [blockUpd_eq, updAt_some hb.get]
    exact { h with bk := h.bk.work hb.get hb.state hb.waiting hb.handed .stuck (by simp) fun _ => hb.none }

theorem eraseFailed_ok {b : BlockId} {r : BlockRec} (hb : Erasing w t b r) (h : Ok s w t) : Ok s w (eraseFailed b t) := by
  unfold eraseFailed
  split
  · exact formatRetire_ok hb h
  · rename_i hf
    have hz := (h.bk.at hb.get).reloc
    rw [if_neg (by simp [hb.state])] at hz
    exact awaitRetire_ok hb.get (.inr hb.state) hb.waiting hb.handed (Nat.le_zero.1 hz) (fun _ => hb.none) hb.done (by simpa using hf) h

theorem onErase_ok {op : Op} (st : Status) (hr : op.role = .erase) (hs : op.stale = false) (h : Ok s (w.op op) t) :
    Ok s w (onErase op.block st t) := by
  have hd := h.drop_op
  unfold onErase
  split
  · split
    · exact hd
    · rename_i hm
      obtain ⟨r, hb, hw⟩ := h.erasing (.inl hr) hs hm
      have e : blockUpd op.block (fun r => { r with work := .stampOut }) t =
          { t with blocks := keyPut (blockKey op.block) { r with work := .stampOut } t.blocks } := by
        rw [blockUpd_eq, updAt_some hb.get]
      rw [e]
      have k : Ok s w { t with blocks := keyPut (blockKey op.block) { r with work := .stampOut } t.blocks } :=
        { hd with bk := hd.bk.work hb.get hb.state hb.waiting hb.handed .stampOut (by simp) fun _ => hb.none }
      refine issue_ok _ { k with
        en := k.en.other rfl
        mi := MiC.other (w := w.bare) k.mi (by simp [eraseStampOp, programOp]) (by simp [eraseStampOp, programOp])
        bk := BkC.eraseIssue (w := w.bare) k.bk (.inr rfl) rfl (fun _ => hb.none _ (.inr rfl)) ?_ }
      show recIs _ (blockKey op.block) (·.work == .stampOut) = 1
      rw [recIs_put]
      simp
  · dsimp only
    split
    · exact raise_ok _ _ hd
    · rename_i hm
      obtain ⟨r, hb, hw⟩ := h.erasing (.inl hr) hs hm
      exact eraseFailed_ok (r := r) { hb with } (raise_ok _ _ hd)

theorem onEraseStamp_ok {op : Op} (st : Status) (hr : op.role = .eraseStamp) (hs : op.stale = false) (h : Ok s (w.op op) t) :
    Ok s w (onEraseStamp op.block op.data st t) := by
  have hd := h.drop_op
  unfold onEraseStamp
  split
  · have k := blockUpd_ok op.block (fun r => { r with eraseCount := some (stampCount op.data) }) (fun _ => ⟨rfl, rfl, rfl⟩) hd
    dsimp only
    split
    · exact k
    · rename_i hm
      obtain ⟨r, hb, hw⟩ := h.erasing (.inr hr) hs hm
      refine engine_ok _ ⟨rfl, rfl, rfl, rfl⟩ (joinFree_ok (r := { r with eraseCount := some (stampCount op.data) }) ?_ hb.state
        (by rw [hr] at hw; exact hw) hb.valid ?_ k)
      · unfold blockGet
        rw [blockUpd_eq, keyGet_updAt, hb.get]
        simp
      · rw [blockUpd_eq]
        exact hb.none
  · dsimp only
    split
    · exact raise_ok _ _ hd
    · rename_i hm
      obtain ⟨r, hb, hw⟩ := h.erasing (.inr hr) hs hm
      exact eraseFailed_ok (r := r) { hb with } (raise_ok _ _ hd)

theorem EnC.ops_le {w' : Due} {st : List Entry} {lru queue : List Nat} {b : Option Batch} {dies : List DieRec} {wh : List Nat}
    (h : EnC w st lru queue b dies wh) (ho : ∀ q, opsCount q w'.ops ≤ opsCount q w.ops) (h1 : w'.fills = w.fills)
    (h2 : w'.recs = w.recs) (h3 : w'.back = w.back) : EnC w' st lru queue b dies wh :=
  ⟨fun i => by rw [h3]; exact h.queue i, h.lru, fun i => by rw [h2]; exact h.recs i,
    fun i => by have := h.fills i; have := ho (isFill i); rw [h1]; omega⟩

/-- What is on its way among operations may be less, or in another order. -/
theorem OkC.ops_le {ops : List Op} (h : Ok s w t) (ho : ∀ q, opsCount q ops ≤ opsCount q w.ops) : Ok s { w with ops := ops } t :=
  { h with
    en := h.en.ops_le ho rfl rfl rfl
    bk := h.bk.debts ho rfl
    mi := h.mi.debts ho }

/-- The erases of blocks that wait for them are issued. -/
theorem eraseOuts_ok (l : List BlockId) (hn : (l.map blockKey).Nodup)
    (hl : ∀ b ∈ l, ∃ r, keyGet (blockKey b) t.blocks = some r ∧ r.work = .eraseWaiting) (h : Ok s w t) :
    Ok s { w with ops := l.map (eraseOp .erase .eraseStamp) ++ w.ops }
      (l.foldl (fun t b => blockUpd b (fun r => { r with work := .eraseOut }) t) t) := by
  induction l generalizing t w with
  | nil => exact h
  | cons b l ih =>
    obtain ⟨n1, n2⟩ := List.nodup_cons.1 (show (blockKey b :: l.map blockKey).Nodup from hn)
    obtain ⟨r, hr, hw⟩ := hl b List.mem_cons_self
    have hs : r.state = .erasing := by have := h.bk.works _ _ hr; simpa [BlockRec.workFits, hw] using this
    have hz := h.bk.unerased hr (by simp [hw]) (by simp [hw])
    rw [List.foldl_cons, blockUpd_eq, updAt_some hr]
    have k : Ok s w { t with blocks := keyPut (blockKey b) { r with work := .eraseOut } t.blocks } :=
      { h with bk := h.bk.work hr hs (by simp [hw]) (by simp [hw]) .eraseOut (by simp) hz }
    have k' : Ok s (w.op (eraseOp .erase .eraseStamp b)) { t with blocks := keyPut (blockKey b) { r with work := .eraseOut } t.blocks } :=
      { k with
        en := k.en.other rfl
        mi := MiC.other (w := w.bare) k.mi (by simp [eraseOp]) (by simp [eraseOp])
        bk := BkC.eraseIssue (w := w.bare) k.bk (.inl rfl) rfl (fun f => hz f _ (.inl rfl)) (by
          show recIs _ (blockKey b) (·.work == .eraseOut) = 1
          rw [recIs_put]
          simp) }
    refine (ih n2 (fun c hc => ?_) k').ops_le fun q => ?_
    · obtain ⟨x, hx, hxw⟩ := hl c (List.mem_cons_of_mem _ hc)
      refine ⟨x, (keyGet_keyPut_other (fun e => n1 ?_) _ _).trans hx, hxw⟩
      rw [← e]
      exact List.mem_map_of_mem hc
    · rw [List.map_cons, List.cons_append, opsCount_cons, opsCount_append, opsCount_append]
      show _ ≤ _ + opsCount q (_ :: w.ops)
      rw [opsCount_cons]
      omega

theorem eraseStep_ok (e : eraseStep t = some u) (h : Ok s w t) : Ok s w u := by
  unfold eraseStep at e
  generalize hbs : ((t.blocks.filter (eraseReady t)).map fun p => blockAt p.1) = bs at e
  split at e
  · cases e
  · cases e
    have hk : bs.map blockKey = (t.blocks.filter (eraseReady t)).map (·.1) := by
      rw [← hbs, List.map_map]
      exact List.map_congr_left fun p _ => blockKey_blockAt p.1
    refine issueTogether_ok _ (eraseOuts_ok bs ?_ (fun b hb => ?_) h)
    · rw [hk]
      have : (t.blocks.map (·.1)).Nodup := by
        have k := (keysRise_pairwise _).1 h.bk.rise
        rw [List.Nodup, List.pairwise_map]
        exact k.imp fun c e => by omega
      exact (List.filter_sublist.map _).nodup this
    · rw [← hbs] at hb
      obtain ⟨p, hp, rfl⟩ := List.mem_map.1 hb
      obtain ⟨m, q⟩ := List.mem_filter.1 hp
      simp only [eraseReady, Bool.and_eq_true, beq_iff_eq] at q
      exact ⟨p.2, by rw [blockKey_blockAt]; exact keyGet_mem h.bk.rise m, q.1.1⟩

/-! ### Format -/

theorem EnC.cleared (wf : Bool) (dies : List DieRec) (hd : ∀ i, opsOut (isFill i) dies = 0) :
    EnC (.none wf) (List.replicate Config.entries Entry.cleared) [] [] none dies [] := by
  have k : ∀ i x, x ≠ .free → isIn (List.replicate Config.entries Entry.cleared) i x = 0 := by
    intro i x hx
    unfold isIn
    rw [if_neg]
    intro e
    rw [List.getD_eq_getElem?_getD, List.getElem?_replicate] at e
    split at e <;> exact hx (by rw [← e]; rfl)
  refine ⟨fun i => ?_, fun i => ?_, fun i => ?_, fun i => ?_⟩
  · rw [k _ _ (by decide)]; rfl
  · rw [k _ _ (by decide)]; rfl
  · rw [k _ _ (by decide)]; rfl
  · rw [k _ _ (by decide), hd]; exact le_refl _

/-- No line has a stamp where the map is empty and the staging buffer cleared. -/
theorem StC.cleared (regions : List Region) {acc : Bool} {phase : MountPhase} {cands : List Candidate} (ha : acc = true → phase = .done)
    (hc : ∀ c ∈ cands, c.stamps ≤ Config.stampsMax) :
    StC (List.replicate Config.entries Entry.cleared) [] regions none acc phase cands := by
  have e : ∀ i, (List.replicate Config.entries Entry.cleared).getD i Entry.cleared = Entry.cleared := fun i => by
    rw [List.getD_eq_getElem?_getD, List.getElem?_replicate]
    split <;> rfl
  refine ⟨fun l => Nat.zero_le _, fun l _ => ?_, fun b k => (nomatch k), fun i => ?_, ha, hc⟩
  · have : pendingIn (List.replicate Config.entries Entry.cleared) l = 0 := by
      unfold pendingIn
      rw [List.countP_replicate]
      rfl
    rw [this]
    exact Nat.zero_le _
  · rw [e]
    exact EntryOk.cleared _

theorem opsCount_allStale (q : OpRole → Bool → BlockId → Bool) (hq : ∀ r b, q r true b = false) (r : DieRec) :
    opsCount q (r.markStale fun _ => true).ops = 0 := by
  refine List.countP_eq_zero.2 fun op h => ?_
  have : op.stale = true := by
    cases r with
    | mk st fl q =>
      cases fl <;> simp [DieRec.markStale, DieRec.ops] at h
      · obtain ⟨a, _, rfl⟩ := h; rfl
      · rcases h with rfl | ⟨a, _, rfl⟩ <;> rfl
  simp [this, hq]

theorem opsOut_allStale (q : OpRole → Bool → BlockId → Bool) (hq : ∀ r b, q r true b = false) (t : State) :
    opsOut q (markStale (fun _ => true) t).dies = 0 := by
  show ((t.dies.map (·.markStale fun _ => true)).map fun d => opsCount q d.ops).sum = 0
  rw [List.map_map]
  refine List.sum_eq_zero fun x hx => ?_
  obtain ⟨r, _, rfl⟩ := List.mem_map.1 hx
  exact opsCount_allStale q hq r

theorem formatClear_ops (n : Nat) (q : OpRole → Bool → BlockId → Bool) (hq : ∀ r b, q r true b = false) :
    opsOut q (joinDies n (markStale (fun _ => true) t)).dies = 0 := by
  have h1 : opsOut q (joinDies n (markStale (fun _ => true) t)).dies ≤ opsOut q (markStale (fun _ => true) t).dies :=
    opsOut_zipIdx_le q _ (fun r n => by dsimp only; split <;> exact le_refl _) 0
  have := opsOut_allStale q hq t
  omega

/-- The record of a block of a format's table. -/
def formatOf (t : State) (k : Nat) : BlockRec := if isIdentityBlock (blockAt k) then identityRec else formatRec (keyGet k t.blocks)

theorem formatOf_fits (t : State) (k : Nat) :
    (formatOf t k).valid = 0 ∧ (formatOf t k).state ≠ .free ∧ (isIdentityBlock (blockAt k) = true → (formatOf t k).state = .identity) ∧
      (formatOf t k).workFits = true := by
  unfold formatOf
  split
  · exact ⟨rfl, by simp [identityRec], fun _ => rfl, rfl⟩
  · rename_i c
    exact ⟨rfl, by simp [formatRec], fun k => absurd k c, rfl⟩

/-- A format has cleared everything and runs: what the invariants need of the state before is only what it does not clear. -/
theorem formatClear_ok {f : Bool} (regions : List Region) (n : Nat) (j : FormatJob) (hp : t.mount.phase = .done) (hm : t.mode = .formatting)
    (h : Ok s (.none f) (markStale (fun _ => true) t)) : Ok s (.none f) { formatClear regions n t with format := some j } := by
  have hd := formatClear_ops (t := t) n
  have hle : ∀ q, opsOut q (joinDies n (markStale (fun _ => true) t)).dies ≤ opsOut q (markStale (fun _ => true) t).dies := fun q =>
    opsOut_zipIdx_le q _ (fun r n => by dsimp only; split <;> exact le_refl _) 0
  have fits := formatOf_fits t
  have hb : ∀ force, BkC (Due.none f).bare force
      ((List.range (n * Config.dieBlocks)).map fun k => (k, formatOf t k)) [] [] (joinDies n (markStale (fun _ => true) t)).dies none none
      none none [] [] [] none .done true := fun force => by
    refine BkC.made (n * Config.dieBlocks) (formatOf t) (fun k => ?_) (fun k => ?_) (fun k _ => (fits k).2.2.1) (fun k _ _ => (fits k).1)
      (fun k _ => (fits k).2.2.2) (fun _ k => ?_) (fun _ k => ?_) ?_ rfl rfl
    · rw [(fits k).1]; split <;> rfl
    · rw [if_neg fun c => (fits k).2.1 c.2]; rfl
    · rw [hd _ fun _ _ => rfl]; exact Nat.zero_le _
    · rw [hd _ fun _ _ => rfl]; exact Nat.zero_le _
    · rw [hd _ fun _ _ => rfl]; rfl
  have hb := hb (t.mode != .unformatted)
  rw [← hp] at hb
  unfold formatClear
  exact
    { rst := h.rst
      pend := h.pend
      pfw := h.pfw
      now := h.now
      set := h.set
      slen := by simp [reconsiderSpace, joinDies, clearStaging]
      dlen := by simpa [reconsiderSpace, joinDies, clearStaging, markStale] using h.dlen
      map := rfl
      faults := h.faults
      mode := ⟨h.mode.1, fun _ => hm, h.mode.2.2.1, h.mode.2.2.2⟩
      space := reconsiderSpace_space _ _
      en := EnC.cleared f _ fun i => hd (isFill i) fun _ _ => rfl
      bk := hb
      mi := { h.mi.dies_le hle with range := fun k => absurd hp k }
      stc := fun hw => StC.cleared regions (h.stc hw).acc (h.stc hw).cands }

theorem answer_stale (b : Option Byte) (p : Op → Bool) (t : State) : markStale p (answer b t) = answer b (markStale p t) := by
  unfold answer
  rw [show (markStale p t).host = t.host from rfl]
  split <;> rfl

/-- Operations may be marked as stale before FORMATTING is entered, as well as after. -/
theorem setMode_stale (p : Op → Bool) (hm : t.mode ≠ .parked) :
    markStale p (setMode .formatting t) = setMode .formatting (markStale p t) := by
  have e1 : markStale p (endWaitingWrite .formatting t) = endWaitingWrite .formatting (markStale p t) := by
    unfold endWaitingWrite
    dsimp only
    rw [show writeWaiting (markStale p t) = writeWaiting t from rfl, ← answer_stale]
    split
    · split
      · rename_i x _
        cases x <;> rfl
      · rfl
    · rfl
  have e2 : ∀ u, markStale p (endWaitingRead .formatting u) = endWaitingRead .formatting (markStale p u) := fun u => by
    unfold endWaitingRead
    rw [show waitsFor (markStale p u) = waitsFor u from rfl, ← answer_stale]
    split <;> rfl
  unfold setMode
  rw [show (markStale p t).mode = t.mode from rfl]
  split
  · rfl
  · rw [← e1, ← e2]
    simp only
    rfl

theorem formatAccept_ok {f : Bool} (regions : List Region) (h1 : t.mode ≠ .mounting) (h2 : t.mode ≠ .parked) (h3 : t.mode ≠ .formatting)
    (h : Ok s (.none f) t) : Ok s (.none f) (formatAccept regions t) := by
  have hp := h.phase_done h1
  have hf := h.no_format h3
  have hh : t.heldReadOnly = false := h.not_held h3 h2
  unfold formatAccept
  dsimp only
  refine issue_plain _ rfl (issue_plain _ rfl ?_)
  have h0 : HOk true s (.none f) (markStale (fun _ => true)
      { t with maint := { t.maint with slot := some (.format regions) }, heldReadOnly := false }) := by
    have k := markStale_hok (fun _ => true) h.unheld
    have z := fun role b => opsOut_allStale (isErase role b) (fun _ _ => rfl) t
    exact { k with bk := { k.bk with
      erases := fun _ b => by
        show opsOut _ (markStale (fun _ => true) t).dies + 0 ≤ _
        rw [z]; exact Nat.zero_le _
      stamps := fun _ b => by
        show opsOut _ (markStale (fun _ => true) t).dies + 0 ≤ _
        rw [z]; exact Nat.zero_le _ } }
  have h4 := setMode_ok (t := markStale (fun _ => true)
    { t with maint := { t.maint with slot := some (.format regions) }, heldReadOnly := false })
    .formatting hp (fun _ => rfl) (fun k => absurd k Bool.false_ne_true) h3 (fun _ => rfl) h0
  rw [← setMode_stale (t := { t with maint := { t.maint with slot := some (.format regions) }, heldReadOnly := false }) _ h2] at h4
  have m4 := setMode_mode (t := { t with maint := { t.maint with slot := some (.format regions) }, heldReadOnly := false })
    .formatting h2
  refine formatClear_ok regions _ _ (h4.phase_done ?_) m4 h4
  rw [show (markStale _ _).mode = _ from m4]
  simp

theorem formatFailed_ok (r : Result) (hf : t.format.isSome = true) (h : Ok s w t) : Ok s w (formatFailed r t) := by
  have hm : t.mode = .formatting := h.mode.2.1 hf
  have hp := h.phase_done (t := t) (by simp [hm])
  have hk := h.bk
  rw [hf] at hk
  have hb : t.commit.batch = none := (hk.quiet (.inr rfl)).2.1
  unfold formatFailed
  dsimp only
  have h0 : HOk false s w (reconsiderSpace
    { t with
      format := none, regions := [], lineMap := [], frozen := [], freeList := [], blocks := t.blocks.map unformattedRec,
      commit := { t.commit with seq := none } }) :=
    { h.unheld with
      map := rfl
      mode := ⟨h.mode.1, fun k => absurd k Bool.false_ne_true, h.mode.2.2.1, fun k => absurd k Bool.false_ne_true⟩
      space := reconsiderSpace_space _ _
      bk := hk.unformatted hp
      stc := fun hw =>
        { h.stc hw with
          le := fun l => Nat.zero_le _
          sum := fun l c => absurd c Bool.false_ne_true
          recs := fun b c => by rw [show t.commit.batch = some b from c] at hb; cases hb } }
  have e := completeLong_same r (reconsiderSpace
    { t with
      format := none, regions := [], lineMap := [], frozen := [], freeList := [], blocks := t.blocks.map unformattedRec,
      commit := { t.commit with seq := none } })
  refine setMode_ok _ ?_ ?_ (fun _ => .inr (.inr (.inr rfl))) ?_ (fun c => absurd rfl c) (completeLong_hok _ h0)
  · rw [e.1]; exact hp
  · rw [e.2.1]; exact fun k => nomatch k
  · rw [e.2.2.2]
    intro k
    have k : t.mode = .unformatted := k
    rw [hm] at k
    cases k

theorem formatDone_ok (j : FormatJob) (hf : t.format.isSome = true) (h : Ok s w t) : Ok s w (formatDone j t) := by
  have hm : t.mode = .formatting := h.mode.2.1 hf
  have hp := h.phase_done (t := t) (by simp [hm])
  have hk := h.bk
  rw [hf] at hk
  have hu : (t.mode != .unformatted) = true := by rw [hm]; rfl
  unfold formatDone
  dsimp only
  refine endMode_ok _ ?_ ?_ ?_ (.inr ?_) (completeLong_hok _ ?_)
  · rw [(completeLong_same _ _).1]; exact hp
  · rw [(completeLong_same _ _).2.1]; rfl
  · rw [(completeLong_same _ _).2.2.1]
    intro k
    simp [show t.heldReadOnly = true from k, identity, setSpace]
  · rw [(completeLong_same _ _).2.2.2]; exact hm
  · refine { h.unheld with
      mode := ⟨h.mode.1, fun k => absurd k Bool.false_ne_true, h.mode.2.2.1, fun k => absurd k Bool.false_ne_true⟩
      space := setSpace_space _ _
      bk := ?_ }
    rw [hu] at hk
    exact { hk with quiet := fun _ => hk.quiet (.inr rfl) }

theorem formatErases_ok (h : Ok s w t) : Ok s w (formatErases t) := by
  unfold formatErases
  exact job_ok _ { h with bk := h.bk.released }

theorem formatWrites_ok (j : FormatJob) (h : Ok s w t) : Ok s w (formatWrites j t) := by
  unfold formatWrites
  exact job_ok _ (identity_ok _ rfl (.inr rfl) h)

theorem formatStartCopy_ok (c : IdCopy) (h : Ok s w t) : Ok s w (formatStartCopy c t) := by
  unfold formatStartCopy
  split
  · exact issue_plain _ rfl (job_ok _ h)
  · exact job_ok _ h

theorem formatStep_ok (e : formatStep t = some u) (h : Ok s w t) : Ok s w u := by
  unfold formatStep at e
  split at e
  · cases e
  · rename_i j hj
    have hf : t.format.isSome = true := by rw [hj]; rfl
    split at e
    · split at e
      · cases e
        split
        · exact formatFailed_ok _ hf h
        · exact formatErases_ok h
      · cases e
    · split at e
      · split at e
        · cases e
        · cases e; exact formatWrites_ok _ h
      · split at e
        · cases e; exact formatStartCopy_ok _ h
        · cases e
        · cases e
          split
          · exact formatDone_ok _ hf h
          · exact formatFailed_ok _ hf h

theorem onFormatErase_ok (b : BlockId) (st : Status) (h : Ok s w t) : Ok s w (onFormatErase b st t) := by
  unfold onFormatErase
  dsimp only
  refine job_ok _ ?_
  split
  · exact h
  · exact failCopy_ok _ h

theorem onFormatProgram_ok (st : Status) (h : Ok s w t) : Ok s w (onFormatProgram st t) := by
  unfold onFormatProgram
  split
  · exact h
  · split
    · exact issue_plain _ rfl (job_ok _ h)
    · exact job_ok _ h
    · exact job_ok _ (failCopy_ok _ h)
    · exact h

theorem formatAbort_ok (h : Ok s w t) : Ok s w (formatAbort t) := by
  unfold formatAbort
  split
  · split
    · exact formatFailed_ok _ (by simp [*]) h
    · exact h
  · exact h

end Sys2Proof.Machine
end

