-- ==== Sys2Proof/Laws/KeepsMount.lean ====
section
/-! SUPPORT. What the mount scan does keeps the invariants. -/
namespace Sys2Proof.Machine

variable {s t u : State} {w : Due}

/-- The mount changes, but not its phase, its findings or its candidates. -/
theorem mountUpd_ok (f : Mount → Mount)
    (hf : (f t.mount).phase = t.mount.phase ∧ (f t.mount).findings = t.mount.findings ∧ (f t.mount).cands = t.mount.cands)
    (h : Ok s w t) : Ok s w (mountUpd f t) := by
  obtain ⟨e1, e2, e3⟩ := hf
  exact { h with
    mode := by simpa [mountUpd, e1] using h.mode
    space := by simpa [mountUpd, e1] using h.space
    bk := by simpa [mountUpd, e1] using h.bk
    mi := by simpa [mountUpd, e1, e2, e3] using h.mi
    stc := by simpa [mountUpd, e1, e3] using h.stc }

/-- The mount goes on, and is not over. -/
theorem mountGo_ok (f : Mount → Mount) (hp : t.mount.phase ≠ .done) (hf : (f t.mount).phase ≠ .done)
    (hmi : MiC w.bare (f t.mount).phase (f t.mount).findings (f t.mount).cands t.diesInUse t.ident.retired t.dies)
    (hc : w.wf = true → ∀ c ∈ (f t.mount).cands, c.stamps ≤ Config.stampsMax) (h : Ok s w t) : Ok s w (mountUpd f t) :=
  { h with
    mode := ⟨fun _ => h.mode.1 hp, h.mode.2⟩
    space := fun k => absurd k hf
    bk := { h.bk with fresh := fun _ => h.bk.fresh hp, quiet := fun _ => h.bk.quiet (.inl hp), still := fun _ => h.bk.still hp }
    mi := hmi
    stc := fun hw => { h.stc hw with
      entries := fun i => { (h.stc hw).entries i with mount := fun _ => ((h.stc hw).entries i).mount hp }
      acc := fun c => absurd ((h.stc hw).acc c) hp
      cands := hc hw } }

/-- A table made anew fits a state whose holders hold nothing. -/
theorem BkC.renew {force : Bool} {blocks : List (Nat × BlockRec)} {fl : List BlockId} {mp : List (Nat × MapEntry)}
    {dies : List DieRec} {hd : Option LogHead} {bat : Option Batch} {ch : Option LogHead} {vc : Option BlockId}
    {rl wt : List BlockId} {idq : List IdRequest} {idu : Option Update} {phase : MountPhase} {fmt : Bool}
    (q : hd = none ∧ bat = none ∧ ch = none ∧ vc = none ∧ rl = [] ∧ wt = [] ∧ retireKeys idq idu = [] ∧ w.reqs = [])
    (h : retireKeys idq idu = [] → w.reqs = [] →
      BkC w force blocks fl mp dies none none none none [] [] idq idu phase fmt) :
    BkC w force blocks fl mp dies hd bat ch vc rl wt idq idu phase fmt := by
  obtain ⟨rfl, rfl, rfl, rfl, rfl, rfl, q7, q8⟩ := q
  exact h q7 q8

theorem mountUnformatted_ok (hp : t.mount.phase ≠ .done) (h : Ok s w t) : Ok s w (mountUnformatted t) := by
  have hm : t.mode = .mounting := h.mode.1 hp
  have q := h.bk.quiet (.inl hp)
  have ho : opsOut isOpen t.dies + opsCount isOpen w.bare.ops = 0 := by
    have := h.bk.opens
    rw [q.1] at this
    simpa using this
  unfold mountUnformatted
  dsimp only
  refine setMode_ok (force := false) _ rfl ?_ (fun _ => .inr (.inr (.inr rfl))) ?_ (fun c => absurd rfl c)
    { h.unheld with
      map := rfl
      mode := ⟨fun k => absurd rfl k, h.mode.2.1, h.mode.2.2.1, fun k => absurd k Bool.false_ne_true⟩
      space := reconsiderSpace_space _ _
      bk := ?_
      mi := { h.mi with early := fun k => ?_, range := fun k => absurd rfl k }
      stc := fun hw => ?_ }
  · intro k
    have k : t.format.isSome = true := k
    rw [h.no_format (by simp [hm])] at k
    cases k
  · intro k
    have k : t.mode = .unformatted := k
    rw [hm] at k
    cases k
  · refine BkC.renew q fun q7 q8 => ?_
    have fits : ∀ k, (if isIdentityBlock (blockAt k) then identityRec else closedRec).valid = 0 ∧
        (if isIdentityBlock (blockAt k) then identityRec else closedRec).state ≠ .free ∧
        (isIdentityBlock (blockAt k) = true → (if isIdentityBlock (blockAt k) then identityRec else closedRec).state = .identity) ∧
        (if isIdentityBlock (blockAt k) then identityRec else closedRec).workFits = true := by
      intro k
      split
      · exact ⟨rfl, by simp [identityRec], fun _ => rfl, rfl⟩
      · exact ⟨rfl, by simp [closedRec], fun c => by contradiction, rfl⟩
    refine BkC.made (t.mount.diesPresent * Config.dieBlocks) _ (fun k => ?_) (fun k => ?_) (fun k _ => (fits k).2.2.1)
      (fun k _ _ => (fits k).1) (fun k _ => (fits k).2.2.2) (fun k => nomatch k) (fun k => nomatch k) ho q8 q7
    · rw [(fits k).1]; split <;> rfl
    · rw [if_neg fun c => (fits k).2.1 c.2]; rfl
  · rcases k with k | k <;> cases k
  · exact { h.stc hw with
      le := fun l => Nat.zero_le _
      sum := fun l c => absurd c Bool.false_ne_true
      recs := fun b c => by rw [show t.commit.batch = some b from c] at q; cases q.2.1
      entries := fun i => { (h.stc hw).entries i with mount := fun c => absurd rfl c }
      acc := fun _ => rfl }

theorem readIdentity_ok (c : IdCopy) (page : Nat) (h : Ok s w t) : Ok s w (readIdentity c page t) := by
  unfold readIdentity
  exact issue_plain _ rfl h

theorem endProbe_ok (hp : t.mount.phase = .probe) (h : Ok s w t) : Ok s w (endProbe t) := by
  have hn : t.mount.phase ≠ .done := by simp [hp]
  unfold endProbe
  dsimp only
  have h0 := mountGo_ok (fun m => { m with diesPresent := presentCount t.mount.probes, phase := .identity }) hn (by simp)
    { h.mi with early := fun _ => h.mi.early (.inl hp), range := fun _ => h.mi.range hn } (fun hw => (h.stc hw).cands) h
  have hd : ∀ q, opsOut q (t.dies.zipIdx.map fun (d, i) =>
      if i < presentCount t.mount.probes then d else { DieRec.unused with grades := d.grades }) ≤ opsOut q t.dies := fun q =>
    opsOut_zipIdx_le q _ (fun r n => by
      dsimp only
      split
      · exact le_refl _
      · exact Nat.zero_le _) 0
  have h1 : Ok s w { mountUpd (fun m => { m with diesPresent := presentCount t.mount.probes, phase := .identity }) t with
      dies := t.dies.zipIdx.map fun (d, i) =>
        if i < presentCount t.mount.probes then d else { DieRec.unused with grades := d.grades } } :=
    { h0 with
      dlen := by simpa using h.dlen
      en := h0.en.dies_le hd
      bk := h0.bk.dies_le hd
      mi := h0.mi.dies_le hd }
  split
  · exact mountUnformatted_ok (by simp [mountUpd]) h1
  · exact readIdentity_ok _ _ h1

theorem probeDecide_ok (d : Nat) (p : Probe) (h : Ok s w t) : Ok s w (probeDecide d p t) := by
  unfold probeDecide
  dsimp only
  split
  · rename_i hp
    simp only [probing, Bool.and_eq_true, beq_iff_eq] at hp
    split
    · exact endProbe_ok hp.2 (mountUpd_ok _ ⟨rfl, rfl, rfl⟩ h)
    · exact mountUpd_ok _ ⟨rfl, rfl, rfl⟩ h
  · exact h

/-! ### Findings and candidates -/

/-- The finding on a block changes. -/
theorem setFinding_ok {b : BlockId} {f0 : Finding} (f : Finding) (hb : b.block < Config.dieBlocks)
    (h0 : keyGet (blockKey b) t.mount.findings = some f0) (hl : f0.isLog = true → f.isLog = true)
    (hc : f.cls.isNone = true ∨ opsOut (isReadAt .classifyRead b) t.dies + opsCount (isReadAt .classifyRead b) w.bare.ops = 0)
    (h : Ok s w t) : Ok s w (setFinding b f t) :=
  { h with mi := h.mi.put hb h0 f hl hc }

theorem seeSlots_ok (rs : List SlotResult) (h : Ok s w t) : Ok s w (seeSlots rs t) := mountUpd_ok _ ⟨rfl, rfl, rfl⟩ h

theorem note_ok (l : Loc) (h : Ok s w t) : Ok s w (note l t) := mountUpd_ok _ ⟨rfl, rfl, rfl⟩ h

/-- Every LOG block found is one still. -/
def LogsKept (t u : State) : Prop :=
  ∀ b, foundIs t.mount.findings b (·.isLog) = true → foundIs u.mount.findings b (·.isLog) = true

theorem LogsKept.put {b : BlockId} {f0 f : Finding} (h0 : keyGet (blockKey b) t.mount.findings = some f0)
    (hl : f0.isLog = true → f.isLog = true) : LogsKept t (setFinding b f t) := by
  intro c hc
  show foundIs (keyPut _ _ _) _ _ = _
  rw [foundIs_put]
  split
  · rename_i e
    obtain ⟨hb, f', hf', hl'⟩ := foundIs_of hc
    rw [e, h0] at hf'
    cases hf'
    simp [hb, hl hl']
  · exact hc

/-- No classification read is left on a LOG block. -/
theorem OkC.classed (h : Ok s w t) {b : BlockId} (hb : foundIs t.mount.findings b (·.isLog) = true) :
    opsOut (isReadAt .classifyRead b) t.dies + opsCount (isReadAt .classifyRead b) w.bare.ops = 0 := by
  have := h.mi.cls b
  obtain ⟨hk, f, hf, hl⟩ := foundIs_of hb
  rw [if_neg] at this
  · omega
  · have hl : f.cls = some .log := by simpa [Finding.isLog] using hl
    simp [foundIs, hk, hf, hl]

theorem offer_ok (loc : Loc) (kind : RecKind) (line seq stamps : Nat) (lost : Bool)
    (hl : foundIs t.mount.findings (blockOf loc) (·.isLog) = true) (hs : w.wf = true → stamps ≤ Config.stampsMax) (h : Ok s w t) :
    Ok s w (offer loc kind line seq stamps lost t) ∧ LogsKept t (offer loc kind line seq stamps lost t) := by
  obtain ⟨hb, f, hf, hlog⟩ := foundIs_of hl
  have hz := h.classed hl
  have e : findingOf t (blockOf loc) = f := by unfold findingOf; rw [hf]; rfl
  unfold offer
  dsimp only
  rw [e]
  have kl : LogsKept t (setFinding (blockOf loc) { f with highSeq := some (max seq (f.highSeq.getD 0)) } t) :=
    LogsKept.put hf fun c => c
  have k := setFinding_ok { f with highSeq := some (max seq (f.highSeq.getD 0)) } hb hf (fun c => c) (.inr hz) h
  split
  · exact ⟨{ k with
      mi := k.mi.offer ⟨line, loc, kind, seq, stamps, lost⟩ (kl _ hl)
      stc := fun hw => { k.stc hw with
        cands := fun c hc => by
          rcases List.mem_append.1 hc with hc | hc
          · exact (k.stc hw).cands c hc
          · rw [List.mem_singleton.1 hc]; exact hs hw } }, kl⟩
  · exact ⟨k, kl⟩

/-- The stamps of a slot's content are within the limit. -/
def contentOk : SlotContent → Prop
  | .record _ _ _ st _ => st ≤ Config.stampsMax
  | _ => True

/-- The stamps of what a slot read yields are within the limit. -/
def slotOk : SlotResult → Prop
  | .good _ c => contentOk c
  | .lostKnown c => contentOk c
  | _ => True

theorem slotOk_expect {r : RawSlot} (e : Option (Nat × Nat)) (h : wfSlot r = true) : slotOk (expectSlot e (checkSlot r)) := by
  have k : contentOk r.content := by
    revert h
    unfold wfSlot wfContent contentOk
    split <;> simp_all
  have k2 : slotOk (checkSlot r) := by
    unfold checkSlot
    repeat' first
      | exact k
      | exact trivial
      | split
  unfold expectSlot
  generalize checkSlot r = x at k2
  split
  · exact k2
  · split
    · split <;> exact k2
    · exact trivial
    · exact k2

theorem takeSlot_ok (loc : Loc) (r : SlotResult) (hl : foundIs t.mount.findings (blockOf loc) (·.isLog) = true)
    (hs : w.wf = true → slotOk r) (h : Ok s w t) : Ok s w (takeSlot loc r t) ∧ LogsKept t (takeSlot loc r t) := by
  unfold takeSlot
  split
  · exact ⟨h, fun _ k => k⟩
  · exact offer_ok _ _ _ _ _ _ hl hs h
  · exact ⟨note_ok _ h, fun _ k => k⟩
  · exact offer_ok (t := note loc t) _ _ _ _ _ _ hl hs (note_ok _ h)
  · exact ⟨note_ok _ h, fun _ k => k⟩
  · exact ⟨note_ok _ h, fun _ k => k⟩

theorem takeSlots_ok (b : BlockId) (page slot : Nat) (l : List SlotResult) (hl : foundIs t.mount.findings b (·.isLog) = true)
    (hs : w.wf = true → ∀ r ∈ l, slotOk r) (h : Ok s w t) :
    Ok s w (takeSlots b page slot l t) ∧ LogsKept t (takeSlots b page slot l t) := by
  induction l generalizing t slot with
  | nil => exact ⟨h, fun _ k => k⟩
  | cons r l ih =>
    obtain ⟨k1, k2⟩ := takeSlot_ok (locIn b page slot) r hl (fun hw => hs hw r List.mem_cons_self) h
    obtain ⟨k3, k4⟩ := ih (slot + 1) (k2 b hl) (fun hw x hx => hs hw x (List.mem_cons_of_mem _ hx)) k1
    exact ⟨k3, fun c hc => k4 c (k2 c hc)⟩

/-- The next page of a block that is not classed is read. -/
theorem readBlank_ok {b : BlockId} {f0 : Finding} (page : Nat) (f : Finding) (hb : b.block < Config.dieBlocks)
    (h0 : keyGet (blockKey b) t.mount.findings = some f0) (hl : f0.isLog = false) (hf : f.cls.isNone = true)
    (hz : opsOut (isReadAt .classifyRead b) t.dies + opsCount (isReadAt .classifyRead b) w.bare.ops = 0) (h : Ok s w t) :
    Ok s w (readBlank b page f t) := by
  have k : Ok s w (setFinding b { f with cursor := page } t) :=
    setFinding_ok { f with cursor := page } hb h0 (fun c => by rw [hl] at c; cases c) (.inl hf) h
  unfold readBlank
  exact issue_ok _ { k with
    en := k.en.other rfl
    bk := BkC.other (w := w.bare) k.bk (by simp [mountRead, pageRead]) (by simp [mountRead, pageRead]) (by simp [mountRead, pageRead])
    mi := MiC.readCls (w := w.bare) k.mi rfl hz (by
      show foundIs (keyPut _ _ _) b _ = true
      rw [foundIs_put, if_pos rfl]
      simp [hb, hf]) }

/-! ### CLASSIFY and SCAN -/

theorem classifyPage_ok {op : Op} (rs : List SlotResult) (hr : op.role = .classifyRead) (hs : w.wf = true → ∀ r ∈ rs, slotOk r)
    (h : Ok s (w.op op) t) : Ok s w (classifyPage op rs t) := by
  obtain ⟨hf, hz⟩ := MiC.clsTaken (w := w.bare) h.mi hr
  obtain ⟨hb, f0, h0, hn⟩ := foundIs_of hf
  have hl : f0.isLog = false := by
    have : f0.cls = none := by simpa using hn
    simp [Finding.isLog, this]
  have hd := h.drop_op
  unfold classifyPage
  dsimp only
  split
  · split
    · exact readBlank_ok 1 Finding.initial hb h0 hl rfl hz hd
    · rename_i f slot1 _
      have k1 := setFinding_ok f hb h0 (fun c => by rw [hl] at c; cases c) (.inr hz) hd
      have k2 : Ok s w (if slot1 = true then note (locIn op.block 0 1) (setFinding op.block f t) else setFinding op.block f t) := by
        split
        · exact note_ok _ k1
        · exact k1
      split
      · rename_i hc
        refine (takeSlots_ok _ _ _ _ ?_ (fun hw r hm => hs hw r (List.mem_of_mem_drop hm)) k2).1
        have : foundIs (setFinding op.block f t).mount.findings op.block (·.isLog) = true := by
          show foundIs (keyPut _ _ _) _ _ = true
          rw [foundIs_put, if_pos rfl]
          simp [hb, Finding.isLog, hc]
        split <;> exact this
      · exact k2
  · have e : findingOf t op.block = f0 := by unfold findingOf; rw [h0]; rfl
    rw [e]
    split
    · exact setFinding_ok _ hb h0 (fun c => by rw [hl] at c; cases c) (.inr hz) hd
    · split
      · exact readBlank_ok _ _ hb h0 hl hn hz hd
      · exact setFinding_ok _ hb h0 (fun c => by rw [hl] at c; cases c) (.inr hz) hd

theorem scanPage_ok {op : Op} (rs : List SlotResult) (hr : op.role = .scanRead) (hs : w.wf = true → ∀ r ∈ rs, slotOk r)
    (h : Ok s (w.op op) t) : Ok s w (scanPage op rs t) := by
  have hf := MiC.scanTaken (w := w.bare) h.mi hr
  obtain ⟨k, kl⟩ := takeSlots_ok op.block op.page 0 rs hf hs h.drop_op
  have hf := kl _ hf
  unfold scanPage
  dsimp only
  generalize takeSlots op.block op.page 0 rs t = T at k hf ⊢
  obtain ⟨hb, f0, h0, hl⟩ := foundIs_of hf
  have hz := k.classed hf
  have e : findingOf T op.block = f0 := by unfold findingOf; rw [h0]; rfl
  rw [e]
  have hl2 : (if rs.all (· == .erased) = true then f0 else { f0 with lastPage := op.page }).isLog = true := by split <;> exact hl
  generalize (if rs.all (· == .erased) = true then f0 else { f0 with lastPage := op.page }) = f at hl2
  split
  · exact setFinding_ok { f with scanned := true } hb h0 (fun _ => hl2) (.inr hz) k
  · have k1 : Ok s w (setFinding op.block { f with cursor := op.page + 1 } T) :=
      setFinding_ok { f with cursor := op.page + 1 } hb h0 (fun _ => hl2) (.inr hz) k
    refine issue_ok _ { k1 with
      en := k1.en.other rfl
      bk := BkC.other (w := w.bare) k1.bk (by simp [mountRead, pageRead]) (by simp [mountRead, pageRead]) (by simp [mountRead, pageRead])
      mi := MiC.readScan (w := w.bare) k1.mi rfl ?_ }
    exact LogsKept.put (f := { f with cursor := op.page + 1 }) h0 (fun _ => hl2) _ hf

theorem onClassifyRead_ok {op : Op} (rs : List SlotResult) (hr : op.role = .classifyRead) (hs : w.wf = true → ∀ r ∈ rs, slotOk r)
    (h : Ok s (w.op op) t) : Ok s w (onClassifyRead op rs t) := by
  unfold onClassifyRead
  split
  · exact classifyPage_ok rs hr hs (seeSlots_ok rs h)
  · exact h.drop_op

theorem onScanRead_ok {op : Op} (rs : List SlotResult) (hr : op.role = .scanRead) (hs : w.wf = true → ∀ r ∈ rs, slotOk r)
    (h : Ok s (w.op op) t) : Ok s w (onScanRead op rs t) := by
  unfold onScanRead
  split
  · exact scanPage_ok rs hr hs (seeSlots_ok rs h)
  · exact h.drop_op

/-- Operations that only the mount scan speaks of are on their way. -/
theorem OkC.reads {ops : List Op} (ho : ∀ op ∈ ops, op.role = .classifyRead ∨ op.role = .scanRead)
    (hm : MiC { w.bare with ops := ops ++ w.ops } t.mount.phase t.mount.findings t.mount.cands t.diesInUse t.ident.retired t.dies)
    (h : Ok s w t) : Ok s { w with ops := ops ++ w.ops } t := by
  have k : EnC { w with ops := ops ++ w.ops } t.staging t.lru t.commit.queue t.commit.batch t.dies t.withheld ∧
      BkC { w.bare with ops := ops ++ w.ops } (t.mode != .unformatted) t.blocks t.freeList t.lineMap t.dies t.commit.head t.commit.batch
        t.reclaim.head t.reclaim.victim t.reclaim.reloc t.reclaim.retireWait t.ident.queue t.ident.update t.mount.phase
        t.format.isSome := by
    clear hm
    induction ops with
    | nil => exact ⟨h.en, h.bk⟩
    | cons op ops ih =>
      obtain ⟨k1, k2⟩ := ih fun o m => ho o (List.mem_cons_of_mem _ m)
      have hr := ho op List.mem_cons_self
      exact ⟨EnC.other (w := { w with ops := ops ++ w.ops }) k1 (by rcases hr with hr | hr <;> rw [hr] <;> rfl),
        BkC.other (w := { w.bare with ops := ops ++ w.ops }) k2 (by rcases hr with hr | hr <;> simp [hr])
          (by rcases hr with hr | hr <;> simp [hr]) (by rcases hr with hr | hr <;> simp [hr])⟩
  exact { h with en := k.1, bk := k.2, mi := hm }

theorem foundIs_map (g : Nat → Finding → Finding) {p : Finding → Bool} (hp : ∀ k f, p (g k f) = p f) (fs : List (Nat × Finding))
    (b : BlockId) : foundIs (fs.map fun q => (q.1, g q.1 q.2)) b p = foundIs fs b p := by
  unfold foundIs
  rw [keyGet_mapSnd]
  cases keyGet (blockKey b) fs <;> simp [hp]

theorem startScan_cls (t : State) (p : Nat × Finding) : (startScan t p).cls = p.2.cls := by
  unfold startScan
  split
  · split <;> rfl
  · rfl

/-- Scan reads of LOG blocks are on their way. -/
theorem MiC.scans {phase : MountPhase} {fs : List (Nat × Finding)} {cands : List Candidate} {n : Nat} {retired : List BlockId}
    {dies : List DieRec} {ops : List Op} (h : MiC w phase fs cands n retired dies)
    (ho : ∀ op ∈ ops, op.role = .scanRead ∧ foundIs fs op.block (·.isLog) = true) :
    MiC { w with ops := ops ++ w.ops } phase fs cands n retired dies := by
  induction ops with
  | nil => exact h
  | cons op ops ih =>
    obtain ⟨h1, h2⟩ := ho op List.mem_cons_self
    exact MiC.readScan (w := { w with ops := ops ++ w.ops }) (ih fun o m => ho o (List.mem_cons_of_mem _ m)) h1 h2

theorem beginScan_ok (hp : t.mount.phase = .classify) (h : Ok s w t) : Ok s w (beginScan t) := by
  have hn : t.mount.phase ≠ .done := by simp [hp]
  have e1 := foundIs_map (fun k f => startScan t (k, f)) (p := (·.cls.isNone)) (fun k f => by rw [startScan_cls]) t.mount.findings
  have e2 := foundIs_map (fun k f => startScan t (k, f)) (p := (·.isLog))
    (fun k f => by unfold Finding.isLog; rw [startScan_cls]) t.mount.findings
  have k1 : MiC w.bare .scan (t.mount.findings.map fun p => (p.1, startScan t p)) t.mount.cands t.diesInUse t.ident.retired t.dies :=
    { early := fun k => by rcases k with k | k <;> cases k
      rise := (keysRise_mapSnd (fun k f => startScan t (k, f)) t.mount.findings).trans h.mi.rise
      range := fun _ k f hf => by
        have hf := (keyGet_mapSnd (fun k f => startScan t (k, f)) k t.mount.findings).symm.trans hf
        obtain ⟨x, hx, _⟩ := Option.map_eq_some_iff.1 hf
        exact h.mi.range hn k x hx
      cls := fun b => by
        have := h.mi.cls b
        rw [← e1] at this
        exact this
      scan := fun b k => (e2 b).trans (h.mi.scan b k)
      cands := fun c hc => (e2 _).trans (h.mi.cands c hc) }
  have k2 := mountGo_ok (fun m => { m with phase := .scan, findings := t.mount.findings.map fun p => (p.1, startScan t p) }) hn
    (by simp) k1 (fun hw => (h.stc hw).cands) h
  unfold beginScan
  dsimp only
  refine issueTogether_ok _ (OkC.reads (fun op hop => ?_) (MiC.scans k1 fun op hop => ?_) k2)
  · obtain ⟨p, _, rfl⟩ := List.mem_map.1 hop
    exact .inr rfl
  · obtain ⟨p, hp, rfl⟩ := List.mem_map.1 hop
    obtain ⟨m, q⟩ := List.mem_filter.1 hp
    simp only [Bool.and_eq_true] at q
    refine ⟨rfl, (e2 _).trans (foundIs_mk (blockAt_lt p.1) (f := p.2) ?_ q.1)⟩
    show keyGet (blockKey (blockAt p.1)) _ = _
    rw [blockKey_blockAt]
    exact keyGet_mem h.mi.rise m

/-- The reads of page 0 of the blocks that CLASSIFY reads are on their way, with nothing found yet. -/
theorem MiC.classify (h : MiC w .identity [] [] u.diesInUse u.ident.retired u.dies) :
    MiC { w with ops := (classifyBlocks u).map (fun b => mountRead .classifyRead b 0) ++ w.ops } .classify
      ((classifyBlocks u).map fun b => (blockKey b, Finding.initial)) [] u.diesInUse u.ident.retired u.dies := by
  have mem : ∀ b ∈ classifyBlocks u, ∃ k, k < u.diesInUse * Config.dieBlocks ∧ b = blockAt k ∧ isIdentityBlock b = false ∧
      u.ident.retired.contains b = false := fun b hb => by
    obtain ⟨m, q⟩ := List.mem_filter.1 hb
    obtain ⟨k, hk, rfl⟩ := List.mem_map.1 m
    simp only [Bool.and_eq_true, Bool.not_eq_true'] at q
    exact ⟨k, List.mem_range.1 hk, rfl, q.1.1, q.2⟩
  have pw : (classifyBlocks u).Pairwise fun b c => blockKey b < blockKey c := by
    refine List.Pairwise.filter _ (List.pairwise_map.2 ?_)
    simp only [blockKey_blockAt]
    exact List.pairwise_lt_range
  have nd : (classifyBlocks u).Nodup := pw.imp fun c e => by rw [e] at c; exact Nat.lt_irrefl _ c
  generalize classifyBlocks u = bs at mem pw nd
  have rise : keysRise (bs.map fun b => (blockKey b, Finding.initial)) = true := by
    rw [keysRise_pairwise, List.pairwise_map]
    exact pw
  have cnt : ∀ role b, opsCount (isReadAt role b) (bs.map fun b => mountRead .classifyRead b 0) ≤
      if role = .classifyRead then bs.count b else 0 := by
    intro role b
    clear mem pw nd rise
    induction bs with
    | nil => exact Nat.zero_le _
    | cons c bs ih =>
      rw [List.map_cons, opsCount_cons, List.count_cons]
      by_cases hr : role = .classifyRead
      · subst hr
        simp only [↓reduceIte] at ih ⊢
        refine Nat.add_le_add ih ?_
        simp [isReadAt, mountRead, pageRead]
      · rw [if_neg hr] at ih ⊢
        have : isReadAt role b OpRole.classifyRead false c = false := by
          have : ¬ OpRole.classifyRead = role := fun e => hr e.symm
          simp [isReadAt, this]
        show _ + (if isReadAt role b .classifyRead false c = true then 1 else 0) ≤ 0
        rw [this]
        exact ih
  have z1 : ∀ b, opsOut (isReadAt .classifyRead b) u.dies + opsCount (isReadAt .classifyRead b) w.ops = 0 := fun b => by
    have := h.cls b
    simpa [foundIs, keyGet] using this
  have z2 : ∀ b, opsOut (isReadAt .scanRead b) u.dies + opsCount (isReadAt .scanRead b) w.ops = 0 := fun b => by
    by_contra c
    have := h.scan b (Nat.pos_of_ne_zero c)
    simp [foundIs, keyGet] at this
  refine
    { early := fun k => by rcases k with k | k <;> cases k
      rise := rise
      range := fun _ k f hf => ?_
      cls := fun b => ?_
      scan := fun b k => ?_
      cands := fun c hc => nomatch hc }
  · obtain ⟨b, hb, e⟩ := List.mem_map.1 (mem_of_keyGet hf)
    cases e
    obtain ⟨k, h1, rfl, h2, h3⟩ := mem b hb
    rw [blockKey_blockAt]
    exact ⟨h1, h2, h3⟩
  · rw [opsCount_append]
    have k1 := cnt .classifyRead b
    have := z1 b
    rw [if_pos rfl] at k1
    by_cases hb : b ∈ bs
    · have := List.nodup_iff_count_le_one.1 nd b
      obtain ⟨k, h1, rfl, h2, h3⟩ := mem b hb
      rw [if_pos]
      · omega
      · exact foundIs_mk (blockAt_lt k) (keyGet_mem rise (p := (blockKey (blockAt k), Finding.initial)) (List.mem_map.2 ⟨_, hb, rfl⟩)) rfl
    · have := List.count_eq_zero.2 hb
      have : opsOut (isReadAt .classifyRead b) u.dies + (opsCount (isReadAt .classifyRead b) (bs.map fun b => mountRead .classifyRead b 0) +
        opsCount (isReadAt .classifyRead b) w.ops) = 0 := by omega
      rw [this]
      exact Nat.zero_le _
  · rw [opsCount_append] at k
    have k1 := cnt .scanRead b
    have := z2 b
    rw [if_neg (by simp)] at k1
    omega

theorem startClassify_ok (hp : t.mount.phase = .identity) (h : Ok s w t) : Ok s w (startClassify t) := by
  have hn : t.mount.phase ≠ .done := by simp [hp]
  obtain ⟨e1, e2⟩ := h.mi.early (.inr hp)
  have hm := h.mi
  rw [hp, e1, e2] at hm
  have k1 := hm.classify
  have k2 := mountGo_ok (fun m => { m with phase := .classify, findings := (classifyBlocks t).map fun b => (blockKey b, Finding.initial) })
    hn (by simp) (by
      show MiC _ _ _ t.mount.cands _ _ _
      rw [e2]
      exact k1.debts fun q => by rw [opsCount_append]; omega) (fun hw => (h.stc hw).cands) h
  unfold startClassify
  dsimp only
  refine issueTogether_ok _ (OkC.reads (fun op hop => ?_) ?_ k2)
  · obtain ⟨p, _, rfl⟩ := List.mem_map.1 hop
    exact .inl rfl
  · show MiC _ _ _ t.mount.cands _ _ _
    rw [e2]
    exact k1

theorem selectDie_ops (n i : Nat) (p : Probe) (d : DieRec) (q : OpRole → Bool → BlockId → Bool) :
    opsCount q (selectDie n i p d).ops ≤ opsCount q d.ops := by
  unfold selectDie
  split
  · exact Nat.zero_le _
  · split
    · exact Nat.zero_le _
    · split <;> exact le_refl _

/-- What every step of a fold keeps, the fold keeps. -/
theorem foldl_keep {α : Type} {P : State → Prop} (f : State → α → State) (hf : ∀ t a, P t → P (f t a)) (l : List α)
    (h : P t) : P (l.foldl f t) := by
  induction l generalizing t with
  | nil => exact h
  | cons a l ih => exact ih (hf t a h)

theorem takeSelection_ok (c : IdCopy) (d : Descriptor) (x : UpdatePage) (hp : t.mount.phase = .identity) (h : Ok s w t) :
    Ok s w (takeSelection c d x t) := by
  have hn : t.mount.phase ≠ .done := by simp [hp]
  obtain ⟨e1, e2⟩ := h.mi.early (.inr hp)
  have q7 := (h.bk.quiet (.inl hn)).2.2.2.2.2.2.1
  have hd : ∀ q, opsOut q (t.dies.zipIdx.map fun (r, i) => selectDie d.dieCount i (t.mount.probes.getD i .absent) r) ≤
      opsOut q t.dies := fun q => opsOut_zipIdx_le q _ (fun r n => selectDie_ops ..) 0
  unfold takeSelection
  dsimp only
  have k' := foldl_keep (P := fun u => Ok s w u ∧ u.mount.phase = .identity)
    (fun t i => raise .dieOffline (.die i) t) (fun u a hu => ⟨raise_ok _ _ hu.1, hu.2⟩)
    (absentDies d.dieCount t.mount.probes)
    (t := { t with
      ident :=
        { copyA := keptCopy (c == .a) d.serial t.mount.copyA, copyB := keptCopy (c == .b) d.serial t.mount.copyB,
          descriptor := some d, counter := x.counter, retired := x.retired, persistent := x.frozen, queue := [], update := none,
          remembered := some d.serial }
      diesInUse := d.dieCount
      dies := t.dies.zipIdx.map fun (r, i) => selectDie d.dieCount i (t.mount.probes.getD i .absent) r })
    ⟨{ h with
        dlen := by simpa using h.dlen
        en := h.en.dies_le hd
        bk := BkC.requests (h.bk.dies_le hd) (by rw [q7]; rfl)
        mi := { h.mi.dies_le hd with range := fun _ k f hf => by rw [e1] at hf; cases hf } }, hp⟩
  exact startClassify_ok k'.2 k'.1

theorem selectIdentity_ok (hp : t.mount.phase = .identity) (h : Ok s w t) : Ok s w (selectIdentity t) := by
  unfold selectIdentity
  split
  · exact takeSelection_ok _ _ _ hp h
  · exact mountUnformatted_ok (by simp [hp]) h

theorem onIdentityRead_ok (op : Op) (rs : List SlotResult) (content : IdContent) (h : Ok s w t) :
    Ok s w (onIdentityRead op rs content t) := by
  unfold onIdentityRead
  dsimp only
  split
  · exact h
  · rename_i hp
    have hp : t.mount.phase = .identity := by simpa using hp
    have hu : ∀ f : Mount → Mount, ((f (seeSlots rs t).mount).phase = t.mount.phase ∧
      (f (seeSlots rs t).mount).findings = t.mount.findings ∧ (f (seeSlots rs t).mount).cands = t.mount.cands) →
      Ok s w (mountUpd f (seeSlots rs t)) := fun f e => mountUpd_ok f e (seeSlots_ok rs h)
    split
    · split
      · exact readIdentity_ok _ _ (hu _ ⟨rfl, rfl, rfl⟩)
      · exact selectIdentity_ok hp (hu _ ⟨rfl, rfl, rfl⟩)
    · refine readIdentity_ok _ _ (hu _ ?_)
      split <;> exact ⟨rfl, rfl, rfl⟩

/-! ### Hand-over -/

theorem foldl_mapPut_wf {α : Type} (k : α → Nat) (v : α → MapEntry) (l : List α) {m : List (Nat × MapEntry)}
    (h : mapWf m = true) : mapWf (l.foldl (fun m p => mapPut (k p) (v p) m) m) = true := by
  induction l generalizing m with
  | nil => exact h
  | cons a l ih => exact ih (mapPut_wf _ _ h)

theorem winnerEntry_stamps (c : Candidate) : (winnerEntry c).stamps = c.stamps := by
  unfold winnerEntry
  split
  · rfl
  · split <;> rfl

/-- The stamps of a map made of winners are those of the winners. -/
theorem winners_stamps (ws : List (Nat × Candidate)) (hw : ∀ p ∈ ws, p.2.stamps ≤ Config.stampsMax) {m : List (Nat × MapEntry)}
    (hm : mapWf m = true) (h : ∀ l, stampsOf m l ≤ Config.stampsMax) (l : Nat) :
    stampsOf (ws.foldl (fun m p => mapPut p.1 (winnerEntry p.2) m) m) l ≤ Config.stampsMax := by
  induction ws generalizing m with
  | nil => exact h l
  | cons p ws ih =>
    refine ih (fun q hq => hw q (List.mem_cons_of_mem _ hq)) (mapPut_wf _ _ hm) fun j => ?_
    rw [stampsOf_mapPut _ _ hm]
    split
    · rw [winnerEntry_stamps]; exact hw p List.mem_cons_self
    · exact h j

theorem handoverOps_role {l : List (Nat × BlockRec)} :
    ∀ op ∈ l.filterMap (handoverOp t), op.role = .erase ∨ op.role = .eraseStamp := by
  intro op h
  obtain ⟨p, _, hp⟩ := List.mem_filterMap.1 h
  unfold handoverOp at hp
  dsimp only at hp
  split at hp <;> cases hp
  · exact .inr rfl
  · exact .inl rfl

theorem enqueue_mount (f : Mount → Mount) (op : Op) (t : State) : enqueue op (mountUpd f t) = mountUpd f (enqueue op t) := by
  unfold enqueue countReader
  rw [blockUpd_eq, blockUpd_eq]
  split <;> rfl

/-- Issuing reads and writes nothing of the mount. -/
theorem issueTogether_mount (f : Mount → Mount) (l : List Op) (t : State) :
    issueTogether l (mountUpd f t) = mountUpd f (issueTogether l t) := by
  have k : l.foldl (fun t op => enqueue op t) (mountUpd f t) = mountUpd f (l.foldl (fun t op => enqueue op t) t) := by
    induction l generalizing t with
    | nil => rfl
    | cons a l ih => rw [List.foldl_cons, List.foldl_cons, enqueue_mount, ih]
  unfold issueTogether
  rw [k]
  rfl

theorem enqueue_same (op : Op) (t : State) :
    (enqueue op t).mode = t.mode ∧ (enqueue op t).format = t.format ∧ (enqueue op t).heldReadOnly = t.heldReadOnly ∧
      (enqueue op t).mount = t.mount := by
  unfold enqueue countReader
  rw [blockUpd_eq]
  split <;> exact ⟨rfl, rfl, rfl, rfl⟩

theorem issueTogether_same (l : List Op) (t : State) :
    (issueTogether l t).mode = t.mode ∧ (issueTogether l t).format = t.format ∧
      (issueTogether l t).heldReadOnly = t.heldReadOnly ∧ (issueTogether l t).mount = t.mount := by
  unfold issueTogether
  refine foldl_keep (P := fun u => u.mode = t.mode ∧ u.format = t.format ∧ u.heldReadOnly = t.heldReadOnly ∧ u.mount = t.mount)
    _ ?_ l ⟨rfl, rfl, rfl, rfl⟩
  intro u op h
  have e := enqueue_same op u
  exact ⟨e.1.trans h.1, e.2.1.trans h.2.1, e.2.2.1.trans h.2.2.1, e.2.2.2.trans h.2.2.2⟩

/-- Erases and erase stamps on their way are none of the staging buffer's, of the open stamps, or of the mount's. -/
theorem opsCount_role {l : List Op} {q : OpRole → Bool → BlockId → Bool} (hl : ∀ op ∈ l, op.role = .erase ∨ op.role = .eraseStamp)
    (hq : ∀ r x b, r = .erase ∨ r = .eraseStamp → q r x b = false) : opsCount q l = 0 :=
  List.countP_eq_zero.2 fun op h => by rw [hq _ _ _ (hl op h)]; exact Bool.false_ne_true

theorem EnC.ops_role {st : List Entry} {lru queue : List Nat} {b : Option Batch} {dies : List DieRec} {wh : List Nat} {l : List Op}
    (h : EnC w st lru queue b dies wh) (hl : ∀ op ∈ l, op.role = .erase ∨ op.role = .eraseStamp) :
    EnC { w with ops := l ++ w.ops } st lru queue b dies wh :=
  { h with
    fills := fun i => by
      have := h.fills i
      rw [opsCount_append, opsCount_role hl (by rintro r x b (rfl | rfl) <;> simp [isFill])]
      simpa using this }

theorem handOver_ok (hp : t.mount.phase ≠ .done) (h : Ok s w t) : Ok s w (handOver t) := by
  have hm : t.mode = .mounting := h.mode.1 hp
  have n2 : t.mode ≠ .formatting := by simp [hm]
  have n3 : t.mode ≠ .parked := by simp [hm]
  have q := h.bk.quiet (.inl hp)
  obtain ⟨ws1, ws2⟩ := winnersOf_spec t (settledCands t)
  have wsc : ∀ p ∈ winnersOf t (settledCands t), p.2 ∈ t.mount.cands := fun p k => (List.mem_filter.1 (ws2 p k)).1
  have val := handoverRec_valid h.mi hp
  have fits := handoverRec_fits t (winnersOf t (settledCands t))
  unfold handOver
  dsimp only
  generalize winnersOf t (settledCands t) = ws at ws1 wsc val fits
  generalize hT : setSpace (State.mk ..) = T
  generalize hl : List.filterMap (handoverOp T) _ = l
  have role : ∀ op ∈ l, op.role = .erase ∨ op.role = .eraseStamp := by rw [← hl]; exact handoverOps_role
  have cnt : ∀ r, (r = .erase ∨ r = .eraseStamp) → ∀ k, opsCount (isErase r k) l ≤
      if k < t.diesInUse * Config.dieBlocks ∧ (handoverRec t ws k).work = eraseWork r then 1 else 0 := fun r hr k => by
    rw [← hl]
    exact handoverOps_count T _ _ r hr k
  have hf : t.format.isSome = false := h.no_format n2
  have hh : t.heldReadOnly = false := h.not_held n2 n3
  have hO : Ok s { w with ops := l ++ w.ops } (mountUpd (fun m => { m with phase := .done }) T) := by
    rw [← hT]
    exact
      { rst := h.rst
        pend := h.pend
        pfw := h.pfw
        now := h.now
        set := h.set
        slen := h.slen
        dlen := h.dlen
        map := foldl_mapPut_wf _ _ _ rfl
        faults := h.faults
        mode := ⟨fun k => absurd rfl k, h.mode.2⟩
        space := setSpace_space _ _
        en := h.en.ops_role role
        bk := BkC.renew q fun q7 q8 => by
          have still := h.bk.still hp
          have ho := h.bk.opens
          rw [q.1] at ho
          refine BkC.made (t.diesInUse * Config.dieBlocks) (handoverRec t ws) (fun k => ?_) (fun k => ?_)
            (fun k _ => (fits k).1) (fun k _ => (fits k).2.1) (fun k _ => (fits k).2.2) (fun _ k => ?_) (fun _ k => ?_) ?_ q8 q7
          · exact (winners_located ws ws1 k [] rfl fun _ _ => rfl).trans ((Nat.zero_add _).trans (val k))
          · exact (count_freeInserts _ _ _ k).trans ((Nat.zero_add _).trans (freeBlocks_count _ _ k))
          · have k1 : opsOut _ t.dies + opsCount _ w.ops = 0 := (still k).1
            refine le_trans (le_of_eq ?_) (cnt .erase (.inl rfl) k)
            show opsOut _ t.dies + opsCount _ (l ++ w.ops) = _
            rw [opsCount_append]
            omega
          · have k1 : opsOut _ t.dies + opsCount _ w.ops = 0 := (still k).2
            refine le_trans (le_of_eq ?_) (cnt .eraseStamp (.inr rfl) k)
            show opsOut _ t.dies + opsCount _ (l ++ w.ops) = _
            rw [opsCount_append]
            omega
          · show opsOut _ t.dies + opsCount _ (l ++ w.ops) = 0
            rw [opsCount_append, opsCount_role role (by rintro r x b (rfl | rfl) <;> simp [isOpen])]
            simp only [Due.bare, Option.map_none, reduceCtorEq, ↓reduceIte, Nat.le_zero_eq] at ho
            omega
        mi :=
          { early := fun k => by rcases k with k | k <;> cases k
            rise := h.mi.rise
            range := fun k => absurd rfl k
            cls := fun b => by
              refine le_trans (le_of_eq ?_) (h.mi.cls b)
              show opsOut _ t.dies + opsCount _ (l ++ w.ops) = opsOut _ t.dies + opsCount _ w.ops
              rw [opsCount_append, opsCount_role role (by rintro r x b (rfl | rfl) <;> simp [isReadAt]), Nat.zero_add]
            scan := fun b k => h.mi.scan b (by
              have k : 0 < opsOut _ t.dies + opsCount _ (l ++ w.ops) := k
              rw [opsCount_append, opsCount_role role (by rintro r x b (rfl | rfl) <;> simp [isReadAt])] at k
              simp only [Due.bare]
              simpa using k)
            cands := h.mi.cands }
        stc := fun hw => by
          have k := h.stc hw
          have le := winners_stamps ws (fun p hp => k.cands _ (wsc p hp)) (m := []) rfl (fun _ => Nat.zero_le _)
          have none : ∀ i, ((t.staging).getD i Entry.cleared).touched = false := fun i => (k.entries i).mount hp
          exact
            { le := le
              sum := fun x _ => by
                have : pendingIn t.staging x = 0 := by
                  refine List.countP_eq_zero.2 fun e he => ?_
                  obtain ⟨i, hi, rfl⟩ := List.mem_iff_getElem.1 he
                  have := none i
                  rw [List.getD_eq_getElem?_getD, List.getElem?_eq_getElem hi] at this
                  simp only [Option.getD_some] at this
                  simp [Entry.pends, this]
                show _ + pendingIn t.staging x ≤ _
                rw [this]
                exact le x
              recs := fun b c => by rw [show t.commit.batch = some b from c] at q; cases q.2.1
              entries := fun i => { k.entries i with mount := fun c => absurd rfl c }
              acc := fun _ => rfl
              cands := k.cands } }
  have hI := issueTogether_ok l hO
  have e := issueTogether_same l (mountUpd (fun m => { m with phase := .done }) T)
  rw [issueTogether_mount] at hI e
  have e1 : T.mode = .mounting := by rw [← hT]; exact hm
  have e2 : T.format = t.format := by rw [← hT]; rfl
  have e3 : T.heldReadOnly = t.heldReadOnly := by rw [← hT]; rfl
  generalize mountUpd (fun m => { m with phase := .done }) (issueTogether l T) = U at hI e
  have f1 : U.mode = .mounting := e.1.trans e1
  have f3 : U.heldReadOnly = false := (e.2.2.1.trans e3).trans hh
  have f2 : (U.mode != .unformatted) = true := by rw [f1]; rfl
  have k := hI.unheld
  rw [f2] at k
  refine endMode_ok _ (congrArg (·.phase) e.2.2.2) ?_ ?_ (.inl f1) ?_
  · rw [e.2.1]; show T.format.isSome = false; rw [e2]; exact hf
  · intro c; rw [f3] at c; cases c
  · exact k

theorem settleMount_ok (hp : t.mount.phase ≠ .done) (h : Ok s w t) : Ok s w (settleMount t) := by
  unfold settleMount
  have k : Ok s w (mountUpd (fun m => { m with phase := .settle }) t) :=
    mountGo_ok _ hp (by simp)
      { h.mi with early := fun k => (by rcases k with k | k <;> cases k), range := fun _ => h.mi.range hp }
      (fun hw => (h.stc hw).cands) h
  have k' := foldl_keep (P := fun u => Ok s w u ∧ u.mount.phase ≠ .done)
    (fun t l => raise .mountBadRecord (.location l) t) (fun u a hu => ⟨raise_ok _ _ hu.1, hu.2⟩) (badRecords t)
    ⟨k, by simp [mountUpd]⟩
  exact handOver_ok k'.2 k'.1

theorem mountStep_ok (e : mountStep t = some u) (h : Ok s w t) : Ok s w u := by
  unfold mountStep at e
  split at e
  · split at e
    · cases e; exact beginScan_ok (by assumption) h
    · cases e
  · rename_i hp
    split at e
    · cases e; exact settleMount_ok (by simp [hp]) h
    · cases e
  · cases e

end Sys2Proof.Machine
end

