-- ==== Sys2Proof/Laws/Invariants.lean ====
section
/-! SUPPORT. What the medium controller, one event and the commands do keeps the invariants of Sys2Proof/Safety.lean. -/
namespace Sys2Proof.Machine

variable {s t u : State} {w : Due}

/-! ### Medium -/

theorem deliverStatus_ok (op : Op) (st : Status) (h : Ok s (w.op op) t) : Ok s w (deliverStatus op st t) := by
  have hk := h.drop_op
  unfold deliverStatus
  split
  · exact hk
  · rename_i hs
    have hs : op.stale = false := by simpa using hs
    split
    · exact onHostOpenStamp_ok _ (by assumption) hs h
    · exact onBatchProgram_ok _ hk
    · exact onCopyOpenStamp_ok _ hk
    · exact onCopyProgram_ok _ hk
    · exact onErase_ok _ (by assumption) hs h
    · exact onEraseStamp_ok _ (by assumption) hs h
    · exact onIdentityProgram_ok _ hk
    · exact onIdentityErase_ok _ hk
    · exact onFormatErase_ok _ _ hk
    · exact onFormatProgram_ok _ hk
    · exact hk

theorem deliverRead_ok (op : Op) (rs : List SlotResult) (content : IdContent) (hs : w.wf = true → ∀ r ∈ rs, slotOk r)
    (h : Ok s (w.op op) t) : Ok s w (deliverRead op rs content t) := by
  have hk := h.drop_op
  unfold deliverRead
  split
  · exact onReadFill_ok _ _ _ (by assumption) h
  · exact onDirectRead_ok _ _ hk
  · exact onCopyRead_ok _ _ hk
  · exact onScrubRead_ok _ _ hk
  · exact onIdentityRead_ok _ _ _ hk
  · exact onClassifyRead_ok _ (by assumption) hs h
  · exact onScanRead_ok _ (by assumption) hs h
  · exact hk

/-- The stamps of what an answer yields are within the limit. -/
def answerOk : OpAnswer → Prop
  | .read rs _ => ∀ r ∈ rs, slotOk r
  | .status _ => True

/-- An answer is handed on: what was on its way has arrived. -/
theorem deliver_ok (op : Op) (a : OpAnswer) (ha : w.wf = true → answerOk a) (h : Ok s (w.op op) t) : Ok s w (deliver op a t) := by
  unfold deliver
  split
  · exact deliverRead_ok _ _ _ ha h
  · exact deliverStatus_ok _ _ h

theorem failedAnswer_ok (op : Op) : answerOk (failedAnswer op) := by
  unfold failedAnswer
  split
  · intro r hr
    rw [(List.mem_replicate.1 hr).2]
    exact trivial
  · exact trivial

theorem gradeSlots_ok (d : Nat) (raws : List RawSlot) (h : Ok s w t) : Ok s w (gradeSlots d raws t) :=
  dieUpd_ok _ _ (fun _ => le_refl _) h

/-- An operation gone from a die in flight, or from a queue's front, is on its way. -/
theorem dieUpd_took (d : Nat) (op : Op) (f : DieRec → DieRec)
    (hf : ∀ q, opsCount q (f (dieAt t d)).ops + opsCount q [op] ≤ opsCount q (dieAt t d).ops) (hd : d < t.dies.length)
    (h : Ok s w t) : Ok s (w.op op) (dieUpd d f t) := by
  have k : ∀ q, opsOut q (dieUpd d f t).dies + opsCount q [op] ≤ opsOut q t.dies := fun q => by
    have k1 := opsOut_set q hd (f (dieAt t d))
    have k2 := hf q
    have k3 : opsCount q (t.dies.getD d DieRec.unused).ops = opsCount q (dieAt t d).ops := rfl
    show opsOut q (t.dies.set d (f (dieAt t d))) + _ ≤ _
    omega
  exact { h with dlen := by simpa [dieUpd] using h.dlen, en := h.en.took k, bk := h.bk.took k, mi := h.mi.took k }

theorem opsCount_inFlight (r : DieRec) (op : Op) (hr : r.inFlight = some op) (q : OpRole → Bool → BlockId → Bool) :
    opsCount q r.ops = opsCount q r.queue + opsCount q [op] := by
  simp only [DieRec.ops, hr, Option.toList_some]
  rw [opsCount_append]
  omega

theorem inFlight_lt {d : Nat} {op : Op} (e : (dieAt t d).inFlight = some op) : d < t.dies.length := by
  by_contra hd
  unfold dieAt at e
  rw [List.getD_eq_default _ _ (by omega)] at e
  cases e

theorem queue_lt {d : Nat} (e : (dieAt t d).queue ≠ []) : d < t.dies.length := by
  by_contra hd
  unfold dieAt at e
  rw [List.getD_eq_default _ _ (by omega)] at e
  exact e rfl

theorem opsCount_idle (r : DieRec) (q : OpRole → Bool → BlockId → Bool) : opsCount q r.queue ≤ opsCount q r.ops := by
  simp only [DieRec.ops]
  rw [opsCount_append]
  omega

theorem dieAnswered_ok (d : Nat) (h : Ok s w t) : Ok s w (dieAnswered d t) :=
  dieUpd_ok _ _ (fun q => opsCount_idle _ q) h

theorem dieAnswered_took (d : Nat) (op : Op) (e : (dieAt t d).inFlight = some op) (h : Ok s w t) :
    Ok s (w.op op) (dieAnswered d t) :=
  dieUpd_took d op _ (fun j => by rw [opsCount_inFlight _ op e]; exact le_refl _) (inFlight_lt e) h

theorem carried_inFlight {want : OpRole → Bool} {d : Nat} {op : Op} (e : carried want d t = some op) :
    (dieAt t d).inFlight = some op := (Option.filter_eq_some_iff.1 e).1

theorem answerStatus_ok (want : OpRole → Bool) (d : Nat) (st : Status) (h : Ok s w t) : Ok s w (answerStatus want d st t) := by
  unfold answerStatus
  split
  · exact deliver_ok _ _ (fun _ => trivial) (dieAnswered_took _ _ (carried_inFlight (by assumption)) h)
  · exact h

theorem answerRead_ok (want : OpRole → Bool) (d : Nat) (raws : List RawSlot) (content : IdContent)
    (hw : w.wf = true → raws.all wfSlot = true) (h : Ok s w t) : Ok s w (answerRead want d raws content t) := by
  unfold answerRead
  split
  · split
    · refine deliver_ok _ _ (fun hf r hr => ?_)
        (countReader_ok _ _ (gradeSlots_ok _ _ (dieAnswered_took _ _ (carried_inFlight (by assumption)) h)))
      obtain ⟨x, hx, rfl⟩ := List.mem_map.1 hr
      exact slotOk_expect _ (List.all_eq_true.1 (hw hf) x hx)
    · exact h
  · exact h

theorem grantStep_ok (e : grantStep t = some u) (h : Ok s w t) : Ok s w u := by
  unfold grantStep at e
  split at e
  · rename_i hc
    simp only [Bool.and_eq_true] at hc
    cases e
    exact grantWrite_ok (fun hw => (h.stc hw).acc hc.1) h
  · split at e
    · cases e; exact trimAct_ok h
    · split at e
      · cases e; exact grantScrub_ok h
      · cases e

theorem longStep_ok (e : longStep t = some u) (h : Ok s w t) : Ok s w u := by
  unfold longStep at e
  split at e
  · cases e; exact flushEnd_ok _ h
  · split at e
    · cases e; exact trimEnd_ok _ h
    · split at e
      · cases e; exact freezePersist_ok h
      · cases e

theorem drainStep_ok (e : drainStep t = some u) (h : Ok s w t) : Ok s w u := by
  unfold drainStep at e
  split at e
  · rename_i hm
    simp only [Bool.and_eq_true, beq_iff_eq] at hm
    cases e
    exact drainEnd_ok hm.1 h
  · cases e

theorem orElse_some {α : Type} {a b : Option α} {x : α} (e : (a <|> b) = some x) : a = some x ∨ b = some x := by
  cases a with
  | none => exact .inr (by simpa using e)
  | some y => exact .inl (by simpa using e)

theorem waiterStep_ok (e : waiterStep t = some u) (h : Ok s w t) : Ok s w u := by
  unfold waiterStep at e
  rcases orElse_some e with e | e
  · exact grantStep_ok e h
  rcases orElse_some e with e | e
  · exact longStep_ok e h
  · exact drainStep_ok e h

theorem atOnce_ok (n : Nat) (h : Ok s w t) : Ok s w (atOnce n t) := by
  induction n generalizing t with
  | zero => exact h
  | succ n ih =>
    unfold atOnce
    split
    · rename_i e; exact ih (waiterStep_ok e h)
    · exact h

theorem failOp_ok (op : Op) (h : Ok s (w.op op) t) : Ok s w (failOp op t) :=
  atOnce_ok _ (deliver_ok _ _ (fun _ => failedAnswer_ok op) (countReader_ok _ _ h))

theorem failFront_ok (d : Nat) (h : Ok s w t) : Ok s w (failFront d t) := by
  unfold failFront
  split
  · rename_i op q e
    refine failOp_ok _ (dieUpd_took d op _ (fun p => ?_) (queue_lt (by simp [e])) h)
    simp only [DieRec.ops, e]
    have k : opsCount p (op :: q) = opsCount p [op] + opsCount p q := opsCount_append p [op] q
    rw [opsCount_append, opsCount_append, k]
    omega
  · exact h

theorem failQueue_ok (d n : Nat) (h : Ok s w t) : Ok s w (failQueue d n t) := by
  induction n generalizing t with
  | zero => exact h
  | succ n ih => exact ih (failFront_ok _ h)

theorem goOffline_ok (d : Nat) (h : Ok s w t) : Ok s w (goOffline d t) :=
  requestReadOnly_ok (failQueue_ok _ _ (raise_ok _ _ (dieUpd_ok _ _ (fun q => opsCount_idle _ q) h)))

theorem countTimeout_ok (d : Nat) (h : Ok s w t) : Ok s w (countTimeout d t) := by
  unfold countTimeout
  dsimp only
  have k : Ok s w (dieUpd d (fun r => { r with timeouts := (dieAt t d).timeouts + 1 }) t) := dieUpd_ok _ _ (fun _ => le_refl _) h
  split
  · exact goOffline_ok _ k
  · exact dieUpd_ok _ _ (fun q => opsCount_idle _ q) k

theorem opTimeout_ok (d : Nat) (op : Op) (e : (dieAt t d).inFlight = some op) (h : Ok s w t) : Ok s w (opTimeout d op t) := by
  have k : Ok s (w.op op) (dieUpd d (fun r => { r with inFlight := none, timer := none }) t) :=
    dieUpd_took d op _ (fun j => by rw [opsCount_inFlight _ op e]; exact le_refl _) (inFlight_lt e) h
  unfold opTimeout
  dsimp only
  split
  · exact probeDecide_ok _ _ (countTimeout_ok _ k.drop_op)
  · exact countTimeout_ok _ (raise_ok _ _ (failOp_ok _ k))

theorem resetTimeout_ok (d : Nat) (h : Ok s w t) : Ok s w (resetTimeout d t) := by
  unfold resetTimeout
  dsimp only
  split
  · have k : Ok s w (dieUpd d (fun r => { DieRec.unused with grades := r.grades }) t) := dieUpd_ok _ _ (fun _ => Nat.zero_le _) h
    split
    · exact probeDecide_ok _ _ k
    · exact k
  · exact countTimeout_ok _ (raise_ok _ _ h)

/-- The operation on its way is the die's by now. -/
theorem dieUpd_issue (d : Nat) (op : Op) (f : DieRec → DieRec)
    (hf : ∀ q, opsCount q (f (dieAt t d)).ops ≤ opsCount q (dieAt t d).ops + opsCount q [op]) (h : Ok s (w.op op) t) :
    Ok s w (dieUpd d f t) := by
  have k : ∀ q, opsOut q (dieUpd d f t).dies ≤ opsOut q t.dies + opsCount q [op] := fun q => opsOut_set_le q _ (hf q)
  exact { h with
    dlen := by simpa [dieUpd] using h.dlen
    en := h.en.issued k
    bk := BkC.issued (w := w.bare) h.bk k
    mi := MiC.issued (w := w.bare) h.mi k }

theorem resetEnded_ok (d : Nat) (h : Ok s w t) : Ok s w (resetEnded d t) := by
  unfold resetEnded
  dsimp only
  split
  · let op : Op :=
      { role := .identify, cls := .mountRead, block := ⟨d, 0⟩, page := 0, slot := 0, count := 0, expect := none, data := .none,
        stale := false, ticket := t.ticket }
    refine dieUpd_issue d op _ (fun q => ?_) (h.plain rfl)
    rw [opsCount_inFlight _ op rfl]
    exact Nat.add_le_add_right (opsCount_idle (dieAt t d) q) _
  · exact dieUpd_ok _ _ (fun _ => le_refl _) h

theorem opsCount_eraseIdx (l : List Op) (i : Nat) (op : Op) (e : l[i]? = some op) (q : OpRole → Bool → BlockId → Bool) :
    opsCount q (l.eraseIdx i) + opsCount q [op] = opsCount q l := by
  have k : opsCount q (l.eraseIdx i) + opsCount q [op] = opsCount q (op :: l.eraseIdx i) := by
    have := opsCount_append q [op] (l.eraseIdx i)
    simp only [List.singleton_append] at this
    omega
  rw [k]
  obtain ⟨hi, rfl⟩ := List.getElem?_eq_some_iff.1 e
  exact (List.getElem_cons_eraseIdx_perm hi).countP_eq _

theorem startAt_ok (d i : Nat) (h : Ok s w t) : Ok s w (startAt d i t) := by
  unfold startAt
  split
  · rename_i op e
    refine dieUpd_ok _ _ (fun q => ?_) h
    rw [opsCount_inFlight _ op rfl]
    have k := opsCount_eraseIdx _ _ op e q
    simp only [DieRec.ops]
    rw [opsCount_append]
    omega
  · exact h

theorem arbitrate_ok (d : Nat) (hk : Ok s w t) : Ok s w (arbitrate d t) := by
  unfold arbitrate
  try dsimp only
  repeat' first
    | with_reducible assumption | with_reducible apply startAt_ok | with_reducible apply takeFree_ok | split

theorem arbitrateAll_ok (hk : Ok s w t) : Ok s w (arbitrateAll t) := by
  unfold arbitrateAll
  try dsimp only
  repeat' first
    | with_reducible assumption | refine foldl_ok _ (fun _ _ h => ?_) _ ?_ | with_reducible apply arbitrate_ok

/-! ### Settle -/

theorem offlineStep_ok (e : offlineStep t = some u) (h : Ok s w t) : Ok s w u := by
  unfold offlineStep at e
  obtain ⟨d, -, e⟩ := Option.map_eq_some_iff.1 e
  cases e
  exact failFront_ok _ h

theorem retireStep_ok (e : retireStep t = some u) (h : Ok s w t) : Ok s w u := by
  unfold retireStep at e
  split at e
  · obtain ⟨b, hb, e⟩ := Option.map_eq_some_iff.1 e
    cases e
    exact handRetire_ok _ (List.mem_of_find?_eq_some hb) (List.find?_some hb) h
  · cases e

theorem identityStep_ok (e : identityStep t = some u) (h : Ok s w t) : Ok s w u := by
  unfold identityStep at e
  split at e
  · split at e
    · cases e; exact formUpdate_ok (by assumption) h
    · cases e
  · split at e
    · cases e; exact startCopy_ok _ h
    · split at e
      · cases e; exact issueStep_ok _ _ _ h
      · cases e
    · cases e
    · cases e; exact updateAnswered_ok _ (by assumption) h

theorem commitStep_ok (e : commitStep t = some u) (h : Ok s w t) : Ok s w u := by
  unfold commitStep at e
  split at e
  · rename_i hm
    simp only [Bool.and_eq_true, Bool.or_eq_true, beq_iff_eq] at hm
    have n1 : t.mode ≠ .mounting := by rcases hm.1 with c | c <;> simp [c]
    have n2 : t.mode ≠ .formatting := by rcases hm.1 with c | c <;> simp [c]
    split at e
    · rename_i x hx
      split at e
      · rename_i hh
        split at e
        · cases e; exact formBatch_ok _ hx hh.1 hh.2.1 h
        · cases e; exact requestReadOnly_ok h
      · cases e
    · rename_i hx
      dsimp only at e
      generalize (if t.mode = .draining then 0 else Config.hostReserve) = tier at e
      split at e
      · cases e; exact openHostHead_ok hx (h.phase_done n1) (h.no_format n2) h
      · split at e
        · cases e; exact requestReadOnly_ok h
        · cases e
  · cases e

theorem reclaimStep_ok (e : reclaimStep t = some u) (h : Ok s w t) : Ok s w u := by
  unfold reclaimStep at e
  split at e
  · cases e
  · rename_i hm
    have hm : t.mode = .active := by simpa using hm
    have hp := h.phase_done (t := t) (by simp [hm])
    have hf := h.no_format (t := t) (by simp [hm])
    split at e
    · split at e
      · cases e; exact workOn_ok _ _ hp hf h
      · split at e
        · split at e
          · cases e
          · cases e; exact workOn_ok _ _ hp hf h
        · split at e
          · split at e
            · cases e; exact takeVictim_ok _ (by assumption) hp hf h
            · split at e
              · cases e; exact requestReadOnly_ok h
              · cases e
          · cases e
    · split at e
      · cases e; exact requestCopyHead_ok hp hf (engine_ok _ ⟨rfl, rfl, rfl, rfl⟩ h)
      · cases e
    · cases e

theorem engineStep_ok (e : engineStep t = some u) (h : Ok s w t) : Ok s w u := by
  unfold engineStep at e
  split at e
  · split at e
    · exact commitStep_ok e (takeFree_ok _ h)
    · exact reclaimStep_ok e (takeFree_ok _ h)
  · cases e; exact commitStep_ok (by assumption) h
  · cases e; exact reclaimStep_ok (by assumption) h
  · cases e

theorem settleStep_ok (e : settleStep t = some u) (h : Ok s w t) : Ok s w u := by
  unfold settleStep at e
  rcases orElse_some e with e | e
  · exact offlineStep_ok e h
  rcases orElse_some e with e | e
  · exact grantStep_ok e h
  rcases orElse_some e with e | e
  · exact longStep_ok e h
  rcases orElse_some e with e | e
  · exact formatStep_ok e h
  rcases orElse_some e with e | e
  · exact mountStep_ok e h
  rcases orElse_some e with e | e
  · exact drainStep_ok e h
  rcases orElse_some e with e | e
  · exact victimStep_ok e h
  rcases orElse_some e with e | e
  · exact retireStep_ok e h
  rcases orElse_some e with e | e
  · exact eraseStep_ok e h
  rcases orElse_some e with e | e
  · exact identityStep_ok e h
  · exact engineStep_ok e h

theorem settle_ok (n : Nat) (h : Ok s w t) : Ok s w (settle n t) := by
  induction n generalizing t with
  | zero => unfold settle; exact h
  | succ n ih =>
    unfold settle
    split
    · exact ih (settleStep_ok (by assumption) h)
    · exact h

theorem drive_ok (h : Ok s w t) : Ok s w (drive t) := h

theorem finish_ok (h : Ok s w t) : Ok s w (finish t) := by
  have h1 : Ok s w (settle settleRounds t) := settle_ok _ h
  unfold finish
  generalize settle settleRounds t = T at h1 ⊢
  exact drive_ok (leaveDies_ok (arbitrateAll_ok h1))

/-! ### HostBus -/

theorem takeAccess_ok (write : Option Byte) (addr : BitVec 24) (h : Ok s w t) : Ok s w (takeAccess write addr t) := by
  unfold takeAccess
  exact setAccess_ok _ (fun c => nomatch c) h

theorem takeRead_ok (addr : BitVec 24) (hk : Ok s w t) : Ok s w (takeRead addr t) := by
  unfold takeRead
  try dsimp only
  repeat' first
    | with_reducible assumption | with_reducible apply takeAccess_ok | with_reducible apply answer_ok
    | with_reducible apply raiseOpt_ok | with_reducible apply serveRead_ok | split

theorem takeWrite_ok (addr : BitVec 24) (data : Byte) (h : Ok s w t) : Ok s w (takeWrite addr data t) := by
  unfold takeWrite
  dsimp only
  split
  · exact h
  · have k := takeAccess_ok (some data) addr h
    split
    · exact answer_ok _ (raiseOpt_ok _ _ k)
    · rename_i hm
      have hp : t.mount.phase = .done := h.phase_done (by
        intro c
        rw [c] at hm
        cases hm)
      split
      · exact answer_ok _ (raise_ok _ _ k)
      · rename_i hr
        refine stageWrite_ok _ _ _ hp (fun _ => ⟨hp, fun c => ?_⟩) k
        unfold writeRefused at hr
        repeat' split at hr
        all_goals try cases hr
        rename_i hn
        rw [show isOnce (takeAccess (some data) addr t) (lineOf addr) = true from c] at hn
        simp only [Bool.true_and, Bool.not_eq_true', Bool.not_eq_false] at hn
        exact of_decide_eq_true hn

theorem releaseStrobe_ok (h : Ok s w t) : Ok s w (releaseStrobe t) := by
  unfold releaseStrobe
  exact setAccess_ok _ (fun c => nomatch c) h

/-- The clock may move on inside the event. -/
theorem OkC.at_time (h : Ok s w t) (n : Nat) : Ok { s with now := n } w { t with now := n } := { h with now := rfl }

theorem waitExpires_ok (h : Ok s w t) : ∃ n, s.now ≤ n ∧ Ok { s with now := n } w (waitExpires t) := by
  unfold waitExpires
  split
  · split
    · rename_i st li why hp
      refine ⟨max t.now (st + li), h.now ▸ Nat.le_max_left _ _, ?_⟩
      have h1 := h.at_time (max t.now (st + li))
      dsimp only
      split
      · exact raise_ok _ _ (answer_ok _ h1)
      · exact raise_ok _ _ (answer_ok _ h1)
    · exact ⟨s.now, Nat.le_refl _, h⟩
  · exact ⟨s.now, Nat.le_refl _, h⟩

/-! ### Requests -/

theorem reply_ok (code : ReplyCode) (data : List Byte) (hk : Ok s w t) : Ok s w (reply code data t) := by
  unfold reply
  repeat' first
    | with_reducible assumption

theorem shortRequest_ok (r : Request) {f : State → State} (hf : ∀ u, Ok s w u → Ok s w (f u)) (h : Ok s w t) :
    Ok s w (shortRequest r f t) := by
  unfold shortRequest
  split
  · exact hf _ h
  · exact reply_ok _ _ h

theorem longRequest_ok (r : Request) (refuses : State → Option ReplyCode) {f : State → State}
    (hf : accepts t.mode r = true → ∀ u, u.mode = t.mode → Ok s w u → Ok s w (f u)) (h : Ok s w t) :
    Ok s w (longRequest r refuses f t) := by
  unfold longRequest
  split
  · rename_i ha
    split
    · exact reply_ok _ _ h
    · split
      · exact reply_ok _ _ h
      · exact hf ha (reply .accepted [] t) rfl (reply_ok _ _ h)
  · exact reply_ok _ _ h

theorem occupy_ok (c : LongCmd) (hk : Ok s w t) : Ok s w (occupy c t) := by
  unfold occupy
  repeat' first
    | with_reducible assumption

theorem replyRecord_ok (record : List (Option Byte)) (hk : Ok s w t) : Ok s w (replyRecord record t) := by
  unfold replyRecord
  repeat' first
    | with_reducible assumption | with_reducible apply takeFree_ok | with_reducible apply reply_ok

theorem dropFaults_ok (m : Nat) (h : Ok s w t) : Ok s w (dropFaults m t) :=
  { h with faults := ⟨le_trans (by simp [dropFaults]) h.faults.1, fun r hr => h.faults.2 r (List.mem_of_mem_drop hr)⟩ }

theorem shiftOut_ok (n : Nat) (h : Ok s w t) : Ok s w (shiftOut n t) := h

theorem badFrame_ok (bytes : List Byte) (h : Ok s w t) : Ok s w (badFrame bytes t) := by
  unfold badFrame
  split
  · exact reply_ok _ _ (shiftOut_ok _ h)
  · exact shortRequest_ok _ (fun u hu => reply_ok _ _ hu) (shiftOut_ok _ h)
  · exact h
  · exact h

/-! ### Maintenance -/

theorem fetchFrame_ok (clocked : Nat) (hk : Ok s w t) : Ok s w (fetchFrame clocked t) := by
  have h := shiftOut_ok clocked hk
  unfold fetchFrame fetched
  split
  · split <;> exact h
  · exact h

theorem getStatus_ok (hk : Ok s w t) : Ok s w (getStatus t) := by
  unfold getStatus
  try dsimp only
  repeat' first
    | with_reducible assumption | with_reducible apply replyRecord_ok

theorem getFaults_ok (n : Byte) (hk : Ok s w t) : Ok s w (getFaults n t) := by
  unfold getFaults
  try dsimp only
  repeat' first
    | with_reducible assumption | with_reducible apply reply_ok | with_reducible apply dropFaults_ok
    | with_reducible apply replyRecord_ok | split

theorem getLine_ok (line : BitVec 24) (hk : Ok s w t) : Ok s w (getLine line t) := by
  unfold getLine
  repeat' first
    | with_reducible assumption | with_reducible apply replyRecord_ok | with_reducible apply reply_ok | split

theorem getBlock_ok (die block : Byte) (hk : Ok s w t) : Ok s w (getBlock die block t) := by
  unfold getBlock
  try dsimp only
  repeat' first
    | with_reducible assumption | with_reducible apply replyRecord_ok | with_reducible apply reply_ok | split

theorem scrubAbort_ok (hk : Ok s w t) : Ok s w (scrubAbort t) := by
  unfold scrubAbort
  repeat' first
    | with_reducible assumption | with_reducible apply scrubEnd_ok | with_reducible apply scrubAt_ok | split

theorem abortLong_ok (hk : Ok s w t) : Ok s w (abortLong t) := by
  unfold abortLong
  repeat' first
    | with_reducible assumption | with_reducible apply flushEnd_ok | with_reducible apply trimEnd_ok
    | with_reducible apply scrubAbort_ok | with_reducible apply freezeAbort_ok | with_reducible apply formatAbort_ok | split

theorem startFlush_ok (hk : Ok s w t) : Ok s w (startFlush t) := by
  unfold startFlush
  repeat' first
    | with_reducible assumption | with_reducible apply occupy_ok

theorem startTrim_ok (base count : Nat) (hk : Ok s w t) : Ok s w (startTrim base count t) := by
  unfold startTrim
  repeat' first
    | with_reducible assumption | with_reducible apply occupy_ok

theorem startScrub_ok (first count : Nat) (hk : Ok s w t) : Ok s w (startScrub first count t) := by
  unfold startScrub
  repeat' first
    | with_reducible assumption | with_reducible apply scrubDecideNow_ok | with_reducible apply occupy_ok

theorem startFreeze_ok (region : Nat) (hk : Ok s w t) : Ok s w (startFreeze region t) := by
  unfold startFreeze
  try dsimp only
  repeat' first
    | with_reducible assumption | with_reducible apply occupy_ok

theorem startFormat_ok {f : Bool} (table : List RawRegion) (h1 : t.mode ≠ .mounting) (h2 : t.mode ≠ .parked) (h3 : t.mode ≠ .formatting)
    (h : Ok s (.none f) t) : Ok s (.none f) (startFormat table t) := formatAccept_ok _ h1 h2 h3 h

theorem trimWalk_ok (hk : Ok s w t) : Ok s w (trimWalk t) := by
  unfold trimWalk
  repeat' first
    | with_reducible assumption | with_reducible apply trimAct_ok | split

theorem commitDelayExpires_ok (h : Ok s w t) : ∃ n, s.now ≤ n ∧ Ok { s with now := n } w (commitDelayExpires t) := by
  unfold commitDelayExpires
  split
  · split
    · exact ⟨_, h.now ▸ Nat.le_max_left _ _, h.at_time _⟩
    · exact ⟨s.now, Nat.le_refl _, h⟩
  · exact ⟨s.now, Nat.le_refl _, h⟩

/-! ### MediumAnswers -/

theorem dieReady_ok (d : Nat) (hk : Ok s w t) : Ok s w (dieReady d t) := by
  unfold dieReady
  repeat' first
    | with_reducible assumption | with_reducible apply resetEnded_ok | split

theorem identified_ok (d blocks pages slots : Nat) (hk : Ok s w t) : Ok s w (identified d blocks pages slots t) := by
  unfold identified
  try dsimp only
  repeat' first
    | with_reducible assumption | with_reducible apply probeDecide_ok | with_reducible apply dieAnswered_ok | split

theorem dieTimesOut_ok (d : Nat) (h : Ok s w t) : ∃ n, s.now ≤ n ∧ Ok { s with now := n } w (dieTimesOut d t) := by
  unfold dieTimesOut
  dsimp only
  split
  · exact ⟨s.now, Nat.le_refl _, h⟩
  · rename_i st hp
    refine ⟨max t.now (st + Config.dieTimeoutUs), h.now ▸ Nat.le_max_left _ _, ?_⟩
    have h1 := h.at_time (max t.now (st + Config.dieTimeoutUs))
    split
    · exact opTimeout_ok _ _ (by assumption) h1
    · split
      · exact resetTimeout_ok _ h1
      · exact h1

/-! ### Commands -/

/-- The invariants of a state give what every operation inside an event keeps; `f` says that what the medium answers is well-formed. -/
theorem Inv.start {f : Bool} (h : Inv s) (hs : f = true → StampInv s) (hr : s.rstLow = false) : Ok s (.none f) s :=
  { rst := hr
    pend := rfl
    pfw := rfl
    now := rfl
    set := rfl
    slen := h.size.1
    dlen := h.size.2
    map := h.map
    faults := h.faults
    mode := h.mode.2
    space := h.space
    en :=
      { queue := fun i => (h.entry i).1
        lru := fun i => (h.entry i).2.1
        recs := fun i => (h.entry i).2.2.1
        fills := fun i => (h.entry i).2.2.2 }
    bk :=
      { h.block with
        vic := h.block.victim
        reqs := h.block.handed
        erases := fun c => h.block.erases (bne_iff_ne.1 c)
        stamps := fun c => h.block.stamps (bne_iff_ne.1 c)
        quiet := fun c => by
          obtain ⟨q1, q2, q3, q4, q5, q6, q7⟩ := h.block.quiet c
          exact ⟨q1, q2, q3, q4, q5, q6, q7, rfl⟩ }
    mi := { h.mount with cls := h.mount.classify }
    stc := fun c => { hs c with acc := (hs c).waits } }

theorem OkC.inv {f : Bool} (h : Ok s (.none f) t) (hs : SettingsInv s) : Inv t where
  map := h.map
  faults := h.faults
  settings := by
    have := h.set
    simp only [SettingsInv] at hs ⊢
    rw [this]
    exact hs
  size := ⟨h.slen, h.dlen⟩
  mode := ⟨fun k => Bool.noConfusion (h.rst.symm.trans k), h.mode⟩
  space := h.space
  entry := fun i => ⟨h.en.queue i, h.en.lru i, h.en.recs i, h.en.fills i⟩
  block :=
    { h.bk with
      victim := h.bk.vic
      handed := h.bk.reqs
      erases := fun c => h.bk.erases (bne_iff_ne.2 c)
      stamps := fun c => h.bk.stamps (bne_iff_ne.2 c)
      quiet := fun c => by
        obtain ⟨q1, q2, q3, q4, q5, q6, q7, _⟩ := h.bk.quiet c
        exact ⟨q1, q2, q3, q4, q5, q6, q7⟩ }
  mount := { h.mi with classify := h.mi.cls }

theorem OkC.stampInv (h : Ok s (.none true) t) : StampInv t := { h.stc rfl with waits := (h.stc rfl).acc }

/-- What `exec` keeps of the state it starts from, whatever the command but a setting and the two pins: `Ok`, at a clock that has not
gone back. -/
def OkAny (f : Bool) (s t : State) : Prop := ∃ n, s.now ≤ n ∧ Ok { s with now := n } (.none f) t

theorem event_any {f : Bool} {g : State → State} (e : event g s = .next t) (h : Inv s) (hs : f = true → StampInv s)
    (hg : Ok s (.none f) s → OkAny f s (g s)) : (s.rstLow = true ∧ t = s) ∨ (s.rstLow = false ∧ OkAny f s t) := by
  unfold event at e
  split at e
  · rename_i hr
    cases e; exact .inl ⟨hr, rfl⟩
  · rename_i hr
    injection e with e
    obtain ⟨n, hle, hn⟩ := hg (h.start hs (by simpa using hr))
    refine .inr ⟨by simpa using hr, n, hle, ?_⟩
    rw [← e]
    exact finish_ok hn

theorem Ok.any {f : Bool} (h : Ok s (.none f) t) : OkAny f s t := ⟨s.now, Nat.le_refl _, h⟩

theorem quick_any {f : Bool} {g : State → State} (e : quick g s = .next t) (h : Inv s) (hs : f = true → StampInv s)
    (hg : Ok s (.none f) s → OkAny f s (g s)) : (s.rstLow = true ∧ t = s) ∨ (s.rstLow = false ∧ OkAny f s t) := by
  unfold quick at e
  split at e
  · rename_i hr
    cases e; exact .inl ⟨hr, rfl⟩
  · rename_i hr
    injection e with e
    obtain ⟨n, hle, hn⟩ := hg (h.start hs (by simpa using hr))
    refine .inr ⟨by simpa using hr, n, hle, ?_⟩
    rw [← e]
    exact drive_ok hn

theorem accepts_format {m : Mode} (h : accepts m .format = true) : m ≠ .mounting ∧ m ≠ .parked ∧ m ≠ .formatting := by
  cases m <;> simp_all [accepts]

theorem wfSlot_one {d : Nat} {r : RawSlot} (h : (wfDie d && wfSlot r) = true) : [r].all wfSlot = true := by
  simp only [Bool.and_eq_true] at h
  simpa using h.2

theorem wfPage_all {l : List RawSlot} (h : wfPage l = true) : l.all wfSlot = true := by
  simp only [wfPage, Bool.and_eq_true] at h
  exact h.2

theorem exec_any {f : Bool} {c : Instr} (hc : setsOrPins c = false) (h : Inv s) (hs : f = true → c.wf = true ∧ StampInv s)
    (e : exec c s = .next t) : (s.rstLow = true ∧ t = s) ∨ (s.rstLow = false ∧ OkAny f s t) := by
  have hi := fun c => (hs c).2
  have hw := fun c => (hs c).1
  cases c with
  | setCommitDelay _ => cases hc
  | setBatchThreshold _ => cases hc
  | setWaitLimit _ => cases hc
  | setAttentionMask _ => cases hc
  | resetAssert => cases hc
  | resetRelease => cases hc
  | pfwLow => cases hc
  | pfwHigh => cases hc
  | hostRead a => exact event_any e h hi (fun k => (takeRead_ok _ k).any)
  | hostWrite a d => exact event_any e h hi (fun k => (takeWrite_ok _ _ k).any)
  | hostStrobeRelease => exact event_any e h hi (fun k => (releaseStrobe_ok k).any)
  | waitLimitExpiry => exact event_any e h hi (fun k => waitExpires_ok k)
  | badFrame b => exact quick_any e h hi (fun k => (badFrame_ok _ k).any)
  | fetchFrame n => exact quick_any e h hi (fun k => (fetchFrame_ok _ k).any)
  | getStatus => exact quick_any e h hi (fun k => (shortRequest_ok _ (fun _ hu => getStatus_ok hu) (shiftOut_ok _ k)).any)
  | getFaults n => exact quick_any e h hi (fun k => (shortRequest_ok _ (fun _ hu => getFaults_ok _ hu) (shiftOut_ok _ k)).any)
  | getLine n => exact quick_any e h hi (fun k => (shortRequest_ok _ (fun _ hu => getLine_ok _ hu) (shiftOut_ok _ k)).any)
  | getBlock d b => exact quick_any e h hi (fun k => (shortRequest_ok _ (fun _ hu => getBlock_ok _ _ hu) (shiftOut_ok _ k)).any)
  | abort => exact event_any e h hi (fun k => (shortRequest_ok _ (fun _ hu => abortLong_ok (reply_ok _ _ hu)) (shiftOut_ok _ k)).any)
  | flush => exact event_any e h hi (fun k => (longRequest_ok _ _ (fun _ _ _ hu => startFlush_ok hu) (shiftOut_ok _ k)).any)
  | trim b c => exact event_any e h hi (fun k => (longRequest_ok _ _ (fun _ _ _ hu => startTrim_ok _ _ hu) (shiftOut_ok _ k)).any)
  | scrub b c => exact event_any e h hi (fun k => (longRequest_ok _ _ (fun _ _ _ hu => startScrub_ok _ _ hu) (shiftOut_ok _ k)).any)
  | freeze r w => exact event_any e h hi (fun k => (longRequest_ok _ _ (fun _ _ _ hu => startFreeze_ok _ hu) (shiftOut_ok _ k)).any)
  | format r w =>
    exact event_any e h hi (fun k => (longRequest_ok _ _ (fun ha u hm hu => by
      have := accepts_format ha
      rw [← hm] at this
      exact startFormat_ok _ this.1 this.2.1 this.2.2 hu) (shiftOut_ok _ k)).any)
  | trimWalkLine => exact event_any e h hi (fun k => (trimWalk_ok k).any)
  | commitDelayExpiry => exact event_any e h hi (fun k => commitDelayExpires_ok k)
  | readFillAnswer d r => exact event_any e h hi (fun k => (answerRead_ok _ _ _ _ (fun c => wfSlot_one (hw c)) k).any)
  | directReadAnswer d r => exact event_any e h hi (fun k => (answerRead_ok _ _ _ _ (fun c => wfSlot_one (hw c)) k).any)
  | copyReadAnswer d r => exact event_any e h hi (fun k => (answerRead_ok _ _ _ _ (fun c => wfSlot_one (hw c)) k).any)
  | scrubReadAnswer d r => exact event_any e h hi (fun k => (answerRead_ok _ _ _ _ (fun c => wfSlot_one (hw c)) k).any)
  | hostOpenStampAnswer d r => exact event_any e h hi (fun k => (answerStatus_ok _ _ _ k).any)
  | batchProgramAnswer d r => exact event_any e h hi (fun k => (answerStatus_ok _ _ _ k).any)
  | copyOpenStampAnswer d r => exact event_any e h hi (fun k => (answerStatus_ok _ _ _ k).any)
  | copyProgramAnswer d r => exact event_any e h hi (fun k => (answerStatus_ok _ _ _ k).any)
  | eraseAnswer d r => exact event_any e h hi (fun k => (answerStatus_ok _ _ _ k).any)
  | eraseStampAnswer d r => exact event_any e h hi (fun k => (answerStatus_ok _ _ _ k).any)
  | identityPageProgramAnswer r => exact event_any e h hi (fun k => (answerStatus_ok _ _ _ k).any)
  | identityEraseAnswer r => exact event_any e h hi (fun k => (answerStatus_ok _ _ _ k).any)
  | formatIdentityEraseAnswer r => exact event_any e h hi (fun k => (answerStatus_ok _ _ _ k).any)
  | formatIdentityProgramAnswer r => exact event_any e h hi (fun k => (answerStatus_ok _ _ _ k).any)
  | identityReadAnswer l c => exact event_any e h hi (fun k => (answerRead_ok _ _ _ _ (fun c => wfPage_all ((Bool.and_eq_true_iff.1 (hw c)).1)) k).any)
  | classifyReadAnswer d l => exact event_any e h hi (fun k => (answerRead_ok _ _ _ _ (fun c => wfPage_all ((Bool.and_eq_true_iff.1 (hw c)).2)) k).any)
  | scanReadAnswer d l => exact event_any e h hi (fun k => (answerRead_ok _ _ _ _ (fun c => wfPage_all ((Bool.and_eq_true_iff.1 (hw c)).2)) k).any)
  | dieResetReady d => exact event_any e h hi (fun k => (dieReady_ok _ k).any)
  | identifyAnswer d b p l => exact event_any e h hi (fun k => (identified_ok _ _ _ _ k).any)
  | dieTimeout d => exact event_any e h hi (fun k => dieTimesOut_ok _ k)

/-! ### RST_N -/

theorem opsOut_unused (q : OpRole → Bool → BlockId → Bool) : opsOut q (List.replicate 4 DieRec.unused) = 0 := by
  simp [opsOut, DieRec.unused, DieRec.ops, opsCount]

theorem opsOut_probing (q : OpRole → Bool → BlockId → Bool) (n : Nat) : opsOut q (List.replicate 4 (DieRec.probing n)) = 0 := by
  simp [opsOut, DieRec.probing, DieRec.unused, DieRec.ops, opsCount]

/-- The reset values meet the invariants. -/
theorem inReset_inv (p : Bool) (n f k : Nat) (l : List Instr) : Inv (State.inReset p n f k l) where
  map := rfl
  faults := ⟨by simp [State.inReset], by simp [State.inReset]⟩
  settings := by simp [SettingsInv, State.inReset, Settings.default]
  size := ⟨by simp [State.inReset], by simp [State.inReset]⟩
  mode := by simp [ModeInv, State.inReset, Mount.initial]
  space := fun k => MountPhase.noConfusion k
  entry := fun i => by
    have h := EnC.cleared false (List.replicate 4 DieRec.unused) (fun i => opsOut_unused _)
    exact ⟨h.queue i, h.lru i, h.recs i, h.fills i⟩
  block :=
    { rise := rfl
      fresh := fun _ => rfl
      valid := fun k => rfl
      free := fun k => rfl
      ident := fun k r h => by cases h
      empty := fun k r h => by cases h
      works := fun k r h => by cases h
      head := fun k => Nat.le_refl _
      copy := fun k => Nat.le_refl _
      victim := fun b h => by cases h
      reloc := fun k => Nat.le_refl _
      wait := fun k => Nat.le_refl _
      handed := fun k => Nat.le_refl _
      erases := fun _ k => (opsOut_unused _).le.trans (Nat.zero_le _)
      stamps := fun _ k => (opsOut_unused _).le.trans (Nat.zero_le _)
      opens := (opsOut_unused _).le.trans (Nat.zero_le _)
      batch := fun b h => by cases h
      quiet := fun _ => ⟨rfl, rfl, rfl, rfl, rfl, rfl, rfl⟩
      still := fun _ k => ⟨opsOut_unused _, opsOut_unused _⟩ }
  mount :=
    { early := fun _ => ⟨rfl, rfl⟩
      rise := rfl
      range := fun _ k f h => by cases h
      classify := fun b => (opsOut_unused _).le.trans (Nat.zero_le _)
      scan := fun b h => by
        have : opsOut (isReadAt .scanRead b) (State.inReset p n f k l).dies = 0 := opsOut_unused _
        omega
      cands := fun c h => by cases h }

theorem inReset_stampInv (p : Bool) (n f k : Nat) (l : List Instr) : StampInv (State.inReset p n f k l) where
  le := fun _ => Nat.zero_le _
  sum := fun _ h => by cases h
  recs := fun _ h => by cases h
  entries := fun i => by
    have : entryAt (State.inReset p n f k l) i = Entry.cleared := by
      show (List.replicate Config.entries Entry.cleared).getD i Entry.cleared = _
      simp only [List.getD_eq_getElem?_getD, List.getElem?_replicate]
      split <;> rfl
    rw [this]
    exact ⟨fun h => (by cases h), fun h => (by cases h), fun h => (by cases h), fun _ => rfl⟩
  waits := fun h => by cases h
  cands := fun c h => by cases h

/-- The release of RST_N starts the mount of a part in which nothing of one has run. -/
theorem released_inv (h : Inv s) (hr : s.rstLow = true) : Inv s.released := by
  have hm := h.mode
  have hb := h.block
  have e1 (q) : opsOut q s.released.dies = 0 := opsOut_probing _ _
  have hp : s.mount.phase ≠ .done := by rw [(hm.1 hr).2]; exact fun k => MountPhase.noConfusion k
  exact
    { map := h.map
      faults := h.faults
      settings := h.settings
      size := ⟨h.size.1, by simp [State.released]⟩
      mode := ⟨fun k => (by cases k), fun _ => (hm.1 hr).1, hm.2.2⟩
      space := fun k => MountPhase.noConfusion k
      entry := fun i => ⟨(h.entry i).1, (h.entry i).2.1, (h.entry i).2.2.1, by
        have := (h.entry i).2.2.2
        rw [e1]
        exact (Nat.add_le_add_right (Nat.zero_le _) _).trans this⟩
      block :=
        { rise := hb.rise
          fresh := fun _ => hb.fresh hp
          valid := hb.valid
          free := hb.free
          ident := hb.ident
          empty := hb.empty
          works := hb.works
          head := hb.head
          copy := hb.copy
          victim := hb.victim
          reloc := hb.reloc
          wait := hb.wait
          handed := hb.handed
          erases := fun _ k => (e1 _).le.trans (Nat.zero_le _)
          stamps := fun _ k => (e1 _).le.trans (Nat.zero_le _)
          opens := (e1 _).le.trans (Nat.zero_le _)
          batch := hb.batch
          quiet := fun _ => hb.quiet (.inl hp)
          still := fun _ k => ⟨e1 _, e1 _⟩ }
      mount :=
        { early := fun _ => ⟨rfl, rfl⟩
          rise := rfl
          range := fun _ k f h => by cases h
          classify := fun b => (e1 _).le.trans (Nat.zero_le _)
          scan := fun b k => by rw [e1] at k; cases k
          cands := fun c h => by cases h } }

theorem released_stampInv (h : StampInv s) (hp : s.mount.phase ≠ .done) : StampInv s.released where
  le := h.le
  sum := h.sum
  recs := h.recs
  entries := fun i => ⟨(h.entries i).clean, (h.entries i).loading, (h.entries i).line, fun _ => (h.entries i).mount hp⟩
  waits := fun k => absurd (h.waits k) hp
  cands := fun c h => by cases h

/-- The pins are in neither group of invariants. -/
theorem drive_inv (h : Inv s) : Inv (drive s) := { h with block := { h.block with }, mount := { h.mount with } }
theorem drive_stampInv (h : StampInv s) : StampInv (drive s) := { h with }

end Sys2Proof.Machine
end

