-- ==== Sys2Proof/Laws/State.lean ====
section
/-! SUPPORT. One lemma per field of State for each plain update, true by `rfl`: what the update sets, and that it sets nothing else. -/
namespace Sys2Proof.Machine

variable (s : State)

/-! ### `setEntry` -/

@[simp] theorem setEntry_rstLow (i : Nat) (e : Entry) : (setEntry i e s).rstLow = s.rstLow := rfl
@[simp] theorem setEntry_now (i : Nat) (e : Entry) : (setEntry i e s).now = s.now := rfl
@[simp] theorem setEntry_freeTaken (i : Nat) (e : Entry) : (setEntry i e s).freeTaken = s.freeTaken := rfl
@[simp] theorem setEntry_ticket (i : Nat) (e : Entry) : (setEntry i e s).ticket = s.ticket := rfl
@[simp] theorem setEntry_pending (i : Nat) (e : Entry) : (setEntry i e s).pending = s.pending := rfl
@[simp] theorem setEntry_mode (i : Nat) (e : Entry) : (setEntry i e s).mode = s.mode := rfl
@[simp] theorem setEntry_heldReadOnly (i : Nat) (e : Entry) : (setEntry i e s).heldReadOnly = s.heldReadOnly := rfl
@[simp] theorem setEntry_pfwHigh (i : Nat) (e : Entry) : (setEntry i e s).pfwHigh = s.pfwHigh := rfl
@[simp] theorem setEntry_drainRunning (i : Nat) (e : Entry) : (setEntry i e s).drainRunning = s.drainRunning := rfl
@[simp] theorem setEntry_host (i : Nat) (e : Entry) : (setEntry i e s).host = s.host := rfl
@[simp] theorem setEntry_staging (i : Nat) (e : Entry) : (setEntry i e s).staging = s.staging.set i e := rfl
@[simp] theorem setEntry_lru (i : Nat) (e : Entry) : (setEntry i e s).lru = s.lru := rfl
@[simp] theorem setEntry_withheld (i : Nat) (e : Entry) : (setEntry i e s).withheld = s.withheld := rfl
@[simp] theorem setEntry_commit (i : Nat) (e : Entry) : (setEntry i e s).commit = s.commit := rfl
@[simp] theorem setEntry_lineMap (i : Nat) (e : Entry) : (setEntry i e s).lineMap = s.lineMap := rfl
@[simp] theorem setEntry_regions (i : Nat) (e : Entry) : (setEntry i e s).regions = s.regions := rfl
@[simp] theorem setEntry_frozen (i : Nat) (e : Entry) : (setEntry i e s).frozen = s.frozen := rfl
@[simp] theorem setEntry_blocks (i : Nat) (e : Entry) : (setEntry i e s).blocks = s.blocks := rfl
@[simp] theorem setEntry_freeList (i : Nat) (e : Entry) : (setEntry i e s).freeList = s.freeList := rfl
@[simp] theorem setEntry_reclaimCond (i : Nat) (e : Entry) : (setEntry i e s).reclaimCond = s.reclaimCond := rfl
@[simp] theorem setEntry_boost (i : Nat) (e : Entry) : (setEntry i e s).boost = s.boost := rfl
@[simp] theorem setEntry_dies (i : Nat) (e : Entry) : (setEntry i e s).dies = s.dies := rfl
@[simp] theorem setEntry_diesInUse (i : Nat) (e : Entry) : (setEntry i e s).diesInUse = s.diesInUse := rfl
@[simp] theorem setEntry_reclaim (i : Nat) (e : Entry) : (setEntry i e s).reclaim = s.reclaim := rfl
@[simp] theorem setEntry_scrub (i : Nat) (e : Entry) : (setEntry i e s).scrub = s.scrub := rfl
@[simp] theorem setEntry_trim (i : Nat) (e : Entry) : (setEntry i e s).trim = s.trim := rfl
@[simp] theorem setEntry_flushTracked (i : Nat) (e : Entry) : (setEntry i e s).flushTracked = s.flushTracked := rfl
@[simp] theorem setEntry_freeze (i : Nat) (e : Entry) : (setEntry i e s).freeze = s.freeze := rfl
@[simp] theorem setEntry_ident (i : Nat) (e : Entry) : (setEntry i e s).ident = s.ident := rfl
@[simp] theorem setEntry_format (i : Nat) (e : Entry) : (setEntry i e s).format = s.format := rfl
@[simp] theorem setEntry_mount (i : Nat) (e : Entry) : (setEntry i e s).mount = s.mount := rfl
@[simp] theorem setEntry_maint (i : Nat) (e : Entry) : (setEntry i e s).maint = s.maint := rfl
@[simp] theorem setEntry_pins (i : Nat) (e : Entry) : (setEntry i e s).pins = s.pins := rfl

/-! ### `mapSet` -/

@[simp] theorem mapSet_rstLow (l : Nat) (e : MapEntry) : (mapSet l e s).rstLow = s.rstLow := rfl
@[simp] theorem mapSet_now (l : Nat) (e : MapEntry) : (mapSet l e s).now = s.now := rfl
@[simp] theorem mapSet_freeTaken (l : Nat) (e : MapEntry) : (mapSet l e s).freeTaken = s.freeTaken := rfl
@[simp] theorem mapSet_ticket (l : Nat) (e : MapEntry) : (mapSet l e s).ticket = s.ticket := rfl
@[simp] theorem mapSet_pending (l : Nat) (e : MapEntry) : (mapSet l e s).pending = s.pending := rfl
@[simp] theorem mapSet_mode (l : Nat) (e : MapEntry) : (mapSet l e s).mode = s.mode := rfl
@[simp] theorem mapSet_heldReadOnly (l : Nat) (e : MapEntry) : (mapSet l e s).heldReadOnly = s.heldReadOnly := rfl
@[simp] theorem mapSet_pfwHigh (l : Nat) (e : MapEntry) : (mapSet l e s).pfwHigh = s.pfwHigh := rfl
@[simp] theorem mapSet_drainRunning (l : Nat) (e : MapEntry) : (mapSet l e s).drainRunning = s.drainRunning := rfl
@[simp] theorem mapSet_host (l : Nat) (e : MapEntry) : (mapSet l e s).host = s.host := rfl
@[simp] theorem mapSet_staging (l : Nat) (e : MapEntry) : (mapSet l e s).staging = s.staging := rfl
@[simp] theorem mapSet_lru (l : Nat) (e : MapEntry) : (mapSet l e s).lru = s.lru := rfl
@[simp] theorem mapSet_withheld (l : Nat) (e : MapEntry) : (mapSet l e s).withheld = s.withheld := rfl
@[simp] theorem mapSet_commit (l : Nat) (e : MapEntry) : (mapSet l e s).commit = s.commit := rfl
@[simp] theorem mapSet_lineMap (l : Nat) (e : MapEntry) : (mapSet l e s).lineMap = mapPut l e s.lineMap := rfl
@[simp] theorem mapSet_regions (l : Nat) (e : MapEntry) : (mapSet l e s).regions = s.regions := rfl
@[simp] theorem mapSet_frozen (l : Nat) (e : MapEntry) : (mapSet l e s).frozen = s.frozen := rfl
@[simp] theorem mapSet_blocks (l : Nat) (e : MapEntry) : (mapSet l e s).blocks = s.blocks := rfl
@[simp] theorem mapSet_freeList (l : Nat) (e : MapEntry) : (mapSet l e s).freeList = s.freeList := rfl
@[simp] theorem mapSet_reclaimCond (l : Nat) (e : MapEntry) : (mapSet l e s).reclaimCond = s.reclaimCond := rfl
@[simp] theorem mapSet_boost (l : Nat) (e : MapEntry) : (mapSet l e s).boost = s.boost := rfl
@[simp] theorem mapSet_dies (l : Nat) (e : MapEntry) : (mapSet l e s).dies = s.dies := rfl
@[simp] theorem mapSet_diesInUse (l : Nat) (e : MapEntry) : (mapSet l e s).diesInUse = s.diesInUse := rfl
@[simp] theorem mapSet_reclaim (l : Nat) (e : MapEntry) : (mapSet l e s).reclaim = s.reclaim := rfl
@[simp] theorem mapSet_scrub (l : Nat) (e : MapEntry) : (mapSet l e s).scrub = s.scrub := rfl
@[simp] theorem mapSet_trim (l : Nat) (e : MapEntry) : (mapSet l e s).trim = s.trim := rfl
@[simp] theorem mapSet_flushTracked (l : Nat) (e : MapEntry) : (mapSet l e s).flushTracked = s.flushTracked := rfl
@[simp] theorem mapSet_freeze (l : Nat) (e : MapEntry) : (mapSet l e s).freeze = s.freeze := rfl
@[simp] theorem mapSet_ident (l : Nat) (e : MapEntry) : (mapSet l e s).ident = s.ident := rfl
@[simp] theorem mapSet_format (l : Nat) (e : MapEntry) : (mapSet l e s).format = s.format := rfl
@[simp] theorem mapSet_mount (l : Nat) (e : MapEntry) : (mapSet l e s).mount = s.mount := rfl
@[simp] theorem mapSet_maint (l : Nat) (e : MapEntry) : (mapSet l e s).maint = s.maint := rfl
@[simp] theorem mapSet_pins (l : Nat) (e : MapEntry) : (mapSet l e s).pins = s.pins := rfl

/-! ### `dieUpd` -/

@[simp] theorem dieUpd_rstLow (d : Nat) (f : DieRec → DieRec) : (dieUpd d f s).rstLow = s.rstLow := rfl
@[simp] theorem dieUpd_now (d : Nat) (f : DieRec → DieRec) : (dieUpd d f s).now = s.now := rfl
@[simp] theorem dieUpd_freeTaken (d : Nat) (f : DieRec → DieRec) : (dieUpd d f s).freeTaken = s.freeTaken := rfl
@[simp] theorem dieUpd_ticket (d : Nat) (f : DieRec → DieRec) : (dieUpd d f s).ticket = s.ticket := rfl
@[simp] theorem dieUpd_pending (d : Nat) (f : DieRec → DieRec) : (dieUpd d f s).pending = s.pending := rfl
@[simp] theorem dieUpd_mode (d : Nat) (f : DieRec → DieRec) : (dieUpd d f s).mode = s.mode := rfl
@[simp] theorem dieUpd_heldReadOnly (d : Nat) (f : DieRec → DieRec) : (dieUpd d f s).heldReadOnly = s.heldReadOnly := rfl
@[simp] theorem dieUpd_pfwHigh (d : Nat) (f : DieRec → DieRec) : (dieUpd d f s).pfwHigh = s.pfwHigh := rfl
@[simp] theorem dieUpd_drainRunning (d : Nat) (f : DieRec → DieRec) : (dieUpd d f s).drainRunning = s.drainRunning := rfl
@[simp] theorem dieUpd_host (d : Nat) (f : DieRec → DieRec) : (dieUpd d f s).host = s.host := rfl
@[simp] theorem dieUpd_staging (d : Nat) (f : DieRec → DieRec) : (dieUpd d f s).staging = s.staging := rfl
@[simp] theorem dieUpd_lru (d : Nat) (f : DieRec → DieRec) : (dieUpd d f s).lru = s.lru := rfl
@[simp] theorem dieUpd_withheld (d : Nat) (f : DieRec → DieRec) : (dieUpd d f s).withheld = s.withheld := rfl
@[simp] theorem dieUpd_commit (d : Nat) (f : DieRec → DieRec) : (dieUpd d f s).commit = s.commit := rfl
@[simp] theorem dieUpd_lineMap (d : Nat) (f : DieRec → DieRec) : (dieUpd d f s).lineMap = s.lineMap := rfl
@[simp] theorem dieUpd_regions (d : Nat) (f : DieRec → DieRec) : (dieUpd d f s).regions = s.regions := rfl
@[simp] theorem dieUpd_frozen (d : Nat) (f : DieRec → DieRec) : (dieUpd d f s).frozen = s.frozen := rfl
@[simp] theorem dieUpd_blocks (d : Nat) (f : DieRec → DieRec) : (dieUpd d f s).blocks = s.blocks := rfl
@[simp] theorem dieUpd_freeList (d : Nat) (f : DieRec → DieRec) : (dieUpd d f s).freeList = s.freeList := rfl
@[simp] theorem dieUpd_reclaimCond (d : Nat) (f : DieRec → DieRec) : (dieUpd d f s).reclaimCond = s.reclaimCond := rfl
@[simp] theorem dieUpd_boost (d : Nat) (f : DieRec → DieRec) : (dieUpd d f s).boost = s.boost := rfl
@[simp] theorem dieUpd_dies (d : Nat) (f : DieRec → DieRec) : (dieUpd d f s).dies = s.dies.set d (f (dieAt s d)) := rfl
@[simp] theorem dieUpd_diesInUse (d : Nat) (f : DieRec → DieRec) : (dieUpd d f s).diesInUse = s.diesInUse := rfl
@[simp] theorem dieUpd_reclaim (d : Nat) (f : DieRec → DieRec) : (dieUpd d f s).reclaim = s.reclaim := rfl
@[simp] theorem dieUpd_scrub (d : Nat) (f : DieRec → DieRec) : (dieUpd d f s).scrub = s.scrub := rfl
@[simp] theorem dieUpd_trim (d : Nat) (f : DieRec → DieRec) : (dieUpd d f s).trim = s.trim := rfl
@[simp] theorem dieUpd_flushTracked (d : Nat) (f : DieRec → DieRec) : (dieUpd d f s).flushTracked = s.flushTracked := rfl
@[simp] theorem dieUpd_freeze (d : Nat) (f : DieRec → DieRec) : (dieUpd d f s).freeze = s.freeze := rfl
@[simp] theorem dieUpd_ident (d : Nat) (f : DieRec → DieRec) : (dieUpd d f s).ident = s.ident := rfl
@[simp] theorem dieUpd_format (d : Nat) (f : DieRec → DieRec) : (dieUpd d f s).format = s.format := rfl
@[simp] theorem dieUpd_mount (d : Nat) (f : DieRec → DieRec) : (dieUpd d f s).mount = s.mount := rfl
@[simp] theorem dieUpd_maint (d : Nat) (f : DieRec → DieRec) : (dieUpd d f s).maint = s.maint := rfl
@[simp] theorem dieUpd_pins (d : Nat) (f : DieRec → DieRec) : (dieUpd d f s).pins = s.pins := rfl

/-! ### `setAccess` -/

@[simp] theorem setAccess_rstLow (a : Option Access) : (setAccess a s).rstLow = s.rstLow := rfl
@[simp] theorem setAccess_now (a : Option Access) : (setAccess a s).now = s.now := rfl
@[simp] theorem setAccess_freeTaken (a : Option Access) : (setAccess a s).freeTaken = s.freeTaken := rfl
@[simp] theorem setAccess_ticket (a : Option Access) : (setAccess a s).ticket = s.ticket := rfl
@[simp] theorem setAccess_pending (a : Option Access) : (setAccess a s).pending = s.pending := rfl
@[simp] theorem setAccess_mode (a : Option Access) : (setAccess a s).mode = s.mode := rfl
@[simp] theorem setAccess_heldReadOnly (a : Option Access) : (setAccess a s).heldReadOnly = s.heldReadOnly := rfl
@[simp] theorem setAccess_pfwHigh (a : Option Access) : (setAccess a s).pfwHigh = s.pfwHigh := rfl
@[simp] theorem setAccess_drainRunning (a : Option Access) : (setAccess a s).drainRunning = s.drainRunning := rfl
@[simp] theorem setAccess_host (a : Option Access) : (setAccess a s).host = { s.host with access := a } := rfl
@[simp] theorem setAccess_staging (a : Option Access) : (setAccess a s).staging = s.staging := rfl
@[simp] theorem setAccess_lru (a : Option Access) : (setAccess a s).lru = s.lru := rfl
@[simp] theorem setAccess_withheld (a : Option Access) : (setAccess a s).withheld = s.withheld := rfl
@[simp] theorem setAccess_commit (a : Option Access) : (setAccess a s).commit = s.commit := rfl
@[simp] theorem setAccess_lineMap (a : Option Access) : (setAccess a s).lineMap = s.lineMap := rfl
@[simp] theorem setAccess_regions (a : Option Access) : (setAccess a s).regions = s.regions := rfl
@[simp] theorem setAccess_frozen (a : Option Access) : (setAccess a s).frozen = s.frozen := rfl
@[simp] theorem setAccess_blocks (a : Option Access) : (setAccess a s).blocks = s.blocks := rfl
@[simp] theorem setAccess_freeList (a : Option Access) : (setAccess a s).freeList = s.freeList := rfl
@[simp] theorem setAccess_reclaimCond (a : Option Access) : (setAccess a s).reclaimCond = s.reclaimCond := rfl
@[simp] theorem setAccess_boost (a : Option Access) : (setAccess a s).boost = s.boost := rfl
@[simp] theorem setAccess_dies (a : Option Access) : (setAccess a s).dies = s.dies := rfl
@[simp] theorem setAccess_diesInUse (a : Option Access) : (setAccess a s).diesInUse = s.diesInUse := rfl
@[simp] theorem setAccess_reclaim (a : Option Access) : (setAccess a s).reclaim = s.reclaim := rfl
@[simp] theorem setAccess_scrub (a : Option Access) : (setAccess a s).scrub = s.scrub := rfl
@[simp] theorem setAccess_trim (a : Option Access) : (setAccess a s).trim = s.trim := rfl
@[simp] theorem setAccess_flushTracked (a : Option Access) : (setAccess a s).flushTracked = s.flushTracked := rfl
@[simp] theorem setAccess_freeze (a : Option Access) : (setAccess a s).freeze = s.freeze := rfl
@[simp] theorem setAccess_ident (a : Option Access) : (setAccess a s).ident = s.ident := rfl
@[simp] theorem setAccess_format (a : Option Access) : (setAccess a s).format = s.format := rfl
@[simp] theorem setAccess_mount (a : Option Access) : (setAccess a s).mount = s.mount := rfl
@[simp] theorem setAccess_maint (a : Option Access) : (setAccess a s).maint = s.maint := rfl
@[simp] theorem setAccess_pins (a : Option Access) : (setAccess a s).pins = s.pins := rfl

/-! ### `setHead` -/

@[simp] theorem setHead_rstLow (h : Option LogHead) : (setHead h s).rstLow = s.rstLow := rfl
@[simp] theorem setHead_now (h : Option LogHead) : (setHead h s).now = s.now := rfl
@[simp] theorem setHead_freeTaken (h : Option LogHead) : (setHead h s).freeTaken = s.freeTaken := rfl
@[simp] theorem setHead_ticket (h : Option LogHead) : (setHead h s).ticket = s.ticket := rfl
@[simp] theorem setHead_pending (h : Option LogHead) : (setHead h s).pending = s.pending := rfl
@[simp] theorem setHead_mode (h : Option LogHead) : (setHead h s).mode = s.mode := rfl
@[simp] theorem setHead_heldReadOnly (h : Option LogHead) : (setHead h s).heldReadOnly = s.heldReadOnly := rfl
@[simp] theorem setHead_pfwHigh (h : Option LogHead) : (setHead h s).pfwHigh = s.pfwHigh := rfl
@[simp] theorem setHead_drainRunning (h : Option LogHead) : (setHead h s).drainRunning = s.drainRunning := rfl
@[simp] theorem setHead_host (h : Option LogHead) : (setHead h s).host = s.host := rfl
@[simp] theorem setHead_staging (h : Option LogHead) : (setHead h s).staging = s.staging := rfl
@[simp] theorem setHead_lru (h : Option LogHead) : (setHead h s).lru = s.lru := rfl
@[simp] theorem setHead_withheld (h : Option LogHead) : (setHead h s).withheld = s.withheld := rfl
@[simp] theorem setHead_commit (h : Option LogHead) : (setHead h s).commit = { s.commit with head := h } := rfl
@[simp] theorem setHead_lineMap (h : Option LogHead) : (setHead h s).lineMap = s.lineMap := rfl
@[simp] theorem setHead_regions (h : Option LogHead) : (setHead h s).regions = s.regions := rfl
@[simp] theorem setHead_frozen (h : Option LogHead) : (setHead h s).frozen = s.frozen := rfl
@[simp] theorem setHead_blocks (h : Option LogHead) : (setHead h s).blocks = s.blocks := rfl
@[simp] theorem setHead_freeList (h : Option LogHead) : (setHead h s).freeList = s.freeList := rfl
@[simp] theorem setHead_reclaimCond (h : Option LogHead) : (setHead h s).reclaimCond = s.reclaimCond := rfl
@[simp] theorem setHead_boost (h : Option LogHead) : (setHead h s).boost = s.boost := rfl
@[simp] theorem setHead_dies (h : Option LogHead) : (setHead h s).dies = s.dies := rfl
@[simp] theorem setHead_diesInUse (h : Option LogHead) : (setHead h s).diesInUse = s.diesInUse := rfl
@[simp] theorem setHead_reclaim (h : Option LogHead) : (setHead h s).reclaim = s.reclaim := rfl
@[simp] theorem setHead_scrub (h : Option LogHead) : (setHead h s).scrub = s.scrub := rfl
@[simp] theorem setHead_trim (h : Option LogHead) : (setHead h s).trim = s.trim := rfl
@[simp] theorem setHead_flushTracked (h : Option LogHead) : (setHead h s).flushTracked = s.flushTracked := rfl
@[simp] theorem setHead_freeze (h : Option LogHead) : (setHead h s).freeze = s.freeze := rfl
@[simp] theorem setHead_ident (h : Option LogHead) : (setHead h s).ident = s.ident := rfl
@[simp] theorem setHead_format (h : Option LogHead) : (setHead h s).format = s.format := rfl
@[simp] theorem setHead_mount (h : Option LogHead) : (setHead h s).mount = s.mount := rfl
@[simp] theorem setHead_maint (h : Option LogHead) : (setHead h s).maint = s.maint := rfl
@[simp] theorem setHead_pins (h : Option LogHead) : (setHead h s).pins = s.pins := rfl

/-! ### `engine` -/

@[simp] theorem engine_rstLow (f : Reclaim → Reclaim) : (engine f s).rstLow = s.rstLow := rfl
@[simp] theorem engine_now (f : Reclaim → Reclaim) : (engine f s).now = s.now := rfl
@[simp] theorem engine_freeTaken (f : Reclaim → Reclaim) : (engine f s).freeTaken = s.freeTaken := rfl
@[simp] theorem engine_ticket (f : Reclaim → Reclaim) : (engine f s).ticket = s.ticket := rfl
@[simp] theorem engine_pending (f : Reclaim → Reclaim) : (engine f s).pending = s.pending := rfl
@[simp] theorem engine_mode (f : Reclaim → Reclaim) : (engine f s).mode = s.mode := rfl
@[simp] theorem engine_heldReadOnly (f : Reclaim → Reclaim) : (engine f s).heldReadOnly = s.heldReadOnly := rfl
@[simp] theorem engine_pfwHigh (f : Reclaim → Reclaim) : (engine f s).pfwHigh = s.pfwHigh := rfl
@[simp] theorem engine_drainRunning (f : Reclaim → Reclaim) : (engine f s).drainRunning = s.drainRunning := rfl
@[simp] theorem engine_host (f : Reclaim → Reclaim) : (engine f s).host = s.host := rfl
@[simp] theorem engine_staging (f : Reclaim → Reclaim) : (engine f s).staging = s.staging := rfl
@[simp] theorem engine_lru (f : Reclaim → Reclaim) : (engine f s).lru = s.lru := rfl
@[simp] theorem engine_withheld (f : Reclaim → Reclaim) : (engine f s).withheld = s.withheld := rfl
@[simp] theorem engine_commit (f : Reclaim → Reclaim) : (engine f s).commit = s.commit := rfl
@[simp] theorem engine_lineMap (f : Reclaim → Reclaim) : (engine f s).lineMap = s.lineMap := rfl
@[simp] theorem engine_regions (f : Reclaim → Reclaim) : (engine f s).regions = s.regions := rfl
@[simp] theorem engine_frozen (f : Reclaim → Reclaim) : (engine f s).frozen = s.frozen := rfl
@[simp] theorem engine_blocks (f : Reclaim → Reclaim) : (engine f s).blocks = s.blocks := rfl
@[simp] theorem engine_freeList (f : Reclaim → Reclaim) : (engine f s).freeList = s.freeList := rfl
@[simp] theorem engine_reclaimCond (f : Reclaim → Reclaim) : (engine f s).reclaimCond = s.reclaimCond := rfl
@[simp] theorem engine_boost (f : Reclaim → Reclaim) : (engine f s).boost = s.boost := rfl
@[simp] theorem engine_dies (f : Reclaim → Reclaim) : (engine f s).dies = s.dies := rfl
@[simp] theorem engine_diesInUse (f : Reclaim → Reclaim) : (engine f s).diesInUse = s.diesInUse := rfl
@[simp] theorem engine_reclaim (f : Reclaim → Reclaim) : (engine f s).reclaim = f s.reclaim := rfl
@[simp] theorem engine_scrub (f : Reclaim → Reclaim) : (engine f s).scrub = s.scrub := rfl
@[simp] theorem engine_trim (f : Reclaim → Reclaim) : (engine f s).trim = s.trim := rfl
@[simp] theorem engine_flushTracked (f : Reclaim → Reclaim) : (engine f s).flushTracked = s.flushTracked := rfl
@[simp] theorem engine_freeze (f : Reclaim → Reclaim) : (engine f s).freeze = s.freeze := rfl
@[simp] theorem engine_ident (f : Reclaim → Reclaim) : (engine f s).ident = s.ident := rfl
@[simp] theorem engine_format (f : Reclaim → Reclaim) : (engine f s).format = s.format := rfl
@[simp] theorem engine_mount (f : Reclaim → Reclaim) : (engine f s).mount = s.mount := rfl
@[simp] theorem engine_maint (f : Reclaim → Reclaim) : (engine f s).maint = s.maint := rfl
@[simp] theorem engine_pins (f : Reclaim → Reclaim) : (engine f s).pins = s.pins := rfl

/-! ### `identity` -/

@[simp] theorem identity_rstLow (f : Identity → Identity) : (identity f s).rstLow = s.rstLow := rfl
@[simp] theorem identity_now (f : Identity → Identity) : (identity f s).now = s.now := rfl
@[simp] theorem identity_freeTaken (f : Identity → Identity) : (identity f s).freeTaken = s.freeTaken := rfl
@[simp] theorem identity_ticket (f : Identity → Identity) : (identity f s).ticket = s.ticket := rfl
@[simp] theorem identity_pending (f : Identity → Identity) : (identity f s).pending = s.pending := rfl
@[simp] theorem identity_mode (f : Identity → Identity) : (identity f s).mode = s.mode := rfl
@[simp] theorem identity_heldReadOnly (f : Identity → Identity) : (identity f s).heldReadOnly = s.heldReadOnly := rfl
@[simp] theorem identity_pfwHigh (f : Identity → Identity) : (identity f s).pfwHigh = s.pfwHigh := rfl
@[simp] theorem identity_drainRunning (f : Identity → Identity) : (identity f s).drainRunning = s.drainRunning := rfl
@[simp] theorem identity_host (f : Identity → Identity) : (identity f s).host = s.host := rfl
@[simp] theorem identity_staging (f : Identity → Identity) : (identity f s).staging = s.staging := rfl
@[simp] theorem identity_lru (f : Identity → Identity) : (identity f s).lru = s.lru := rfl
@[simp] theorem identity_withheld (f : Identity → Identity) : (identity f s).withheld = s.withheld := rfl
@[simp] theorem identity_commit (f : Identity → Identity) : (identity f s).commit = s.commit := rfl
@[simp] theorem identity_lineMap (f : Identity → Identity) : (identity f s).lineMap = s.lineMap := rfl
@[simp] theorem identity_regions (f : Identity → Identity) : (identity f s).regions = s.regions := rfl
@[simp] theorem identity_frozen (f : Identity → Identity) : (identity f s).frozen = s.frozen := rfl
@[simp] theorem identity_blocks (f : Identity → Identity) : (identity f s).blocks = s.blocks := rfl
@[simp] theorem identity_freeList (f : Identity → Identity) : (identity f s).freeList = s.freeList := rfl
@[simp] theorem identity_reclaimCond (f : Identity → Identity) : (identity f s).reclaimCond = s.reclaimCond := rfl
@[simp] theorem identity_boost (f : Identity → Identity) : (identity f s).boost = s.boost := rfl
@[simp] theorem identity_dies (f : Identity → Identity) : (identity f s).dies = s.dies := rfl
@[simp] theorem identity_diesInUse (f : Identity → Identity) : (identity f s).diesInUse = s.diesInUse := rfl
@[simp] theorem identity_reclaim (f : Identity → Identity) : (identity f s).reclaim = s.reclaim := rfl
@[simp] theorem identity_scrub (f : Identity → Identity) : (identity f s).scrub = s.scrub := rfl
@[simp] theorem identity_trim (f : Identity → Identity) : (identity f s).trim = s.trim := rfl
@[simp] theorem identity_flushTracked (f : Identity → Identity) : (identity f s).flushTracked = s.flushTracked := rfl
@[simp] theorem identity_freeze (f : Identity → Identity) : (identity f s).freeze = s.freeze := rfl
@[simp] theorem identity_ident (f : Identity → Identity) : (identity f s).ident = f s.ident := rfl
@[simp] theorem identity_format (f : Identity → Identity) : (identity f s).format = s.format := rfl
@[simp] theorem identity_mount (f : Identity → Identity) : (identity f s).mount = s.mount := rfl
@[simp] theorem identity_maint (f : Identity → Identity) : (identity f s).maint = s.maint := rfl
@[simp] theorem identity_pins (f : Identity → Identity) : (identity f s).pins = s.pins := rfl

/-! ### `mountUpd` -/

@[simp] theorem mountUpd_rstLow (f : Mount → Mount) : (mountUpd f s).rstLow = s.rstLow := rfl
@[simp] theorem mountUpd_now (f : Mount → Mount) : (mountUpd f s).now = s.now := rfl
@[simp] theorem mountUpd_freeTaken (f : Mount → Mount) : (mountUpd f s).freeTaken = s.freeTaken := rfl
@[simp] theorem mountUpd_ticket (f : Mount → Mount) : (mountUpd f s).ticket = s.ticket := rfl
@[simp] theorem mountUpd_pending (f : Mount → Mount) : (mountUpd f s).pending = s.pending := rfl
@[simp] theorem mountUpd_mode (f : Mount → Mount) : (mountUpd f s).mode = s.mode := rfl
@[simp] theorem mountUpd_heldReadOnly (f : Mount → Mount) : (mountUpd f s).heldReadOnly = s.heldReadOnly := rfl
@[simp] theorem mountUpd_pfwHigh (f : Mount → Mount) : (mountUpd f s).pfwHigh = s.pfwHigh := rfl
@[simp] theorem mountUpd_drainRunning (f : Mount → Mount) : (mountUpd f s).drainRunning = s.drainRunning := rfl
@[simp] theorem mountUpd_host (f : Mount → Mount) : (mountUpd f s).host = s.host := rfl
@[simp] theorem mountUpd_staging (f : Mount → Mount) : (mountUpd f s).staging = s.staging := rfl
@[simp] theorem mountUpd_lru (f : Mount → Mount) : (mountUpd f s).lru = s.lru := rfl
@[simp] theorem mountUpd_withheld (f : Mount → Mount) : (mountUpd f s).withheld = s.withheld := rfl
@[simp] theorem mountUpd_commit (f : Mount → Mount) : (mountUpd f s).commit = s.commit := rfl
@[simp] theorem mountUpd_lineMap (f : Mount → Mount) : (mountUpd f s).lineMap = s.lineMap := rfl
@[simp] theorem mountUpd_regions (f : Mount → Mount) : (mountUpd f s).regions = s.regions := rfl
@[simp] theorem mountUpd_frozen (f : Mount → Mount) : (mountUpd f s).frozen = s.frozen := rfl
@[simp] theorem mountUpd_blocks (f : Mount → Mount) : (mountUpd f s).blocks = s.blocks := rfl
@[simp] theorem mountUpd_freeList (f : Mount → Mount) : (mountUpd f s).freeList = s.freeList := rfl
@[simp] theorem mountUpd_reclaimCond (f : Mount → Mount) : (mountUpd f s).reclaimCond = s.reclaimCond := rfl
@[simp] theorem mountUpd_boost (f : Mount → Mount) : (mountUpd f s).boost = s.boost := rfl
@[simp] theorem mountUpd_dies (f : Mount → Mount) : (mountUpd f s).dies = s.dies := rfl
@[simp] theorem mountUpd_diesInUse (f : Mount → Mount) : (mountUpd f s).diesInUse = s.diesInUse := rfl
@[simp] theorem mountUpd_reclaim (f : Mount → Mount) : (mountUpd f s).reclaim = s.reclaim := rfl
@[simp] theorem mountUpd_scrub (f : Mount → Mount) : (mountUpd f s).scrub = s.scrub := rfl
@[simp] theorem mountUpd_trim (f : Mount → Mount) : (mountUpd f s).trim = s.trim := rfl
@[simp] theorem mountUpd_flushTracked (f : Mount → Mount) : (mountUpd f s).flushTracked = s.flushTracked := rfl
@[simp] theorem mountUpd_freeze (f : Mount → Mount) : (mountUpd f s).freeze = s.freeze := rfl
@[simp] theorem mountUpd_ident (f : Mount → Mount) : (mountUpd f s).ident = s.ident := rfl
@[simp] theorem mountUpd_format (f : Mount → Mount) : (mountUpd f s).format = s.format := rfl
@[simp] theorem mountUpd_mount (f : Mount → Mount) : (mountUpd f s).mount = f s.mount := rfl
@[simp] theorem mountUpd_maint (f : Mount → Mount) : (mountUpd f s).maint = s.maint := rfl
@[simp] theorem mountUpd_pins (f : Mount → Mount) : (mountUpd f s).pins = s.pins := rfl

/-! ### `raise` -/

@[simp] theorem raise_rstLow (k : FaultKind) (x : Subject) : (raise k x s).rstLow = s.rstLow := rfl
@[simp] theorem raise_now (k : FaultKind) (x : Subject) : (raise k x s).now = s.now := rfl
@[simp] theorem raise_freeTaken (k : FaultKind) (x : Subject) : (raise k x s).freeTaken = s.freeTaken := rfl
@[simp] theorem raise_ticket (k : FaultKind) (x : Subject) : (raise k x s).ticket = s.ticket := rfl
@[simp] theorem raise_pending (k : FaultKind) (x : Subject) : (raise k x s).pending = s.pending := rfl
@[simp] theorem raise_mode (k : FaultKind) (x : Subject) : (raise k x s).mode = s.mode := rfl
@[simp] theorem raise_heldReadOnly (k : FaultKind) (x : Subject) : (raise k x s).heldReadOnly = s.heldReadOnly := rfl
@[simp] theorem raise_pfwHigh (k : FaultKind) (x : Subject) : (raise k x s).pfwHigh = s.pfwHigh := rfl
@[simp] theorem raise_drainRunning (k : FaultKind) (x : Subject) : (raise k x s).drainRunning = s.drainRunning := rfl
@[simp] theorem raise_host (k : FaultKind) (x : Subject) : (raise k x s).host = s.host := rfl
@[simp] theorem raise_staging (k : FaultKind) (x : Subject) : (raise k x s).staging = s.staging := rfl
@[simp] theorem raise_lru (k : FaultKind) (x : Subject) : (raise k x s).lru = s.lru := rfl
@[simp] theorem raise_withheld (k : FaultKind) (x : Subject) : (raise k x s).withheld = s.withheld := rfl
@[simp] theorem raise_commit (k : FaultKind) (x : Subject) : (raise k x s).commit = s.commit := rfl
@[simp] theorem raise_lineMap (k : FaultKind) (x : Subject) : (raise k x s).lineMap = s.lineMap := rfl
@[simp] theorem raise_regions (k : FaultKind) (x : Subject) : (raise k x s).regions = s.regions := rfl
@[simp] theorem raise_frozen (k : FaultKind) (x : Subject) : (raise k x s).frozen = s.frozen := rfl
@[simp] theorem raise_blocks (k : FaultKind) (x : Subject) : (raise k x s).blocks = s.blocks := rfl
@[simp] theorem raise_freeList (k : FaultKind) (x : Subject) : (raise k x s).freeList = s.freeList := rfl
@[simp] theorem raise_reclaimCond (k : FaultKind) (x : Subject) : (raise k x s).reclaimCond = s.reclaimCond := rfl
@[simp] theorem raise_boost (k : FaultKind) (x : Subject) : (raise k x s).boost = s.boost := rfl
@[simp] theorem raise_dies (k : FaultKind) (x : Subject) : (raise k x s).dies = s.dies := rfl
@[simp] theorem raise_diesInUse (k : FaultKind) (x : Subject) : (raise k x s).diesInUse = s.diesInUse := rfl
@[simp] theorem raise_reclaim (k : FaultKind) (x : Subject) : (raise k x s).reclaim = s.reclaim := rfl
@[simp] theorem raise_scrub (k : FaultKind) (x : Subject) : (raise k x s).scrub = s.scrub := rfl
@[simp] theorem raise_trim (k : FaultKind) (x : Subject) : (raise k x s).trim = s.trim := rfl
@[simp] theorem raise_flushTracked (k : FaultKind) (x : Subject) : (raise k x s).flushTracked = s.flushTracked := rfl
@[simp] theorem raise_freeze (k : FaultKind) (x : Subject) : (raise k x s).freeze = s.freeze := rfl
@[simp] theorem raise_ident (k : FaultKind) (x : Subject) : (raise k x s).ident = s.ident := rfl
@[simp] theorem raise_format (k : FaultKind) (x : Subject) : (raise k x s).format = s.format := rfl
@[simp] theorem raise_mount (k : FaultKind) (x : Subject) : (raise k x s).mount = s.mount := rfl
@[simp] theorem raise_pins (k : FaultKind) (x : Subject) : (raise k x s).pins = s.pins := rfl

/-! ### `reply` -/

@[simp] theorem reply_rstLow (c : ReplyCode) (l : List Byte) : (reply c l s).rstLow = s.rstLow := rfl
@[simp] theorem reply_now (c : ReplyCode) (l : List Byte) : (reply c l s).now = s.now := rfl
@[simp] theorem reply_freeTaken (c : ReplyCode) (l : List Byte) : (reply c l s).freeTaken = s.freeTaken := rfl
@[simp] theorem reply_ticket (c : ReplyCode) (l : List Byte) : (reply c l s).ticket = s.ticket := rfl
@[simp] theorem reply_pending (c : ReplyCode) (l : List Byte) : (reply c l s).pending = s.pending := rfl
@[simp] theorem reply_mode (c : ReplyCode) (l : List Byte) : (reply c l s).mode = s.mode := rfl
@[simp] theorem reply_heldReadOnly (c : ReplyCode) (l : List Byte) : (reply c l s).heldReadOnly = s.heldReadOnly := rfl
@[simp] theorem reply_pfwHigh (c : ReplyCode) (l : List Byte) : (reply c l s).pfwHigh = s.pfwHigh := rfl
@[simp] theorem reply_drainRunning (c : ReplyCode) (l : List Byte) : (reply c l s).drainRunning = s.drainRunning := rfl
@[simp] theorem reply_host (c : ReplyCode) (l : List Byte) : (reply c l s).host = s.host := rfl
@[simp] theorem reply_staging (c : ReplyCode) (l : List Byte) : (reply c l s).staging = s.staging := rfl
@[simp] theorem reply_lru (c : ReplyCode) (l : List Byte) : (reply c l s).lru = s.lru := rfl
@[simp] theorem reply_withheld (c : ReplyCode) (l : List Byte) : (reply c l s).withheld = s.withheld := rfl
@[simp] theorem reply_commit (c : ReplyCode) (l : List Byte) : (reply c l s).commit = s.commit := rfl
@[simp] theorem reply_lineMap (c : ReplyCode) (l : List Byte) : (reply c l s).lineMap = s.lineMap := rfl
@[simp] theorem reply_regions (c : ReplyCode) (l : List Byte) : (reply c l s).regions = s.regions := rfl
@[simp] theorem reply_frozen (c : ReplyCode) (l : List Byte) : (reply c l s).frozen = s.frozen := rfl
@[simp] theorem reply_blocks (c : ReplyCode) (l : List Byte) : (reply c l s).blocks = s.blocks := rfl
@[simp] theorem reply_freeList (c : ReplyCode) (l : List Byte) : (reply c l s).freeList = s.freeList := rfl
@[simp] theorem reply_reclaimCond (c : ReplyCode) (l : List Byte) : (reply c l s).reclaimCond = s.reclaimCond := rfl
@[simp] theorem reply_boost (c : ReplyCode) (l : List Byte) : (reply c l s).boost = s.boost := rfl
@[simp] theorem reply_dies (c : ReplyCode) (l : List Byte) : (reply c l s).dies = s.dies := rfl
@[simp] theorem reply_diesInUse (c : ReplyCode) (l : List Byte) : (reply c l s).diesInUse = s.diesInUse := rfl
@[simp] theorem reply_reclaim (c : ReplyCode) (l : List Byte) : (reply c l s).reclaim = s.reclaim := rfl
@[simp] theorem reply_scrub (c : ReplyCode) (l : List Byte) : (reply c l s).scrub = s.scrub := rfl
@[simp] theorem reply_trim (c : ReplyCode) (l : List Byte) : (reply c l s).trim = s.trim := rfl
@[simp] theorem reply_flushTracked (c : ReplyCode) (l : List Byte) : (reply c l s).flushTracked = s.flushTracked := rfl
@[simp] theorem reply_freeze (c : ReplyCode) (l : List Byte) : (reply c l s).freeze = s.freeze := rfl
@[simp] theorem reply_ident (c : ReplyCode) (l : List Byte) : (reply c l s).ident = s.ident := rfl
@[simp] theorem reply_format (c : ReplyCode) (l : List Byte) : (reply c l s).format = s.format := rfl
@[simp] theorem reply_mount (c : ReplyCode) (l : List Byte) : (reply c l s).mount = s.mount := rfl
@[simp] theorem reply_maint (c : ReplyCode) (l : List Byte) : (reply c l s).maint = { s.maint with reply := some ⟨c, l⟩ } := rfl
@[simp] theorem reply_pins (c : ReplyCode) (l : List Byte) : (reply c l s).pins = s.pins := rfl

/-! ### `shiftOut` -/

@[simp] theorem shiftOut_rstLow (n : Nat) : (shiftOut n s).rstLow = s.rstLow := rfl
@[simp] theorem shiftOut_now (n : Nat) : (shiftOut n s).now = s.now := rfl
@[simp] theorem shiftOut_freeTaken (n : Nat) : (shiftOut n s).freeTaken = s.freeTaken := rfl
@[simp] theorem shiftOut_ticket (n : Nat) : (shiftOut n s).ticket = s.ticket := rfl
@[simp] theorem shiftOut_pending (n : Nat) : (shiftOut n s).pending = s.pending := rfl
@[simp] theorem shiftOut_mode (n : Nat) : (shiftOut n s).mode = s.mode := rfl
@[simp] theorem shiftOut_heldReadOnly (n : Nat) : (shiftOut n s).heldReadOnly = s.heldReadOnly := rfl
@[simp] theorem shiftOut_pfwHigh (n : Nat) : (shiftOut n s).pfwHigh = s.pfwHigh := rfl
@[simp] theorem shiftOut_drainRunning (n : Nat) : (shiftOut n s).drainRunning = s.drainRunning := rfl
@[simp] theorem shiftOut_host (n : Nat) : (shiftOut n s).host = s.host := rfl
@[simp] theorem shiftOut_staging (n : Nat) : (shiftOut n s).staging = s.staging := rfl
@[simp] theorem shiftOut_lru (n : Nat) : (shiftOut n s).lru = s.lru := rfl
@[simp] theorem shiftOut_withheld (n : Nat) : (shiftOut n s).withheld = s.withheld := rfl
@[simp] theorem shiftOut_commit (n : Nat) : (shiftOut n s).commit = s.commit := rfl
@[simp] theorem shiftOut_lineMap (n : Nat) : (shiftOut n s).lineMap = s.lineMap := rfl
@[simp] theorem shiftOut_regions (n : Nat) : (shiftOut n s).regions = s.regions := rfl
@[simp] theorem shiftOut_frozen (n : Nat) : (shiftOut n s).frozen = s.frozen := rfl
@[simp] theorem shiftOut_blocks (n : Nat) : (shiftOut n s).blocks = s.blocks := rfl
@[simp] theorem shiftOut_freeList (n : Nat) : (shiftOut n s).freeList = s.freeList := rfl
@[simp] theorem shiftOut_reclaimCond (n : Nat) : (shiftOut n s).reclaimCond = s.reclaimCond := rfl
@[simp] theorem shiftOut_boost (n : Nat) : (shiftOut n s).boost = s.boost := rfl
@[simp] theorem shiftOut_dies (n : Nat) : (shiftOut n s).dies = s.dies := rfl
@[simp] theorem shiftOut_diesInUse (n : Nat) : (shiftOut n s).diesInUse = s.diesInUse := rfl
@[simp] theorem shiftOut_reclaim (n : Nat) : (shiftOut n s).reclaim = s.reclaim := rfl
@[simp] theorem shiftOut_scrub (n : Nat) : (shiftOut n s).scrub = s.scrub := rfl
@[simp] theorem shiftOut_trim (n : Nat) : (shiftOut n s).trim = s.trim := rfl
@[simp] theorem shiftOut_flushTracked (n : Nat) : (shiftOut n s).flushTracked = s.flushTracked := rfl
@[simp] theorem shiftOut_freeze (n : Nat) : (shiftOut n s).freeze = s.freeze := rfl
@[simp] theorem shiftOut_ident (n : Nat) : (shiftOut n s).ident = s.ident := rfl
@[simp] theorem shiftOut_format (n : Nat) : (shiftOut n s).format = s.format := rfl
@[simp] theorem shiftOut_mount (n : Nat) : (shiftOut n s).mount = s.mount := rfl
@[simp] theorem shiftOut_maint (n : Nat) : (shiftOut n s).maint = { s.maint with sdo := sdoBytes n s.maint.reply } := rfl
@[simp] theorem shiftOut_pins (n : Nat) : (shiftOut n s).pins = s.pins := rfl

/-! ### `takeFree` -/

@[simp] theorem takeFree_rstLow (n : Nat) : (takeFree n s).rstLow = s.rstLow := rfl
@[simp] theorem takeFree_now (n : Nat) : (takeFree n s).now = s.now := rfl
@[simp] theorem takeFree_freeTaken (n : Nat) : (takeFree n s).freeTaken = s.freeTaken + n := rfl
@[simp] theorem takeFree_ticket (n : Nat) : (takeFree n s).ticket = s.ticket := rfl
@[simp] theorem takeFree_pending (n : Nat) : (takeFree n s).pending = s.pending := rfl
@[simp] theorem takeFree_mode (n : Nat) : (takeFree n s).mode = s.mode := rfl
@[simp] theorem takeFree_heldReadOnly (n : Nat) : (takeFree n s).heldReadOnly = s.heldReadOnly := rfl
@[simp] theorem takeFree_pfwHigh (n : Nat) : (takeFree n s).pfwHigh = s.pfwHigh := rfl
@[simp] theorem takeFree_drainRunning (n : Nat) : (takeFree n s).drainRunning = s.drainRunning := rfl
@[simp] theorem takeFree_host (n : Nat) : (takeFree n s).host = s.host := rfl
@[simp] theorem takeFree_staging (n : Nat) : (takeFree n s).staging = s.staging := rfl
@[simp] theorem takeFree_lru (n : Nat) : (takeFree n s).lru = s.lru := rfl
@[simp] theorem takeFree_withheld (n : Nat) : (takeFree n s).withheld = s.withheld := rfl
@[simp] theorem takeFree_commit (n : Nat) : (takeFree n s).commit = s.commit := rfl
@[simp] theorem takeFree_lineMap (n : Nat) : (takeFree n s).lineMap = s.lineMap := rfl
@[simp] theorem takeFree_regions (n : Nat) : (takeFree n s).regions = s.regions := rfl
@[simp] theorem takeFree_frozen (n : Nat) : (takeFree n s).frozen = s.frozen := rfl
@[simp] theorem takeFree_blocks (n : Nat) : (takeFree n s).blocks = s.blocks := rfl
@[simp] theorem takeFree_freeList (n : Nat) : (takeFree n s).freeList = s.freeList := rfl
@[simp] theorem takeFree_reclaimCond (n : Nat) : (takeFree n s).reclaimCond = s.reclaimCond := rfl
@[simp] theorem takeFree_boost (n : Nat) : (takeFree n s).boost = s.boost := rfl
@[simp] theorem takeFree_dies (n : Nat) : (takeFree n s).dies = s.dies := rfl
@[simp] theorem takeFree_diesInUse (n : Nat) : (takeFree n s).diesInUse = s.diesInUse := rfl
@[simp] theorem takeFree_reclaim (n : Nat) : (takeFree n s).reclaim = s.reclaim := rfl
@[simp] theorem takeFree_scrub (n : Nat) : (takeFree n s).scrub = s.scrub := rfl
@[simp] theorem takeFree_trim (n : Nat) : (takeFree n s).trim = s.trim := rfl
@[simp] theorem takeFree_flushTracked (n : Nat) : (takeFree n s).flushTracked = s.flushTracked := rfl
@[simp] theorem takeFree_freeze (n : Nat) : (takeFree n s).freeze = s.freeze := rfl
@[simp] theorem takeFree_ident (n : Nat) : (takeFree n s).ident = s.ident := rfl
@[simp] theorem takeFree_format (n : Nat) : (takeFree n s).format = s.format := rfl
@[simp] theorem takeFree_mount (n : Nat) : (takeFree n s).mount = s.mount := rfl
@[simp] theorem takeFree_maint (n : Nat) : (takeFree n s).maint = s.maint := rfl
@[simp] theorem takeFree_pins (n : Nat) : (takeFree n s).pins = s.pins := rfl

/-! ### `tick` -/

@[simp] theorem tick_rstLow : (tick s).rstLow = s.rstLow := rfl
@[simp] theorem tick_now : (tick s).now = s.now + 1 := rfl
@[simp] theorem tick_freeTaken : (tick s).freeTaken = s.freeTaken := rfl
@[simp] theorem tick_ticket : (tick s).ticket = s.ticket := rfl
@[simp] theorem tick_pending : (tick s).pending = s.pending := rfl
@[simp] theorem tick_mode : (tick s).mode = s.mode := rfl
@[simp] theorem tick_heldReadOnly : (tick s).heldReadOnly = s.heldReadOnly := rfl
@[simp] theorem tick_pfwHigh : (tick s).pfwHigh = s.pfwHigh := rfl
@[simp] theorem tick_drainRunning : (tick s).drainRunning = s.drainRunning := rfl
@[simp] theorem tick_host : (tick s).host = s.host := rfl
@[simp] theorem tick_staging : (tick s).staging = s.staging := rfl
@[simp] theorem tick_lru : (tick s).lru = s.lru := rfl
@[simp] theorem tick_withheld : (tick s).withheld = s.withheld := rfl
@[simp] theorem tick_commit : (tick s).commit = s.commit := rfl
@[simp] theorem tick_lineMap : (tick s).lineMap = s.lineMap := rfl
@[simp] theorem tick_regions : (tick s).regions = s.regions := rfl
@[simp] theorem tick_frozen : (tick s).frozen = s.frozen := rfl
@[simp] theorem tick_blocks : (tick s).blocks = s.blocks := rfl
@[simp] theorem tick_freeList : (tick s).freeList = s.freeList := rfl
@[simp] theorem tick_reclaimCond : (tick s).reclaimCond = s.reclaimCond := rfl
@[simp] theorem tick_boost : (tick s).boost = s.boost := rfl
@[simp] theorem tick_dies : (tick s).dies = s.dies := rfl
@[simp] theorem tick_diesInUse : (tick s).diesInUse = s.diesInUse := rfl
@[simp] theorem tick_reclaim : (tick s).reclaim = s.reclaim := rfl
@[simp] theorem tick_scrub : (tick s).scrub = s.scrub := rfl
@[simp] theorem tick_trim : (tick s).trim = s.trim := rfl
@[simp] theorem tick_flushTracked : (tick s).flushTracked = s.flushTracked := rfl
@[simp] theorem tick_freeze : (tick s).freeze = s.freeze := rfl
@[simp] theorem tick_ident : (tick s).ident = s.ident := rfl
@[simp] theorem tick_format : (tick s).format = s.format := rfl
@[simp] theorem tick_mount : (tick s).mount = s.mount := rfl
@[simp] theorem tick_maint : (tick s).maint = s.maint := rfl
@[simp] theorem tick_pins : (tick s).pins = s.pins := rfl

/-! ### `drive` -/

@[simp] theorem drive_rstLow : (drive s).rstLow = s.rstLow := rfl
@[simp] theorem drive_now : (drive s).now = s.now := rfl
@[simp] theorem drive_freeTaken : (drive s).freeTaken = s.freeTaken := rfl
@[simp] theorem drive_ticket : (drive s).ticket = s.ticket := rfl
@[simp] theorem drive_pending : (drive s).pending = s.pending := rfl
@[simp] theorem drive_mode : (drive s).mode = s.mode := rfl
@[simp] theorem drive_heldReadOnly : (drive s).heldReadOnly = s.heldReadOnly := rfl
@[simp] theorem drive_pfwHigh : (drive s).pfwHigh = s.pfwHigh := rfl
@[simp] theorem drive_drainRunning : (drive s).drainRunning = s.drainRunning := rfl
@[simp] theorem drive_host : (drive s).host = s.host := rfl
@[simp] theorem drive_staging : (drive s).staging = s.staging := rfl
@[simp] theorem drive_lru : (drive s).lru = s.lru := rfl
@[simp] theorem drive_withheld : (drive s).withheld = s.withheld := rfl
@[simp] theorem drive_commit : (drive s).commit = s.commit := rfl
@[simp] theorem drive_lineMap : (drive s).lineMap = s.lineMap := rfl
@[simp] theorem drive_regions : (drive s).regions = s.regions := rfl
@[simp] theorem drive_frozen : (drive s).frozen = s.frozen := rfl
@[simp] theorem drive_blocks : (drive s).blocks = s.blocks := rfl
@[simp] theorem drive_freeList : (drive s).freeList = s.freeList := rfl
@[simp] theorem drive_reclaimCond : (drive s).reclaimCond = s.reclaimCond := rfl
@[simp] theorem drive_boost : (drive s).boost = s.boost := rfl
@[simp] theorem drive_dies : (drive s).dies = s.dies := rfl
@[simp] theorem drive_diesInUse : (drive s).diesInUse = s.diesInUse := rfl
@[simp] theorem drive_reclaim : (drive s).reclaim = s.reclaim := rfl
@[simp] theorem drive_scrub : (drive s).scrub = s.scrub := rfl
@[simp] theorem drive_trim : (drive s).trim = s.trim := rfl
@[simp] theorem drive_flushTracked : (drive s).flushTracked = s.flushTracked := rfl
@[simp] theorem drive_freeze : (drive s).freeze = s.freeze := rfl
@[simp] theorem drive_ident : (drive s).ident = s.ident := rfl
@[simp] theorem drive_format : (drive s).format = s.format := rfl
@[simp] theorem drive_mount : (drive s).mount = s.mount := rfl
@[simp] theorem drive_maint : (drive s).maint = s.maint := rfl
@[simp] theorem drive_pins : (drive s).pins = pinsOf s := rfl

/-- A raised fault keeps the rest of the maintenance port's state (R189). -/
@[simp] theorem raise_settings (k : FaultKind) (x : Subject) : (raise k x s).maint.settings = s.maint.settings := rfl
@[simp] theorem raise_slot (k : FaultKind) (x : Subject) : (raise k x s).maint.slot = s.maint.slot := rfl
@[simp] theorem raise_reply (k : FaultKind) (x : Subject) : (raise k x s).maint.reply = s.maint.reply := rfl

end Sys2Proof.Machine
end

