-- ==== Sys2Proof/Tests/Slice0.lean ====
section
/-! SUPPORT. Tests: an ill-formed command for each check of WellFormed, the events of the spec's worked sequences one at a time, and, for each
statement with hypotheses, a theorem `witness_<statement>` with states and operands that meet them. -/
namespace Sys2Proof.Tests

set_option Elab.async false

open Sys2Proof Sys2Proof.Machine

/-! ### WellFormed -/

/-- A LINE record of a line, with a payload of one byte throughout. -/
def lineRec (line seq stamps : Nat) (byte : Byte) : SlotContent := .record .line line seq stamps (List.replicate 64 byte)

/-- A slot whose header check passes, with a number of bit errors. -/
def slot (errors : Nat) (c : SlotContent) : RawSlot := ⟨100, true, errors, c⟩

/-- A slot whose header check fails. -/
def unreadable : RawSlot := ⟨100, false, 0, .eraseStamp 1 0⟩

/-- A slot that is erased. -/
def blankSlot : RawSlot := ⟨0, false, 0, .eraseStamp 1 0⟩

/-- An all-ERASED page. -/
def blankPage : List RawSlot := List.replicate 16 blankSlot

theorem test_wf_die : (Instr.dieResetReady 4).wf = false ∧ (Instr.dieResetReady 3).wf = true := by decide +kernel

theorem test_wf_line : (Instr.readFillAnswer 0 (slot 0 (lineRec 262144 1 0 0))).wf = false ∧
    (Instr.readFillAnswer 0 (slot 0 (lineRec 262143 1 0 0))).wf = true := by decide +kernel

theorem test_wf_seq : (Instr.readFillAnswer 0 (slot 0 (lineRec 0 0 0 0))).wf = false ∧
    (Instr.readFillAnswer 0 (slot 0 (lineRec 0 (2 ^ 40) 0 0))).wf = false := by decide +kernel

theorem test_wf_stamps : (Instr.copyReadAnswer 0 (slot 0 (lineRec 0 1 9 0))).wf = false := by decide +kernel

theorem test_wf_payload : (Instr.directReadAnswer 0 (slot 0 (.record .line 0 1 0 [0]))).wf = false ∧
    (Instr.directReadAnswer 0 (slot 0 (.record .trim 0 1 0 [0]))).wf = false ∧
    (Instr.directReadAnswer 0 (slot 0 (.record .trim 0 1 1 []))).wf = false := by decide +kernel

theorem test_wf_eraseStamp : (Instr.scrubReadAnswer 0 (slot 0 (.eraseStamp 0 0))).wf = false ∧
    (Instr.scrubReadAnswer 0 (slot 0 (.eraseStamp (2 ^ 32) 0))).wf = false ∧
    (Instr.scrubReadAnswer 0 (slot 0 (.eraseStamp 1 (2 ^ 32)))).wf = false := by decide +kernel

theorem test_wf_openStamp : (Instr.scrubReadAnswer 0 (slot 0 (.openStamp .hostLog 0 ⟨0, 2⟩))).wf = false ∧
    (Instr.scrubReadAnswer 0 (slot 0 (.openStamp .hostLog 1 ⟨0, 256⟩))).wf = false := by decide +kernel

theorem test_wf_identity : (Instr.scrubReadAnswer 0 (slot 0 (.identity .update .a 64 0 1))).wf = false ∧
    (Instr.scrubReadAnswer 0 (slot 0 (.identity .update .a 1 16 1))).wf = false ∧
    (Instr.scrubReadAnswer 0 (slot 0 (.identity .update .a 1 0 0))).wf = false := by decide +kernel

theorem test_wf_page : (Instr.scanReadAnswer 0 (List.replicate 15 blankSlot)).wf = false ∧
    (Instr.classifyReadAnswer 0 blankPage).wf = true := by decide +kernel

theorem test_wf_idContent : (Instr.identityReadAnswer blankPage (.descriptor 1 (List.replicate 9 ⟨.plain, 0, 1⟩))).wf = false ∧
    (Instr.identityReadAnswer blankPage (.update [1, 1] [])).wf = false ∧
    (Instr.identityReadAnswer blankPage (.update [8] [])).wf = false ∧
    (Instr.identityReadAnswer blankPage (.update [] [⟨0, 5⟩, ⟨0, 5⟩])).wf = false ∧
    (Instr.identityReadAnswer blankPage (.update [] ((List.range 129).map fun k => ⟨0, k⟩))).wf = false := by
  decide +kernel

theorem test_wf_format : (Instr.format (List.replicate 37 ⟨0, 0, 1⟩) true).wf = false := by decide +kernel

/-! ### States of the worked sequences -/

/-- The example region table (1.2.1), with its first two regions. -/
def twoRegions : List Region := [⟨.plain, 0, 131072⟩, ⟨.once, 131072, 4096⟩]

/-- A die that is READY with nothing to do. -/
def readyDie : DieRec := { DieRec.unused with state := .ready }

/-- ACTIVE with one die, every entry FREE and 30 blocks FREE. -/
def active : State :=
  drive { State.reset with
    mode := .active
    regions := twoRegions
    commit := { State.reset.commit with seq := some 813 }
    freeList := (List.range 30).map fun k => ⟨0, k + 10⟩
    dies := readyDie :: List.replicate 3 DieRec.unused
    diesInUse := 1
    ident := { State.reset.ident with descriptor := some ⟨1, 1, twoRegions⟩, counter := 1, remembered := some 1 }
    mount := { State.reset.mount with phase := .done, diesPresent := 1 } }

/-- The next state of a command. -/
def after (c : Instr) (s : State) : State :=
  match exec c s with
  | .next t => t
  | _ => s

/-- The next state of several commands, each step one command. -/
def run (l : List Instr) (s : State) : State := l.foldl (fun t c => after c t) s

/-- A block record at rest. -/
def blockIn (st : BlockState) (valid close erase : Nat) : BlockRec :=
  { state := st, valid := valid, eraseCount := some erase, closeSeq := some close, readers := 0, work := .none }

/-- A die carries an operation since the timebase's 0. -/
def carrying (d : Nat) (op : Op) (s : State) : State :=
  dieUpd d (fun x => { x with state := .busy, inFlight := some op, timer := some 0 }) s

/-- An entry in a state, with a line and a byte throughout. -/
def held (st : EntryState) (line : Nat) (byte : Byte) (touched : Bool) : Entry :=
  { Entry.cleared with
    state := st, line := some line, data := List.replicate 64 byte, touched := touched
    dirtySince := if st = .dirty ∨ st = .committing then some 0 else none }

/-- A read-fill of entry 0 for line 1200 at 0/33/10/4 (2.8). -/
def fillOp : Op := mapRead (.readFill 0) .hostRead 1200 ⟨0, 33, 10, 4⟩ 640

/-- 2.8: line 1200 PRESENT at 0/33/10/4. -/
def stored : State :=
  { active with
    lineMap := [(1200, ⟨.present ⟨0, 33, 10, 4⟩ 640, 0⟩)]
    blocks := [(33, blockIn .closed 1 700 2)] }

/-- 2.8 after the write of 0x55 at offset 2, its strobe released. -/
def wrote : State := run [.hostWrite 0x012C02 0x55, .hostStrobeRelease] stored

/-- 2.8 with the read of offset 9 waiting. -/
def readWaits : State := after (.hostRead 0x012C09) wrote

/-- The stored record of 2.8: 0x00 at offset 2, 0x3C at offset 9. -/
def storedRecord : SlotContent := .record .line 1200 640 0 ((List.replicate 64 0x00).set 9 0x3C)

theorem test_hostWrite_starts_fetch :
    let t := after (.hostWrite 0x012C02 0x55) stored
    (entryAt t 0).state = .loading ∧ (entryAt t 0).written = 0x4 ∧ (entryAt t 0).touched = true ∧ t.commit.queue = [] ∧
      t.pins.hwait = false ∧ (dieAt t 0).inFlight.map (·.loc) = some ⟨0, 33, 10, 4⟩ := by decide +kernel

theorem test_hostRead_written_byte :
    (after (.hostRead 0x012C02) wrote).pins.hd = some 0x55 ∧ (after (.hostRead 0x012C02) wrote).pins.hwait = false := by
  decide +kernel

theorem test_hostRead_waits : readWaits.pins.hwait = true ∧ readWaits.pins.hd = none := by decide +kernel

theorem test_readFillAnswer_corrected :
    let t := after (.readFillAnswer 0 (slot 2 storedRecord)) readWaits
    (entryAt t 0).state = .dirty ∧ (entryAt t 0).data.getD 2 0 = 0x55 ∧ t.pins.hd = some 0x3C ∧ t.pins.hwait = false ∧
      t.commit.queue = [0] ∧ (dieAt t 0).grades.corrected = 1 := by decide +kernel

theorem test_readFillAnswer_lost :
    let t := after (.readFillAnswer 0 unreadable) readWaits
    (mapGet t 1200).state = .damaged ∧ (entryAt t 0).data = (List.replicate 64 0xFF).set 2 0x55 ∧ t.pins.hd = some 0xFF ∧
      t.maint.faults.map (·.kind) = [.uncorrectable] := by decide +kernel

theorem test_hostStrobeRelease : (after .hostStrobeRelease readWaits).host.access = none ∧
    (after .hostStrobeRelease readWaits).pins.hwait = false := by decide +kernel

/-- 2.10: entries 0 to 11 COMMITTING in one batch of head 0/90, entries 12 to 31 DIRTY. -/
def pressed : State :=
  let recs := (List.range 12).map fun i => (⟨i, 100 + i, .line, 813 + i, 0⟩ : BatchRec)
  carrying 0 (programOp .batchProgram .commitProgram ⟨0, 90⟩ 12 0 (recs.map fun r => lineRec r.line r.seq 0 0))
    { active with
      staging := (List.range 32).map fun i => held (if i < 12 then .committing else .dirty) (100 + i) 0 true
      blocks := [(90, blockIn .hostHead 0 0 2)]
      commit :=
        { active.commit with
          queue := (List.range 20).map (· + 12)
          seq := some 825
          head := some ⟨⟨0, 90⟩, 12, 0, 0, .passed, some 800, none⟩
          batch := some ⟨⟨0, 90⟩, 12, 0, recs⟩ } }

/-- 2.10: the write to line 7000 waits. -/
def pressedWrite : State := after (.hostWrite 0x06D600 0xA5) pressed

theorem test_hostWrite_under_pressure : pressedWrite.pins.hwait = true ∧ pressedWrite.staging = pressed.staging := by
  decide +kernel

theorem test_waitLimitExpiry :
    let t := after .waitLimitExpiry pressedWrite
    t.now = 5000 ∧ t.pins.hwait = false ∧ t.staging = pressed.staging ∧
      t.maint.faults.map (fun f => (f.kind, f.subject)) = [(.writeOverrun, .line 7000)] := by decide +kernel

theorem test_batchProgramAnswer_pass :
    let t := after (.batchProgramAnswer 0 .pass) pressedWrite
    t.pins.hwait = false ∧ (entryAt t 0).line = some 7000 ∧ t.lru = [1, 2, 3, 4, 5, 6, 7, 8, 9, 10, 11] ∧
      (mapGet t 100).state = .present ⟨0, 90, 12, 0⟩ 813 ∧ (blockGet t ⟨0, 90⟩).map (·.valid) = some 12 := by decide +kernel

/-! ### RST_N, PFW and frames -/

theorem test_resetAssert : (after .resetAssert pressed).mode = .mounting ∧ (after .resetAssert pressed).dies = List.replicate 4 DieRec.unused := by
  decide +kernel

theorem test_resetRelease :
    (run [.resetAssert, .resetRelease] pressed).dies.map (·.state) = List.replicate 4 .resetting := by decide +kernel

/-- 11.5: free count 4 without a head, entries 2, 5 and 9 DIRTY, entry 11 LOADING and host-touched. -/
def beforeDrain : State :=
  carrying 0 (mapRead (.readFill 11) .hostRead 60 ⟨0, 50, 3, 2⟩ 900)
    { active with
      staging := (((active.staging.set 2 (held .dirty 40 0 true)).set 5 (held .dirty 41 0 true)).set 9
        (held .dirty 42 0 true)).set 11 (held .loading 60 0 true)
      lineMap := [(60, ⟨.present ⟨0, 50, 3, 2⟩ 900, 0⟩)]
      blocks := [(50, { blockIn .closed 1022 900 3 with readers := 1 }), (130, blockIn .free 0 0 4), (131, blockIn .free 0 0 4)]
      freeList := [⟨0, 130⟩, ⟨0, 131⟩, ⟨0, 132⟩, ⟨0, 133⟩]
      boost := true
      reclaimCond := true
      reclaim := { active.reclaim with state := .stopped }
      commit := { active.commit with queue := [2, 5, 9], seq := some 5000 } }

/-- 11.5: PFW has gone low. -/
def draining : State := after .pfwLow beforeDrain

theorem test_pfwLow :
    draining.mode = .draining ∧ draining.commit.seq = some 5001 ∧ draining.commit.head.map (·.block) = some ⟨0, 130⟩ ∧
      freeCount draining = 3 ∧ drainCount draining = 4 := by decide +kernel

/-- 11.5: the batch of the first head is on the die. -/
def drainBatch : State := run [.readFillAnswer 0 (slot 1 (lineRec 60 900 0 7)), .hostOpenStampAnswer 0 .pass] draining

theorem test_hostOpenStampAnswer :
    drainBatch.commit.batch.map (fun b => b.recs.map (·.seq)) = some [5001, 5002, 5003, 5004] ∧ drainBatch.commit.queue = [] := by
  decide +kernel

theorem test_batchProgramAnswer_fail :
    let t := after (.batchProgramAnswer 0 .fail) drainBatch
    (blockGet t ⟨0, 130⟩).map (fun r => (r.state, r.closeSeq)) = some (.closed, some 5000) ∧
      t.commit.queue = [2, 5, 9, 11] ∧ t.commit.head.map (·.block) = some ⟨0, 131⟩ := by decide +kernel

theorem test_drain_ends_parked :
    let t := run [.batchProgramAnswer 0 .pass] drainBatch
    t.mode = .parked ∧ t.lru = [2, 5, 9, 11] := by decide +kernel

theorem test_pfwHigh :
    (run [.batchProgramAnswer 0 .pass, .pfwHigh] drainBatch).mode = .active := by decide +kernel

theorem test_frames : frameOf .getStatus = some [0x01, 0x00, 0xFF] ∧ frameOf .flush = some [0x10, 0x00, 0xF0] := by
  decide +kernel

/-- The code of the held reply. -/
def replyCode (s : State) : Option ReplyCode := s.maint.reply.map (·.code)

theorem test_badFrame : replyCode (after (.badFrame [0x01, 0x00, 0xFE]) active) = some .badFrame := by decide +kernel

theorem test_badFrame_unknown_parameter :
    replyCode (after (.badFrame [0x05, 0x03, 0x05, 0x00, 0x01, 0xF2]) active) = some .badArgument := by decide +kernel

/-- 12.7: entries 4 and 7 DIRTY, DONE and MODE pending. -/
def twoDirty : State :=
  { active with
    staging := (active.staging.set 4 (held .dirty 40 0 true)).set 7 (held .dirty 41 0 true)
    commit :=
      { active.commit with queue := [4, 7], head := some ⟨⟨0, 90⟩, 12, 0, 0, .inFlight, some 800, none⟩ }
    maint := { active.maint with done := true, modeChanged := true } }

theorem test_getStatus :
    let t := after .getStatus twoDirty
    t.maint.done = false ∧ t.maint.modeChanged = false ∧ t.maint.reply.map (·.data.length) = some 115 := by decide +kernel

theorem test_flush :
    let t := after .flush twoDirty
    t.flushTracked = [4, 7] ∧ replyCode t = some .accepted ∧ t.maint.slot = some .flush := by decide +kernel

theorem test_fetchFrame :
    (run [.flush, .fetchFrame 3] twoDirty).maint.reply = none ∧ replyCode (run [.flush, .fetchFrame 2] twoDirty) = some .accepted := by
  decide +kernel

theorem test_abort : (run [.flush, .abort] twoDirty).maint.last = some (.flush, .aborted) ∧
    (run [.flush, .abort] twoDirty).maint.slot = none := by decide +kernel

/-- A fault list of three records. -/
def faulty : State :=
  (raise .modeDrop (.line 5) (raise .modeDrop (.line 4) (raise .modeDrop (.line 4) (raise .dieTimeout (.die 1) active))))

theorem test_getFaults :
    faulty.maint.faults.map (·.count) = [1, 2, 1] ∧ (after (.getFaults 2) faulty).maint.faults.map (·.subject) = [.line 5] := by
  decide +kernel

theorem test_getLine : replyCode (after (.getLine 262143) active) = some .ok ∧
    replyCode (after (.getLine 262144) active) = some .badArgument := by decide +kernel

theorem test_getBlock : replyCode (after (.getBlock 0 33) stored) = some .ok ∧
    replyCode (after (.getBlock 1 0) stored) = some .badArgument := by decide +kernel

theorem test_setCommitDelay : (after (.setCommitDelay 250) active).maint.settings.commitDelay = 250 ∧
    (after (.setCommitDelay 251) active).maint.settings.commitDelay = 2 := by decide +kernel

theorem test_setBatchThreshold : (after (.setBatchThreshold 16) active).maint.settings.threshold = 16 ∧
    (after (.setBatchThreshold 0) active).maint.settings.threshold = 4 := by decide +kernel

theorem test_setWaitLimit : (after (.setWaitLimit 500) active).maint.settings.waitLimit = 500 ∧
    (after (.setWaitLimit 501) active).maint.settings.waitLimit = 50 := by decide +kernel

theorem test_setAttentionMask : (after (.setAttentionMask 0x000F) active).maint.settings.mask = 0xF ∧
    (after (.setAttentionMask 0x0010) active).maint.settings.mask = 0x7 := by decide +kernel

/-! ### Long commands -/

theorem test_trim : (after (.trim 131071 1) active).trim.current = 131071 ∧
    replyCode (after (.trim 131071 2) active) = some .badArgument := by decide +kernel

theorem test_trimWalkLine :
    let t := run [.trim 40 2, .trimWalkLine, .trimWalkLine] twoDirty
    (entryAt t 4).kind = .trim ∧ (entryAt t 7).kind = .trim ∧ t.commit.queue = [4, 7] ∧ t.trim.tracked = [4, 7] := by
  decide +kernel

/-- 6.5: six lines about to be scrubbed. -/
def beforeScrub : State :=
  { active with
    staging := ((List.range 9).map fun i =>
        if i = 4 then held .dirty 102 4 true else if i = 6 then held .clean 103 6 false else held .clean (900 + i) 0 false) ++
      List.replicate 23 Entry.cleared
    lru := [0, 1, 2, 3, 5, 6, 7, 8]
    lineMap :=
      [(101, ⟨.present ⟨0, 70, 5, 3⟩ 2400, 0⟩), (102, ⟨.present ⟨0, 70, 5, 4⟩ 2401, 0⟩),
        (103, ⟨.present ⟨0, 70, 5, 5⟩ 2402, 0⟩), (104, ⟨.present ⟨0, 71, 0, 2⟩ 2510, 0⟩),
        (105, ⟨.present ⟨0, 71, 0, 3⟩ 2511, 0⟩)]
    blocks := [(70, blockIn .closed 3 2402 1), (71, blockIn .closed 2 2511 1), (90, blockIn .hostHead 0 0 1)]
    commit :=
      { active.commit with
        queue := [4], seq := some 3100, head := some ⟨⟨0, 90⟩, 12, 4, 1, .passed, some 3000, some 3099⟩ } }

theorem test_scrub :
    let t := after (.scrub 100 6) beforeScrub
    t.scrub.state = .reading ∧ t.scrub.current = 101 ∧ (dieAt t 0).inFlight.map (·.loc) = some ⟨0, 70, 5, 3⟩ ∧
      (blockGet t ⟨0, 70⟩).map (·.readers) = some 1 := by decide +kernel

/-- 6.5: the walk up to the LOST answer, and its end. -/
def scrubbed : State :=
  run [.scrub 100 6, .scrubReadAnswer 0 (slot 2 (lineRec 101 2400 0 1)), .scrubReadAnswer 0 (slot 5 (lineRec 103 2402 0 6)),
    .scrubReadAnswer 0 (slot 4 (lineRec 104 2510 0 9)), .scrubReadAnswer 0 unreadable] beforeScrub

theorem test_scrubReadAnswer :
    scrubbed.commit.queue = [4, 6, 9] ∧ (entryAt scrubbed 9).refresh = true ∧ (mapGet scrubbed 105).state = .damaged ∧
      scrubbed.scrub.current = 106 ∧ scrubbed.maint.last = some (.scrub, .ok) := by decide +kernel

theorem test_commitDelayExpiry :
    let t := after .commitDelayExpiry scrubbed
    t.commit.batch.map (fun b => b.recs.map fun r => (r.line, r.seq)) = some [(102, 3100), (103, 3101), (104, 3102)] ∧
      t.now = 2000 := by decide +kernel

theorem test_refresh_counted :
    let t := run [.commitDelayExpiry, .batchProgramAnswer 0 .pass] scrubbed
    t.commit.refreshes = 2 ∧ t.commit.head.map (fun h => (h.next, h.used)) = some (7, 2) ∧
      (blockGet t ⟨0, 71⟩).map (·.valid) = some 0 := by decide +kernel

/-- 8.7: three busy entries of region 1. -/
def beforeFreeze : State :=
  { active with
    staging := ((active.staging.set 3 (held .dirty 131200 0 true)).set 5 (held .loading 131300 0 false)).set 8
      (held .committing 131400 0 true)
    commit := { active.commit with queue := [3], head := some ⟨⟨0, 90⟩, 12, 0, 0, .inFlight, some 800, none⟩ } }

theorem test_freeze :
    let t := after (.freeze 1 true) beforeFreeze
    t.freeze.tracked = [3, 5, 8] ∧ t.frozen = [1] ∧ t.freeze.phase = .flushing := by decide +kernel

theorem test_freeze_refuses_write :
    (run [.freeze 1 true, .hostWrite 0x802C80 0] beforeFreeze).maint.faults.map (fun f => (f.kind, f.subject)) =
      [(.frozenWrite, .line 131250)] := by decide +kernel

/-- 9.7: UNFORMATTED, one die, remembered serial 7. -/
def unformatted : State :=
  { active with
    mode := .unformatted
    regions := []
    freeList := []
    boost := true
    reclaimCond := true
    commit := State.reset.commit
    reclaim := { active.reclaim with state := .stopped }
    ident := { State.reset.ident with remembered := some 7 } }

/-- The table of two regions as a FORMAT carries it. -/
def rawTable : List RawRegion := [⟨0x00, 0, 131072⟩, ⟨0x01, 131072, 4096⟩]

theorem test_format :
    let t := after (.format rawTable true) unformatted
    t.mode = .formatting ∧ t.regions = twoRegions ∧ t.format.map (·.serial) = some 8 ∧
      (dieAt t 0).inFlight.map (·.role) = some .formatErase := by decide +kernel

/-! ### Medium answers -/

/-- 1.8: a direct read of line 131,074 is on the die. -/
def directOut : State :=
  { active with
    staging := (List.range 32).map fun i => held .loading (200 + i) 0 false
    lineMap := [(131074, ⟨.present ⟨0, 61, 44, 12⟩ 2203, 3⟩)]
    blocks := [(61, blockIn .closed 1 2203 1), (80, blockIn .copyHead 0 0 1)] }

/-- 1.8 with the read of offset 37 waiting. -/
def directWaits : State := after (.hostRead 0x8000A5) directOut

theorem test_directReadAnswer :
    directWaits.pins.hwait = true ∧ (after (.directReadAnswer 0 (slot 1 (lineRec 131074 2203 3 0x77))) directWaits).pins.hd = some 0x77 := by
  decide +kernel

/-- 7.8: the reclaim condition has just been set. -/
def reclaimable : State :=
  { active with
    lineMap :=
      [(300, ⟨.present ⟨0, 44, 2, 1⟩ 1201, 0⟩), (301, ⟨.present ⟨0, 44, 2, 2⟩ 1202, 0⟩), (512, ⟨.present ⟨0, 44, 30, 9⟩ 1455, 0⟩),
        (880, ⟨.present ⟨0, 44, 63, 15⟩ 1600, 0⟩)]
    blocks :=
      [(12, blockIn .free 0 0 2), (13, blockIn .free 0 0 2), (44, blockIn .closed 4 1600 5), (45, blockIn .closed 4 1720 4)]
    freeList := ⟨0, 12⟩ :: ⟨0, 13⟩ :: (List.range 10).map fun k => ⟨0, 100 + k⟩
    reclaimCond := true
    commit := { active.commit with seq := some 4000 } }

/-- 7.8: the copy head's open stamp is on the die. -/
def opening : State := after .hostStrobeRelease reclaimable

theorem test_victim_and_copyHead :
    opening.reclaim.victim = some ⟨0, 44⟩ ∧ opening.reclaim.state = .opening ∧ freeCount opening = 11 ∧
      opening.reclaim.head.map (·.block) = some ⟨0, 12⟩ := by decide +kernel

/-- The same with one valid record in the victim. -/
def openingOne : State :=
  after .hostStrobeRelease
    { reclaimable with
      lineMap := [(880, ⟨.present ⟨0, 44, 63, 15⟩ 1600, 0⟩)]
      blocks := [(12, blockIn .free 0 0 2), (44, blockIn .closed 1 1600 5)] }

theorem test_copyOpenStampAnswer :
    let t := after (.copyOpenStampAnswer 0 .pass) openingOne
    t.reclaim.state = .reading ∧ t.reclaim.readsOut = 1 ∧ (blockGet t ⟨0, 44⟩).map (·.readers) = some 1 ∧
      (dieAt t 0).inFlight.map (·.loc) = some ⟨0, 44, 63, 15⟩ := by decide +kernel

/-- A copy of a line's record, of one byte throughout. -/
def copyOf (line seq : Nat) (loc : Loc) : CopyRec := ⟨loc, .line, line, seq, 0, List.replicate 64 0⟩

/-- 7.8: the last copy read, of line 880, is on the die. -/
def lastCopyRead : State :=
  carrying 0 (mapRead .copyRead .reclaimCopy 880 ⟨0, 44, 63, 15⟩ 1600)
    { reclaimable with
      lineMap :=
        [(300, ⟨.present ⟨0, 44, 2, 1⟩ 1201, 0⟩), (301, ⟨.present ⟨0, 90, 20, 3⟩ 4001, 0⟩),
          (512, ⟨.present ⟨0, 44, 30, 9⟩ 1455, 0⟩), (880, ⟨.present ⟨0, 44, 63, 15⟩ 1600, 0⟩)]
      blocks :=
        [(12, blockIn .copyHead 0 0 2), (13, blockIn .free 0 0 2), (44, { blockIn .victim 3 1600 5 with readers := 1 }),
          (90, blockIn .hostHead 1 0 3)]
      freeList := ⟨0, 13⟩ :: (List.range 10).map fun k => ⟨0, 100 + k⟩
      commit := { active.commit with seq := some 4002 }
      reclaim :=
        { active.reclaim with
          state := .reading
          victim := some ⟨0, 44⟩
          victimRead := 1024
          source := some .victim
          head := some ⟨⟨0, 12⟩, 0, 2, 2, .passed, some 4000, none⟩
          buffer := [copyOf 300 1201 ⟨0, 44, 2, 1⟩, copyOf 512 1455 ⟨0, 44, 30, 9⟩]
          readsOut := 1 } }

/-- 7.8: the copy program of three records is on the die. -/
def copyProgram : State := after (.copyReadAnswer 0 (slot 0 (lineRec 880 1600 0 0))) lastCopyRead

theorem test_copyReadAnswer :
    copyProgram.reclaim.state = .programming ∧ copyProgram.reclaim.buffer.map (·.line) = [300, 512, 880] ∧
      (dieAt copyProgram 0).inFlight.map (fun o => (o.loc, o.count)) = some (⟨0, 12, 0, 2⟩, 3) ∧
      (blockGet copyProgram ⟨0, 44⟩).map (·.readers) = some 0 := by decide +kernel

/-- 7.8: a host commit has moved line 512 while the copy program ran, and the program has passed. -/
def copied : State :=
  after (.copyProgramAnswer 0 .pass) (commitToMap 512 .line 4002 0 ⟨0, 90, 20, 4⟩ copyProgram)

theorem test_copyProgramAnswer_pass :
    [300, 301, 512, 880].map (fun l => (mapGet copied l).state.loc) =
        [some ⟨0, 12, 0, 2⟩, some ⟨0, 90, 20, 3⟩, some ⟨0, 90, 20, 4⟩, some ⟨0, 12, 0, 4⟩] ∧
      (blockGet copied ⟨0, 44⟩).map (fun r => (r.state, r.valid)) = some (.erasing, 0) ∧
      (blockGet copied ⟨0, 12⟩).map (·.valid) = some 2 ∧
      copied.reclaim.head.map (fun h => (h.page, h.next, h.used)) = some (1, 0, 0) := by decide +kernel

theorem test_eraseAnswer :
    (dieAt (after (.eraseAnswer 0 .pass) copied) 0).inFlight.map (·.data) = some (.slots [.eraseStamp 1 6]) := by decide +kernel

theorem test_eraseStampAnswer :
    let t := run [.eraseAnswer 0 .pass, .eraseStampAnswer 0 .pass] copied
    (blockGet t ⟨0, 44⟩).map (fun r => (r.state, r.eraseCount)) = some (.free, some 6) ∧ freeCount t = 12 ∧
      t.freeList.getLast? = some ⟨0, 44⟩ := by decide +kernel

/-- 7.9: the failure of the copy program, here of the same group. -/
theorem test_copyProgramAnswer_fail :
    let t := after (.copyProgramAnswer 0 .fail) copyProgram
    t.maint.faults.map (fun f => (f.kind, f.subject)) = [(.programFail, .block ⟨0, 12⟩)] ∧
      (blockGet t ⟨0, 12⟩).map (fun r => (r.state, r.valid)) = some (.relocating, 0) ∧ t.reclaim.victimRead = 2 ∧
      t.reclaim.retirements = 1 ∧ t.ident.update.map (·.page.retired) = some [⟨0, 12⟩] ∧
      t.reclaim.head.map (·.block) = some ⟨0, 13⟩ := by decide +kernel

/-- 9.6: both copies are to be rolled, and 0/57 is handed for retirement. -/
def rolling : State :=
  after .hostStrobeRelease
    { active with
      blocks := [(57, { blockIn .relocating 0 0 1 with work := .retireHanded })]
      frozen := [1]
      reclaim := { active.reclaim with retirements := 1 }
      ident :=
        { active.ident with
          copyA := ⟨true, 64, false⟩, copyB := ⟨true, 64, false⟩, counter := 63, retired := [⟨0, 12⟩], persistent := [1],
          queue := [.retire ⟨0, 57⟩] } }

theorem test_update_formed :
    rolling.ident.update.map (·.page) = some ⟨64, [1], [⟨0, 12⟩, ⟨0, 57⟩]⟩ ∧
      (dieAt rolling 0).inFlight.map (·.role) = some .identityErase := by decide +kernel

theorem test_identityEraseAnswer :
    (dieAt (after (.identityEraseAnswer .pass) rolling) 0).inFlight.map (fun o => (o.page, o.data)) =
      some (0, .page (.descriptor ⟨1, 1, twoRegions⟩)) := by decide +kernel

theorem test_identityPageProgramAnswer :
    let t := run [.identityEraseAnswer .pass, .identityPageProgramAnswer .pass, .identityPageProgramAnswer .pass,
      .identityEraseAnswer .fail] rolling
    t.ident.copyA = ⟨true, 2, false⟩ ∧ t.ident.copyB.good = false ∧ t.ident.retired = [⟨0, 12⟩, ⟨0, 57⟩] ∧
      (blockGet t ⟨0, 57⟩).map (·.state) = some .retired ∧
      t.maint.faults.map (fun f => (f.kind, f.subject)) = [(.identityFail, .block ⟨0, 1⟩)] := by decide +kernel

/-- 9.7: the identity erases of the format are on the die. -/
def formatting : State := after (.format rawTable true) unformatted

theorem test_formatIdentityEraseAnswer :
    let t := after (.formatIdentityEraseAnswer .fail) formatting
    t.ident.copyA.good = false ∧ t.format.map (·.erasesOut) = some 1 := by decide +kernel

/-- 9.7: the last program of a format's step 4 is on the die, with 253 blocks FREE. -/
def lastFormatProgram : State :=
  carrying 0 (pageProgram .formatProgram .b 1 (.update ⟨1, [], [⟨0, 200⟩]⟩))
    { formatting with
      blocks := []
      freeList := (List.range 253).map fun k => ⟨0, k + 2⟩
      boost := false
      reclaimCond := false
      dies := readyDie :: List.replicate 3 DieRec.unused
      ident := { formatting.ident with counter := 1, retired := [⟨0, 200⟩], descriptor := some ⟨8, 1, twoRegions⟩ }
      format := some { newJob 8 1 with step := 4, erasesOut := 0, write := .out .b 1, wroteA := true } }

theorem test_formatIdentityProgramAnswer :
    let t := after (.formatIdentityProgramAnswer .pass) lastFormatProgram
    t.mode = .active ∧ t.commit.seq = some 1 ∧ t.ident.copyB.next = 2 ∧ t.maint.last = some (.format, .ok) ∧
      t.reclaimCond = false := by decide +kernel

/-! ### Mount and dies -/

theorem test_dieResetReady :
    (dieAt (after (.dieResetReady 2) State.reset) 2).inFlight.map (·.role) = some .identify := by decide +kernel

/-- Every position has been decided: die 0 alone is present. -/
def probed : State :=
  run [.dieResetReady 0, .identifyAnswer 0 256 64 16, .dieTimeout 1, .dieResetReady 2, .identifyAnswer 2 128 64 16,
    .dieTimeout 3] State.reset

theorem test_identifyAnswer :
    probed.mount.probes = [.present, .absent, .absent, .absent] ∧ probed.mount.diesPresent = 1 ∧
      probed.maint.faults = [] ∧ (dieAt probed 0).inFlight.map (fun o => (o.role, o.block, o.page)) =
        some (.identityRead, ⟨0, 0⟩, 0) := by decide +kernel

/-- The slots of an identity page. -/
def identityPage (kind : IdPageKind) (c : IdCopy) (page number : Nat) : List RawSlot :=
  (List.range 16).map fun i => slot 0 (.identity kind c page i number)

theorem test_identityReadAnswer :
    let t := after (.identityReadAnswer (identityPage .descriptor .a 0 7) (.descriptor 1 twoRegions)) probed
    t.mount.copyA.descriptor = some ⟨7, 1, twoRegions⟩ ∧ (dieAt t 0).inFlight.map (·.page) = some 1 := by decide +kernel

theorem test_identityReadAnswer_unformatted :
    let t := run [.identityReadAnswer (identityPage .descriptor .a 0 7) (.descriptor 1 twoRegions),
      .identityReadAnswer blankPage (.update [] []), .identityReadAnswer blankPage (.update [] [])] probed
    t.mode = .unformatted ∧ t.ident.remembered = some 7 ∧ t.pins.hrdy = false := by decide +kernel

/-- 10.3: block 0/90 is the last to be classed; 0/12 is a COPY LOG block already. -/
def classifying : State :=
  carrying 0 (pageRead .classifyRead .mountRead ⟨0, 90⟩ 0)
    { probed with
      dies := readyDie :: List.replicate 3 DieRec.unused
      diesInUse := 1
      ident :=
        { probed.ident with
          descriptor := some ⟨8, 1, twoRegions⟩, counter := 3, retired := [⟨0, 5⟩], remembered := some 8 }
      mount :=
        { probed.mount with
          phase := .classify
          largestErase := 9
          findings :=
            (90, Finding.initial) ::
              (List.range 20).map fun k => (100 + k, { Finding.initial with cls := some .free, eraseCount := some k }) } }

/-- 10.3: page 0 of 0/90. -/
def page0 : List RawSlot :=
  slot 0 (.eraseStamp 8 9) :: slot 0 (.openStamp .hostLog 3900 ⟨0, 90⟩) :: List.replicate 14 blankSlot

theorem test_classifyReadAnswer :
    let t := after (.classifyReadAnswer 0 page0) classifying
    (findingOf t ⟨0, 90⟩).cls = some .log ∧ (findingOf t ⟨0, 90⟩).openSeq = some 3900 ∧ t.mount.phase = .scan ∧
      (dieAt t 0).inFlight.map (·.page) = some 1 := by decide +kernel

/-- 10.3: page 20 of 0/90, on which power failed. -/
def page20 : List RawSlot :=
  [slot 0 (lineRec 701 4001 0 1), slot 0 (lineRec 710 4002 0 1), slot 0 (lineRec 711 4003 0 1), slot 0 (lineRec 700 4010 0 2),
    unreadable] ++ List.replicate 11 blankSlot

/-- 10.3: the scan of 0/90 from page 20, to the hand-over. -/
def mounted : State :=
  let s := after (.classifyReadAnswer 0 page0) classifying
  run [.scanReadAnswer 0 page20, .scanReadAnswer 0 blankPage]
    (carrying 0 (pageRead .scanRead .mountRead ⟨0, 90⟩ 20) s)

theorem test_scanReadAnswer :
    mounted.mode = .active ∧ mounted.commit.seq = some 4011 ∧
      [700, 701, 702].map (fun l => (mapGet mounted l).state.loc) = [some ⟨0, 90, 20, 3⟩, some ⟨0, 90, 20, 0⟩, none] ∧
      (blockGet mounted ⟨0, 90⟩).map (fun r => (r.state, r.closeSeq)) = some (.closed, some 4010) ∧
      mounted.maint.faults = [] ∧ mounted.pins.hrdy = true := by decide +kernel

/-- R48, R164: a block of another serial is classed ERASE, and the headers in its page 0 and those a later page shows count all the same:
a record whose payload is LOST, a readable open stamp, a readable erase stamp. -/
theorem test_mount_sees_every_header :
    let page := [slot 0 (.eraseStamp 7 44), unreadable, slot 7 (lineRec 9 5000 0 0)] ++ List.replicate 13 blankSlot
    let t := after (.classifyReadAnswer 0 page) classifying
    let later := after (.classifyReadAnswer 0 (slot 0 (.openStamp .copyLog 6000 ⟨0, 91⟩) :: List.replicate 15 blankSlot))
      (carrying 0 (pageRead .classifyRead .mountRead ⟨0, 90⟩ 3) classifying)
    (findingOf t ⟨0, 90⟩).cls = some .erase ∧ t.mount.highest = 5000 ∧ t.mount.largestErase = 44 ∧ t.mount.cands = [] ∧
      later.mount.highest = 6000 ∧ later.mount.largestErase = 9 := by decide +kernel

/-- 5.8: die 1 carries the batch program of 1/120, with a copy read and an erase behind it. -/
def twoDies : State :=
  let s := carrying 1 (programOp .batchProgram .commitProgram ⟨1, 120⟩ 3 0 [lineRec 40 813 0 0])
    { active with
      diesInUse := 2
      dies := [readyDie, readyDie, DieRec.unused, DieRec.unused]
      mount := { active.mount with diesPresent := 2 }
      lineMap :=
        [(9410, ⟨.present ⟨1, 88, 30, 2⟩ 500, 0⟩), (9411, ⟨.present ⟨1, 88, 30, 3⟩ 501, 0⟩), (9700, ⟨.present ⟨1, 14, 6, 9⟩ 600, 0⟩)]
      blocks :=
        [(270, blockIn .closed 1 600 1), (307, { blockIn .erasing 0 0 1 with work := .eraseOut }),
          (344, blockIn .victim 2 500 1), (376, blockIn .hostHead 0 0 1)]
      staging := active.staging.set 0 (held .committing 40 0 true)
      reclaim :=
        { active.reclaim with
          state := .reading, victim := some ⟨1, 88⟩, victimRead := 1024, source := some .victim, readsOut := 1
          head := some ⟨⟨0, 12⟩, 0, 2, 2, .passed, some 4000, none⟩ }
      commit :=
        { active.commit with
          seq := some 814
          head := some ⟨⟨1, 120⟩, 3, 0, 0, .passed, some 700, some 812⟩
          batch := some ⟨⟨1, 120⟩, 3, 0, [⟨0, 40, .line, 813, 0⟩]⟩ } }
  issue (eraseOp .erase .eraseStamp ⟨1, 51⟩) (issue (mapRead .copyRead .reclaimCopy 9410 ⟨1, 88, 30, 2⟩ 500) s)

theorem test_dieTimeout_first :
    let t := after (.dieTimeout 1) twoDies
    (dieAt t 1).state = .resetting ∧ (dieAt t 1).timeouts = 1 ∧
      (dieAt t 1).queue.map (·.role) = [.copyRead, .erase] ∧ (blockGet t ⟨1, 120⟩).map (·.state) = some .relocating ∧
      t.maint.faults.map (·.kind) = [.programFail, .dieTimeout] := by decide +kernel

theorem test_dieTimeout_second :
    let t := run [.dieTimeout 1, .hostRead 0x097900, .dieResetReady 1, .dieTimeout 1] twoDies
    (dieAt t 1).state = .offline ∧ t.mode = .readOnly ∧ (mapGet t 9700).state = .damaged ∧ (mapGet t 9410).state = .damaged ∧
      t.maint.faults.map (·.kind) =
        [.programFail, .dieTimeout, .uncorrectable, .dieTimeout, .dieOffline, .uncorrectable, .eraseFail] := by decide +kernel

/-- 5.7: the classes of five operations in the order issued. -/
def fiveWaiting (boost : Bool) : State :=
  let op := fun (r : OpRole) (c : OpClass) (n : Nat) => { mapRead r c 0 ⟨0, 40, 0, 2⟩ 1 with ticket := n }
  { active with
    boost := boost
    dies :=
      { readyDie with
        queue :=
          [op .scrubRead .scrubRead 1, op .erase .eraseStamp 2, op .batchProgram .commitProgram 3,
            op .copyRead .reclaimCopy 4, op (.readFill 0) .hostRead 5] } :: List.replicate 3 DieRec.unused }

/-- The roles in the order the arbiter of die 0 starts them. -/
def startOrder : Nat → State → List OpRole
  | 0, _ => []
  | n + 1, s =>
    let t := arbitrate 0 s
    ((dieAt t 0).inFlight.map (·.role)).toList ++ startOrder n (dieAnswered 0 t)

theorem test_arbiter_boost :
    startOrder 5 (fiveWaiting true) = [.readFill 0, .copyRead, .batchProgram, .erase, .scrubRead] ∧
      startOrder 5 (fiveWaiting false) = [.readFill 0, .batchProgram, .copyRead, .erase, .scrubRead] := by decide +kernel

/-! ### States and operands that meet the hypotheses of each statement -/

/-- The part with RST_N low. -/
def inReset : State := after .resetAssert active

theorem witness_StepRunsFrontCommand :
    { active with pending := [.flush, .abort] }.pending = .flush :: [.abort] ∧ active.pending = [] := ⟨rfl, rfl⟩

theorem witness_ResetReleaseStartsMount : inReset.rstLow = true ∧ active.rstLow = false := by decide +kernel

theorem witness_ResetLowTakesNoCommand : inReset.rstLow = true ∧ Instr.flush ≠ .resetAssert ∧ Instr.flush ≠ .resetRelease ∧
    Instr.flush ≠ .pfwLow ∧ Instr.flush ≠ .pfwHigh := by decide +kernel

theorem witness_AccessAnsweredByMode : ∀ m ∈ [Mode.mounting, .unformatted, .formatting, .parked, .readOnly, .draining],
    { active with mode := m }.rstLow = false ∧ { active with mode := m }.host.access = none := by decide +kernel

/-- One entry in each condition: CLEAN line 10, DIRTY line 11, TRIM line 12, LOADING lines 13 and 14, COMMITTING line 15, DIRTY ONCE line
131,072; the map names a record of line 16, a TRIM of line 17, and of the LOADING lines. -/
def entries : State :=
  { active with
    staging :=
      [held .clean 10 1 false, held .dirty 11 2 true, { held .dirty 12 0 false with kind := .trim, data := [] },
        { held .loading 13 3 true with written := 1#64 <<< 63 }, { held .loading 14 0xFF false with trimPending := true },
        held .committing 15 4 true, held .dirty 131072 5 true] ++ List.replicate 25 Entry.cleared
    lru := [0]
    commit := { active.commit with queue := [1, 2, 6] }
    lineMap :=
      [(13, ⟨.present ⟨0, 33, 10, 4⟩ 640, 0⟩), (14, ⟨.present ⟨0, 33, 10, 5⟩ 641, 0⟩), (16, ⟨.present ⟨0, 33, 63, 15⟩ 642, 0⟩),
        (17, ⟨.trimmed ⟨0, 33, 11, 0⟩ 643, 0⟩), (131072, ⟨.present ⟨0, 33, 11, 1⟩ 644, 7⟩), (131073, ⟨.damaged, 8⟩)]
    blocks := [(33, blockIn .closed 5 700 2)] }

/-- The same with no entry to be had. -/
def full : State :=
  { entries with staging := entries.staging.map fun e => if e.state = .free then held .loading 900 0 false else e, lru := [] }

theorem witness_ReadServedFromEntry :
    entries.rstLow = false ∧ entries.host.access = none ∧ readsNormally entries.mode ∧
      ([10, 11, 12, 13, 14].all (isBacked entries ·)) = true ∧ currentEntry entries 10 = some 0 ∧ currentEntry entries 11 = some 1 ∧
      currentEntry entries 12 = some 2 ∧ currentEntry entries 13 = some 3 ∧ currentEntry entries 14 = some 4 ∧
      (entryAt entries 0).state = .clean ∧ (entryAt entries 0).kind = .line ∧ (entryAt entries 1).state = .dirty ∧
      (entryAt entries 1).kind = .line ∧ (entryAt entries 2).state = .dirty ∧ (entryAt entries 2).kind = .trim ∧
      (entryAt entries 3).state = .loading ∧ (entryAt entries 3).trimPending = false ∧ isOnce entries 13 = false ∧
      (entryAt entries 3).written.getLsbD 63 = true ∧ (entryAt entries 3).written.getLsbD 62 = false ∧
      (entryAt entries 4).state = .loading ∧ (entryAt entries 4).trimPending = true := by
  unfold readsNormally; decide +kernel

theorem witness_ReadServedThroughMap :
    readsNormally .readOnly ∧ isBacked entries 262143 = false ∧ isBacked entries 0 = true ∧ currentEntry entries 0 = none ∧
      (mapGet entries 0).state.loc = none ∧ (mapGet entries 17).state = .trimmed ⟨0, 33, 11, 0⟩ 643 ∧
      currentEntry entries 16 = none ∧ (mapGet entries 16).state = .present ⟨0, 33, 63, 15⟩ 642 ∧
      allocate entries = some (7, entries) ∧ currentEntry full 16 = none ∧ allocate full = none ∧ full.host.directOut = false ∧
      allocate { full with host := { full.host with directOut := true } } = none := by
  unfold readsNormally; decide +kernel

theorem witness_WriteMeetsThreeQuestions :
    let s := { entries with frozen := [1] }
    entries.mode = .active ∧ isBacked s 262143 = false ∧ isBacked s 131072 = true ∧ isFrozen s 131072 = true ∧
      isFrozen entries 131072 = false ∧ isOnce entries 131072 = true ∧
      (mapGet entries 131072).stamps + pendingStamps entries 131072 + newStamps entries 131072 = 8 ∧
      isOnce entries 131073 = true ∧
      (mapGet entries 131073).stamps + pendingStamps entries 131073 + newStamps entries 131073 = 9 ∧
      isOnce entries 0 = false := by decide +kernel

theorem witness_WriteMergedIntoEntry :
    ([10, 11, 12, 13, 131072].all fun l => writeRefused entries l == none) = true ∧ currentEntry entries 13 = some 3 ∧
      (entryAt entries 3).state = .loading ∧ currentEntry entries 10 = some 0 ∧ (entryAt entries 0).state = .clean ∧
      currentEntry entries 131072 = some 6 ∧ (entryAt entries 6).state = .dirty ∧ (entryAt entries 6).kind = .line ∧
      currentEntry entries 12 = some 2 ∧ (entryAt entries 2).state = .dirty ∧ (entryAt entries 2).kind = .trim := by
  decide +kernel

/-- A map state that names no record of a line is never PRESENT. -/
theorem not_present {m n : MapState} (h : m = n) (hn : n = .unwritten ∨ n = .damaged) : ∀ loc seq, m ≠ .present loc seq := by
  rintro loc seq rfl
  rcases hn with rfl | rfl <;> cases h

theorem witness_WriteStartsEntry :
    (writeRefused entries 0 = none ∧ currentEntry entries 0 = none ∧ allocate entries = some (7, entries) ∧
      ∀ loc seq, (mapGet entries 0).state ≠ .present loc seq) ∧
    (writeRefused entries 16 = none ∧ currentEntry entries 16 = none ∧
      (mapGet entries 16).state = .present ⟨0, 33, 63, 15⟩ 642) := by
  refine ⟨⟨by decide +kernel, by decide +kernel, by decide +kernel, not_present (n := .unwritten) (by decide +kernel) (.inl rfl)⟩, ?_⟩
  decide +kernel

theorem witness_WriteLinkedOrWaits :
    writeRefused entries 15 = none ∧ currentEntry entries 15 = some 5 ∧ (entryAt entries 5).state = .committing ∧
      entries.lru.head? ≠ some 5 ∧ allocate entries = some (7, entries) ∧ writeRefused full 15 = none ∧ allocate full = none ∧
      currentEntry full 15 = some 5 ∧ (entryAt full 5).state = .committing ∧ writeRefused full 0 = none ∧
      currentEntry full 0 = none := by decide +kernel

theorem witness_AllocationOrder :
    allocate entries = some (7, entries) ∧ allocate full = none ∧
      (allocate { full with lru := [0] }).map (·.1) = some 0 := by decide +kernel

theorem witness_AccessEndsByStrobeOrWaitLimit :
    readWaits.host.access = some ⟨none, 0x012C09, .waiting 0 5000 (.fetch 0)⟩ ∧
      pressedWrite.host.access = some ⟨some 0xA5, 0x06D600, .waiting 0 5000 .entry⟩ ∧ hwaitHigh entries = false := by
  decide +kernel

theorem witness_ModeChangeReachesBlocks :
    active.mode = .active ∧ Mode.active ≠ .draining ∧ { active with mode := .parked }.withheld = [] := by decide +kernel

theorem witness_ReadOnlyRequestByMode :
    active.mode = .active ∧ draining.mode = .draining ∧ draining.pfwHigh = false ∧
      { draining with pfwHigh := true }.pfwHigh = true ∧
      ([Mode.readOnly, .mounting, .unformatted, .parked, .formatting].all fun m => { active with mode := m }.mode == m) = true := by
  decide +kernel

theorem witness_PfwActsByMode :
    active.rstLow = false ∧ active.mode = .active ∧
      ([Mode.readOnly, .parked, .mounting, .formatting].all fun m => { active with mode := m }.mode == m) = true ∧
      { active with mode := .parked, heldReadOnly := true }.heldReadOnly = true ∧ active.heldReadOnly = false ∧
      draining.mode = .draining := by decide +kernel

theorem witness_FramesWithoutRequestEnd :
    (let rest : List Byte := [0xFE]; rest.length ≠ (0x01 : Byte).toNat + 1) ∧ ([0x01, 0x00, 0xFE] : List Byte).sum ≠ 0 ∧
      argumentLength 0 (0x10 : Byte).toNat ≠ some 1 ∧ argumentLength 0 (0x15 : Byte).toNat ≠ some 0 ∧
      (∃ r, (after .flush twoDirty).maint.reply = some r ∧ r.data.length + 3 ≤ 3) ∧
      (∃ r, (after .flush twoDirty).maint.reply = some r ∧ 2 < r.data.length + 3) ∧ active.maint.reply = none := by
  refine ⟨by decide +kernel, by decide +kernel, by decide +kernel, by decide +kernel, ⟨⟨.accepted, []⟩, ?_⟩,
    ⟨⟨.accepted, []⟩, ?_⟩, ?_⟩ <;> decide +kernel

theorem witness_GetStatusReportsAndClears : State.reset.rstLow = false ∧ twoDirty.rstLow = false := by decide +kernel

theorem witness_GetFaultsReturnsOldest :
    faulty.rstLow = false ∧ faulty.maint.faults.length = 3 ∧
      ([1, 16].all fun n : Byte => 1 ≤ n.toNat ∧ n.toNat ≤ 16) = true ∧
      ([0, 17].all fun n : Byte => n.toNat = 0 ∨ 16 < n.toNat) = true := by decide +kernel

theorem witness_GetLineAndBlockReport :
    entries.mode ≠ .mounting ∧ entries.mode ≠ .parked ∧ (262143 : BitVec 24).toNat < 262144 ∧
      262144 ≤ (262144 : BitVec 24).toNat ∧ (0 : Byte).toNat < entries.diesInUse ∧
      blockGet entries ⟨0, 33⟩ = some (blockIn .closed 5 700 2) ∧ entries.diesInUse ≤ (1 : Byte).toNat := by decide +kernel

/-- A part at work: a batch with the record of ONCE line 131,072 on the die, ONCE line 131,073 DIRTY, line 16 CLEAN, both ONCE lines with the
last stamp of R134 pending, and 13 blocks FREE. -/
def whole : State :=
  carrying 0 (programOp .batchProgram .commitProgram ⟨0, 90⟩ 12 0 [lineRec 131072 813 8 0])
    { active with
      staging := [held .committing 131072 0 true, held .dirty 131073 0 true, held .clean 16 0 false] ++ List.replicate 29 Entry.cleared
      lru := [2]
      lineMap :=
        [(16, ⟨.present ⟨0, 33, 10, 4⟩ 640, 0⟩), (131072, ⟨.present ⟨0, 33, 10, 5⟩ 641, 7⟩), (131073, ⟨.damaged, 7⟩)]
      blocks := [(33, blockIn .closed 2 700 2), (90, blockIn .hostHead 0 0 1)] ++ (List.range 13).map fun k => (100 + k, blockIn .free 0 0 1)
      freeList := (List.range 13).map fun k => ⟨0, 100 + k⟩
      commit :=
        { active.commit with
          queue := [1]
          seq := some 814
          head := some ⟨⟨0, 90⟩, 12, 0, 0, .passed, some 800, none⟩
          batch := some ⟨⟨0, 90⟩, 12, 0, [⟨0, 131072, .line, 813, 8⟩]⟩ } }

/-- No value stands under a key above all those listed. -/
theorem keyGet_above {α : Type} {n k : Nat} : ∀ {l : List (Nat × α)}, (∀ p ∈ l, p.1 < n) → n ≤ k → keyGet k l = none
  | [], _, _ => rfl
  | (j, v) :: t, h, hk => by
    have hj := h (j, v) (List.mem_cons_self ..)
    unfold keyGet
    rw [if_neg (by simp only at hj; omega)]
    exact keyGet_above (fun p hp => h p (List.mem_cons_of_mem _ hp)) hk

/-- What holds of the keys of one die and of the keys above holds of all. -/
theorem of_low_high {p : Nat → Prop} (h1 : ∀ k < 256, p k) (h2 : ∀ k, 256 ≤ k → p k) (k : Nat) : p k :=
  if h : k < 256 then h1 k h else h2 k (by omega)

theorem whole_high {k : Nat} (h : 256 ≤ k) : keyGet k whole.blocks = none := keyGet_above (n := 256) (by decide +kernel) h

theorem whole_recIs {k : Nat} (h : 256 ≤ k) (p : BlockRec → Bool) : recIs whole.blocks k p = 0 := by
  unfold recIs; rw [whole_high h]; rfl

theorem whole_headOn {k : Nat} (h : 256 ≤ k) : headOn whole.commit.head k = 0 :=
  if_neg fun e => by
    have : (some 90 : Option Nat) = some k := e
    injection this
    omega

theorem whole_entryInv : EntryInv whole := by
  intro i
  by_cases h : i < 32
  · revert h; revert i; decide +kernel
  · have hi : ∀ x, x ≠ EntryState.free → isIn whole.staging i x = 0 := fun x hx => by
      have hs : (whole.staging.getD i Entry.cleared) = Entry.cleared := by
        have hl : whole.staging.length = 32 := by decide +kernel
        rw [List.getD_eq_getElem?_getD, List.getElem?_eq_none (by omega)]; rfl
      unfold isIn
      rw [hs]
      exact if_neg fun e => hx e.symm
    have hc : ∀ l : List Nat, (∀ j ∈ l, j < 32) → l.count i = 0 := fun l hl =>
      List.count_eq_zero.2 fun hm => h (hl i hm)
    rw [hi _ (by decide), hi _ (by decide), hi _ (by decide), hi _ (by decide)]
    exact ⟨hc _ (by decide +kernel), hc _ (by decide +kernel), hc _ (by decide +kernel), Nat.le_refl _⟩

theorem whole_blockInv : BlockInv whole where
  rise := by decide +kernel
  fresh := fun h => absurd rfl h
  valid := of_low_high (by decide +kernel) fun k hk => by
    rw [whole_high hk]
    refine List.countP_eq_zero.2 fun p hp => ?_
    have : ∀ p ∈ whole.lineMap, ∀ n ∈ p.2.state.loc.map (fun l => blockKey (blockOf l)), n < 256 := by decide +kernel
    simp only [decide_eq_true_eq]
    intro e
    have := this p hp k e
    omega
  free := of_low_high (by decide +kernel) fun k hk => by
    rw [whole_recIs hk]
    have : ∀ j ∈ whole.freeList.map blockKey, j < 256 := by decide +kernel
    refine List.count_eq_zero.2 fun hm => ?_
    have := this k hm
    omega
  ident := of_low_high (by decide +kernel) fun k hk r hr => by rw [whole_high hk] at hr; cases hr
  empty := of_low_high (by decide +kernel) fun k hk r hr => by rw [whole_high hk] at hr; cases hr
  works := of_low_high (by decide +kernel) fun k hk r hr => by rw [whole_high hk] at hr; cases hr
  head := of_low_high (by decide +kernel) fun k hk => (whole_headOn hk).le.trans (Nat.zero_le _)
  copy := fun k => Nat.zero_le _
  victim := fun b hb => by cases hb
  reloc := fun k => Nat.zero_le _
  wait := fun k => Nat.zero_le _
  handed := fun k => Nat.zero_le _
  erases := fun _ k => Nat.zero_le _
  stamps := fun _ k => Nat.zero_le _
  opens := Nat.zero_le _
  batch := fun b hb => by
    injection hb with hb
    rw [← hb]
    exact ⟨_, rfl, rfl, rfl⟩
  quiet := by decide +kernel
  still := fun h => absurd rfl h

theorem whole_stampInv : StampInv whole where
  le := fun l => by
    unfold stampsOf
    have hm : ∀ m : Nat × MapEntry, m ∈ whole.lineMap → m.2.stamps ≤ 8 := by decide +kernel
    cases hk : keyGet l whole.lineMap with
    | none => decide
    | some m => exact hm (l, m) (mem_of_keyGet hk)
  sum := fun l _ => by
    by_cases h1 : l = 131072
    · subst h1; decide +kernel
    by_cases h2 : l = 131073
    · subst h2; decide +kernel
    have hp : pendingIn whole.staging l = 0 := List.countP_eq_zero.2 fun e he hp => by
      have ht : ∀ e ∈ whole.staging, e.touched = true → e.line = some 131072 ∨ e.line = some 131073 := by decide +kernel
      simp only [Entry.pends, Bool.and_eq_true, beq_iff_eq] at hp
      rcases ht e he hp.1.2 with hl | hl <;> rw [hp.1.1] at hl <;> injection hl <;> contradiction
    have hs : ∀ m : Nat × MapEntry, m ∈ whole.lineMap → m.2.stamps ≤ 8 := by decide +kernel
    rw [hp]
    unfold stampsOf
    cases hk : keyGet l whole.lineMap with
    | none => decide
    | some m => exact hs (l, m) (mem_of_keyGet hk)
  recs := fun b hb r hr => by
    injection hb with hb
    rw [← hb] at hr
    cases List.mem_singleton.1 hr
    exact ⟨by decide, fun _ => by decide +kernel, fun _ => by decide +kernel⟩
  entries := fun i => by
    have : ∀ e ∈ whole.staging, (e.state = .clean → e.touched = false) ∧ (e.state = .loading → e.written ≠ 0 → e.touched = true) ∧
        (e.touched = true → e.line.isSome = true) := by decide +kernel
    have h : entryAt whole i ∈ whole.staging ∨ entryAt whole i = Entry.cleared := by
      unfold entryAt
      rw [List.getD_eq_getElem?_getD]
      cases hg : whole.staging[i]? with
      | none => exact .inr rfl
      | some e => exact .inl (List.mem_of_getElem? hg)
    rcases h with h | h
    · exact ⟨(this _ h).1, (this _ h).2.1, (this _ h).2.2, fun k => absurd rfl k⟩
    · rw [h]; exact ⟨fun _ => rfl, fun k => (by cases k), fun k => (by cases k), fun _ => rfl⟩
  waits := fun _ => rfl
  cands := fun c hc => by cases hc

/-- The invariants hold of a part at work. -/
theorem whole_inv : Machine.Inv whole where
  map := by unfold MapInv; decide +kernel
  faults := by unfold FaultInv; decide +kernel
  settings := by unfold SettingsInv; decide +kernel
  size := by unfold SizeInv; decide +kernel
  mode := by unfold ModeInv; decide +kernel
  space := by unfold SpaceInv; decide +kernel
  entry := whole_entryInv
  block := whole_blockInv
  mount :=
    { early := fun _ => ⟨rfl, rfl⟩
      rise := rfl
      range := fun h => absurd rfl h
      classify := fun b => Nat.zero_le _
      scan := fun b h => absurd h (Nat.lt_irrefl _)
      cands := fun c hc => by cases hc }

/-- An event answers a next state. -/
theorem event_answers (f : State → State) (s : State) : ∃ t, event f s = .next t := by
  unfold event; split <;> exact ⟨_, rfl⟩

theorem witness_SetParameterSetsOneSetting :
    active.mode = .active ∧ ([250, 1, 16, 500, 15].map fun v : BitVec 16 => v.toNat) = [250, 1, 16, 500, 15] ∧
      ([251, 0, 17, 501].map fun v : BitVec 16 => v.toNat) = [251, 0, 17, 501] ∧
      (4 < (5 : Byte).toNat ∧ (0x05 + 0x03 + 0x05 + 0x00 + 0x01 + 0xF2 : Byte) = 0) ∧
      (0x05 + 0x03 + 0x00 + 0x00 + 0x01 + 0xF7 : Byte) = 0 ∧ Machine.Inv whole ∧
      ∃ t, exec (.format rawTable false) whole = .next t :=
  ⟨by decide +kernel, by decide +kernel, by decide +kernel, by decide +kernel, by decide +kernel, whole_inv,
    event_answers _ whole⟩

theorem witness_RequestOutsideModeRefused :
    ([Request.getLine, .getBlock, .setParameter, .abort, .flush, .trim, .scrub, .freeze, .format].all
      fun r => accepts { active with mode := .mounting }.mode r == false) = true ∧ active.rstLow = false := by decide +kernel

theorem witness_LongRequestRefused :
    (after .flush twoDirty).maint.slot.isSome = true ∧ (after .flush twoDirty).mode = .active ∧ active.maint.slot = none ∧
      4096 < (4097 : BitVec 16).toNat ∧ 262144 < (262143 : BitVec 24).toNat + (2 : BitVec 16).toNat ∧
      (∃ r ∈ active.regions, r.kind = .once ∧ r.base < (131071 : BitVec 24).toNat + (2 : BitVec 16).toNat ∧
        (131071 : BitVec 24).toNat < r.base + r.count) ∧
      active.regions[(2 : Byte).toNat]? = none ∧ active.regions[(0 : Byte).toNat]? = some ⟨.plain, 0, 131072⟩ ∧
      active.regions[(1 : Byte).toNat]? = some ⟨.once, 131072, 4096⟩ ∧ 1 ∈ { active with frozen := [1] }.frozen ∧
      readTable [⟨0x02, 0, 1⟩] = none ∧ readTable [] = some [] ∧ validTable [] = false ∧
      readTable [⟨0x00, 0, 190093⟩] = some [⟨.plain, 0, 190093⟩] ∧ validTable [⟨.plain, 0, 190093⟩] = true ∧
      (active.mount.diesPresent * 256 - 8 - active.ident.retired.length) * 1022 * 3 / 4 < totalLines [⟨.plain, 0, 190093⟩] ∧
      totalLines [⟨.plain, 0, 190092⟩] ≤ (active.mount.diesPresent * 256 - 8 - active.ident.retired.length) * 1022 * 3 / 4 ∧
      { active.ident with remembered := some (2 ^ 32 - 1) }.remembered = some (2 ^ 32 - 1) := by decide +kernel

/-- A FORMAT turned away in READ-ONLY, where a FREEZE is PERSISTING, and in UNFORMATTED. -/
theorem witness_LongRequestRefused_format :
    let persisting := { active with
      mode := .readOnly
      freeze := { active.freeze with phase := .persisting, region := some 1 }
      maint := { active.maint with slot := some (.freeze 1) } }
    let retiring := fun s : State => { s with mode := .readOnly, ident := { s.ident with retired := [⟨0, 5⟩] } }
    let spent := fun s : State => { s with ident := { s.ident with remembered := some (2 ^ 32 - 1) } }
    persisting.mode = .readOnly ∧ persisting.maint.slot.isSome = true ∧ persisting.rstLow = false ∧
      (retiring active).mode = .readOnly ∧ (retiring active).maint.slot = none ∧
      ((retiring active).mount.diesPresent * 256 - 8 - (retiring active).ident.retired.length) * 1022 * 3 / 4 <
        totalLines [⟨.plain, 0, 190092⟩] ∧
      (spent unformatted).mode = .unformatted ∧ (spent unformatted).maint.slot = none ∧ (spent unformatted).rstLow = false ∧
      (spent unformatted).ident.remembered = some (2 ^ 32 - 1) ∧
      totalLines [⟨.plain, 0, 190092⟩] ≤ ((spent unformatted).mount.diesPresent * 256 - 8 - 0) * 1022 * 3 / 4 := by decide +kernel

/-- R80, R153: the same replies, of the machine itself. -/
theorem test_format_refused :
    let reply := fun (c : Instr) (s : State) => replyCode (after c s)
    let spent := { unformatted with ident := { unformatted.ident with remembered := some (2 ^ 32 - 1) } }
    reply (.format rawTable true) { active with mode := .readOnly, maint := { active.maint with slot := some (.freeze 1) } } =
        some .busy ∧
      reply (.format rawTable false) unformatted = some .isProtected ∧
      reply (.format rawTable true) spent = some .refusedState := by decide +kernel

/-- The test of R3 on a table of one PLAIN region that starts at line 0. -/
theorem witness_FormatTestsRegionTable :
    (unformatted.rstLow = false ∧ unformatted.mode = .unformatted ∧ unformatted.maint.slot = none) ∧
    (∀ n : BitVec 24, 1 ≤ n.toNat → n.toNat ≤ 262144 → ∀ r ∈ [(⟨0, 0, n⟩ : RawRegion)],
      (r.kind = 0 ∨ r.kind = 1) ∧ 1 ≤ r.count.toNat ∧ r.base.toNat + r.count.toNat ≤ 262144) ∧
    (∀ (p : RawRegion → RawRegion → Prop) (n : BitVec 24), [(⟨0, 0, n⟩ : RawRegion)].Pairwise p) ∧
    ¬ 1 ≤ ([] : List RawRegion).length ∧
    (unformatted.mount.diesPresent * 256 - 8 - 0) * 1022 * 3 / 4 < [(190093 : BitVec 24).toNat].sum ∧
    [(190092 : BitVec 24).toNat].sum ≤ (unformatted.mount.diesPresent * 256 - 8 - 0) * 1022 * 3 / 4 ∧
    unformatted.ident.remembered ≠ some (2 ^ 32 - 1) := by
  refine ⟨by decide +kernel, ?_, fun p n => List.pairwise_singleton _ _, by decide +kernel, by decide +kernel, by decide +kernel,
    by decide +kernel⟩
  intro n h1 h2 r hr
  rcases List.mem_singleton.mp hr with rfl
  exact ⟨.inl rfl, h1, by simpa using h2⟩

/-- A long command in the slot. -/
def withSlot (c : LongCmd) (s : State) : State := { s with maint := { s.maint with slot := some c } }

theorem witness_AbortReachesLongCommand :
    accepts active.mode .abort = true ∧ active.maint.slot = none ∧ (withSlot .flush active).maint.slot = some .flush ∧
      (withSlot (.trim 0 4096) active).maint.slot = some (.trim 0 4096) ∧
      (withSlot (.scrub 0 1) { active with scrub := { active.scrub with state := .waiting } }).scrub.state = .waiting ∧
      (withSlot (.scrub 0 1) { active with scrub := { active.scrub with state := .reading } }).scrub.state ≠ .waiting ∧
      (after (.freeze 1 true) beforeFreeze).maint.slot = some (.freeze 1) ∧
      (after (.freeze 1 true) beforeFreeze).freeze.phase = .flushing ∧
      (withSlot (.freeze 1) { active with freeze := { active.freeze with phase := .persisting } }).freeze.phase ≠ .flushing ∧
      accepts formatting.mode .abort = true ∧ formatting.maint.slot = some (.format twoRegions) ∧
      formatting.format = some (newJob 8 1) ∧ (newJob 8 1).step < 4 ∧
      lastFormatProgram.maint.slot = some (.format twoRegions) ∧ (lastFormatProgram.format.map (·.step)) = some 4 := by
  decide +kernel

theorem witness_FlushStartsAndCompletes :
    twoDirty.rstLow = false ∧ twoDirty.mode = .active ∧ twoDirty.maint.slot = none ∧
      (withSlot .flush active).maint.slot = some .flush ∧ (withSlot .flush active).flushTracked = [] := by decide +kernel

theorem witness_TrimStartsAndCompletes :
    (1 ≤ (1 : BitVec 16).toNat ∧ (1 : BitVec 16).toNat ≤ 4096 ∧ (131071 : BitVec 24).toNat + (1 : BitVec 16).toNat ≤ 262144 ∧
      ∀ r ∈ active.regions, r.kind = .once →
        r.base + r.count ≤ (131071 : BitVec 24).toNat ∨ (131071 : BitVec 24).toNat + (1 : BitVec 16).toNat ≤ r.base) ∧
    (4096 : BitVec 16).toNat ≤ 4096 ∧ (258048 : BitVec 24).toNat + (4096 : BitVec 16).toNat ≤ 262144 ∧
    (withSlot (.trim 4 4) active).maint.slot = some (.trim 4 4) ∧
    (withSlot (.trim 4 4) active).trim.current = (withSlot (.trim 4 4) active).trim.stop ∧
    (withSlot (.trim 4 4) active).trim.tracked = [] := by decide +kernel

/-- A line that is UNWRITTEN is not scrubbed. -/
theorem no_scrub {s : State} {l : Nat} (h : (mapGet s l).state = .unwritten) : ¬ ∃ loc seq, scrubReads s l loc seq := by
  rintro ⟨loc, seq, -, hp, -⟩
  rw [h] at hp
  cases hp

theorem witness_ScrubStartsWithFirstReadLine :
    (beforeScrub.rstLow = false ∧ beforeScrub.mode = .active ∧ beforeScrub.maint.slot = none) ∧
    (scrubReads beforeScrub 101 ⟨0, 70, 5, 3⟩ 2400 ∧
      ∀ j, 100 ≤ j → j < 101 → ¬ ∃ loc seq, scrubReads beforeScrub j loc seq) ∧
    ((262143 : BitVec 24).toNat + (1 : BitVec 24).toNat ≤ 262144 ∧
      ∀ j, 262143 ≤ j → j ≤ 262143 → ¬ ∃ loc seq, scrubReads beforeScrub j loc seq) := by
  refine ⟨by decide +kernel, ⟨⟨by decide +kernel, by decide +kernel, ?_⟩, ?_⟩, by decide +kernel, ?_⟩
  · have h : currentEntry beforeScrub 101 = none := by decide +kernel
    simp [h]
  · intro j h1 h2
    obtain rfl : j = 100 := by omega
    exact no_scrub (by decide +kernel)
  · intro j h1 h2
    obtain rfl : j = 262143 := by omega
    exact no_scrub (by decide +kernel)

theorem witness_FreezeStartsAndPersists :
    beforeFreeze.maint.slot = none ∧ beforeFreeze.regions[(1 : Byte).toNat]? = some ⟨.once, 131072, 4096⟩ ∧
      (1 : Byte).toNat ∉ beforeFreeze.frozen ∧
      (withSlot (.freeze 1) { active with freeze := { active.freeze with phase := .flushing } }).maint.slot = some (.freeze 1) ∧
      { active.freeze with phase := .flushing }.tracked = [] := by decide +kernel

theorem witness_FormatAcceptedClears :
    unformatted.rstLow = false ∧ SizeInv unformatted ∧ unformatted.mode = .unformatted ∧ unformatted.maint.slot = none ∧
      readTable rawTable = some twoRegions ∧ validTable twoRegions = true ∧
      totalLines twoRegions ≤ (unformatted.mount.diesPresent * 256 - 8 - 0) * 1022 * 3 / 4 ∧
      unformatted.ident.remembered ≠ some (2 ^ 32 - 1) := by
  unfold SizeInv; decide +kernel

/-- A TRIM walk that stands at a line. -/
def walkAt (l : Nat) (s : State) : State :=
  { withSlot (.trim l 1) s with trim := { current := l, stop := l + 1, tracked := [], waiting := false } }

theorem witness_TrimWalkHandlesLine :
    active.trim.stop ≤ active.trim.current ∧ (walkAt 10 entries).maint.slot = some (.trim 10 1) ∧
      (walkAt 10 entries).trim.current < (walkAt 10 entries).trim.stop ∧ isBacked (walkAt 262143 entries) 262143 = false ∧
      currentEntry (walkAt 10 entries) 10 = some 0 ∧ (entryAt (walkAt 10 entries) 0).state = .clean ∧
      currentEntry (walkAt 11 entries) 11 = some 1 ∧ (entryAt (walkAt 11 entries) 1).state = .dirty ∧
      SizeInv (walkAt 13 entries) ∧ currentEntry (walkAt 13 entries) 13 = some 3 ∧
      (entryAt (walkAt 13 entries) 3).state = .loading ∧ currentEntry (walkAt 15 entries) 15 = some 5 ∧
      (entryAt (walkAt 15 entries) 5).state = .committing ∧ (walkAt 15 entries).lru.head? ≠ some 5 ∧
      allocate (walkAt 15 entries) = some (7, walkAt 15 entries) ∧ allocate (walkAt 15 full) = none ∧
      currentEntry (walkAt 0 entries) 0 = none ∧ currentEntry (walkAt 0 full) 0 = none := by
  unfold SizeInv; decide +kernel

theorem witness_RaisedFaultIsRecorded :
    faulty.maint.faults.getLast? = some ⟨.modeDrop, .line 5, 813, 1⟩ ∧ active.maint.faults = [] ∧
      faulty.maint.faults = faulty.maint.faults.dropLast ++ [⟨.modeDrop, .line 5, 813, 1⟩] ∧ faulty.maint.faults.length < 16 ∧
      16 ≤ (List.replicate 16 (⟨.modeDrop, .line 5, 813, 255⟩ : FaultRec)).length ∧
      FaultKind.frozenWrite ≠ FaultKind.modeDrop := by decide +kernel

theorem witness_CompletionsMoveMap :
    MapInv entries ∧ blockGet entries ⟨0, 33⟩ = some (blockIn .closed 5 700 2) ∧
      (mapGet entries 131073).state.loc ≠ some ⟨0, 33, 63, 15⟩ ∧ (mapGet entries 16).state = .present ⟨0, 33, 63, 15⟩ 642 ∧
      (mapGet entries 17).state = .trimmed ⟨0, 33, 11, 0⟩ 643 := by
  unfold MapInv; decide +kernel

/-- A line with a CLEAN entry and a record. -/
def cleanPresent : State := { entries with lineMap := [(10, ⟨.present ⟨0, 33, 0, 2⟩ 600, 0⟩)] }

theorem witness_LostGradingDamagesLine :
    MapInv cleanPresent ∧ (mapGet cleanPresent 10).state.loc = some ⟨0, 33, 0, 2⟩ ∧ currentEntry cleanPresent 10 = some 0 ∧
      (entryAt cleanPresent 0).state = .clean ∧ (mapGet cleanPresent 10).state.loc ≠ some ⟨0, 33, 0, 3⟩ ∧
      (mapGet entries 16).state.loc = some ⟨0, 33, 63, 15⟩ ∧ currentEntry entries 16 = none ∧
      blockGet cleanPresent ⟨0, 33⟩ = some (blockIn .closed 5 700 2) := by
  unfold MapInv; decide +kernel

theorem witness_FreeBlockJoinsInOrder :
    blockGet reclaimable ⟨0, 44⟩ = some (blockIn .closed 4 1600 5) ∧ reclaimable.freeList.length + 1 = 13 ∧
      beforeDrain.freeList.length + 1 = 5 ∧ blockGet beforeDrain ⟨0, 50⟩ ≠ none ∧ active.freeList.length + 1 = 31 := by
  decide +kernel

theorem witness_CommitDelayMakesBatchDue :
    scrubbed.commit.queue = 4 :: [6, 9] ∧ (entryAt scrubbed 4).dirtySince = some 0 ∧ active.commit.queue = [] ∧
      { active.commit with queue := [0] }.queue = 0 :: [] ∧ (entryAt active 0).dirtySince = none := by decide +kernel

theorem witness_SlotsAreGraded :
    ({ blankSlot with erasedDiff := 6 } : RawSlot).erasedDiff ≤ 6 ∧ 6 < ({ unreadable with erasedDiff := 7 } : RawSlot).erasedDiff ∧
      unreadable.headerOk = false ∧ (slot 0 (lineRec 1 1 0 0)).headerOk = true ∧
      ([3, 6].map fun n => (slot n (lineRec 1 1 0 0)).bitErrors) = [3, 6] ∧ 7 ≤ (slot 7 (lineRec 1 1 0 0)).bitErrors ∧
      (∀ k st p, SlotContent.eraseStamp 1 0 ≠ .record k 0 1 st p) := by
  refine ⟨by decide +kernel, by decide +kernel, by decide +kernel, by decide +kernel, by decide +kernel, by decide +kernel, ?_⟩
  rintro k st p ⟨⟩

theorem witness_AnswerFreesDie :
    3 < active.dies.length ∧ (0 : Nat) ≠ 3 ∧ blockGet entries ⟨0, 33⟩ = some (blockIn .closed 5 700 2) ∧
      (eraseOp .erase .eraseStamp ⟨0, 44⟩).role.counted = false := by decide +kernel

/-- The die carries the read-fill of an entry. -/
def filling (i line : Nat) (loc : Loc) (seq : Nat) (s : State) : State :=
  carrying 0 (mapRead (.readFill i) .hostRead line loc seq) s

/-- The read-fills of the LOADING entries 3 (host-touched) and 4 (trim pending) of `entries`. -/
def fill3 : State := filling 3 13 ⟨0, 33, 10, 4⟩ 640 entries

/-- The read-fill of a LOADING entry that the host has not touched. -/
def fillUntouched : State :=
  filling 3 13 ⟨0, 33, 10, 4⟩ 640 { entries with staging := entries.staging.set 3 (held .loading 13 0 false) }

/-- The trim-pending entry's fetch, with nothing written since. -/
def fillTrim : State := filling 4 14 ⟨0, 33, 10, 5⟩ 641 entries

/-- A slot whose header check fails is LOST to every reader. -/
theorem unreadable_lost (line seq : Nat) : readLost unreadable line seq := by
  intro g kind stamps payload h
  unfold readGood at h
  have hc : checkSlot unreadable = .lostUnknown := by decide +kernel
  rw [hc] at h
  cases h

theorem witness_ReadFillGoodCompletesEntry :
    carries 0 (mapRead (.readFill 3) .hostRead 13 ⟨0, 33, 10, 4⟩ 640) (.readFill 3) fill3 ∧
      expects (mapRead (.readFill 3) .hostRead 13 ⟨0, 33, 10, 4⟩ 640) 13 640 ∧ SizeInv fill3 ∧
      readGood (slot 6 (lineRec 13 640 0 9)) 13 640 .weak .line 0 (List.replicate 64 9) ∧
      readGood (slot 3 (lineRec 13 640 0 9)) 13 640 .corrected .line 0 (List.replicate 64 9) ∧
      (entryAt fill3 3).trimPending = false ∧ (mapGet fill3 13).state ≠ .damaged ∧ (entryAt fill3 3).touched = true ∧
      (entryAt fillUntouched 3).touched = false ∧ (mapGet (lostGrading 13 ⟨0, 33, 10, 4⟩ fill3) 13).state = .damaged := by
  unfold carries expects SizeInv readGood; decide +kernel

/-- The map has moved the line of entry 3 to another slot. -/
def fillMoved : State := mapSet 13 ⟨.present ⟨0, 34, 0, 2⟩ 640, 0⟩ fill3

theorem witness_ReadFillLostReissuesOrCompletes :
    (carries 0 (mapRead (.readFill 3) .hostRead 13 ⟨0, 33, 10, 4⟩ 640) (.readFill 3) fillMoved ∧
      expects (mapRead (.readFill 3) .hostRead 13 ⟨0, 33, 10, 4⟩ 640) 13 640 ∧ SizeInv fillMoved ∧
      (mapGet (lostGrading 13 ⟨0, 33, 10, 4⟩ fillMoved) 13).state = .present ⟨0, 34, 0, 2⟩ 640 ∧
      fillMoved.mode ≠ .parked ∧ { fillMoved with mode := .parked }.mode = .parked ∧
      (entryAt (lostGrading 13 ⟨0, 33, 10, 4⟩ fillMoved) 3).trimPending = false) ∧
    readLost unreadable 13 640 ∧
    (∀ loc q, (mapGet (lostGrading 13 ⟨0, 33, 10, 4⟩ fill3) 13).state ≠ .present loc q) ∧
    (entryAt (lostGrading 13 ⟨0, 33, 10, 4⟩ fill3) 3).touched = true ∧
    (entryAt (lostGrading 13 ⟨0, 33, 10, 4⟩ fillUntouched) 3).touched = false := by
  refine ⟨?_, unreadable_lost _ _, not_present (n := .damaged) (by decide +kernel) (.inr rfl), by decide +kernel, by decide +kernel⟩
  unfold carries expects SizeInv; decide +kernel

theorem witness_TrimPendingFetchBecomesTrim :
    (carries 0 (mapRead (.readFill 4) .hostRead 14 ⟨0, 33, 10, 5⟩ 641) (.readFill 4) fillTrim ∧
      expects (mapRead (.readFill 4) .hostRead 14 ⟨0, 33, 10, 5⟩ 641) 14 641 ∧ SizeInv fillTrim ∧
      readGood (slot 6 (lineRec 14 641 0 9)) 14 641 .weak .line 0 (List.replicate 64 9) ∧
      (entryAt fillTrim 4).trimPending = true ∧ (entryAt fillTrim 4).written = 0 ∧
      (entryAt (after (.hostWrite 0x0003BF 1) fillTrim) 4).written ≠ 0) ∧
    readLost unreadable 14 641 := by
  refine ⟨?_, unreadable_lost _ _⟩
  unfold carries expects SizeInv readGood; decide +kernel

/-- The direct read of line 131,074. -/
def directOp : Op := mapRead .directRead .hostRead 131074 ⟨0, 61, 44, 12⟩ 2203

/-- The direct read is on the die with an access that waits for what is given. -/
def directFor (why : WaitFor) : State :=
  carrying 0 directOp
    { directOut with host := { access := some ⟨none, 0x8000A5, .waiting 0 5000 why⟩, directOut := true } }

theorem witness_DirectReadAnswered :
    (carries 0 directOp .directRead (directFor .direct) ∧ expects directOp 131074 2203 ∧
      readGood (slot 1 (lineRec 131074 2203 3 7)) 131074 2203 .corrected .line 3 (List.replicate 64 7) ∧
      waitsFor (directFor .direct) = some .direct ∧ waitsFor (directFor .earlierDirect) = some .earlierDirect ∧
      waitsFor (setAccess none (directFor .direct)) = none ∧
      (mapGet (lostGrading 131074 ⟨0, 61, 44, 12⟩ (mapSet 131074 ⟨.present ⟨0, 80, 2, 9⟩ 2203, 3⟩ (directFor .direct))) 131074).state =
        .present ⟨0, 80, 2, 9⟩ 2203 ∧
      { directFor .direct with mode := .parked }.mode = .parked) ∧
    readLost unreadable 131074 2203 ∧
    (∀ loc q, (mapGet (lostGrading 131074 ⟨0, 61, 44, 12⟩ (directFor .direct)) 131074).state ≠ .present loc q) := by
  refine ⟨?_, unreadable_lost _ _, not_present (n := .damaged) (by decide +kernel) (.inr rfl)⟩
  unfold carries expects readGood; decide +kernel

/-- The copy read of line 880. -/
def copyReadOp : Op := mapRead .copyRead .reclaimCopy 880 ⟨0, 44, 63, 15⟩ 1600

theorem witness_CopyReadAnswered :
    (carries 0 copyReadOp .copyRead lastCopyRead ∧ expects copyReadOp 880 1600 ∧
      readGood (slot 6 (lineRec 880 1600 0 0)) 880 1600 .weak .line 0 (List.replicate 64 0) ∧
      lastCopyRead.reclaim.readsOut = 1 ∧ 1 < { lastCopyRead.reclaim with readsOut := 2 }.readsOut ∧
      lastCopyRead.reclaim.source = some .victim ∧ lastCopyRead.reclaim.discard = false ∧
      { lastCopyRead.reclaim with discard := true }.discard = true ∧ lastCopyRead.reclaim.buffer ≠ [] ∧
      lastCopyRead.reclaim.head = some ⟨⟨0, 12⟩, 0, 2, 2, .passed, some 4000, none⟩ ∧
      (mapGet lastCopyRead 880).state.loc = some copyReadOp.loc ∧
      (mapGet (commitToMap 880 .line 4002 0 ⟨0, 90, 20, 5⟩ lastCopyRead) 880).state.loc ≠ some copyReadOp.loc) ∧
    readLost unreadable 880 1600 := by
  refine ⟨?_, unreadable_lost _ _⟩
  unfold carries expects readGood; decide +kernel

/-- 6.5 with the read of line 103 on the die. -/
def scrub103 : State := run [.scrub 100 6, .scrubReadAnswer 0 (slot 2 (lineRec 101 2400 0 1))] beforeScrub

/-- 6.5 with the read of line 104 on the die. -/
def scrub104 : State := after (.scrubReadAnswer 0 (slot 5 (lineRec 103 2402 0 6))) scrub103

/-- The operation on die 0. -/
def onDie (s : State) : Op := (dieAt s 0).inFlight.getD copyReadOp

/-- 6.5 with no entry to be had, and with an ABORT taken. -/
def scrubFull (aborted : Bool) : State :=
  { scrub104 with
    lru := []
    staging := List.replicate 32 (held .loading 900 0 false)
    scrub := { scrub104.scrub with abortPending := aborted } }

theorem witness_ScrubReadAnswered :
    (carries 0 (onDie scrub103) .scrubRead scrub103 ∧ expects (onDie scrub103) 103 2402 ∧
      readGood (slot 3 (lineRec 103 2402 0 6)) 103 2402 .corrected .line 0 (List.replicate 64 6) ∧
      readGood (slot 4 (lineRec 103 2402 0 6)) 103 2402 .weak .line 0 (List.replicate 64 6) ∧
      (mapGet scrub103 103).state = .present ⟨0, 70, 5, 5⟩ 2402 ∧ scrub103.scrub.readSlot = some (⟨0, 70, 5, 5⟩, 2402) ∧
      currentEntry scrub103 103 = some 6 ∧ (entryAt scrub103 6).state = .clean ∧
      (entryAt (setEntry 6 (held .dirty 103 0 true) scrub103) 6).state ≠ .clean ∧
      carries 0 (onDie scrub104) .scrubRead scrub104 ∧ expects (onDie scrub104) 104 2510 ∧ currentEntry scrub104 104 = none ∧
      (allocate scrub104).map (·.1) = some 9 ∧ currentEntry (scrubFull true) 104 = none ∧ allocate (scrubFull true) = none ∧
      (scrubFull true).scrub.abortPending = true ∧ (scrubFull false).scrub.abortPending = false ∧
      (mapGet (mapSet 103 ⟨.damaged, 0⟩ scrub103) 103).state = .damaged) ∧
    readLost unreadable 103 2402 := by
  refine ⟨?_, unreadable_lost _ _⟩
  unfold carries expects readGood; decide +kernel

theorem witness_ScrubLineDoneGoesOn :
    (scrub103.maint.slot = some (.scrub 100 6) ∧ scrub103.scrub.abortPending = false ∧ (scrubFull true).scrub.abortPending = true ∧
      scrub103.scrub.current + 1 = 104 ∧ 104 ≤ scrub103.scrub.last ∧ scrubReads scrub103 104 ⟨0, 71, 0, 2⟩ 2510) ∧
    (∀ j, 104 ≤ j → j < 104 → ¬ ∃ loc seq, scrubReads scrub103 j loc seq) ∧
    ({ scrub103.scrub with current := 105 }.last ≤ 105) ∧
    (∀ j, 104 ≤ j → j ≤ 104 →
      ¬ ∃ loc seq, scrubReads { scrub103 with lineMap := [], scrub := { scrub103.scrub with last := 104 } } j loc seq) := by
  refine ⟨?_, fun j h1 h2 => by omega, by decide +kernel, fun j h1 h2 => ?_⟩
  · refine ⟨by decide +kernel, by decide +kernel, by decide +kernel, by decide +kernel, by decide +kernel, by decide +kernel,
      by decide +kernel, ?_⟩
    have h : currentEntry scrub103 104 = none := by decide +kernel
    simp [h]
  · obtain rfl : j = 104 := by omega
    exact no_scrub (by decide +kernel)

/-- The head of 11.5 and the copy head of 7.8, their stamps in flight. -/
def stampedHost : LogHead := ⟨⟨0, 130⟩, 0, 2, 2, .inFlight, some 5000, none⟩
def stampedCopy : LogHead := ⟨⟨0, 12⟩, 0, 2, 2, .inFlight, some 4000, none⟩

/-- 11.5 once the read-fill of line 60 has been answered: the open stamp is on the die. -/
def stamping : State := after (.readFillAnswer 0 (slot 1 (lineRec 60 900 0 7))) draining

theorem witness_OpenStampAnswered :
    carries 0 (onDie stamping) .hostOpenStamp stamping ∧ stamping.commit.head = some stampedHost ∧
      carries 0 (onDie opening) .copyOpenStamp opening ∧ opening.reclaim.head = some stampedCopy ∧
      blockGet stamping ⟨0, 130⟩ = some (blockIn .hostHead 0 0 4) ∧ blockGet entries ⟨0, 33⟩ = some (blockIn .closed 5 700 2) ∧
      (5 ≠ 0 ∨ 0 ≠ 0) ∧ blockKey ⟨0, 131⟩ ≠ blockKey stampedHost.block := by
  unfold carries; decide +kernel

/-- 2.10 with the head at a page, a slot and a count of programs. -/
def pressedAt (page next used : Nat) : State :=
  { pressed with commit := { pressed.commit with head := some ⟨⟨0, 90⟩, page, next, used, .passed, some 800, none⟩ } }

theorem witness_BatchProgramPasses :
    carries 0 (onDie pressed) .batchProgram pressed ∧ (pressed.commit.batch.map (·.recs.length)) = some 12 ∧
      pressed.commit.batch.isSome = true ∧ (pressedAt 12 0 0).commit.head = some ⟨⟨0, 90⟩, 12, 0, 0, .passed, some 800, none⟩ ∧
      ¬ (0 + 1 = 3 ∨ 0 + 12 = 16) ∧ (pressedAt 62 4 0).commit.head = some ⟨⟨0, 90⟩, 62, 4, 0, .passed, some 800, none⟩ ∧
      (0 + 1 = 3 ∨ 4 + 12 = 16) ∧ 62 + 1 < 64 ∧
      (pressedAt 63 0 2).commit.head = some ⟨⟨0, 90⟩, 63, 0, 2, .passed, some 800, none⟩ ∧ (2 + 1 = 3 ∨ 0 + 12 = 16) ∧ 64 ≤ 63 + 1 ∧
      (entryAt entries 2).kind = .trim ∧ (entryAt entries 5).kind = .line ∧ (entryAt entries 5).newer = none ∧
      { entryAt entries 5 with newer := some 1 }.newer ≠ none := by
  unfold carries; decide +kernel

/-- Batch records with different entries below 32. -/
theorem witness_BatchProgramFails :
    carries 0 (onDie pressed) .batchProgram pressed ∧ SizeInv pressed ∧
      (∃ b ∈ pressed.commit.batch, (∀ r ∈ b.recs, r.entry < 32) ∧ (b.recs.map (·.entry)).Nodup) ∧
      pressed.commit.head = some ⟨⟨0, 90⟩, 12, 0, 0, .passed, some 800, none⟩ ∧ pressed.mode = .active ∧
      carries 0 (onDie drainBatch) .batchProgram drainBatch ∧ drainBatch.mode = .draining ∧
      drainBatch.commit.batch.isSome = true := by
  unfold carries SizeInv; decide +kernel

/-- 2.10 with one entry still FREE, under a FLUSH: a write to line 100 makes entry 12 the linked entry of entry 0. -/
def linkedBatch : State :=
  run [.flush, .hostWrite 0x001900 0x11]
    { pressed with
      staging := pressed.staging.set 12 Entry.cleared
      commit := { pressed.commit with queue := (List.range 19).map (· + 13) } }

/-- R64, R184: entry 0 is freed, and the linked entry takes its place in the tracked set; the rest of the batch stays in it. -/
theorem witness_BatchProgramFails_linked :
    let entriesOf := ((linkedBatch.commit.batch.map (·.recs)).getD []).map (·.entry)
    let freed := fun i => i ∈ entriesOf ∧ (entryAt linkedBatch i).newer ≠ none
    carries 0 (onDie linkedBatch) .batchProgram linkedBatch ∧ (entryAt linkedBatch 0).newer = some 12 ∧ freed 0 ∧ ¬ freed 12 ∧
      (∀ i ∈ entriesOf, i ≠ 0 → ¬ freed i) ∧
      linkedBatch.flushTracked = (List.range 12) ++ (List.range 19).map (· + 13) ∧
      (after (.batchProgramAnswer 0 .fail) linkedBatch).flushTracked = (List.range 31).map (· + 1) ∧
      (entryAt (after (.batchProgramAnswer 0 .fail) linkedBatch) 0).state = .free := by
  unfold carries; decide +kernel

theorem witness_CopyProgramAnswered :
    carries 0 (onDie copyProgram) .copyProgram copyProgram ∧ copyProgram.reclaim.source = some .victim ∧
      copyProgram.reclaim.head = some ⟨⟨0, 12⟩, 0, 2, 2, .passed, some 4000, none⟩ ∧ copyProgram.reclaim.buffer.length = 3 ∧
      (2 + 1 = 3 ∨ 2 + 3 = 16) ∧ 0 + 1 < 64 ∧ 64 ≤ 63 + 1 ∧ ¬ (0 + 1 = 3 ∨ 0 + 3 = 16) ∧
      copyProgram.reclaim.readCursor .victim = 1024 ∧ active.reclaim.readCursor .victim ≠ 1024 ∧
      { active.reclaim with relocRead := 1024, reloc := [⟨0, 12⟩] }.relocRead = 1024 ∧
      { active.reclaim with relocRead := 1024, reloc := [⟨0, 12⟩] }.reloc = ⟨0, 12⟩ :: [] := by
  unfold carries; decide +kernel

/-- 7.8: the erase stamp is on the die. -/
def stampOut : State := after (.eraseAnswer 0 .pass) copied

/-- A format's step 3 with some retired blocks. -/
def formatRetired (n : Nat) (s : State) : State :=
  { s with format := some (newJob 8 1), ident := { s.ident with retired := (List.range n).map fun k => ⟨0, k⟩ } }

theorem witness_EraseAndStampAnswered :
    carries 0 (onDie copied) .erase copied ∧ copied.mode ≠ .unformatted ∧ copied.format = none ∧
      { copied with mode := .unformatted }.mode = .unformatted ∧ (formatRetired 127 copied).format = some (newJob 8 1) ∧
      (formatRetired 127 copied).ident.retired.length < 128 ∧ 128 ≤ (formatRetired 128 copied).ident.retired.length ∧
      carries 0 (onDie stampOut) .eraseStamp stampOut ∧ (onDie stampOut).data = .slots [.eraseStamp 1 6] ∧
      (blockGet copied ⟨0, 44⟩).bind (·.eraseCount) = some 5 ∧
      (blockGet { copied with blocks := [(44, blockIn .erasing 0 0 (2 ^ 32 - 2))] } ⟨0, 44⟩).bind (·.eraseCount) =
        some (2 ^ 32 - 2) ∧
      2 ^ 32 - 2 < 2 ^ 32 - 1 ∧ (blockGet copied ⟨0, 45⟩).bind (·.eraseCount) = none := by
  unfold carries; decide +kernel

/-- The stage of the update in flight. -/
def stage (s : State) : Option UpdateStage := s.ident.update.map (·.stage)

/-- 9.6 step by step: the descriptor and then page 1 of copy A are on the die, and then page 2 of the next update. -/
def rollDescriptor : State := after (.identityEraseAnswer .pass) rolling
def rollPage : State := after (.identityPageProgramAnswer .pass) rollDescriptor
def nextUpdate : State :=
  let s := run [.identityPageProgramAnswer .pass, .identityEraseAnswer .fail] rollPage
  after .hostStrobeRelease { s with ident := { s.ident with queue := [.retire ⟨0, 81⟩] } }

/-- 9.7: the first program of step 4. -/
def firstFormatProgram : State :=
  carrying 0 (pageProgram .formatProgram .a 0 (.descriptor ⟨8, 1, twoRegions⟩))
    { lastFormatProgram with format := some { newJob 8 1 with step := 4, erasesOut := 0, write := .out .a 0 } }

theorem witness_IdentityWritesAnswered :
    rolling.ident.update.isSome = true ∧ carries 0 (onDie rolling) .identityErase rolling ∧
      stage rolling = some (.out .a .rollErase) ∧
      carries 0 (onDie rollDescriptor) .identityProgram rollDescriptor ∧ stage rollDescriptor = some (.out .a .rollDescriptor) ∧
      carries 0 (onDie rollPage) .identityProgram rollPage ∧ stage rollPage = some (.out .a .rollPage) ∧
      carries 0 (onDie nextUpdate) .identityProgram nextUpdate ∧ stage nextUpdate = some (.out .a .page) ∧
      carries 0 (onDie formatting) .formatErase formatting ∧ (onDie formatting).block = copyBlock .a ∧
      formatting.format = some (newJob 8 1) ∧ carries 0 (onDie firstFormatProgram) .formatProgram firstFormatProgram ∧
      (firstFormatProgram.format.map (·.write)) = some (.out .a 0) ∧
      carries 0 (onDie lastFormatProgram) .formatProgram lastFormatProgram ∧
      (lastFormatProgram.format.map (·.write)) = some (.out .b 1) := by
  unfold carries; decide +kernel

/-- Copy B's identity read of a page is on the die, copy A having been read. -/
def readingB (page : Nat) (a : CopyFinding) : State :=
  carrying 0 (pageRead .identityRead .identity ⟨0, 1⟩ page) { probed with mount := { probed.mount with copyA := a } }

theorem witness_IdentityReadAnswered :
    let good : CopyFinding := ⟨some ⟨8, 1, twoRegions⟩, some ⟨3, [], [⟨0, 5⟩]⟩, some 2⟩
    let later : CopyFinding := ⟨some ⟨8, 1, twoRegions⟩, some ⟨4, [], [⟨0, 5⟩]⟩, some 2⟩
    let none : CopyFinding := ⟨none, none, none⟩
    let page := identityPage .descriptor .a 0 8
    carries 0 (onDie probed) .identityRead probed ∧ (onDie probed).count = 16 ∧ (onDie probed).expect = Option.none ∧
      page.length = 16 ∧ (onDie probed).block = copyBlock .a ∧ (onDie probed).page = 0 ∧ probed.mount.phase = .identity ∧
      probed.mode = .mounting ∧ judgePage .a 0 (page.map checkSlot) (.descriptor 1 twoRegions) ≠ .erased ∧
      blankPage.length = 16 ∧ judgePage .b 0 (blankPage.map checkSlot) (.update [] []) = .erased ∧
      carries 0 (onDie (readingB 63 good)) .identityRead (readingB 63 good) ∧ (onDie (readingB 63 good)).page = 63 ∧
      (onDie (readingB 63 good)).block = copyBlock .b ∧
      selectCopy good none = some (.a, ⟨8, 1, twoRegions⟩, ⟨3, [], [⟨0, 5⟩]⟩) ∧ selectCopy none none = Option.none ∧
      selectCopy good later = some (.b, ⟨8, 1, twoRegions⟩, ⟨4, [], [⟨0, 5⟩]⟩) ∧
      (none.descriptor = Option.none ∨ none.update = Option.none) := by
  unfold carries; decide +kernel

/-- A good slot. -/
def good (c : SlotContent) : SlotResult := .good .clean c

/-- A classification read of a page other than 0, and a scan read, on the die. -/
def classifyingAt (page : Nat) : State := carrying 0 (pageRead .classifyRead .mountRead ⟨0, 90⟩ page) classifying
def scanningAt (page : Nat) : State :=
  let s := after (.classifyReadAnswer 0 page0) classifying
  carrying 0 (pageRead .scanRead .mountRead ⟨0, 90⟩ page) s

theorem witness_MountReadAnswered :
    let stamp := good (.eraseStamp 8 9)
    let opened := good (.openStamp .hostLog 3900 ⟨0, 90⟩)
    carries 0 (onDie classifying) .classifyRead classifying ∧ (onDie classifying).count = 16 ∧
      (onDie classifying).expect = none ∧ isOffline classifying 0 = false ∧ classifying.mount.phase = .classify ∧
      (onDie classifying).page = 0 ∧ currentSerial classifying = 8 ∧ page0.map checkSlot = stamp :: opened :: List.replicate 14 .erased ∧
      ([slot 0 (.eraseStamp 8 9), blankSlot, blankSlot].map checkSlot) = [stamp, .erased, .erased] ∧
      ([slot 0 (.eraseStamp 8 9), unreadable, blankSlot].map checkSlot) = [stamp, .lostUnknown, .erased] ∧
      ([slot 0 (.eraseStamp 7 9)].map checkSlot) = [good (.eraseStamp 7 9)] ∧ 7 ≠ currentSerial classifying ∧
      checkSlot unreadable = .lostUnknown ∧ (∀ r ∈ blankPage.map checkSlot, r = .erased) ∧
      carries 0 (onDie (classifyingAt 62)) .classifyRead (classifyingAt 62) ∧ (onDie (classifyingAt 62)).page + 1 < 64 ∧
      64 ≤ (onDie (classifyingAt 63)).page + 1 ∧ carries 0 (onDie (scanningAt 62)) .scanRead (scanningAt 62) ∧
      (scanningAt 62).mount.phase = .scan ∧ (∃ r ∈ page20.map checkSlot, r ≠ .erased) ∧ (onDie (scanningAt 62)).page + 1 ≠ 64 ∧
      (onDie (scanningAt 63)).page + 1 = 64 ∧ page20.length = 16 := by
  unfold carries; decide +kernel

theorem witness_DieShowsReadyAndIdentifies :
    let last := run [.dieResetReady 0, .identifyAnswer 0 256 64 16, .dieTimeout 1, .dieTimeout 2, .dieResetReady 3] State.reset
    State.reset.rstLow = false ∧ (dieAt active 0).state ≠ .resetting ∧ (dieAt State.reset 0).state = .resetting ∧
      State.reset.mode = .mounting ∧ State.reset.mount.phase = .probe ∧ State.reset.mount.probes.getD 0 .absent = .undecided ∧
      (dieAt (after (.dieTimeout 1) twoDies) 1).state = .resetting ∧ (after (.dieTimeout 1) twoDies).mode ≠ .mounting ∧
      (dieAt (after (.dieResetReady 0) State.reset) 0).inFlight.map (·.role) = some .identify ∧
      Probe.undecided ∈ (after (.dieResetReady 0) State.reset).mount.probes.set 0 .present ∧
      (dieAt last 3).inFlight.map (·.role) = some .identify ∧ Probe.undecided ∉ last.mount.probes.set 3 .present ∧
      presentCount (last.mount.probes.set 3 .present) ≠ 0 ∧ presentCount [.absent, .present, .absent, .absent] = 0 := by
  decide +kernel

theorem witness_DieTimesOut :
    (dieAt active 0).timer = none ∧ (dieAt twoDies 1).timer = some 0 ∧ (dieAt twoDies 1).inFlight.isSome = true ∧
      (onDie twoDies).role ≠ .identify ∧ (dieAt twoDies 1).timeouts = 0 ∧
      (dieAt (run [.dieTimeout 1, .hostRead 0x097900, .dieResetReady 1] twoDies) 1).timeouts = 1 ∧
      (mapRead .copyRead .reclaimCopy 0 ⟨0, 0, 0, 0⟩ 1).role.isRead = true ∧ (eraseOp .erase .eraseStamp ⟨0, 2⟩).role.isRead = false := by
  decide +kernel

theorem witness_ArbiterStartsHighestRank :
    let q := (dieAt (fiveWaiting true) 0).queue
    (dieAt twoDies 1).state ≠ .ready ∧ (dieAt active 0).queue = [] ∧ (dieAt (fiveWaiting true) 0).state = .ready ∧
      (∃ op ∈ q.getLast?, q = q.dropLast ++ op :: [] ∧
        ∀ o ∈ q.dropLast ++ [], rank true op.cls < rank true o.cls ∨ (op.cls = o.cls ∧ op.ticket < o.ticket)) := by decide +kernel

theorem witness_RequestFramesReadBack :
    (Instr.format (List.replicate 36 ⟨0xFF, 0xFFFFFF, 0xFFFFFF⟩) false).wf = true ∧
      (frameOf (.format (List.replicate 36 ⟨0xFF, 0xFFFFFF, 0xFFFFFF⟩) false)).map (·.length) = some 256 ∧
      frameOf (.scrub 262143 1) = some [0x12, 0x06, 0x03, 0xFF, 0xFF, 0x00, 0x00, 0x01, 0xE6] := by decide +kernel

theorem witness_StepKeepsInvariants :
    Machine.Inv whole ∧ StampInv whole ∧ PinsInv active ∧ (∃ t, step active = .next t) ∧
      (∃ t, step { whole with pending := [.batchProgramAnswer 0 .pass] } = .next t) ∧
      (∀ c ∈ { whole with pending := [.batchProgramAnswer 0 .pass] }.pending.head?, c.wf = true) :=
  ⟨whole_inv, whole_stampInv, by unfold PinsInv; decide +kernel, ⟨_, rfl⟩, event_answers _ { whole with pending := [] },
    by decide +kernel⟩

theorem witness_OnlyItsCommandChanges :
    Machine.Inv whole ∧ (∃ t, exec .hostStrobeRelease whole = .next t) ∧ Instr.hostStrobeRelease ≠ .resetAssert ∧
      Instr.hostStrobeRelease ≠ .resetRelease ∧ Instr.hostStrobeRelease ≠ .pfwLow ∧ Instr.hostStrobeRelease ≠ .pfwHigh :=
  ⟨whole_inv, event_answers releaseStrobe whole, by decide, by decide, by decide, by decide⟩

/-! ### Consequences of one event that other rules see -/

/-- R180, R181: the empty reply and high bits, then ACCEPTED; SDO is held high in reset. -/
theorem test_sdo : (after (.fetchFrame 5) active).pins.sdo = [0x00, 0x00, 0x00, 0xFF, 0xFF] ∧
    (run [.flush, .fetchFrame 3] active).pins.sdo = [0x02, 0x00, 0xFE] ∧ inReset.pins.sdoHigh = true ∧ inReset.pins.sdo = [] := by
  decide +kernel

/-- R53, R59: the drain makes a batch due and opens a head though only a host-touched LOADING entry is left. -/
theorem test_drain_opens_head :
    let t := after .pfwLow
      { beforeDrain with
        staging := active.staging.set 11 (held .loading 60 0 true), commit := { beforeDrain.commit with queue := [] } }
    t.mode = .draining ∧ t.commit.head.map (·.block) = some ⟨0, 130⟩ := by decide +kernel

/-- Die 1, on its second timeout, carries the fetch of an entry of a ONCE line that the host has not touched. -/
def secondTimeout (i : Nat) (s : State) : State :=
  let t := carrying 1 (mapRead (.readFill i) .hostRead 131300 ⟨1, 33, 10, 4⟩ 640)
    { s with diesInUse := 2, dies := [readyDie, readyDie, DieRec.unused, DieRec.unused] }
  dieUpd 1 (fun d => { d with timeouts := 1 })
    { t with lineMap := [(131300, ⟨.present ⟨1, 33, 10, 4⟩ 640, 0⟩)], blocks := [(289, { blockIn .closed 1 700 2 with readers := 1 })] }

/-- R140, R142: the LOST answer empties the tracked set before READ-ONLY is asked for, so the FREEZE is not MEDIUM for it. -/
theorem test_freeze_before_readOnly :
    let t := after (.dieTimeout 1)
      (secondTimeout 5
        (withSlot (.freeze 1)
          { active with
            staging := active.staging.set 5 (held .loading 131300 0 false)
            freeze := { active.freeze with phase := .flushing, region := some 1, tracked := [5] } }))
    t.mode = .readOnly ∧ t.freeze.medium = false ∧ t.freeze.tracked = [] ∧ t.freeze.phase = .persisting ∧
      (run [.identityPageProgramAnswer .pass, .identityPageProgramAnswer .pass] t).maint.last = some (.freeze, .ok) := by
  decide +kernel

/-- R27: the entry that the LOST answer frees goes to the waiting write before READ-ONLY is asked for, and nothing is dropped. -/
theorem test_grant_before_readOnly :
    let t := after (.dieTimeout 1)
      (secondTimeout 0
        { active with
          staging := held .loading 131300 0 false :: (List.range 31).map fun i => held .committing (200 + i) 0 true
          host := { active.host with access := some ⟨some 0xA5, 0x06D600, .waiting 0 5000 .entry⟩ } })
    t.mode = .readOnly ∧ (entryAt t 0).line = some 7000 ∧ t.pins.hwait = false ∧
      t.maint.faults.map (·.kind) = [.uncorrectable, .dieTimeout, .dieOffline] := by decide +kernel

/-- R70, R171: the close sequence of a LOG block whose open stamp is unreadable and that has no record is 0. -/
theorem test_handOver_unread_stamp :
    let s : State :=
      { mounted with
        mode := .mounting
        mount :=
          { mounted.mount with
            phase := .scan
            findings := [(90, { Finding.initial with cls := some .log, eraseCount := some 3, scanned := true })] } }
    ((mountStep s).bind fun t => (blockGet t ⟨0, 90⟩).map fun r => (r.state, r.closeSeq)) = some (.closed, some 0) := by
  decide +kernel

/-! ### States that meet the further clauses of the statements -/

/-- A write to a line waits for an entry. -/
def writeWaits (l : Nat) (s : State) : State :=
  { s with host := { s.host with access := some ⟨some 0xA5, BitVec.ofNat 24 (l * 64), .waiting 0 5000 .entry⟩ } }

/-- The scrub walker waits for an entry at a line, with the payload it holds. -/
def scrubWaits (l : Nat) (slot : Loc × Nat) (s : State) : State :=
  { s with scrub := { s.scrub with state := .waiting, current := l, last := l, readSlot := some slot, held := some (List.replicate 64 7) } }

/-- A waiting write on a free part; spent stamps; a FREEZE of the line's region; the walker that waits, at a line with no entry, with a CLEAN
one, with a LOADING one, at one the map has moved, and at one whose slot holds a newer record; and no waiter. -/
theorem witness_AllocationOrder_grants :
    let freezing := { writeWaits 131072 entries with freeze := { entries.freeze with phase := .flushing, region := some 1 } }
    allocate (writeWaits 0 entries) ≠ none ∧ (writeWaits 0 entries).host.access =
        some ⟨some 0xA5, 0, .waiting 0 5000 .entry⟩ ∧ isOnce entries 0 = false ∧
      (isOnce (writeWaits 131073 entries) 131073 = true ∧ 8 < (mapGet entries 131073).stamps + pendingStamps entries 131073 +
        newStamps entries 131073) ∧
      (mapGet entries 131072).stamps + pendingStamps entries 131072 + newStamps entries 131072 = 8 ∧
      currentEntry (stageWrite 131072 0 0xA5 freezing) 131072 = some 6 ∧
      regionOf freezing 131072 = some (1, ⟨.once, 131072, 4096⟩) ∧
      (let s := scrubWaits 16 (⟨0, 33, 63, 15⟩, 642) entries
       writeWaiting s = false ∧ s.trim.waiting = false ∧ allocate s = some (7, s) ∧
        (mapGet s 16).state = .present ⟨0, 33, 63, 15⟩ 642 ∧ currentEntry s 16 = none ∧ s.scrub.held.isSome = true) ∧
      (let s := scrubWaits 10 (⟨0, 33, 0, 2⟩, 600) cleanPresent
       (mapGet s 10).state = .present ⟨0, 33, 0, 2⟩ 600 ∧ currentEntry s 10 = some 0 ∧ (entryAt s 0).state = .clean ∧
        allocate s = some (7, s)) ∧
      (let s := scrubWaits 13 (⟨0, 33, 10, 4⟩, 640) entries
       currentEntry s 13 = some 3 ∧ (entryAt s 3).state ≠ .clean) ∧
      (mapGet (scrubWaits 16 (⟨0, 33, 63, 14⟩, 642) entries) 16).state.loc ≠ some ⟨0, 33, 63, 14⟩ ∧
      (mapGet (scrubWaits 16 (⟨0, 33, 63, 15⟩, 641) entries) 16).state ≠ .present ⟨0, 33, 63, 15⟩ 641 ∧
      writeWaiting entries = false ∧ entries.trim.waiting = false ∧ entries.scrub.state ≠ .waiting ∧ allocate full = none := by
  decide +kernel

/-- PARKED, with the read-fills of the entries 3 and 4 withheld. -/
def parked : State := { entries with mode := .parked, withheld := [3, 4] }

/-- A mode change finds a waiting write, a waiting read, each long command; it leaves PARKED with two read-fills withheld; and the drain has
nothing left to wait for, or a trim-pending LOADING entry. -/
theorem witness_ModeChangeReachesBlocks_parts :
    pressedWrite.host.access = some ⟨some 0xA5, 0x06D600, .waiting 0 5000 .entry⟩ ∧ pressedWrite.mode ≠ .readOnly ∧
      readWaits.host.access = some ⟨none, 0x012C09, .waiting 0 5000 (.fetch 0)⟩ ∧ readWaits.mode ≠ .formatting ∧
      (after .flush twoDirty).maint.slot = some .flush ∧ (withSlot (.trim 0 4096) active).maint.slot = some (.trim 0 4096) ∧
      scrub103.maint.slot = some (.scrub 100 6) ∧ (after (.freeze 1 true) beforeFreeze).maint.slot = some (.freeze 1) ∧
      (after (.freeze 1 true) beforeFreeze).freeze.phase = .flushing ∧
      (withSlot (.freeze 1) { active with freeze := { active.freeze with phase := .persisting } }).freeze.phase ≠ .flushing ∧
      parked.mode = .parked ∧ parked.withheld ≠ [] ∧
      (parked.withheld.map fun i =>
        let line := (entryAt parked i).line.getD 0
        match (mapGet parked line).state with
        | .present loc seq => some (mapRead (.readFill i) .hostRead line loc seq)
        | _ => none) =
        [mapRead (.readFill 3) .hostRead 13 ⟨0, 33, 10, 4⟩ 640, mapRead (.readFill 4) .hostRead 14 ⟨0, 33, 10, 5⟩ 641].map some ∧
      { active with mode := .draining }.mode = .draining ∧
      (∀ e ∈ active.staging, ¬ (e.state = .dirty ∨ e.state = .committing ∨
        (e.state = .loading ∧ (e.touched = true ∨ e.trimPending = true)))) ∧
      (∃ e ∈ entries.staging, e.state = .loading ∧ e.touched = false ∧ e.trimPending = true) := by decide +kernel

/-- The status record of a part with a head, a victim and a copy head, of one with a last command, and of one with no slot taken. -/
theorem witness_GetStatusReportsAndClears_fields :
    lastCopyRead.rstLow = false ∧ lastCopyRead.reclaim.victim = some ⟨0, 44⟩ ∧
      lastCopyRead.reclaim.head = some ⟨⟨0, 12⟩, 0, 2, 2, .passed, some 4000, none⟩ ∧ lastCopyRead.reclaim.state = .reading ∧
      pressed.commit.head = some ⟨⟨0, 90⟩, 12, 0, 0, .passed, some 800, none⟩ ∧ pressed.commit.queue.length < 256 ∧
      scrubbed.maint.last = some (.scrub, .ok) ∧ active.maint.slot = none ∧ active.maint.last = none ∧ active.commit.head = none ∧
      active.reclaim.victim = none ∧ active.reclaim.head = none ∧ active.mount.phase = .done ∧ (dieAt active 0).state = .ready ∧
      (dieAt active 3).state = .notUsed ∧ (after .flush twoDirty).maint.slot = some .flush ∧
      (after (.freeze 1 true) beforeFreeze).freeze.phase = .flushing ∧ (formatting.format.map (·.step)) = some 2 ∧
      (pressed.commit.seq.getD 0 < 2 ^ 40) := by decide +kernel

/-- A fault list with a record of each form of subject. -/
theorem witness_GetFaultsReturnsOldest_subjects :
    let s := raise .mountBadRecord (.location ⟨3, 255, 63, 15⟩) (raise .programFail (.block ⟨3, 255⟩) faulty)
    s.maint.faults.map (·.subject) = [.die 1, .line 4, .line 5, .block ⟨3, 255⟩, .location ⟨3, 255, 63, 15⟩] ∧
      s.maint.faults.map (·.count) = [1, 2, 1, 1, 1] ∧ (∀ r ∈ s.maint.faults, r.seq < 2 ^ 40) ∧ min (4 : Byte).toNat 5 = 4 := by
  decide +kernel

/-- Lines at the ends of the regions, one backed by none, each map state, with and without an entry; and blocks on the free list and on the
relocation list. -/
theorem witness_GetLineAndBlockReport_fields :
    entries.regions[0]? = some ⟨.plain, 0, 131072⟩ ∧ 131071 < 0 + 131072 ∧ entries.regions[1]? = some ⟨.once, 131072, 4096⟩ ∧
      (∀ r ∈ entries.regions, ¬ (r.base ≤ 135168 ∧ 135168 < r.base + r.count)) ∧
      (mapGet entries 16).state = .present ⟨0, 33, 63, 15⟩ 642 ∧ (mapGet entries 17).state = .trimmed ⟨0, 33, 11, 0⟩ 643 ∧
      (mapGet entries 131073).state.loc = none ∧ currentEntry entries 10 = some 0 ∧ currentEntry entries 16 = none ∧
      blockGet reclaimable ⟨0, 44⟩ = some (blockIn .closed 4 1600 5) ∧ 1600 < 2 ^ 40 ∧
      reclaimable.freeList = [⟨0, 12⟩] ++ ⟨0, 13⟩ :: reclaimable.freeList.drop 2 ∧ (⟨0, 13⟩ : BlockId) ∉ [(⟨0, 12⟩ : BlockId)] ∧
      { active.reclaim with reloc := [⟨0, 12⟩] }.reloc = [] ++ ⟨0, 12⟩ :: [] := by decide +kernel

/-- A format in each of its steps 2 to 4. -/
def formatAt (job : FormatJob) (a b : Bool) (s : State) : State :=
  { s with
    format := some job
    ident := { s.ident with copyA := { s.ident.copyA with good := a }, copyB := { s.ident.copyB with good := b } } }

theorem witness_FormatAcceptedClears_steps :
    let two := fun n => { newJob 8 1 with step := 2, erasesOut := n }
    let four := { newJob 8 1 with step := 4, erasesOut := 0 }
    let opened := (formatAt { newJob 8 1 with step := 3 } true true formatting)
    (newJob 8 1).step = 2 ∧ (two 2).erasesOut ≠ 0 ∧ (formatAt (two 0) true false formatting).ident.copyA.good = true ∧
      (formatAt (two 0) false false formatting).ident.copyA.good = false ∧
      (formatAt (two 0) false false formatting).ident.copyB.good = false ∧ formatting.mode = .formatting ∧
      formatting.maint.slot = some (.format twoRegions) ∧
      (∃ p ∈ opened.blocks, p.2.state = .erasing ∧ p.2.work = .eraseHeld) ∧
      (∀ p ∈ lastFormatProgram.blocks, p.2.state ≠ .erasing) ∧ four.write = .start .a ∧
      lastFormatProgram.ident.descriptor = some ⟨8, 1, twoRegions⟩ ∧ { four with write := .done }.wroteA = false ∧
      { four with write := .done, wroteA := true }.wroteA = true ∧ lastFormatProgram.freeList.length = 253 := by decide +kernel

/-- The walk waits at a line, and an entry can be had or the line has gained one. -/
theorem witness_TrimWalkHandlesLine_waits :
    let s := { walkAt 16 entries with trim := { (walkAt 16 entries).trim with waiting := true } }
    let c := { walkAt 10 entries with trim := { (walkAt 10 entries).trim with waiting := true } }
    s.trim.waiting = true ∧ writeWaiting s = false ∧ currentEntry s 16 = none ∧ allocate s = some (7, s) ∧
      c.trim.waiting = true ∧ currentEntry c 10 = some 0 ∧ (entryAt c 0).state = .clean ∧ writeWaiting c = false := by
  decide +kernel

/-- The free list of a part that has so many blocks FREE, with a block ERASING where the flag says so. -/
def withFree (n : Nat) (erasing : Bool) (s : State) : State :=
  { s with
    freeList := (List.range n).map fun k => ⟨0, 100 + k⟩
    blocks := ((if erasing then [(50, { blockIn .erasing 0 0 1 with work := .eraseOut })] else []) ++
      (List.range n).map fun k => (100 + k, blockIn .free 0 0 1)) }

/-- A part with four entries queued, the threshold, and no head. -/
def fourQueued : State :=
  { active with
    staging := (List.range 4).map (fun i => held .dirty (40 + i) 0 true) ++ List.replicate 28 Entry.cleared
    commit := { active.commit with queue := [0, 1, 2, 3] } }

/-- The four entries wait on an open head, with the counter at a value. -/
def onHead (next seq : Nat) (st : StampState) : State :=
  { fourQueued with
    commit := { fourQueued.commit with seq := some seq, head := some ⟨⟨0, 90⟩, 12, next, 0, st, some 800, none⟩ } }

/-- Each trigger alone; a tier met and not met; the counter at its last values; a head without its stamp, and one that takes the batch. -/
theorem witness_CommitDelayMakesBatchDue_forms :
    fourQueued.maint.settings.threshold = 4 ∧ fourQueued.commit.queue.length = 4 ∧
      beforeFreeze.maint.settings.threshold > beforeFreeze.commit.queue.length ∧
      pressedWrite.host.access = some ⟨some 0xA5, 0x06D600, .waiting 0 5000 .entry⟩ ∧
      (after .flush twoDirty).flushTracked = [4, 7] ∧ (after .flush twoDirty).commit.queue = [4, 7] ∧
      (after (.freeze 1 true) beforeFreeze).freeze.tracked = [3, 5, 8] ∧ (after (.freeze 1 true) beforeFreeze).commit.queue = [3] ∧
      { active with mode := .draining }.commit.queue = [] ∧ { active with mode := .draining }.commit.head = none ∧
      (withFree 6 false fourQueued).freeList.length = 6 ∧ (withFree 7 false fourQueued).freeList.length = 7 ∧
      (∃ p ∈ (withFree 0 true fourQueued).blocks, p.2.state = .erasing) ∧
      (∀ p ∈ (withFree 0 false fourQueued).blocks, p.2.state ≠ .erasing) ∧
      (withFree 7 false fourQueued).commit.head = none ∧ (2 ^ 40 - 1 < 2 ^ 40) ∧
      (onHead 0 813 .inFlight).commit.head = some ⟨⟨0, 90⟩, 12, 0, 0, .inFlight, some 800, none⟩ ∧
      (onHead 14 (2 ^ 40 - 2) .passed).commit.seq = some (2 ^ 40 - 2) ∧ min 4 (16 - 14) = 2 ∧ 2 ^ 40 - 2 + 2 ≤ 2 ^ 40 ∧
      (onHead 14 (2 ^ 40 - 1) .passed).commit.seq = some (2 ^ 40 - 1) ∧ 2 ^ 40 < 2 ^ 40 - 1 + 2 ∧
      (onHead 14 813 .passed).commit.batch = none ∧ (onHead 14 813 .passed).commit.queue ≠ [] := by decide +kernel

/-- An operation whose answer is discarded. -/
def staleOp (op : Op) : State := carrying 0 { op with stale := true } entries

theorem witness_AnswerFreesDie_stale :
    let write := programOp .batchProgram .commitProgram ⟨0, 90⟩ 12 0 [lineRec 40 813 0 0]
    ((dieAt (staleOp write) 0).inFlight = some { write with stale := true } ∧ (staleOp write).rstLow = false) ∧
      (dieAt (staleOp (eraseOp .erase .eraseStamp ⟨0, 44⟩)) 0).inFlight.map (·.role) = some .erase ∧
      (dieAt (staleOp copyReadOp) 0).inFlight = some { copyReadOp with stale := true } ∧
      expects { copyReadOp with stale := true } 880 1600 ∧
      readGood (slot 6 (lineRec 880 1600 0 0)) 880 1600 .weak .line 0 (List.replicate 64 0) ∧ readLost unreadable 880 1600 :=
  ⟨by decide +kernel, by decide +kernel, by decide +kernel, ⟨by decide +kernel, by decide +kernel⟩, by unfold readGood; decide +kernel,
    unreadable_lost _ _⟩

/-- R20, R88: the direct read of 1.8 is answered after a FORMAT was accepted, with a read waiting for it and with none. -/
theorem witness_AnswerFreesDie_direct :
    let old := { directOp with stale := true }
    let s := fun why => carrying 0 old (directFor why)
    let t := run [.hostStrobeRelease, .format rawTable true] (directFor .direct)
    (dieAt (s .earlierDirect) 0).inFlight = some old ∧ (s .earlierDirect).rstLow = false ∧
      waitsFor (s .earlierDirect) = some .earlierDirect ∧ waitsFor (s .entry) ≠ some .earlierDirect ∧
      expects old 131074 2203 ∧ readGood (slot 1 (lineRec 131074 2203 3 7)) 131074 2203 .corrected .line 3 (List.replicate 64 7) ∧
      (dieAt t 0).inFlight = some old ∧ t.host.directOut = true ∧
      (after (.directReadAnswer 0 unreadable) t).host.directOut = false ∧
      (after (.directReadAnswer 0 unreadable) t).pins.hd = t.pins.hd := by
  unfold expects readGood; decide +kernel

/-- The tiers of a copy-head request, for reclaim (above 1) and for relocation (above 0). -/
theorem witness_OpenStampAnswered_request :
    let reloc := fun s : State => { s with reclaim := { s.reclaim with reloc := [⟨0, 44⟩] } }
    (withFree 1 true active).freeList.length = 1 ∧ (withFree 1 true active).reclaim.reloc = [] ∧
      (∃ p ∈ (withFree 1 true active).blocks, p.2.state = .erasing) ∧
      (∀ p ∈ (withFree 1 false active).blocks, p.2.state ≠ .erasing) ∧ (withFree 2 false active).freeList.length = 2 ∧
      (reloc (withFree 0 true active)).freeList.length = 0 ∧ (reloc (withFree 1 true active)).reclaim.reloc ≠ [] ∧
      (withFree 2 false active).commit.seq = some 813 ∧ (onHead 0 (2 ^ 40) .passed).commit.seq = some (2 ^ 40) := by decide +kernel

/-- R74: seven blocks FREE, a batch due with no head, and the reclaim condition set with the victim still to be chosen. -/
def sevenFree : State :=
  let s := withFree 7 false fourQueued
  { s with
    reclaimCond := true
    lineMap := [(880, ⟨.present ⟨0, 44, 63, 15⟩ 1600, 0⟩)]
    blocks := (44, blockIn .closed 1 1600 5) :: s.blocks }

/-- The host head taken first leaves 6 and the copy head is then taken; the copy head taken first leaves 6 and the host head waits. -/
theorem test_engines_either_first :
    let copyFirst := ((reclaimStep sevenFree).bind reclaimStep).getD sevenFree
    let hostFirst := (((commitStep sevenFree).bind reclaimStep).bind reclaimStep).getD sevenFree
    copyFirst.reclaim.state = .opening ∧ freeCount copyFirst = 6 ∧ commitStep copyFirst = none ∧
      hostFirst.commit.head.isSome = true ∧ hostFirst.reclaim.state = .opening ∧ freeCount hostFirst = 5 := by decide +kernel

/-- R110, R113: the slot has been written again with a newer record of the line, and the held payload makes no refresh. -/
theorem test_grantScrub_rewritten :
    let t := (grantStep (scrubWaits 16 (⟨0, 33, 63, 15⟩, 641) entries)).getD entries
    t.scrub.state = .idle ∧ t.commit.queue = entries.commit.queue ∧ t.staging = entries.staging := by decide +kernel

/-- The engine with a source: a victim with valid records and without, with a copy head and without. -/
def sourced (head : Bool) (from_ : Nat) (reloc : List BlockId) (s : State) : State :=
  { s with
    reclaim :=
      { s.reclaim with
        victim := some ⟨0, 44⟩, victimRead := from_, victimKept := from_, reloc := reloc, relocRead := 2, relocKept := 2
        head := if head then some ⟨⟨0, 12⟩, 0, 2, 2, .passed, some 4000, none⟩ else none } }

/-- The engine's choice: nothing to do, space awaited and asked again, a relocation block, a victim in its walk and past it, the best victim of
two, and none that fits. -/
theorem witness_CopyProgramAnswered_engine :
    let choosing := fun (p r : Nat × BlockRec) => p.2.valid < r.2.valid ∨
      (p.2.valid = r.2.valid ∧ p.2.closeSeq.getD 0 < r.2.closeSeq.getD 0)
    keysRise reclaimable.blocks = true ∧ active.reclaim.state = .idle ∧ opening.reclaim.state ≠ .idle ∧
      { active.reclaim with state := .spaceWait, retryDue := true }.retryDue = true ∧
      (sourced false 2 [⟨0, 45⟩] reclaimable).reclaim.reloc = ⟨0, 45⟩ :: [] ∧
      (blockGet (sourced false 2 [] reclaimable) ⟨0, 44⟩).map (·.valid) ≠ some 0 ∧
      (blockGet (sourced true 2 [] { reclaimable with blocks := [(44, blockIn .victim 0 1600 5)] }) ⟨0, 44⟩).map (·.valid) = some 0 ∧
      (sourced true 2 [] reclaimable).reclaim.head = some ⟨⟨0, 12⟩, 0, 2, 2, .passed, some 4000, none⟩ ∧
      lineAt (sourced true 2 [] reclaimable) ⟨0, 44, 63, 15⟩ = some 880 ∧
      lineAt (sourced true 1023 [] active) ⟨0, 44, 63, 15⟩ = none ∧
      reclaimable.reclaimCond = true ∧ reclaimable.reclaim.victim = none ∧
      (∀ r ∈ reclaimable.blocks, r.2.state = .closed → r = (44, blockIn .closed 4 1600 5) ∨ r = (45, blockIn .closed 4 1720 4)) ∧
      choosing (44, blockIn .closed 4 1600 5) (45, blockIn .closed 4 1720 4) ∧ active.reclaimCond = false ∧
      (∀ p ∈ (withFree 6 false { active with reclaimCond := true }).blocks, p.2.state ≠ .closed) ∧
      (withFree 7 false { active with reclaimCond := true }).freeList.length = 7 ∧ MapInv reclaimable := by
  unfold MapInv; decide +kernel

/-- 7.8 with the victim walked, empty and unread, or still read; blocks that await retirement behind one that is still read; and a block to be
erased once its last read is answered. -/
theorem witness_EraseAndStampAnswered_engine :
    let walked := fun n => { sourced true 1024 [] { reclaimable with blocks := [(44, { blockIn .victim 0 1600 5 with readers := n })] } with
      reclaim := { reclaimable.reclaim with victim := some ⟨0, 44⟩, victimRead := 1024, victimKept := 1024, victimWalked := true } }
    let awaits : State :=
      { active with
        blocks := [(44, { blockIn .relocating 0 0 5 with work := .retireWaiting, readers := 1 }),
          (45, { blockIn .relocating 0 0 5 with work := .retireWaiting })]
        reclaim := { active.reclaim with retireWait := [⟨0, 44⟩] ++ ⟨0, 45⟩ :: [] } }
    let erasing := fun n => (44, ({ blockIn .erasing 0 0 5 with work := .eraseWaiting, readers := n } : BlockRec))
    ((walked 0).reclaim.victim = some ⟨0, 44⟩ ∧ (walked 0).reclaim.victimWalked = true) ∧
      blockGet (walked 0) ⟨0, 44⟩ = some (blockIn .victim 0 1600 5) ∧
      (blockGet (walked 1) ⟨0, 44⟩).map (·.readers) = some 1 ∧ (blockGet awaits ⟨0, 44⟩).map (·.readers) = some 1 ∧
      (blockGet awaits ⟨0, 45⟩).map (fun r => (r.valid, r.readers)) = some (0, 0) ∧
      awaits.ident.retired.length + awaits.reclaim.retirements < 128 ∧
      128 ≤ (formatRetired 128 awaits).ident.retired.length + (formatRetired 128 awaits).reclaim.retirements ∧
      keysRise [erasing 0] = true ∧ (erasing 0).2.work = .eraseWaiting ∧ (erasing 0).2.readers = 0 ∧ (erasing 1).2.readers ≠ 0 ∧
      (dieAt active 0).ops = [] := by decide +kernel

/-- An update in each stage: none with requests and without, a copy to start that is GOOD, FAILED, used up or roll due, each step ready, one
out, and the end with a copy written and with none. -/
def updating (st : UpdateStage) (written : Bool) (copy : CopyState) (s : State) : State :=
  { s with
    ident :=
      { s.ident with
        copyA := copy
        update := some { served := [.retire ⟨0, 57⟩], page := ⟨64, [1], [⟨0, 12⟩, ⟨0, 57⟩]⟩, stage := st, written := written } } }

theorem witness_IdentityWritesAnswered_steps :
    let out := fun st => (updating st false ⟨true, 2, false⟩ active).ident
    let frozen := { (out .done) with update := some { served := [.frozenSet true], page := ⟨64, [1], []⟩, stage := .done, written := true } }
    active.ident.update = none ∧ active.ident.queue = [] ∧ { active.ident with queue := [.retire ⟨0, 57⟩] }.queue ≠ [] ∧
      (updating (.start .a) false ⟨false, 2, false⟩ active).ident.copyA.good = false ∧
      (updating (.start .a) false ⟨true, 64, false⟩ active).ident.copyA.next = 64 ∧
      (updating (.start .a) false ⟨true, 63, true⟩ active).ident.copyA.rollDue = true ∧
      (updating (.start .a) false ⟨true, 63, false⟩ active).ident.copyA.next ≠ 64 ∧
      ((out (.ready .a .page)).update.map (·.stage)) = some (.ready .a .page) ∧
      ((out (.ready .a .rollErase)).update.map (·.stage)) = some (.ready .a .rollErase) ∧
      ((out (.ready .a .rollDescriptor)).update.map (·.stage)) = some (.ready .a .rollDescriptor) ∧
      (out (.ready .a .rollDescriptor)).descriptor = some ⟨1, 1, twoRegions⟩ ∧
      ((out (.ready .a .rollPage)).update.map (·.stage)) = some (.ready .a .rollPage) ∧
      ((out (.out .a .page)).update.map (·.stage)) = some (.out .a .page) ∧
      IdRequest.frozenSet true ∉ ([.retire ⟨0, 57⟩] : List IdRequest) ∧
      (frozen.update.map (·.served)) = some [.frozenSet true] ∧
      (withSlot (.freeze 1) active).maint.slot = some (.freeze 1) ∧ active.mode = .active ∧
      { active with mode := .parked }.mode ≠ .draining := by decide +kernel

/-- A selection with a copy that carries another serial, one with a die that is absent, a page of each judgement. -/
theorem witness_IdentityReadAnswered_pages :
    let a : CopyFinding := ⟨some ⟨8, 2, twoRegions⟩, some ⟨3, [], [⟨0, 5⟩]⟩, some 63⟩
    let b : CopyFinding := ⟨some ⟨7, 2, twoRegions⟩, some ⟨9, [], []⟩, some 5⟩
    selectCopy a b = some (.a, ⟨8, 2, twoRegions⟩, ⟨3, [], [⟨0, 5⟩]⟩) ∧ (a.top.map (· + 1)) = some 64 ∧
      b.descriptor.map (·.serial) ≠ some 8 ∧ probed.mount.probes.getD 0 .absent = .present ∧
      probed.mount.probes.getD 1 .absent ≠ .present ∧ probed.dies.length = 4 ∧
      (∀ i, i < 16 → ((identityPage .update .a 63 4).map checkSlot)[i]? = some (.good .clean (.identity .update .a 63 i 4))) ∧
      (∃ q ∈ page0.map checkSlot, q ≠ .erased) ∧ validTable twoRegions = true ∧ validTable [⟨.plain, 0, 0⟩] = false := by
  decide +kernel

/-- A part whose every block is classed, and one whose every LOG block is scanned: a HOST LOG block on die 0 with two records of a line, the
newer LOST off the tail, and a TRIM, and the same with a die OFFLINE. -/
def settling (dies : List DieRec) : State :=
  { classifying with
    dies := dies
    diesInUse := 2
    mount :=
      { classifying.mount with
        phase := .scan
        findings :=
          [(90, { Finding.initial with
              cls := some .log, role := some .hostLog, openSeq := some 3900, highSeq := some 4010, scanned := true, lastPage := 20 }),
            (91, { Finding.initial with
              cls := some .log, role := some .hostLog, openSeq := some 3000, highSeq := some 3100, scanned := true, lastPage := 63 }),
            (92, { Finding.initial with cls := some .blank }), (93, { Finding.initial with cls := some .erase }),
            (94, { Finding.initial with cls := some .free, eraseCount := some 3 })]
        highest := 4010
        noted := [⟨0, 91, 7, 3⟩, ⟨0, 90, 20, 4⟩]
        cands := [⟨700, ⟨0, 91, 7, 2⟩, .line, 3001, 1, false⟩, ⟨700, ⟨0, 91, 7, 3⟩, .line, 3002, 2, true⟩,
          ⟨701, ⟨0, 90, 20, 3⟩, .trim, 4010, 0, false⟩, ⟨702, ⟨0, 90, 20, 4⟩, .line, 4009, 0, true⟩] } }

theorem witness_MountReadAnswered_settles :
    let s := settling [readyDie, { DieRec.unused with state := .offline }, DieRec.unused, DieRec.unused]
    let t := (mountStep s).getD s
    (∃ p ∈ classifying.mount.findings, p.2.cls = none) ∧
      (∀ p ∈ (after (.classifyReadAnswer 0 page0) classifying).mount.findings, p.2.cls ≠ none) ∧
      (after (.classifyReadAnswer 0 page0) classifying).mount.phase = .scan ∧
      (∃ p ∈ (after (.classifyReadAnswer 0 page0) classifying).mount.findings, p.2.cls = some .log ∧ p.2.scanned = false) ∧
      (∀ p ∈ s.mount.findings, p.2.cls = some .log → p.2.scanned = true) ∧
      (∀ p ∈ s.mount.findings, ∀ r ∈ s.mount.findings, p.2.cls = some .log → r.2.cls = some .log → p ≠ r →
        p.2.openSeq.getD 0 ≠ r.2.openSeq.getD 0) ∧
      t.mode = .readOnly ∧ [700, 701, 702].map (fun l => (mapGet t l).state) =
        [.damaged, .trimmed ⟨0, 90, 20, 3⟩ 4010, .unwritten] ∧
      t.maint.faults.map (fun f => (f.kind, f.subject)) = [(.mountBadRecord, .location ⟨0, 91, 7, 3⟩)] ∧
      t.freeList = [⟨0, 94⟩] ∧ t.commit.seq = some 4011 ∧
      s.ident.descriptor = some ⟨8, 1, twoRegions⟩ ∧ checkSlot (slot 7 (lineRec 700 1 0 0)) = .lostKnown (lineRec 700 1 0 0) := by
  decide +kernel

/-- RESET DIE times out outside the probe and in it, IDENTIFY in it, each at a position that is the last to be decided and at one that is not. -/
theorem witness_DieTimesOut_probe :
    let identifying := after (.dieResetReady 0) State.reset
    let others := { identifying with mount := { identifying.mount with probes := [.undecided, .absent, .absent, .absent] } }
    State.reset.mode = .mounting ∧ State.reset.mount.phase = .probe ∧ (dieAt State.reset 3).state = .resetting ∧
      (dieAt State.reset 3).inFlight = none ∧ (dieAt State.reset 3).timer = some 0 ∧
      State.reset.mount.probes.getD 3 .absent = .undecided ∧ Probe.undecided ∈ State.reset.mount.probes.set 3 .absent ∧
      (dieAt identifying 0).inFlight.map (·.role) = some .identify ∧ (dieAt identifying 0).timeouts = 0 ∧
      (dieAt identifying 0).timer = some 0 ∧ Probe.undecided ∉ others.mount.probes.set 0 .absent ∧
      presentCount (others.mount.probes.set 0 .absent) = 0 ∧
      presentCount ([Probe.present, .absent, .absent, .undecided].set 3 .absent) = 1 ∧
      (after (.dieTimeout 0) identifying).mount.probes.getD 0 .absent ≠ .undecided ∧
      (dieAt (after (.dieTimeout 0) identifying) 0).state = .resetting ∧
      (dieAt (after (.dieTimeout 1) twoDies) 1).state = .resetting ∧ (dieAt (after (.dieTimeout 1) twoDies) 1).inFlight = none ∧
      (dieAt (after (.dieTimeout 1) twoDies) 1).timeouts ≠ 0 ∧ (dieAt (after (.dieTimeout 1) twoDies) 1).timer = some 50000 ∧
      (after (.dieTimeout 1) twoDies).mode ≠ .mounting := by decide +kernel

end Sys2Proof.Tests
end

section
/-! SUPPORT. Proofs: reset (O2, O4), and a host access to a line that no entry holds (O8, O9, O11). -/
namespace Sys2Proof.Machine

/-! ### O2, O4: reset -/

/-- Settles O2: every field of `State.inReset`, written out. -/
theorem resetAssertGivesResetValues : Obligations.ResetAssertGivesResetValues := fun _ => rfl

/-- Settles O4: the invariants hold in reset (`inReset_inv`) and the release of RST_N keeps them (`released_inv`). -/
theorem resetStateHoldsInvariants : Obligations.ResetStateHoldsInvariants := by
  refine ⟨rfl, fun _ => ⟨rfl, rfl⟩, by decide, by decide, rfl, ?_, ?_, ?_⟩
  · exact released_inv (inReset_inv ..) rfl
  · exact released_stampInv (inReset_stampInv ..) (by decide)
  · show _ = _
    decide

/-! ### The host access as a strobe takes it (R18) -/

/-- An allocation neither reads nor changes the host port. -/
theorem allocate_setAccess (a : Option Access) (s : State) :
    allocate (setAccess a s) = (allocate s).map fun p => (p.1, setAccess a p.2) := by
  unfold allocate
  show (match lowestFree s with
    | some i => some (i, setAccess a s)
    | none => match s.lru with
      | i :: t => some (i, { setEntry i Entry.cleared (setAccess a s) with lru := t })
      | [] => none) = _
  cases lowestFree s with
  | some i => rfl
  | none => cases s.lru <;> rfl

/-- Issuing an operation neither reads nor changes the host port. -/
theorem issue_setAccess (op : Op) (a : Option Access) (s : State) :
    issue op (setAccess a s) = setAccess a (issue op s) := by
  rw [issue_eq, issue_eq]; rfl

/-- A wait that begins with an issued operation starts from the state the operation is issued in. -/
theorem waitOn_issue_takeAccess (w : Option Byte) (addr : BitVec 24) (why : WaitFor) (op : Op) (s : State) :
    waitOn why (issue op (takeAccess w addr s)) = waitingAccess w addr why (issue op s) := by
  rw [takeAccess, issue_setAccess, issue_eq]; rfl

/-- A write answered where an operation is issued for it is answered as if the operation stood alone. -/
theorem answer_issue_takeAccess (w : Option Byte) (addr : BitVec 24) (b : Option Byte) (op : Op) (s : State) :
    answer b (issue op (takeAccess w addr s)) = answeredAccess w addr b (issue op s) := by
  rw [takeAccess, issue_setAccess]; rfl

theorem takeRead_normally {s : State} (addr : BitVec 24) (ha : s.host.access = none) (hm : readsNormally s.mode) :
    takeRead addr s = serveRead (addr.toNat / 64) (addr.toNat % 64) (takeAccess none addr s) := by
  have hn : readAnswer s.mode = .normally := by
    rcases hm with h | h | h <;> rw [h] <;> rfl
  unfold takeRead
  rw [ha, hn]; rfl

theorem effect_hostRead {s t : State} {addr : BitVec 24} (hr : s.rstLow = false) (ha : s.host.access = none)
    (hm : readsNormally s.mode) (ht : serveRead (addr.toNat / 64) (addr.toNat % 64) (takeAccess none addr s) = t) :
    Effect (.hostRead addr) s t :=
  Effect.of_event (f := takeRead addr) rfl hr ((takeRead_normally addr ha hm).trans ht)

theorem takeWrite_active {s : State} (addr : BitVec 24) (data : Byte) (ha : s.host.access = none) (hm : s.mode = .active) :
    takeWrite addr data s =
      match writeRefused s (addr.toNat / 64) with
      | some k => raise k (.line (addr.toNat / 64)) (answeredAccess (some data) addr none s)
      | none => stageWrite (addr.toNat / 64) (addr.toNat % 64) data (takeAccess (some data) addr s) := by
  unfold takeWrite
  rw [ha, hm]; rfl

theorem effect_hostWrite_dropped {s : State} {addr : BitVec 24} {data : Byte} {k : FaultKind} (hr : s.rstLow = false)
    (ha : s.host.access = none) (hm : s.mode = .active) (hk : writeRefused s (addr.toNat / 64) = some k) :
    Effect (.hostWrite addr data) s (raise k (.line (addr.toNat / 64)) (answeredAccess (some data) addr none s)) :=
  Effect.of_event (f := takeWrite addr data) rfl hr (by rw [takeWrite_active addr data ha hm, hk])

theorem effect_hostWrite_staged {s t : State} {addr : BitVec 24} {data : Byte} (hr : s.rstLow = false)
    (ha : s.host.access = none) (hm : s.mode = .active) (hk : writeRefused s (addr.toNat / 64) = none)
    (ht : stageWrite (addr.toNat / 64) (addr.toNat % 64) data (takeAccess (some data) addr s) = t) :
    Effect (.hostWrite addr data) s t :=
  Effect.of_event (f := takeWrite addr data) rfl hr (by rw [takeWrite_active addr data ha hm, hk]; exact ht)

/-! ### O8: a host read through the map -/

theorem serveRead_unbacked {s : State} {line : Nat} (off : Nat) (h : isBacked s line = false) :
    serveRead line off s = answer (some Config.fill) s := by
  simp [serveRead, h]

theorem serveRead_unstaged {s : State} {line : Nat} (off : Nat) (h : isBacked s line = true) (hc : currentEntry s line = none) :
    serveRead line off s = serveMiss line s := by
  simp [serveRead, h, hc]

theorem serveMiss_of_not_present {s : State} {line : Nat} (h : ∀ loc q, (mapGet s line).state ≠ .present loc q) :
    serveMiss line s = answer (some Config.fill) s := by
  unfold serveMiss
  split
  · exact absurd ‹_› (h _ _)
  · rfl

theorem serveMiss_of_present {s : State} {line : Nat} {loc : Loc} {seq : Nat} (h : (mapGet s line).state = .present loc seq)
    (hm : s.mode ≠ .parked) :
    serveMiss line s =
      match allocate s with
      | some (i, t) =>
        waitOn (.fetch i) (issueFill i line loc seq
          (takeFree Config.lineBytes (setEntry i (loadingEntry line (freeBytes Config.lineBytes t) 0 false) t)))
      | none =>
        if s.host.directOut then waitOn .earlierDirect s else waitOn .direct (issueDirect line loc seq s) := by
  unfold serveMiss
  rw [h]
  exact if_neg hm

theorem not_present_of {s : State} {line : Nat}
    (h : (mapGet s line).state.loc = none ∨ ∃ loc seq, (mapGet s line).state = .trimmed loc seq) (loc : Loc) (q : Nat) :
    (mapGet s line).state ≠ .present loc q := by
  intro e
  rcases h with h | ⟨l, n, h⟩
  · rw [e] at h; cases h
  · rw [e] at h; cases h

/-- Settles O8, by the map state and by what R25 gives. -/
theorem readServedThroughMap : Obligations.ReadServedThroughMap := by
  intro s addr hr ha hm line
  have hp : s.mode ≠ .parked := by rcases hm with h | h | h <;> rw [h] <;> decide
  refine ⟨fun hb => effect_hostRead hr ha hm (serveRead_unbacked _ hb), fun hb hc => ?_⟩
  have miss {t} (ht : serveMiss line (takeAccess none addr s) = t) : Effect (.hostRead addr) s t :=
    effect_hostRead hr ha hm ((serveRead_unstaged (s := takeAccess none addr s) _ hb hc).trans ht)
  refine ⟨fun hn => miss (serveMiss_of_not_present (not_present_of hn)), fun loc seq hs => ?_⟩
  have read := serveMiss_of_present (s := takeAccess none addr s) hs hp
  rw [takeAccess, allocate_setAccess] at read
  refine ⟨fun i u hal => miss (read.trans ?_), fun hal hd => miss (read.trans ?_), fun hal hd => miss (read.trans ?_)⟩ <;>
    rw [hal]
  · exact waitOn_issue_takeAccess none addr (.fetch i) (mapRead (.readFill i) .hostRead line loc seq)
      (takeFree Config.lineBytes (setEntry i (loadingEntry line (freeBytes Config.lineBytes u) 0 false) u))
  · exact (if_neg (by simp [setAccess, hd])).trans (waitOn_issue_takeAccess none addr .direct
      (mapRead .directRead .hostRead line loc seq) { s with host := { s.host with directOut := true } })
  · exact if_pos hd

/-! ### O9: the three questions of R6 -/

theorem writeRefused_none_iff {s : State} {line : Nat} :
    writeRefused s line = none ↔
      isBacked s line = true ∧ isFrozen s line = false ∧ ¬ (isOnce s line = true ∧ onceAccepts s line = false) := by
  unfold writeRefused
  split_ifs <;> simp_all

theorem onceAccepts_eq_false {s : State} {line : Nat} :
    onceAccepts s line = false ↔ 8 < (mapGet s line).stamps + pendingStamps s line + newStamps s line := by
  unfold onceAccepts
  simp only [decide_eq_false_iff_not, not_le]

theorem pendingStamps_eq (s : State) (line : Nat) :
    pendingStamps s line = s.staging.countP (fun e =>
      e.line = some line ∧ e.touched = true ∧ (e.state = .loading ∨ e.state = .dirty ∨ e.state = .committing)) := by
  unfold pendingStamps
  refine List.countP_congr fun e _ => ?_
  simp only [Bool.and_eq_true, Bool.or_eq_true, beq_iff_eq, decide_eq_true_eq]
  tauto

theorem newStamps_eq (s : State) (line : Nat) :
    newStamps s line = match currentEntry s line with
      | some i =>
        if (entryAt s i).touched = true ∧ ((entryAt s i).state = .loading ∨ (entryAt s i).state = .dirty) then 0 else 1
      | none => 1 := by
  unfold newStamps
  cases currentEntry s line with
  | some i => simp only [Bool.and_eq_true, Bool.or_eq_true, beq_iff_eq]
  | none => rfl

/-- Settles O9, by the branches of `writeRefused`. -/
theorem writeMeetsThreeQuestions : Obligations.WriteMeetsThreeQuestions := by
  intro s addr data hr ha hm line dropped spent
  have hspent : spent ↔ isOnce s line = true ∧ onceAccepts s line = false := by
    rw [onceAccepts_eq_false]
  refine ⟨fun hb => ?_, fun hb hf => ?_, fun hb hf hs => ?_, fun hb hf hs => ?_, pendingStamps_eq s line, newStamps_eq s line⟩
  · exact effect_hostWrite_dropped hr ha hm (by simp [writeRefused, line, hb])
  · exact effect_hostWrite_dropped hr ha hm (by simp [writeRefused, line, hb, hf])
  · obtain ⟨ho, hn⟩ := hspent.1 hs
    exact effect_hostWrite_dropped hr ha hm (by simp [writeRefused, line, hb, hf, ho, hn])
  · exact effect_hostWrite_staged hr ha hm (writeRefused_none_iff.2 ⟨hb, hf, fun h => hs (hspent.2 h)⟩) rfl

/-! ### O11: a host write that starts an entry -/

/-- A host's byte on a line with no stored bytes stands among 63 fill values, for a ONCE line too (R10, R133). -/
theorem mergeByte_fillLine (once : Bool) {off : Nat} (h : off < 64) (b : Byte) :
    mergeByte once off b fillLine = (List.replicate 64 0xFF).set off b := by
  have hf : fillLine.getD off Config.fill = 0xFF := by
    simp [fillLine, h]
  have hb : (0xFF : Byte) &&& b = b := BitVec.allOnes_and
  unfold mergeByte
  cases once
  · rfl
  · rw [if_pos rfl, hf, hb]; rfl

theorem mergeHeld_of_unstaged {s : State} {line : Nat} (h : currentEntry s line = none) (off : Nat) (b : Byte) :
    mergeHeld line off b s = none := by
  simp [mergeHeld, h]

theorem stageWrite_of_unstaged {s u : State} {line i : Nat} (off : Nat) (b : Byte) (hc : currentEntry s line = none)
    (hal : allocate s = some (i, u)) : stageWrite line off b s = answer none (mergeGiven i line off b u) := by
  simp [stageWrite, mergeHeld_of_unstaged hc, hal]

theorem mergeGiven_of_not_present {s : State} {line i off : Nat} (b : Byte) (hc : currentEntry s line = none)
    (h : ∀ loc q, (mapGet s line).state ≠ .present loc q) (ho : off < 64) :
    mergeGiven i line off b s =
      dirtyEntry i
        { Entry.cleared with line := some line, data := (List.replicate 64 0xFF).set off b, touched := true } s := by
  unfold mergeGiven
  rw [hc]
  dsimp only
  split
  · exact absurd ‹_› (h _ _)
  · rw [mergeByte_fillLine _ ho]

theorem mergeGiven_of_present {s : State} {line i : Nat} {loc : Loc} {seq : Nat} (off : Nat) (b : Byte)
    (hc : currentEntry s line = none) (h : (mapGet s line).state = .present loc seq) :
    mergeGiven i line off b s =
      issueFill i line loc seq (takeFree Config.lineBytes
        (setEntry i (loadingEntry line ((freeBytes Config.lineBytes s).set off b) (1#64 <<< off) true) s)) := by
  unfold mergeGiven
  rw [hc, h]

/-- Settles O11, by the map state of the line. -/
theorem writeStartsEntry : Obligations.WriteStartsEntry := by
  intro s u addr data i hr ha hm line off done hw hc hal
  have hoff : off < 64 := Nat.mod_lt _ (by decide)
  have hu : u = { s with staging := u.staging, lru := u.lru } := allocate_eq hal
  have hmap : (mapGet u line).state = (mapGet s line).state := by rw [hu]; rfl
  have hnow : u.now = s.now := by rw [hu]
  have hcu : currentEntry u line = none := currentEntry_none_alloc hal hc
  have staged {t} (ht : answer none (mergeGiven i line off data (takeAccess (some data) addr u)) = t) :
      Effect (.hostWrite addr data) s t := by
    refine effect_hostWrite_staged hr ha hm hw ((stageWrite_of_unstaged (s := takeAccess (some data) addr s)
      (u := takeAccess (some data) addr u) (i := i) off data hc ?_).trans ht)
    rw [takeAccess, allocate_setAccess, hal]; rfl
  refine ⟨fun hn => staged ?_, fun loc seq hs => staged ?_⟩
  · rw [mergeGiven_of_not_present (s := takeAccess (some data) addr u) data hcu (fun loc q => hmap ▸ hn loc q) hoff, ← hnow]
    rfl
  · rw [mergeGiven_of_present (s := takeAccess (some data) addr u) off data hcu (hmap.trans hs)]
    exact answer_issue_takeAccess (some data) addr none (mapRead (.readFill i) .hostRead line loc seq)
      (takeFree Config.lineBytes
        (setEntry i (loadingEntry line ((freeBytes Config.lineBytes u).set off data) (1#64 <<< off) true) u))

end Sys2Proof.Machine
end

section
/-! SUPPORT. Proofs: what completions and LOST gradings do to the line map and the valid counts (O34, O35). -/
namespace Sys2Proof.Machine

variable {s : State}

/-! ### Valid counts (R69) -/

theorem blockGet_loseOld {b : BlockId} {r : BlockRec} (h : blockGet s b = some r) (old : Option Loc) :
    blockGet (loseOld old s) b =
      some { r with
        valid := r.valid - if old.map (fun o => blockKey (blockOf o)) = some (blockKey b) then 1 else 0 } := by
  cases old with
  | none => exact h
  | some o =>
    show blockGet (blockUpd (blockOf o) _ s) b = _
    rw [blockGet_blockUpd, h]
    by_cases hk : blockKey (blockOf o) = blockKey b <;> simp [hk]

theorem blockGet_loseValid {b : BlockId} {r : BlockRec} (h : blockGet s b = some r) (loc : Loc) :
    blockGet (loseValid loc s) b =
      some { r with valid := r.valid - if blockKey (blockOf loc) = blockKey b then 1 else 0 } :=
  (blockGet_loseOld h (some loc)).trans (by simp)

theorem blockGet_gainValid {b : BlockId} {r : BlockRec} (h : blockGet s b = some r) (loc : Loc) :
    blockGet (gainValid loc s) b =
      some { r with valid := r.valid + if blockKey (blockOf loc) = blockKey b then 1 else 0 } := by
  show blockGet (blockUpd (blockOf loc) _ s) b = _
  rw [blockGet_blockUpd, h]
  by_cases hk : blockKey (blockOf loc) = blockKey b <;> simp [hk]

/-- A record leaves one place and takes another: the state changes in the block table alone. -/
theorem gain_lose_eq (old : Option Loc) (loc : Loc) (s : State) :
    gainValid loc (loseOld old s) = { s with blocks := (gainValid loc (loseOld old s)).blocks } := by
  rw [gainValid_eq, loseOld_shift]

theorem gain_lose_lineMap (old : Option Loc) (loc : Loc) (s : State) :
    (gainValid loc (loseOld old s)).lineMap = s.lineMap := by
  rw [gain_lose_eq]

/-- The form of both completions: a map entry takes a new location, and the valid counts follow. -/
def moveEntry (line : Nat) (e : MapEntry) (old : Option Loc) (loc : Loc) (s : State) : State :=
  mapSet line e (gainValid loc (loseOld old s))

theorem commitToMap_eq_moveEntry (line : Nat) (kind : RecKind) (seq stamps : Nat) (loc : Loc) (s : State) :
    commitToMap line kind seq stamps loc s =
      moveEntry line
        ⟨match kind with
          | .line => .present loc seq
          | .trim => .trimmed loc seq, stamps⟩ (mapGet s line).state.loc loc s := by
  cases kind <;> rfl

theorem namesSlot_iff {line : Nat} {loc : Loc} : namesSlot s line loc = true ↔ (mapGet s line).state.loc = some loc := by
  simp [namesSlot]

/-- The state of a map entry whose record is copied to another slot (R15). -/
def MapState.movedTo (dest : Loc) : MapState → MapState
  | .present _ q => .present dest q
  | .trimmed _ q => .trimmed dest q
  | .unwritten => .unwritten
  | .damaged => .damaged

theorem copyToMap_of_named {line : Nat} {source : Loc} (h : (mapGet s line).state.loc = some source) (dest : Loc) :
    copyToMap line source dest s =
      moveEntry line { mapGet s line with state := (mapGet s line).state.movedTo dest } (some source) dest s := by
  unfold copyToMap
  rw [if_pos (namesSlot_iff.2 h)]
  generalize mapGet s line = e
  obtain ⟨st, n⟩ := e
  cases st <;> rfl

theorem copyToMap_of_not_named {line : Nat} {source : Loc} (h : (mapGet s line).state.loc ≠ some source) (dest : Loc) :
    copyToMap line source dest s = s :=
  if_neg fun hn => h (namesSlot_iff.1 hn)

theorem mapGet_moveEntry_same (hm : MapInv s) (line : Nat) (e : MapEntry) (old : Option Loc) (loc : Loc) :
    mapGet (moveEntry line e old loc s) line = e :=
  mapGet_mapSet_same line e (by unfold MapInv; rw [gain_lose_lineMap]; exact hm)

theorem mapGet_moveEntry_other {line l : Nat} (h : l ≠ line) (e : MapEntry) (old : Option Loc) (loc : Loc) :
    mapGet (moveEntry line e old loc s) l = mapGet s l := by
  unfold moveEntry
  rw [mapGet_mapSet_other h]
  unfold mapGet
  rw [gain_lose_lineMap]

theorem blockGet_moveEntry {b : BlockId} {r : BlockRec} (h : blockGet s b = some r) (line : Nat) (e : MapEntry)
    (old : Option Loc) (loc : Loc) :
    blockGet (moveEntry line e old loc s) b =
      some { r with
        valid := (r.valid - if old.map (fun o => blockKey (blockOf o)) = some (blockKey b) then 1 else 0) +
          if blockKey (blockOf loc) = blockKey b then 1 else 0 } :=
  blockGet_gainValid (blockGet_loseOld h old) loc

theorem moveEntry_eq (line : Nat) (e : MapEntry) (old : Option Loc) (loc : Loc) (s : State) :
    moveEntry line e old loc s =
      { s with lineMap := (moveEntry line e old loc s).lineMap, blocks := (moveEntry line e old loc s).blocks } := by
  unfold moveEntry mapSet
  rw [gain_lose_eq]

/-- Settles O34: both completions are `moveEntry`. -/
theorem completionsMoveMap : Obligations.CompletionsMoveMap := by
  intro s line hm
  refine ⟨fun seq stamps kind loc => ?_, fun source dest => ?_⟩
  · intro u old
    rw [show u = _ from commitToMap_eq_moveEntry line kind seq stamps loc s]
    exact ⟨mapGet_moveEntry_same hm .., fun l hl => mapGet_moveEntry_other hl .., fun b r hb => blockGet_moveEntry hb ..,
      moveEntry_eq ..⟩
  · intro u
    by_cases hn : (mapGet s line).state.loc = some source
    · rw [show u = _ from copyToMap_of_named hn dest]
      refine ⟨fun h => absurd hn h, fun q hq => ?_, fun q hq => ?_, fun _ b r hb => ?_, fun l hl => mapGet_moveEntry_other hl ..,
        moveEntry_eq ..⟩
      · rw [mapGet_moveEntry_same hm, hq]; rfl
      · rw [mapGet_moveEntry_same hm, hq]; rfl
      · simpa using blockGet_moveEntry hb line { mapGet s line with state := (mapGet s line).state.movedTo dest } (some source) dest
    · rw [show u = _ from copyToMap_of_not_named hn dest]
      exact ⟨fun _ => rfl, fun q hq => absurd (by rw [hq]; rfl) hn, fun q hq => absurd (by rw [hq]; rfl) hn,
        fun h => absurd h hn, fun _ _ => rfl, rfl⟩

/-! ### LOST gradings (R16, R106) -/

/-- What a LOST grading of the slot that the map names does to the fault list, the map and the valid counts. -/
def damageLine (line : Nat) (loc : Loc) (s : State) : State :=
  mapSet line { mapGet s line with state := .damaged } (loseValid loc (raise .uncorrectable (.line line) s))

theorem lostGrading_of_not_named {line : Nat} {loc : Loc} (h : (mapGet s line).state.loc ≠ some loc) :
    lostGrading line loc s = raise .uncorrectable (.line line) s :=
  if_neg fun hn => h (namesSlot_iff.1 hn)

theorem damageLine_eq (line : Nat) (loc : Loc) (s : State) :
    damageLine line loc s =
      { s with
        lineMap := mapPut line { mapGet s line with state := .damaged } s.lineMap
        blocks := (loseValid loc s).blocks
        maint := (raise .uncorrectable (.line line) s).maint } := by
  unfold damageLine
  rw [show loseValid loc (raise .uncorrectable (.line line) s) = loseOld (some loc) (raise .uncorrectable (.line line) s) from rfl,
    show loseValid loc s = loseOld (some loc) s from rfl, loseOld_shift, loseOld_shift]
  rfl

theorem currentEntry_damageLine (line : Nat) (loc : Loc) (s : State) (l : Nat) :
    currentEntry (damageLine line loc s) l = currentEntry s l := by
  rw [damageLine_eq]; rfl

theorem entryAt_damageLine (line : Nat) (loc : Loc) (s : State) (i : Nat) :
    entryAt (damageLine line loc s) i = entryAt s i := by
  rw [damageLine_eq]; rfl

theorem lostGrading_of_named {line : Nat} {loc : Loc} (h : (mapGet s line).state.loc = some loc) :
    lostGrading line loc s =
      match currentEntry s line with
      | some i =>
        if (entryAt s i).state = EntryState.clean then refreshClean i (damageLine line loc s) else damageLine line loc s
      | none => damageLine line loc s := by
  unfold lostGrading
  rw [if_pos (namesSlot_iff.2 h)]
  show (match currentEntry (damageLine line loc s) line with
    | some i =>
      if (entryAt (damageLine line loc s) i).state = EntryState.clean then refreshClean i (damageLine line loc s)
      else damageLine line loc s
    | none => damageLine line loc s) = _
  rw [currentEntry_damageLine]
  simp only [entryAt_damageLine]

/-- A LOST grading of the named slot damages the line; all else it may change is what the refresh of a CLEAN entry changes. -/
theorem lostGrading_named_eq {line : Nat} {loc : Loc} (h : (mapGet s line).state.loc = some loc) :
    lostGrading line loc s =
      { damageLine line loc s with
        staging := (lostGrading line loc s).staging
        lru := (lostGrading line loc s).lru
        commit := (lostGrading line loc s).commit } := by
  rw [lostGrading_of_named h]
  split
  · split <;> rfl
  · rfl

/-- Settles O35: the map's part is `damageLine`, the entry's part the two branches of `lostGrading`. -/
theorem lostGradingDamagesLine : Obligations.LostGradingDamagesLine := by
  intro s line loc hm u
  by_cases hn : (mapGet s line).state.loc = some loc
  · have hu : u = _ := lostGrading_named_eq hn
    have hd := damageLine_eq line loc s
    refine ⟨?_, fun h => absurd hn h, fun _ => ⟨?_, fun l hl => ?_, fun b r hb => ?_, fun i hc he => ?_, fun hc => ?_⟩⟩
    · rw [hu, hd]
    · rw [hu, hd]; exact mapGet_mapSet_same line { mapGet s line with state := .damaged } hm
    · rw [hu, hd]; exact mapGet_mapSet_other hl { mapGet s line with state := .damaged } s
    · rw [hu, hd]; exact blockGet_loseValid hb loc
    · have : u = refreshClean i (damageLine line loc s) := by
        show lostGrading line loc s = _
        rw [lostGrading_of_named hn, hc]; exact if_pos he
      rw [this, hd]
      exact ⟨rfl, rfl, rfl⟩
    · have : u = damageLine line loc s := by
        show lostGrading line loc s = _
        rw [lostGrading_of_named hn]
        split
        · exact if_neg (hc _ ‹_›)
        · rfl
      rw [this, hd]
      exact ⟨rfl, rfl, rfl⟩
  · have hu : u = _ := lostGrading_of_not_named hn
    exact ⟨by rw [hu], fun _ => hu, fun h => absurd h hn⟩

end Sys2Proof.Machine
end

section
/-! SUPPORT. Proofs: the answers of line map reads to their requesters (O41, O42, O43, O44). -/
namespace Sys2Proof.Machine

variable {s : State}

/-! ### What an answer and a LOST grading leave unchanged -/

theorem expects_line {op : Op} {line seq : Nat} (h : expects op line seq) : op.line = line := by
  unfold Op.line; rw [h.2]; rfl

theorem answeredOp_staging (d : Nat) (op : Op) (raws : List RawSlot) (s : State) :
    (answeredOp d op raws s).staging = s.staging := by rw [answeredOp_eq]

theorem answeredOp_host (d : Nat) (op : Op) (raws : List RawSlot) (s : State) :
    (answeredOp d op raws s).host = s.host := by rw [answeredOp_eq]

theorem answeredOp_mode (d : Nat) (op : Op) (raws : List RawSlot) (s : State) :
    (answeredOp d op raws s).mode = s.mode := by rw [answeredOp_eq]

theorem answeredOp_lineMap (d : Nat) (op : Op) (raws : List RawSlot) (s : State) :
    (answeredOp d op raws s).lineMap = s.lineMap := by rw [answeredOp_eq]

theorem answeredOp_reclaim (d : Nat) (op : Op) (raws : List RawSlot) (s : State) :
    (answeredOp d op raws s).reclaim = s.reclaim := by rw [answeredOp_eq]

/-- A LOST grading reaches the fault list, the map with the valid counts, and the entry with its orders; nothing else. -/
theorem lostGrading_eq (line : Nat) (loc : Loc) (s : State) :
    lostGrading line loc s =
      { s with
        lineMap := (lostGrading line loc s).lineMap
        blocks := (lostGrading line loc s).blocks
        maint := (lostGrading line loc s).maint
        staging := (lostGrading line loc s).staging
        lru := (lostGrading line loc s).lru
        commit := (lostGrading line loc s).commit } := by
  by_cases hn : (mapGet s line).state.loc = some loc
  · rw [lostGrading_named_eq hn, damageLine_eq]
  · rw [lostGrading_of_not_named hn]; rfl

theorem lostGrading_host (line : Nat) (loc : Loc) (s : State) : (lostGrading line loc s).host = s.host := by
  rw [lostGrading_eq]

theorem lostGrading_mode (line : Nat) (loc : Loc) (s : State) : (lostGrading line loc s).mode = s.mode := by
  rw [lostGrading_eq]

theorem lostGrading_reclaim (line : Nat) (loc : Loc) (s : State) : (lostGrading line loc s).reclaim = s.reclaim := by
  rw [lostGrading_eq]

theorem lostGrading_staging_length (line : Nat) (loc : Loc) (s : State) :
    (lostGrading line loc s).staging.length = s.staging.length := by
  by_cases hn : (mapGet s line).state.loc = some loc
  · have hd : (damageLine line loc s).staging = s.staging := by rw [damageLine_eq]
    rw [lostGrading_of_named hn]
    split
    · split
      · show ((damageLine line loc s).staging.set _ _).length = _
        rw [List.length_set, hd]
      · rw [hd]
    · rw [hd]
  · rw [lostGrading_of_not_named hn]; rfl

theorem accessOffset_congr {s t : State} (h : t.host = s.host) : accessOffset t = accessOffset s := by
  unfold accessOffset; rw [h]

theorem accessLine_congr {s t : State} (h : t.host = s.host) : accessLine t = accessLine s := by
  unfold accessLine; rw [h]

theorem waitsFor_congr {s t : State} (h : t.host.access = s.host.access) : waitsFor t = waitsFor s := by
  unfold waitsFor; rw [h]

/-! ### Read-fills (R31 to R33, R40) -/

theorem deliverRead_readFill {op : Op} {i : Nat} (h : op.role = .readFill i) (r : SlotResult) (s : State) :
    deliverRead op [r] noContent s = onReadFill i op r s := by
  unfold deliverRead; rw [h]

/-- A read-fill that its die carries is answered: its entry takes what the slot holds. -/
theorem effect_readFill {t : State} {d i line seq : Nat} {op : Op} {raw : RawSlot} (h : carries d op (.readFill i) s)
    (he : expects op line seq)
    (ht : onReadFill i op (expectSlot (some (line, seq)) (checkSlot raw)) (answeredOp d op [raw] s) = t) :
    Effect (.readFillAnswer d raw) s t :=
  effect_read rfl h rfl he ((deliverRead_readFill h.2.2.1 _ _).trans ht)

theorem onReadFill_good_trimPending {op : Op} {i : Nat} (hs : op.stale = false) (hp : (entryAt s i).trimPending = true)
    (g : Grade) (c : SlotContent) : onReadFill i op (.good g c) s = answerFetch i (completeTrimPending i s) := by
  simp [onReadFill, hs, hp]

theorem onReadFill_lost {op : Op} {i : Nat} {r : SlotResult} (hs : op.stale = false) (hr : ∀ g c, r ≠ .good g c) :
    onReadFill i op r s = fillLost i op.line (lostGrading op.line op.loc s) := by
  unfold onReadFill
  split
  · exact absurd rfl (hr _ _)
  · simp [hs]

theorem fillLost_trimPending {i line : Nat} (hp : (entryAt s i).trimPending = true) :
    fillLost i line s = answerFetch i (completeTrimPending i s) := by
  simp [fillLost, hp]

theorem fillLost_present {i line : Nat} {loc : Loc} {q : Nat} (hp : (entryAt s i).trimPending = false)
    (h : (mapGet s line).state = .present loc q) (hm : s.mode ≠ .parked) :
    fillLost i line s = issue (mapRead (.readFill i) .hostRead line loc q) s := by
  simp [fillLost, hp, h, hm, issueFill]

theorem fillLost_parked {i line : Nat} {loc : Loc} {q : Nat} (hp : (entryAt s i).trimPending = false)
    (h : (mapGet s line).state = .present loc q) (hm : s.mode = .parked) :
    fillLost i line s = answeredFetch i 0xFF { s with withheld := s.withheld ++ [i] } := by
  unfold fillLost answeredFetch
  simp only [hp, h, hm, Bool.false_eq_true, if_false, if_true]
  split
  · exact answer_waiting (by rw [‹waitsFor _ = _›]; exact Option.some_ne_none _) _
  · rfl

theorem fillLost_gone {i line : Nat} (hp : (entryAt s i).trimPending = false)
    (h : ∀ loc q, (mapGet s line).state ≠ .present loc q) : fillLost i line s = answerFetch i (completeLost i s) := by
  unfold fillLost
  simp only [hp, Bool.false_eq_true, if_false]

/-- A version whose fetch brings no stored byte: the written bytes among fill values (R33, R40). -/
theorem mergeFetched_fillLine (mask : OffsetSet) (held : LineData) :
    mergeFetched false mask held fillLine =
      (List.range 64).map fun k => if mask.getLsbD k then held.getD k 0xFF else 0xFF := by
  refine List.map_congr_left fun k hk => ?_
  have hf : fillLine.getD k Config.fill = 0xFF := by simp [fillLine, List.mem_range.1 hk]
  rw [hf]; rfl

theorem entryAt_dirtied_same {i : Nat} (hi : i < s.staging.length) (e : Entry) :
    entryAt (dirtied i e s) i =
      { e with state := .dirty, dirtySince := some s.now, written := 0, trimPending := false, newer := none } :=
  entryAt_setEntry_same hi _

/-- A read waiting on an entry that becomes DIRTY gets its byte of the new version (R29). -/
theorem answerFetch_dirtied {i : Nat} (hi : i < s.staging.length) (e : Entry) :
    answerFetch i (dirtied i e s) = answeredFetch i (e.readByte (accessOffset s)) (dirtied i e s) := by
  rw [answerFetch_held (by rw [entryAt_dirtied_same hi]; exact fun h => EntryState.noConfusion h), entryAt_dirtied_same hi]
  rfl

theorem answerFetch_freed_entry {i : Nat} (hi : i < s.staging.length) :
    answerFetch i (freed i s) = answeredFetch i 0xFF (freed i s) :=
  answerFetch_freed (congrArg Entry.state (entryAt_setEntry_same hi Entry.cleared))

/-- A trim-pending entry completes, by whether a byte was written since (R40). -/
theorem answer_completeTrimPending {i : Nat} (hi : i < s.staging.length) :
    let e := entryAt s i
    let data := (List.range 64).map fun k => if e.written.getLsbD k then e.data.getD k 0xFF else 0xFF
    (e.written = 0 → answerFetch i (completeTrimPending i s) =
      answeredFetch i 0xFF (dirtied i { e with kind := .trim, data := [], touched := false, refresh := false } s)) ∧
    (e.written ≠ 0 → answerFetch i (completeTrimPending i s) =
      answeredFetch i (data.getD (accessOffset s) 0xFF)
        (dirtied i { e with kind := .line, data := data, touched := true, refresh := false } s)) := by
  intro e data
  refine ⟨fun h => ?_, fun h => ?_⟩
  · have : completeTrimPending i s =
        dirtied i { e with kind := .trim, data := [], touched := false, refresh := false } s := if_pos h
    rw [this, answerFetch_dirtied hi]; rfl
  · have : completeTrimPending i s = dirtied i { e with kind := .line, data := data, touched := true, refresh := false } s := by
      rw [show data = _ from (mergeFetched_fillLine e.written e.data).symm]; exact if_neg h
    rw [this, answerFetch_dirtied hi]; rfl

/-- Settles O42: a good answer and a LOST one complete a trim-pending entry alike. -/
theorem trimPendingFetchBecomesTrim : Obligations.TrimPendingFetchBecomesTrim := by
  intro s d i op raw line seq h he hsz hi v
  have hv : i < v.staging.length := by
    rw [show v.staging = _ from answeredOp_staging d op [raw] s, hsz.1]; exact hi
  have hline := expects_line he
  refine ⟨fun g kind stamps stored hg hp => ?_, fun hl hp => ?_⟩
  · have ho : accessOffset v = accessOffset s := accessOffset_congr (answeredOp_host d op [raw] s)
    have hread := onReadFill_good_trimPending (s := v) h.2.2.2 hp g (.record kind line seq stamps stored)
    rw [← expectSlot_of_readGood hg] at hread
    have hc := answer_completeTrimPending hv
    rw [ho] at hc
    exact ⟨fun hw => effect_readFill h he (hread.trans (hc.1 hw)), fun hw => effect_readFill h he (hread.trans (hc.2 hw))⟩
  · have hu : i < (lostGrading line op.loc v).staging.length := by rw [lostGrading_staging_length]; exact hv
    have ho : accessOffset (lostGrading line op.loc v) = accessOffset s :=
      accessOffset_congr ((lostGrading_host ..).trans (answeredOp_host d op [raw] s))
    have hread := (onReadFill_lost (s := v) (i := i) h.2.2.2 (expectSlot_of_readLost hl)).trans
      (fillLost_trimPending (by rw [hline]; exact hp))
    rw [hline] at hread
    have hc := answer_completeTrimPending hu
    rw [ho] at hc
    exact ⟨fun hw => effect_readFill h he (hread.trans (hc.1 hw)), fun hw => effect_readFill h he (hread.trans (hc.2 hw))⟩

/-- Settles O41: what `fillLost` does once the grading has reached the map. -/
theorem readFillLostReissuesOrCompletes : Obligations.ReadFillLostReissuesOrCompletes := by
  intro s d i op raw line seq h he hsz hi hl u e data hp
  have hu : i < u.staging.length := by
    rw [show u.staging.length = _ from lostGrading_staging_length .., answeredOp_staging, hsz.1]; exact hi
  have ho : accessOffset u = accessOffset s :=
    accessOffset_congr ((lostGrading_host ..).trans (answeredOp_host d op [raw] s))
  have hm : u.mode = s.mode := (lostGrading_mode ..).trans (answeredOp_mode ..)
  have lost {t} (ht : fillLost i line u = t) : Effect (.readFillAnswer d raw) s t := by
    refine effect_readFill h he ((onReadFill_lost h.2.2.2 (expectSlot_of_readLost hl)).trans ?_)
    rw [expects_line he]; exact ht
  refine ⟨fun loc q hq => ⟨fun hn => lost (fillLost_present hp hq (by rw [hm]; exact hn)),
    fun hn => lost (fillLost_parked hp hq (hm.trans hn))⟩, fun hq => ⟨fun ht => lost ?_, fun ht => lost ?_⟩⟩
  · have hc : completeLost i u = dirtied i { e with data := data } u := by
      rw [show data = _ from (mergeFetched_fillLine e.written e.data).symm]; exact if_pos ht
    rw [fillLost_gone hp hq, hc, answerFetch_dirtied hu, ho]
  · have hc : completeLost i u = freed i u := if_neg (by rw [show (entryAt u i).touched = false from ht]; decide)
    rw [fillLost_gone hp hq, hc, answerFetch_freed_entry hu]

/-! ### Direct reads (R30) -/

theorem deliverRead_directRead {op : Op} (h : op.role = .directRead) (r : SlotResult) (s : State) :
    deliverRead op [r] noContent s = onDirectRead op r s := by
  unfold deliverRead; rw [h]

/-- The direct read is no longer outstanding. -/
def directIn (s : State) : State := { s with host := { s.host with directOut := false } }

theorem waitsFor_directIn (s : State) : waitsFor (directIn s) = waitsFor s := rfl

theorem effect_directRead {t : State} {d line seq : Nat} {op : Op} {raw : RawSlot} (h : carries d op .directRead s)
    (he : expects op line seq)
    (ht : onDirectRead op (expectSlot (some (line, seq)) (checkSlot raw)) (answeredOp d op [raw] s) = t) :
    Effect (.directReadAnswer d raw) s t :=
  effect_read rfl h rfl he ((deliverRead_directRead h.2.2.1 _ _).trans ht)

theorem directRead_waited {op : Op} (hs : op.stale = false) (hw : waitsFor s = some .direct) :
    (decide (waitsFor (directIn s) = some .direct) && !op.stale) = true := by
  rw [waitsFor_directIn, hw, hs]; rfl

theorem directRead_not_waited (op : Op) (hw : waitsFor s ≠ some .direct) :
    ¬ (decide (waitsFor (directIn s) = some .direct) && !op.stale) = true := by
  rw [waitsFor_directIn]; simp [hw]

theorem answer_directIn (hw : waitsFor s = some .direct) (b : Byte) :
    answer (some b) (directIn s) = answeredWait b (directIn s) :=
  answer_waiting (by rw [waitsFor_directIn, hw]; exact Option.some_ne_none _) b

theorem onDirectRead_good_waiting {op : Op} (hs : op.stale = false) (hw : waitsFor s = some .direct) (g : Grade)
    (c : SlotContent) :
    onDirectRead op (.good g c) s = answeredWait ((payloadOf c).getD (accessOffset s) 0xFF) (directIn s) :=
  (if_pos (directRead_waited hs hw)).trans (answer_directIn hw _)

theorem onDirectRead_good_other {op : Op} (hw : waitsFor s ≠ some .direct) (g : Grade) (c : SlotContent) :
    onDirectRead op (.good g c) s = serveWaiting (directIn s) :=
  if_neg (directRead_not_waited op hw)

theorem onDirectRead_lost_waiting {op : Op} {r : SlotResult} (hs : op.stale = false) (hr : ∀ g c, r ≠ .good g c)
    (hw : waitsFor s = some .direct) :
    onDirectRead op r s =
      let t := lostGrading op.line op.loc (directIn s)
      match (mapGet t op.line).state with
      | .present loc seq =>
        if t.mode = .parked then answer (some Config.fill) t else waitOn .direct (issueDirect op.line loc seq t)
      | _ => answer (some Config.fill) t := by
  cases r with
  | good g c => exact absurd rfl (hr g c)
  | _ => exact if_pos (directRead_waited hs hw)

theorem onDirectRead_lost_other {op : Op} {r : SlotResult} (hr : ∀ g c, r ≠ .good g c) (hw : waitsFor s ≠ some .direct) :
    onDirectRead op r s = serveWaiting (lostGrading op.line op.loc (directIn s)) := by
  cases r with
  | good g c => exact absurd rfl (hr g c)
  | _ => exact if_neg (directRead_not_waited op hw)

/-- A wait that goes on for the same reason stays as it is. -/
theorem waitOn_same {why : WaitFor} (h : waitsFor s = some why) : waitOn why s = s := by
  obtain ⟨_, _, _, _, _, _, _, _, _, ⟨access, directOut⟩, _⟩ := s
  cases access with
  | none => cases h
  | some a =>
    obtain ⟨w, addr, ph⟩ := a
    cases ph with
    | answered b => cases h
    | waiting st l y => cases h; rfl

theorem waitOn_issueDirect {line seq : Nat} {loc : Loc} (h : waitsFor s = some .direct) :
    waitOn .direct (issueDirect line loc seq s) =
      issue (mapRead .directRead .hostRead line loc seq) { s with host := { s.host with directOut := true } } := by
  refine waitOn_same ?_
  unfold issueDirect
  rw [issue_eq]
  exact h

theorem serveWaiting_of_earlier (h : waitsFor s = some .earlierDirect) :
    serveWaiting s = serveRead (accessLine s) (accessOffset s) s := if_pos h

theorem serveWaiting_of_not_earlier (h : waitsFor s ≠ some .earlierDirect) : serveWaiting s = s := if_neg h

/-- Settles O43, by what the host access waits for. -/
theorem directReadAnswered : Obligations.DirectReadAnswered := by
  intro s d op raw line seq h he u v
  have hst := h.2.2.2
  have hu : directIn (answeredOp d op [raw] s) = u := by
    show _ = ({ answeredOp d op [raw] s with host := _ } : State)
    unfold directIn
    rw [answeredOp_host]
  have hwa : waitsFor (answeredOp d op [raw] s) = waitsFor s := waitsFor_congr (by rw [answeredOp_host])
  have hwu : waitsFor u = waitsFor s := rfl
  have hhv : v.host = u.host := lostGrading_host line op.loc u
  have hwv : waitsFor v = waitsFor s := (waitsFor_congr (s := u) (congrArg HostPort.access hhv)).trans hwu
  have hmv : v.mode = s.mode := (lostGrading_mode line op.loc u).trans (answeredOp_mode ..)
  refine ⟨fun g kind stamps stored hg => ?_, fun hl => ?_⟩
  · have slot := expectSlot_of_readGood hg
    have other (hw : waitsFor s ≠ some .direct) {t} (ht : serveWaiting u = t) : Effect (.directReadAnswer d raw) s t :=
      effect_directRead h he (by rw [slot, onDirectRead_good_other (by rw [hwa]; exact hw), hu, ht])
    refine ⟨fun hw => effect_directRead h he ?_, fun hw => other (by rw [hw]; decide) ?_, fun hw hn => other hw ?_⟩
    · rw [slot, onDirectRead_good_waiting hst (hwa.trans hw), hu, accessOffset_congr (answeredOp_host ..)]
      rfl
    · exact serveWaiting_of_earlier (hwu.trans hw)
    · exact serveWaiting_of_not_earlier hn
  · have lost := expectSlot_of_readLost hl
    have other (hw : waitsFor s ≠ some .direct) {t} (ht : serveWaiting v = t) : Effect (.directReadAnswer d raw) s t :=
      effect_directRead h he (by
        rw [onDirectRead_lost_other lost (by rw [hwa]; exact hw), hu, expects_line he]; exact ht)
    refine ⟨fun hw => ?_, fun hw => other (by rw [hw]; decide) ?_, fun hw hn => other hw ?_⟩
    · have taken := onDirectRead_lost_waiting hst lost (hwa.trans hw)
      rw [hu, expects_line he] at taken
      refine ⟨fun loc q hq hm => effect_directRead h he (taken.trans ?_), fun hq => effect_directRead h he (taken.trans ?_)⟩
      · show (match (mapGet v line).state with
          | .present loc seq =>
            if v.mode = Mode.parked then answer (some Config.fill) v else waitOn .direct (issueDirect line loc seq v)
          | _ => answer (some Config.fill) v) = _
        rw [hq]
        refine (if_neg (by rw [hmv]; exact hm)).trans ((waitOn_issueDirect (hwv.trans hw)).trans ?_)
        rw [hhv]
      · have fill : answer (some Config.fill) v = answeredWait 0xFF v :=
          answer_waiting (by rw [hwv, hw]; exact Option.some_ne_none _) _
        dsimp only
        split
        · rename_i loc q hs
          exact (if_pos (hmv.trans (hq.resolve_left fun k => k loc q hs))).trans fill
        · exact fill
    · rw [serveWaiting_of_earlier (hwv.trans hw), accessLine_congr hhv, accessOffset_congr hhv]; rfl
    · exact serveWaiting_of_not_earlier (by rw [hwv]; exact hn)

/-! ### Copy reads (R123, R124, R130) -/

theorem deliverRead_copyRead {op : Op} (h : op.role = .copyRead) (r : SlotResult) (s : State) :
    deliverRead op [r] noContent s = onCopyRead op r s := by
  unfold deliverRead; rw [h]

theorem effect_copyRead {t : State} {d line seq : Nat} {op : Op} {raw : RawSlot} (h : carries d op .copyRead s)
    (he : expects op line seq)
    (ht : onCopyRead op (expectSlot (some (line, seq)) (checkSlot raw)) (answeredOp d op [raw] s) = t) :
    Effect (.copyReadAnswer d raw) s t :=
  effect_read rfl h rfl he ((deliverRead_copyRead h.2.2.1 _ _).trans ht)

/-- A copy read is counted as answered, its record if any in the buffer, and the last of a group is taken (R123). -/
def readCounted (buf : List CopyRec) (s : State) : State :=
  let t := engine (fun e => { e with buffer := buf, readsOut := e.readsOut - 1 }) s
  if t.reclaim.readsOut = 0 then groupRead t else t

theorem onCopyRead_named {op : Op} (hs : op.stale = false) (hd : s.reclaim.discard = false)
    (hn : (mapGet s op.line).state.loc = some op.loc) (g : Grade) (k : RecKind) (l q st : Nat) (p : LineData) :
    onCopyRead op (.good g (.record k l q st p)) s =
      readCounted (bufferInsert ⟨op.loc, k, l, q, st, p⟩ s.reclaim.buffer) s := by
  simp only [onCopyRead, hs, hd, namesSlot_iff.2 hn]
  rfl

theorem onCopyRead_dropped {op : Op} (hs : op.stale = false)
    (h : s.reclaim.discard = true ∨ (mapGet s op.line).state.loc ≠ some op.loc) (g : Grade) (c : SlotContent) :
    onCopyRead op (.good g c) s = readCounted s.reclaim.buffer s := by
  have hc : (s.reclaim.discard || !namesSlot s op.line op.loc) = true := by
    rcases h with h | h
    · simp [h]
    · simp [namesSlot, h]
  simp only [onCopyRead, hs, hc]
  rfl

theorem onCopyRead_lost {op : Op} {r : SlotResult} (hs : op.stale = false) (hr : ∀ g c, r ≠ .good g c) (s : State) :
    onCopyRead op r s =
      readCounted (lostGrading op.line op.loc s).reclaim.buffer (lostGrading op.line op.loc s) := by
  cases r with
  | good g c => exact absurd rfl (hr g c)
  | erased => simp only [onCopyRead, hs]; rfl
  | lostKnown c => simp only [onCopyRead, hs]; rfl
  | lostUnknown => simp only [onCopyRead, hs]; rfl

theorem readCounted_more {buf : List CopyRec} (h : 1 < s.reclaim.readsOut) :
    readCounted buf s = { s with reclaim := { s.reclaim with buffer := buf, readsOut := s.reclaim.readsOut - 1 } } :=
  if_neg (Nat.sub_ne_zero_of_lt h)

theorem readCounted_last {buf : List CopyRec} (h : s.reclaim.readsOut = 1) :
    readCounted buf s =
      groupRead { s with reclaim := { s.reclaim with buffer := buf, readsOut := s.reclaim.readsOut - 1 } } :=
  if_pos (by show s.reclaim.readsOut - 1 = 0; rw [h])

theorem groupRead_discarded {src : Source} (hs : s.reclaim.source = some src) (hd : s.reclaim.discard = true) :
    groupRead s =
      { s with
        reclaim :=
          { s.reclaim.setCursors src (s.reclaim.keptCursor src) (s.reclaim.keptCursor src) with
            buffer := []
            discard := false
            state := if s.reclaim.state = .reading then .idle else s.reclaim.state } } := by
  unfold groupRead
  rw [hs]
  simp only [hd, if_true]
  cases src <;> rfl

theorem groupRead_empty {src : Source} (hs : s.reclaim.source = some src) (hd : s.reclaim.discard = false)
    (hb : s.reclaim.buffer = []) :
    groupRead s = groupOver src (engine (fun r => { r with state := .idle, buffer := [] }) s) := by
  simp only [groupRead, hs, hd, hb, Bool.false_eq_true, if_false]

theorem groupRead_program {src : Source} {h : LogHead} (hs : s.reclaim.source = some src) (hd : s.reclaim.discard = false)
    (hb : s.reclaim.buffer ≠ []) (hh : s.reclaim.head = some h) :
    groupRead s = issueCopyProgram src h s := by
  obtain ⟨c, l, hc⟩ := List.exists_cons_of_ne_nil hb
  simp only [groupRead, hs, hd, hc, hh, Bool.false_eq_true, if_false]
  

/-- Settles O44: a good record that is named, one that is not, and a LOST one all end in `readCounted`. -/
theorem copyReadAnswered : Obligations.CopyReadAnswered := by
  intro s d op raw line seq h he a ends
  have hst := h.2.2.2
  have hline := expects_line he
  have har : a.reclaim = s.reclaim := answeredOp_reclaim d op [raw] s
  have counted (v : State) (buf : List CopyRec) (hv : v.reclaim = s.reclaim)
      (ht : onCopyRead op (expectSlot (some (line, seq)) (checkSlot raw)) a = readCounted buf v) : ends v buf := by
    refine ⟨fun hn => effect_copyRead h he (ht.trans (readCounted_more (by rw [hv]; exact hn))), fun src hn hsrc => ?_⟩
    have last := ht.trans (readCounted_last (by rw [hv]; exact hn))
    refine ⟨fun hd => ?_, fun hd => ⟨fun hb => ?_, fun hh hb hhd => ?_⟩⟩
    · refine effect_copyRead h he (last.trans ?_)
      exact groupRead_discarded (by rw [← hsrc, ← hv]) (by rw [← hd, ← hv])
    · refine effect_copyRead h he (last.trans ?_)
      exact groupRead_empty (by rw [← hsrc, ← hv]) (by rw [← hd, ← hv]) hb
    · refine effect_copyRead h he (last.trans ((groupRead_program (by rw [← hsrc, ← hv]) (by rw [← hd, ← hv]) hb
        (by rw [← hhd, ← hv])).trans ?_))
      cases src <;> rfl
  have hma : mapGet a line = mapGet s line := by unfold mapGet; rw [answeredOp_lineMap]
  refine ⟨fun g kind stamps payload hg => ⟨fun hd hn => ?_, fun hd => ?_⟩, fun hl => ?_⟩
  · refine counted a _ har ?_
    rw [expectSlot_of_readGood hg, onCopyRead_named hst (by rw [har]; exact hd) (by rw [hline, hma]; exact hn), har]
  · refine counted a _ har ?_
    rw [expectSlot_of_readGood hg, onCopyRead_dropped hst (by rw [hline, hma, har]; exact hd), har]
  · have hv : (lostGrading line op.loc a).reclaim = s.reclaim := (lostGrading_reclaim ..).trans har
    refine counted _ _ hv ?_
    rw [onCopyRead_lost hst (expectSlot_of_readLost hl), hline, hv]

end Sys2Proof.Machine
end

section
/-! SUPPORT. Proofs: the answers of batch programs (O48) and what both heads share. -/
namespace Sys2Proof.Machine

variable {s : State}

/-! ### Heads (R56, R57, R119) -/

/-- A passed program of `n` records leaves the head's page full (R52, R56). -/
def LogHead.pageDone (h : LogHead) (n : Nat) : Prop := h.used + 1 = 3 ∨ h.next + n = 16

theorem advance_of_not_pageDone {h : LogHead} {n : Nat} (hl : ¬ h.pageDone n) :
    h.advance n = some { h with next := h.next + n, used := h.used + 1 } := if_neg hl

theorem advance_of_pageDone {h : LogHead} {n : Nat} (hl : h.pageDone n) (hp : h.page + 1 < 64) :
    h.advance n = some { h with page := h.page + 1, next := 0, used := 0 } := (if_pos hl).trans (if_pos hp)

theorem advance_off_block {h : LogHead} {n : Nat} (hl : h.pageDone n) (hp : 64 ≤ h.page + 1) : h.advance n = none :=
  (if_pos hl).trans (if_neg (Nat.not_lt.2 hp))

theorem withSeqs_map {α : Type} (h : LogHead) (f : α → Nat) (l : List α) :
    h.withSeqs (l.map f) = { h with topSeq := l.foldl (fun m r => some (max (f r) (m.getD 0))) h.topSeq } := by
  unfold LogHead.withSeqs
  rw [List.foldl_map]

theorem closeSeq_eq (h : LogHead) : h.closeSeq = if h.topSeq.isSome then h.topSeq else h.openSeq := by
  unfold LogHead.closeSeq
  cases h.topSeq <;> rfl

/-! ### A passed batch (R14, R62) -/

theorem commitRecs_eq_foldl (b : BlockId) (page first : Nat) (recs : List BatchRec) (s : State) :
    commitRecs b page first recs s =
      recs.zipIdx.foldl (fun x p => commitRec (locIn b page (first + p.2)) p.1 x) s :=
  slots_fold commitRec commitRecs b page (fun _ _ => rfl) (fun _ _ _ _ => rfl) recs first 0 s

theorem commitRecs_head (b : BlockId) (page : Nat) (recs : List BatchRec) (first : Nat) (s : State) :
    (commitRecs b page first recs s).commit.head = s.commit.head := by
  induction recs generalizing first s with
  | nil => rfl
  | cons r recs ih => exact (ih (first + 1) _).trans (commitRec_same (locIn b page first) r s).2.1

theorem entryAt_commitToMap (line : Nat) (kind : RecKind) (seq stamps : Nat) (loc : Loc) (s : State) (i : Nat) :
    entryAt (commitToMap line kind seq stamps loc s) i = entryAt s i := by
  rw [commitToMap_eq]; rfl

/-- The map and the refresh count after one record of a passed batch (R14, R105). -/
def recMapped (loc : Loc) (r : BatchRec) (s : State) : State :=
  let m := commitToMap r.line r.kind r.seq r.stamps loc s
  if (entryAt s r.entry).refresh then
    { m with commit := { m.commit with refreshes := min (2 ^ 32 - 1) (m.commit.refreshes + 1) } } else m

theorem entryAt_recMapped (loc : Loc) (r : BatchRec) (s : State) (i : Nat) :
    entryAt (recMapped loc r s) i = entryAt s i := by
  unfold recMapped
  dsimp only
  split
  · exact entryAt_commitToMap r.line r.kind r.seq r.stamps loc s i
  · exact entryAt_commitToMap ..

theorem commitRec_cleaned {loc : Loc} {r : BatchRec} (hk : (entryAt s r.entry).kind = .line)
    (hn : (entryAt s r.entry).newer = none) :
    commitRec loc r s = cleaned r.entry (entryAt s r.entry).line (entryAt s r.entry).data (recMapped loc r s) := by
  show (if _ then cleanEntry r.entry (entryAt s r.entry).data (recMapped loc r s) else _) = _
  rw [if_pos ⟨hk, hn⟩]
  unfold cleanEntry
  rw [entryAt_recMapped]
  rfl

theorem commitRec_freed {loc : Loc} {r : BatchRec}
    (h : (entryAt s r.entry).kind = .trim ∨ (entryAt s r.entry).newer ≠ none) :
    commitRec loc r s = freed r.entry (recMapped loc r s) := by
  refine if_neg fun hc => ?_
  rcases h with h | h
  · rw [hc.1] at h; cases h
  · exact h hc.2

theorem effect_batchPass {t : State} {d : Nat} {op : Op} {b : Batch} (hc : carries d op .batchProgram s)
    (hb : s.commit.batch = some b) (ht : batchPass b (dieAnswered d s) = t) : Effect (.batchProgramAnswer d .pass) s t := by
  refine effect_status rfl hc rfl ?_
  unfold deliverStatus
  rw [hc.2.2.2, hc.2.2.1]
  show onBatchProgram .pass (dieAnswered d s) = t
  unfold onBatchProgram
  rw [show (dieAnswered d s).commit.batch = some b from hb]
  exact ht

/-- The host log head after a passed program of `n` records: moved on by R56, or gone with its block CLOSED (R57). -/
def moveHostHead (h : LogHead) (n : Nat) (s : State) : State :=
  match h.advance n with
  | some x => setHead (some x) s
  | none => closeHead h (setHead none s)

theorem batchPass_eq {b : Batch} {h : LogHead} (hh : s.commit.head = some h) :
    batchPass b s =
      moveHostHead { h with topSeq := b.recs.foldl (fun m r => some (max r.seq (m.getD 0))) h.topSeq } b.recs.length
        (commitRecs b.block b.page b.first b.recs { s with commit := { s.commit with batch := none } }) := by
  have e : (commitRecs b.block b.page b.first b.recs { s with commit := { s.commit with batch := none } }).commit.head = some h :=
    (commitRecs_head ..).trans hh
  rw [← withSeqs_map h BatchRec.seq]
  unfold batchPass
  simp only [e]
  rfl

/-- Settles O48: the records by `commitRecs`, the head by the three cases of `LogHead.advance`. -/
theorem batchProgramPasses : Obligations.BatchProgramPasses := by
  intro s d op b h hc hb hh a v n top left headed pass
  have passed := batchPass_eq (s := dieAnswered d s) (b := b) hh
  rw [commitRecs_eq_foldl] at passed
  change _ = moveHostHead { h with topSeq := top } n v at passed
  unfold moveHostHead at passed
  refine ⟨fun hl => effect_batchPass hc hb (passed.trans ?_), fun hl hp => effect_batchPass hc hb (passed.trans ?_),
    fun hl hp => effect_batchPass hc hb (passed.trans ?_), fun _ _ _ => ⟨commitRec_cleaned, commitRec_freed⟩⟩
  · rw [advance_of_not_pageDone (h := { h with topSeq := top }) hl]; rfl
  · rw [advance_of_pageDone (h := { h with topSeq := top }) hl hp]; rfl
  · rw [advance_off_block (h := { h with topSeq := top }) hl hp]
    show blockUpd h.block _ _ = _
    rw [closeSeq_eq]; rfl

end Sys2Proof.Machine
end

section
/-! SUPPORT. Proofs: mode changes, and the start of FREEZE (O30) and FORMAT with the steps of a format (O31, O25). -/
namespace Sys2Proof.Machine

variable {s t : State}

/-! ### Mode changes (R159) -/

/-- The maintenance port's state but for the fault list. -/
def MaintKept (a b : Maint) : Prop := a = { b with faults := a.faults, overflow := a.overflow }

theorem MaintKept.slot {a b : Maint} (h : MaintKept a b) : a.slot = b.slot := by rw [h]
theorem MaintKept.reply {a b : Maint} (h : MaintKept a b) : a.reply = b.reply := by rw [h]
theorem MaintKept.last {a b : Maint} (h : MaintKept a b) : a.last = b.last := by rw [h]
theorem MaintKept.done {a b : Maint} (h : MaintKept a b) : a.done = b.done := by rw [h]
theorem MaintKept.settings {a b : Maint} (h : MaintKept a b) : a.settings = b.settings := by rw [h]

/-- A host access that waits for nothing: there is none, or it is answered (R18). -/
theorem waitsFor_answer (b : Option Byte) (s : State) : waitsFor (answer b s) = none := by
  unfold answer waitsFor setAccess
  cases ha : s.host.access with
  | none => simp only [ha]
  | some a => rfl

theorem waitsFor_endWaitingRead_formatting (s : State) : waitsFor (endWaitingRead .formatting s) = none := by
  unfold endWaitingRead
  split
  · exact waitsFor_answer _ s
  · rename_i h
    simpa using h

theorem answer_maint (b : Option Byte) (s : State) : (answer b s).maint = s.maint := by
  unfold answer; split <;> rfl

theorem endWaitingWrite_maint (m : Mode) (s : State) : MaintKept (endWaitingWrite m s).maint s.maint := by
  unfold endWaitingWrite
  split
  · rw [← answer_maint none s]
    cases m <;> exact rfl
  · exact rfl

theorem endWaitingRead_maint (m : Mode) (s : State) : (endWaitingRead m s).maint = s.maint := by
  unfold endWaitingRead
  split
  · exact answer_maint _ s
  · rfl

/-- No long command is stopped where none runs, or by a change to another mode than DRAINING or READ-ONLY. -/
theorem stopLong_of_idle {m : Mode} (h : s.maint.slot = none ∨ (m ≠ .draining ∧ m ≠ .readOnly)) : stopLong m s = s := by
  rcases h with h | ⟨h1, h2⟩
  · have hr (k : LongKind) : running k s = false := by simp [running, h]
    unfold stopLong
    simp only [hr, Bool.false_eq_true, if_false]
    cases m <;> rfl
  · cases m with
    | draining => exact absurd rfl h1
    | readOnly => exact absurd rfl h2
    | _ => rfl

/-- The host access as a mode change leaves it (R21). -/
def modeHost (m : Mode) (s : State) : HostPort := (endWaitingRead m (endWaitingWrite m s)).host

/-- The maintenance port as a mode change leaves it, but for MODE becoming pending. -/
def modeMaint (m : Mode) (s : State) : Maint := (endWaitingRead m (endWaitingWrite m s)).maint

theorem modeMaint_kept (m : Mode) (s : State) : MaintKept (modeMaint m s) s.maint := by
  unfold modeMaint
  rw [endWaitingRead_maint]
  exact endWaitingWrite_maint m s

/-- What a mode change out of any mode but PARKED does where it stops no long command (R159). -/
theorem setMode_eq {m : Mode} (hm : s.mode ≠ m) (hp : s.mode ≠ .parked)
    (hl : s.maint.slot = none ∨ (m ≠ .draining ∧ m ≠ .readOnly)) :
    setMode m s =
      { s with
        mode := m
        heldReadOnly := if m = .readOnly ∨ m = .unformatted then false else s.heldReadOnly
        drainRunning := decide (m = .draining)
        reclaim := engineMode s.mode m s.reclaim
        host := modeHost m s
        maint := { modeMaint m s with modeChanged := true } } := by
  have hs : stopLong m (endWaitingRead m (endWaitingWrite m s)) = endWaitingRead m (endWaitingWrite m s) :=
    stopLong_of_idle (hl.imp_left fun h => (modeMaint_kept m s).slot.trans h)
  have he : endWaitingRead m (endWaitingWrite m s) = { s with host := modeHost m s, maint := modeMaint m s } := by
    obtain ⟨ho, ma, e⟩ := endWaitingWrite_eq m s
    obtain ⟨ho', e'⟩ := endWaitingRead_eq m (endWaitingWrite m s)
    unfold modeHost modeMaint
    rw [e', e]
  unfold setMode
  rw [if_neg hm]
  dsimp only
  rw [if_neg hp, hs, he]

/-! ### O30: FREEZE -/

theorem mem_setAdd {n k : Nat} {l : List Nat} : k ∈ setAdd n l ↔ k = n ∨ k ∈ l := by
  induction l with
  | nil => simp [setAdd]
  | cons m l ih =>
    unfold setAdd
    split_ifs with h1 h2
    · simp
    · subst h2; simp
    · simp only [List.mem_cons, ih]; tauto

theorem mem_entriesWhere {p : Entry → Bool} {i : Nat} : i ∈ entriesWhere p s ↔ i < 32 ∧ p (entryAt s i) = true := by
  simp [entriesWhere]

theorem entryIn_iff {r : Nat} {e : Entry} :
    entryIn r s e = true ↔ ∃ line q, e.line = some line ∧ regionOf s line = some (r, q) := by
  unfold entryIn
  cases e.line with
  | none => simp
  | some l =>
    cases regionOf s l with
    | none => simp
    | some p => obtain ⟨i, q⟩ := p; simp

theorem freezeRefuses_none {r : Nat} {g : Region} (hg : s.regions[r]? = some g) (hk : g.kind = .once) (hf : r ∉ s.frozen) :
    freezeRefuses r true s = none := by
  simp [freezeRefuses, hg, hk, hf]

theorem longStep_freeze {r : Nat} (hs : s.maint.slot = some (.freeze r)) (hp : s.freeze.phase = .flushing)
    (ht : s.freeze.tracked = []) : longStep s = some (freezePersist s) := by
  simp [longStep, running, hs, LongCmd.kind, hp, ht]

/-- Settles O30: the tests pass, `startFreeze` tracks the region's entries, and `longStep` hands the update over. -/
theorem freezeStartsAndPersists : Obligations.FreezeStartsAndPersists := by
  intro s r hr hm
  refine ⟨fun g hs hg hk hf => ?_, fun hs hp ht => longStep_freeze hs hp ht⟩
  refine ⟨_, setAdd r.toNat s.frozen, fun i => ?_, fun k => mem_setAdd, Effect.of_event rfl hr
    (longRequest_accepted (accepts_active (s := framed 1 s) hm .freeze) hs
      (freezeRefuses_none (s := framed 1 s) hg hk hf))⟩
  rw [mem_entriesWhere]
  simp only [Bool.and_eq_true, Bool.or_eq_true, beq_iff_eq, or_assoc]
  exact and_congr_right fun _ => and_congr_left fun _ => entryIn_iff

end Sys2Proof.Machine
end

section
/-! SUPPORT. Proofs: the tests of FORMAT (O25), its start, and the steps of a format (O31). -/
namespace Sys2Proof.Machine

variable {s t : State}

/-! ### Acceptance (R153, R154) -/

/-- The tests FORMAT makes after mode and slot are passed (R153). -/
theorem formatRefuses_eq {t : List RawRegion} {g : List Region} (hg : readTable t = some g) (hv : validTable g = true) :
    formatRefuses t true s =
      if (s.mount.diesPresent * 256 - 8 - (if s.mode = .unformatted then 0 else s.ident.retired.length)) * 1022 * 3 / 4
          < totalLines g then some .capacity
      else if s.ident.remembered = some (2 ^ 32 - 1) then some .refusedState
      else none := by
  unfold formatRefuses
  simp only [hg, hv, Bool.not_true, Bool.false_eq_true, if_false]
  unfold capacityLimit retiredCounted
  rw [Nat.sub_sub (s.mount.diesPresent * Config.dieBlocks) 2 Config.hostReserve]
  rfl

theorem formatRefuses_invalid {t : List RawRegion} (h : ∀ g, readTable t = some g → validTable g = false) :
    formatRefuses t true s = some .badArgument := by
  unfold formatRefuses
  cases hg : readTable t with
  | none => rfl
  | some g => simp [h g hg]

theorem accepts_format_modes {m : Mode} (h : m = .unformatted ∨ m = .readOnly ∨ m = .active) : accepts m .format = true := by
  rcases h with rfl | rfl | rfl <;> rfl

theorem effect_format_refused {t : List RawRegion} {c : ReplyCode} (hr : s.rstLow = false)
    (hm : s.mode = .unformatted ∨ s.mode = .readOnly ∨ s.mode = .active) (hs : s.maint.slot = none)
    (hf : formatRefuses t true s = some c) :
    Effect (.format t true) s (heldReply c [] (framed (1 + 7 * t.length) s)) :=
  Effect.of_event rfl hr (longRequest_refused (s := framed (1 + 7 * t.length) s) (accepts_format_modes hm) hs hf)

theorem effect_format_accepted {t : List RawRegion} {g : List Region} (hr : s.rstLow = false)
    (hm : s.mode = .unformatted ∨ s.mode = .readOnly ∨ s.mode = .active) (hs : s.maint.slot = none)
    (hf : formatRefuses t true s = none) (hg : readTable t = some g) :
    Effect (.format t true) s (formatAccept g (heldReply .accepted [] (framed (1 + 7 * t.length) s))) := by
  refine Effect.of_event rfl hr
    ((longRequest_accepted (s := framed (1 + 7 * t.length) s) (accepts_format_modes hm) hs hf).trans ?_)
  unfold startFormat
  rw [hg]; rfl

/-- The state of a FORMAT taken into the slot, as the mode becomes FORMATTING. -/
def formatTaken (g : List Region) (s : State) : State :=
  { s with maint := { s.maint with slot := some (.format g) }, heldReadOnly := false }

/-- The dies as step 1 of a format leaves them: their work is stale, and a present die joins the dies in use (R153, R154). -/
def formatDies (s : State) : List DieRec :=
  (s.dies.map (·.markStale fun _ => true)).zipIdx.map fun (d, i) =>
    if d.state = .notUsed ∧ i < s.mount.diesPresent then { d with state := .ready } else d

/-- The state of a format when step 1 has cleared and step 2 begins, before its erases are issued (R13, R42, R82, R131, R151, R153, R154,
R163). -/
def formatCleared (g : List Region) (s : State) : State :=
  { s with
    mode := .formatting
    heldReadOnly := false
    drainRunning := false
    host := modeHost .formatting (formatTaken g s)
    maint := { modeMaint .formatting (formatTaken g s) with modeChanged := true }
    staging := List.replicate Config.entries Entry.cleared
    lru := []
    withheld := []
    flushTracked := []
    trim := { s.trim with tracked := [], waiting := false }
    commit := clearCommit s.commit
    lineMap := []
    regions := g
    frozen := []
    blocks := formatTable s.mount.diesPresent s
    freeList := []
    reclaimCond := true
    boost := true
    dies := formatDies s
    diesInUse := s.mount.diesPresent
    reclaim := Reclaim.initial
    freeze := Freeze.initial
    ident := { s.ident with
      copyA := freshCopy s.ident.copyA
      copyB := freshCopy s.ident.copyB
      descriptor := none, counter := 0, retired := [], persistent := [], queue := [], update := none }
    format := some (newJob ((s.ident.remembered.map (· + 1)).getD 1) s.mount.diesPresent) }

theorem formatAccept_eq (g : List Region) (hf : s.mode ≠ .formatting) (hp : s.mode ≠ .parked) :
    formatAccept g s =
      issue (eraseOp .formatErase .identity (copyBlock .b))
        (issue (eraseOp .formatErase .identity (copyBlock .a)) (formatCleared g s)) := by
  have hset := setMode_eq (s := formatTaken g s) (m := .formatting) hf hp (.inr ⟨by decide, by decide⟩)
  unfold formatAccept
  dsimp only
  rw [show setMode .formatting { s with maint := { s.maint with slot := some (.format g) }, heldReadOnly := false } = _ from hset]
  rfl

/-- Issuing an operation that the reader count does not count changes its die's queue and the ticket alone. -/
theorem issue_uncounted {op : Op} (h : op.role.counted = false) (s : State) :
    issue op s =
      { s with
        dies := s.dies.set op.block.die
          { dieAt s op.block.die with queue := (dieAt s op.block.die).queue ++ [{ op with ticket := s.ticket }] }
        ticket := s.ticket + 1 } := by
  rw [issue_eq, h]; rfl

theorem queue_issue {op : Op} {d : Nat} (h : op.role.counted = false) (hb : op.block.die = d) (hd : d < s.dies.length) :
    (dieAt (issue op s) d).queue = (dieAt s d).queue ++ [{ op with ticket := s.ticket }] := by
  subst hb
  rw [issue_uncounted h]
  exact congrArg DieRec.queue (dieAt_dieUpd_same hd fun r => { r with queue := r.queue ++ [{ op with ticket := s.ticket }] })

theorem formatAccept_queue (g : List Region) (hf : s.mode ≠ .formatting) (hp : s.mode ≠ .parked) (hd : s.dies.length = 4) :
    ((dieAt (formatAccept g s) 0).queue.map fun op => (op.role, op.block, op.cls, op.stale)) =
      ((dieAt s 0).queue.map fun op => (op.role, op.block, op.cls, true)) ++
        [(.formatErase, ⟨0, 0⟩, .identity, false), (.formatErase, ⟨0, 1⟩, .identity, false)] := by
  have hl : (formatDies s).length = 4 := by simp [formatDies, hd]
  have hq : (dieAt (formatCleared g s) 0).queue = (dieAt s 0).queue.map fun op => { op with stale := true } := by
    show ((formatDies s).getD 0 DieRec.unused).queue = (s.dies.getD 0 DieRec.unused).queue.map _
    obtain ⟨d, l, e⟩ : ∃ d l, s.dies = d :: l := by
      cases h : s.dies with
      | nil => rw [h] at hd; cases hd
      | cons d l => exact ⟨d, l, rfl⟩
    unfold formatDies
    rw [e]
    simp only [List.map_cons, List.zipIdx_cons, List.getD_cons_zero]
    split <;> rfl
  rw [formatAccept_eq g hf hp, queue_issue (d := 0) rfl rfl, queue_issue (d := 0) rfl rfl, hq]
  · simp [eraseOp, copyBlock]
  · show 0 < (formatDies s).length
    omega
  · rw [issue_uncounted rfl, List.length_set]
    show 0 < (formatDies s).length
    omega

/-- The two identity erases change the dies and the ticket alone, and stand last in the queue of die 0. -/
theorem formatAccept_keeps (g : List Region) (hf : s.mode ≠ .formatting) (hp : s.mode ≠ .parked) (hd : s.dies.length = 4) :
    ∃ dies ticket, formatAccept g s = { formatCleared g s with dies := dies, ticket := ticket } ∧
      ((dies.getD 0 DieRec.unused).queue.map fun op => (op.role, op.block, op.cls, op.stale)) =
        ((dieAt s 0).queue.map fun op => (op.role, op.block, op.cls, true)) ++
          [(.formatErase, ⟨0, 0⟩, .identity, false), (.formatErase, ⟨0, 1⟩, .identity, false)] :=
  ⟨_, _, by rw [formatAccept_eq g hf hp, issue_uncounted rfl, issue_uncounted rfl], formatAccept_queue g hf hp hd⟩

theorem formatting_enterable {m : Mode} (h : m = .unformatted ∨ m = .readOnly ∨ m = .active) : m ≠ .formatting ∧ m ≠ .parked := by
  rcases h with rfl | rfl | rfl <;> decide

theorem blockKey_mk_lt {d b n : Nat} (hd : d < n) (hb : b < 256) : blockKey ⟨d, b⟩ < n * Config.dieBlocks := by
  show d * 256 + b < n * 256
  omega

/-- The record of a block of a die now in use, other than an identity block, after step 1 of a format (R82). -/
theorem blockGet_formatTable {d b n : Nat} (hd : d < n) (hb : b < 256) (hi : d ≠ 0 ∨ 2 ≤ b) :
    keyGet (blockKey ⟨d, b⟩) (formatTable n s) = some (formatRec (blockGet s ⟨d, b⟩)) := by
  unfold formatTable
  rw [keyGet_range, if_pos (blockKey_mk_lt hd hb), blockAt_blockKey hb]
  have : isIdentityBlock ⟨d, b⟩ = false := by
    simp only [isIdentityBlock, Bool.and_eq_false_iff, beq_eq_false_iff_ne, decide_eq_false_iff_not, not_lt]
    exact hi
  rw [this]
  rfl

/-! ### The steps of a format (R154 to R156) -/

theorem BlockWork.open_iff (w : BlockWork) :
    w.open = true ↔ w = .eraseHeld ∨ w = .eraseWaiting ∨ w = .eraseOut ∨ w = .stampOut := by
  cases w <;> simp [BlockWork.open]

theorem isIdentityBlock_blockAt (k : Nat) : isIdentityBlock (blockAt k) = decide (k < 2) := by
  have : (k / 256 = 0 ∧ k % 256 < 2) ↔ k < 2 := by omega
  simp only [isIdentityBlock, blockAt, ← this, Bool.decide_and]
  rfl

theorem unformattedRec_eq (p : Nat × BlockRec) :
    unformattedRec p =
      if p.1 < 2 then p else (p.1, { p.2 with state := .closed, valid := 0, closeSeq := none, work := .none }) := by
  unfold unformattedRec
  rw [isIdentityBlock_blockAt]
  simp only [decide_eq_true_eq]

/-- What a format that ends UNFORMATTED takes from the array (R13, R48, R82). -/
def formatCut (s : State) : State :=
  reconsiderSpace
    { s with
      format := none, regions := [], lineMap := [], frozen := [], freeList := [], blocks := s.blocks.map unformattedRec,
      commit := { s.commit with seq := none } }

theorem completeLong_of_running {c : LongCmd} (r : Result) (hs : s.maint.slot = some c) :
    completeLong r s = completed c.kind r s := by
  unfold completeLong
  rw [hs]; rfl

theorem formatFailed_eq {g : List Region} (r : Result) (hs : s.maint.slot = some (.format g)) :
    formatFailed r s = setMode .unformatted (completed .format r (formatCut s)) :=
  congrArg (setMode .unformatted) (completeLong_of_running (s := formatCut s) r hs)

/-- Step 5 of a format and the space conditions of step 6 (R75, R156). -/
def formatWritten (j : FormatJob) (s : State) : State :=
  { s with
    format := none
    reclaimCond := decide (s.freeList.length ≤ 12)
    boost := decide (s.freeList.length ≤ 6)
    commit := { s.commit with seq := some 1 }
    ident := { s.ident with
      copyA := { s.ident.copyA with next := if j.wroteA then 2 else s.ident.copyA.next }
      copyB := { s.ident.copyB with next := if j.wroteB then 2 else s.ident.copyB.next }
      persistent := []
      remembered := some j.serial } }

theorem formatDone_eq {j : FormatJob} {g : List Region} (hs : s.maint.slot = some (.format g)) :
    formatDone j s =
      endMode (s.heldReadOnly || j.limitMet)
        (completed .format (if j.limitMet then .medium else .ok) (formatWritten j s)) := by
  have hw : setSpace { identity (fun m =>
      { m with
        copyA := if j.wroteA then { m.copyA with next := 2 } else m.copyA
        copyB := if j.wroteB then { m.copyB with next := 2 } else m.copyB
        persistent := [], remembered := some j.serial }) s with
      format := none, commit := { s.commit with seq := some 1 } } = formatWritten j s := by
    unfold formatWritten
    cases j.wroteA <;> cases j.wroteB <;> rfl
  refine (congrArg (fun t : State => endMode (t.heldReadOnly || j.limitMet)
    (completeLong (if j.limitMet then .medium else .ok) t)) hw).trans ?_
  exact congrArg (endMode _) (completeLong_of_running (s := formatWritten j s) _ hs)

/-- The mode after a mount or a format that ends well or READ-ONLY, with no long command in the slot (R163, R164). -/
theorem endMode_eq (ro : Bool) {high : Bool} (hh : s.pfwHigh = high) (hm : s.mode = .formatting ∨ s.mode = .mounting)
    (hs : s.maint.slot = none) :
    let m : Mode := if high then (if ro then .readOnly else .active) else .parked
    endMode ro s =
      { s with
        mode := m
        heldReadOnly := if high then !ro && s.heldReadOnly else ro
        drainRunning := false
        reclaim := engineMode s.mode m s.reclaim
        host := modeHost m s
        maint := { modeMaint m s with modeChanged := true } } := by
  have hne (m : Mode) (h : m = .readOnly ∨ m = .active ∨ m = .parked) : s.mode ≠ m := by
    rcases hm with k | k <;> rcases h with rfl | rfl | rfl <;> rw [k] <;> decide
  have hp := hne .parked (.inr (.inr rfl))
  cases high with
  | false =>
    refine (if_neg (by rw [hh]; decide)).trans ?_
    rw [setMode_eq hp hp (.inl hs)]
    rfl
  | true =>
    refine (if_pos hh).trans ?_
    cases ro with
    | false => exact setMode_eq (hne _ (.inr (.inl rfl))) hp (.inl hs)
    | true => exact setMode_eq (hne _ (.inl rfl)) hp (.inl hs)

theorem formatStep_erases {j : FormatJob} (hj : s.format = some j) (h : j.step = 2) :
    formatStep s =
      if j.erasesOut = 0 then
        some (if !s.ident.copyA.good && !s.ident.copyB.good then formatFailed .medium s else formatErases s)
      else none := by
  simp [formatStep, hj, h]

theorem formatStep_blocks {j : FormatJob} (hj : s.format = some j) (h : j.step = 3) :
    formatStep s = if ∃ p ∈ s.blocks, p.2.state = .erasing ∧ p.2.work.open = true then none else some (formatWrites j s) := by
  unfold formatStep
  rw [hj]
  refine (if_neg (by omega)).trans ((if_pos h).trans (if_congr ?_ rfl rfl))
  simp only [List.any_eq_true, Bool.and_eq_true, beq_iff_eq]

theorem formatStep_start {j : FormatJob} {c : IdCopy} (hj : s.format = some j) (h : j.step = 4) (hw : j.write = .start c) :
    formatStep s = some (formatStartCopy c s) := by
  simp [formatStep, hj, h, hw]

theorem formatStep_done {j : FormatJob} (hj : s.format = some j) (h : j.step = 4) (hw : j.write = .done) :
    formatStep s = some (if j.wroteA || j.wroteB then formatDone j s else formatFailed .medium s) := by
  simp [formatStep, hj, h, hw]

/-- Settles O31: the start by `formatAccept_keeps`, the steps by the branches of `formatStep`. -/
theorem formatAcceptedClears : Obligations.FormatAcceptedClears := by
  refine ⟨?_, ?_⟩
  · intro s t g hr hsz hm hs hg hv retired hcap hser
    obtain ⟨hnf, hnp⟩ := formatting_enterable hm
    have hf : formatRefuses t true s = none := by
      rw [formatRefuses_eq hg hv, if_neg (Nat.not_lt.2 hcap), if_neg hser]
    have hk := modeMaint_kept .formatting (formatTaken g (heldReply .accepted [] (framed (1 + 7 * t.length) s)))
    obtain ⟨dies, ticket, hacc, hq⟩ :=
      formatAccept_keeps (s := heldReply .accepted [] (framed (1 + 7 * t.length) s)) g hnf hnp hsz.2
    refine ⟨_, effect_format_accepted hr hm hs hf hg, ?_⟩
    rw [hacc]
    exact ⟨rfl, hk.reply, hk.slot, rfl, rfl, rfl, rfl, rfl, rfl, rfl, rfl, rfl, rfl, rfl,
      fun d b hd hb hi => blockGet_formatTable hd hb hi, rfl, rfl, rfl, rfl, rfl, rfl, rfl, rfl, rfl, rfl, rfl, rfl, rfl, rfl, rfl,
      waitsFor_endWaitingRead_formatting _, hk.settings, rfl, rfl, hq⟩
  · intro s j hj open_ fails
    have failed (hf : formatStep s = some (formatFailed .medium s)) : fails := by
      intro g hm hs
      refine ⟨_, hf.trans (congrArg some (formatFailed_eq .medium hs)), ?_⟩
      have hk := modeMaint_kept .unformatted (completed .format .medium (formatCut s))
      rw [setMode_eq (s := completed .format .medium (formatCut s)) (by show s.mode ≠ _; rw [hm]; decide)
        (by show s.mode ≠ _; rw [hm]; decide) (.inl rfl)]
      refine ⟨rfl, rfl, hk.slot, hk.last, hk.done, rfl, rfl, rfl, rfl, ?_⟩
      exact List.map_congr_left fun p _ => unformattedRec_eq p
    refine ⟨fun h2 => ⟨fun he => ?_, fun he hc => ?_, fun he ha hb => failed ?_⟩, fun h3 => ⟨fun ho => ?_, fun ho => ?_⟩,
      fun h4 => ⟨fun c d hw hd => ⟨fun hc => ?_, fun hc => ?_⟩, fun hw => ⟨fun ha hb => failed ?_, ?_⟩⟩⟩
    · rw [formatStep_erases hj h2, if_neg he]
    · have hg : (!s.ident.copyA.good && !s.ident.copyB.good) = false := by rcases hc with h | h <;> simp [h]
      rw [formatStep_erases hj h2, if_pos he, hg]
      simp [formatErases, job, hj]
    · rw [formatStep_erases hj h2, if_pos he, ha, hb]; rfl
    · obtain ⟨p, hp, hs, hw⟩ := ho
      rw [formatStep_blocks hj h3, if_pos ⟨p, hp, hs, (BlockWork.open_iff _).2 hw⟩]
    · rw [formatStep_blocks hj h3, if_neg fun ⟨p, hp, hs, hw⟩ => ho p hp ⟨hs, (BlockWork.open_iff _).1 hw⟩]
      simp [formatWrites, job, identity, hj]
    · rw [formatStep_start hj h4 hw]
      simp [formatStartCopy, hc, hd, job, hj]
    · rw [formatStep_start hj h4 hw]
      cases c <;> simp [formatStartCopy, hc, job, hj, nextWrite]
    · rw [formatStep_done hj h4 hw, ha, hb]; rfl
    · intro g hab hm hs ro
      have hor : (j.wroteA || j.wroteB) = true := by rcases hab with h | h <;> simp [h]
      have hk := modeMaint_kept (if s.pfwHigh then (if s.heldReadOnly || j.limitMet then .readOnly else .active) else .parked)
        (completed .format (if j.limitMet then .medium else .ok) (formatWritten j s))
      refine ⟨_, (formatStep_done hj h4 hw).trans (congrArg some ((if_pos hor).trans
        ((formatDone_eq hs).trans (endMode_eq _ rfl (.inl hm) rfl)))), rfl, rfl, rfl, rfl, rfl, hk.slot, hk.last, hk.done, rfl, ?_⟩
      show (if s.pfwHigh then !ro && s.heldReadOnly else ro) = _
      cases s.pfwHigh
      · simp
      · show (!(s.heldReadOnly || j.limitMet) && s.heldReadOnly) = _
        cases s.heldReadOnly <;> simp

end Sys2Proof.Machine
end

section
/-! SUPPORT. Proofs: the region table of a FORMAT (O25). -/
namespace Sys2Proof.Machine

variable {s : State}

/-! ### Region tables (R2, R3) -/

/-- The region a raw entry of PLAIN or ONCE kind stands for. -/
def rawRegion (r : RawRegion) : Region := ⟨if r.kind = 0 then .plain else .once, r.base.toNat, r.count.toNat⟩

/-- The kind byte is PLAIN or ONCE (R191). -/
def kindKnown (r : RawRegion) : Prop := r.kind = 0 ∨ r.kind = 1

theorem readRegion_of_known {r : RawRegion} (h : kindKnown r) : readRegion r = some (rawRegion r) := by
  unfold readRegion rawRegion
  rcases h with h | h <;> rw [h] <;> rfl

theorem readRegion_of_unknown {r : RawRegion} (h : ¬ kindKnown r) : readRegion r = none := by
  unfold readRegion
  rw [if_neg fun k => h (.inl k), if_neg fun k => h (.inr k)]

theorem readTable_cons (r : RawRegion) (t : List RawRegion) :
    readTable (r :: t) = (readRegion r).bind fun a => (readTable t).map (a :: ·) := by
  unfold readTable
  rw [List.mapM_cons]
  cases readRegion r with
  | none => rfl
  | some a => cases List.mapM readRegion t <;> rfl

theorem readTable_of_known {t : List RawRegion} (h : ∀ r ∈ t, kindKnown r) :
    readTable t = some (t.map rawRegion) := by
  induction t with
  | nil => rfl
  | cons r t ih =>
    rw [readTable_cons, readRegion_of_known (h r List.mem_cons_self), ih fun q hq => h q (List.mem_cons_of_mem r hq)]
    rfl

theorem known_of_readTable {t : List RawRegion} {g : List Region} (h : readTable t = some g) : ∀ r ∈ t, kindKnown r := by
  induction t generalizing g with
  | nil => intro r hr; cases hr
  | cons r t ih =>
    rw [readTable_cons] at h
    obtain ⟨a, ha, h⟩ := Option.bind_eq_some_iff.1 h
    obtain ⟨l, hl, -⟩ := Option.map_eq_some_iff.1 h
    intro q hq
    rcases List.mem_cons.1 hq with rfl | hq
    · by_contra hk
      rw [readRegion_of_unknown hk] at ha
      cases ha
    · exact ih hl q hq

theorem regionsApart_iff (g : List Region) : regionsApart g = true ↔ g.Pairwise fun a b => regionsMeet a b = false := by
  induction g with
  | nil => simp [regionsApart]
  | cons r g ih => simp [regionsApart, ih]

/-- Two regions of at least one line each share no line (R3). -/
theorem regionsMeet_eq_false {a b : Region} (ha : 1 ≤ a.count) (hb : 1 ≤ b.count) :
    regionsMeet a b = false ↔
      ∀ l, ¬ ((a.base ≤ l ∧ l < a.base + a.count) ∧ b.base ≤ l ∧ l < b.base + b.count) := by
  unfold regionsMeet
  rw [Bool.and_eq_false_iff, decide_eq_false_iff_not, decide_eq_false_iff_not]
  refine ⟨fun h l => by omega, fun h => ?_⟩
  have := h (max a.base b.base)
  omega

/-- R3 said of the entries a FORMAT carries. -/
def GoodTable (t : List RawRegion) : Prop :=
  1 ≤ t.length ∧ t.length ≤ 8 ∧
    (∀ r ∈ t, (r.kind = 0 ∨ r.kind = 1) ∧ 1 ≤ r.count.toNat ∧ r.base.toNat + r.count.toNat ≤ 262144) ∧
    t.Pairwise fun a b => ∀ l, ¬ ((a.base.toNat ≤ l ∧ l < a.base.toNat + a.count.toNat) ∧
      b.base.toNat ≤ l ∧ l < b.base.toNat + b.count.toNat)

theorem validTable_region_iff {t : List RawRegion} (h : ∀ r ∈ t, kindKnown r) :
    validTable (t.map rawRegion) = true ↔ GoodTable t := by
  unfold validTable GoodTable
  simp only [Bool.and_eq_true, decide_eq_true_eq, List.length_map, List.all_eq_true, List.forall_mem_map, regionsApart_iff,
    List.pairwise_map]
  rw [and_assoc, and_assoc]
  refine and_congr_right fun _ => and_congr_right fun _ => ?_
  have hr : (∀ r ∈ t, 1 ≤ (rawRegion r).count ∧ (rawRegion r).base + (rawRegion r).count ≤ Config.lines) ↔
      ∀ r ∈ t, (r.kind = 0 ∨ r.kind = 1) ∧ 1 ≤ r.count.toNat ∧ r.base.toNat + r.count.toNat ≤ 262144 :=
    forall₂_congr fun r hr => (and_iff_right (h r hr)).symm
  rw [hr]
  refine and_congr_right fun hc => List.Pairwise.iff_of_mem fun {a b} ha hb => ?_
  exact regionsMeet_eq_false (a := rawRegion a) (b := rawRegion b) (hc a ha).2.1 (hc b hb).2.1

/-- A table is read and valid exactly where it meets R3. -/
theorem goodTable_iff {t : List RawRegion} :
    GoodTable t ↔ readTable t = some (t.map rawRegion) ∧ validTable (t.map rawRegion) = true := by
  refine ⟨fun h => ?_, fun h => (validTable_region_iff (known_of_readTable h.1)).1 h.2⟩
  have hk : ∀ r ∈ t, kindKnown r := fun r hr => (h.2.2.1 r hr).1
  exact ⟨readTable_of_known hk, (validTable_region_iff hk).2 h⟩

theorem invalid_of_not_good {t : List RawRegion} (h : ¬ GoodTable t) (g : List Region) (hg : readTable t = some g) :
    validTable g = false := by
  have hk := known_of_readTable hg
  rw [readTable_of_known hk] at hg
  cases hg
  exact Bool.eq_false_iff.2 fun hv => h ((validTable_region_iff hk).1 hv)

theorem totalLines_region (t : List RawRegion) :
    totalLines (t.map rawRegion) = (t.map fun r => r.count.toNat).sum := by
  unfold totalLines
  rw [List.map_map]
  rfl

/-- Settles O25, by the outcomes of `formatRefuses`. -/
theorem formatTestsRegionTable : Obligations.FormatTestsRegionTable := by
  intro s t hr hm hs f covers good lines retired limit
  refine ⟨fun hb => effect_format_refused hr hm hs (formatRefuses_invalid (invalid_of_not_good hb)), fun hg hl => ?_,
    fun hg hl hser => ?_⟩
  · obtain ⟨hread, hv⟩ := goodTable_iff.1 hg
    refine effect_format_refused hr hm hs ((formatRefuses_eq hread hv).trans (if_pos ?_))
    rw [totalLines_region]
    exact hl
  · obtain ⟨hread, hv⟩ := goodTable_iff.1 hg
    have hf : formatRefuses t true s = none := by
      rw [formatRefuses_eq hread hv, totalLines_region, if_neg (Nat.not_lt.2 hl), if_neg hser]
    obtain ⟨hnf, hnp⟩ := formatting_enterable hm
    refine ⟨_, effect_format_accepted hr hm hs hf hread, ?_⟩
    have hk := modeMaint_kept .formatting (formatTaken (t.map rawRegion) (heldReply .accepted [] f))
    rw [formatAccept_eq (s := heldReply .accepted [] f) _ hnf hnp, issue_uncounted rfl, issue_uncounted rfl]
    exact ⟨rfl, hk.slot⟩

end Sys2Proof.Machine
end

section
/-! SUPPORT. Proofs: the records of GET LINE and GET BLOCK field by field (O21). -/
namespace Sys2Proof.Machine

variable {s : State}

/-! ### Records of stated and unstated bytes (R191) -/

/-- A record states these bytes from an offset on. -/
def states (record : List (Option Byte)) (offset : Nat) (bytes : List Byte) : Prop :=
  ∀ i b, bytes[i]? = some b → record[offset + i]? = some (some b)

theorem length_fillRecord (n : Nat) (record : List (Option Byte)) : (fillRecord n record).length = record.length := by
  induction record generalizing n with
  | nil => rfl
  | cons x l ih => cases x <;> simp [fillRecord, ih]

/-- A stated byte stands in the reply whatever the free values are. -/
theorem fillRecord_stated {record : List (Option Byte)} {j : Nat} {b : Byte} (h : record[j]? = some (some b)) (n : Nat) :
    (fillRecord n record)[j]? = some b := by
  induction record generalizing n j with
  | nil => cases h
  | cons x l ih =>
    cases j with
    | zero =>
      obtain rfl : x = some b := by simpa using h
      rfl
    | succ j => cases x <;> exact ih (by simpa using h) _

theorem hasField_of_states {record : List (Option Byte)} {offset : Nat} {bytes : List Byte} (h : states record offset bytes)
    (n : Nat) : hasField (fillRecord n record) offset bytes := by
  refine List.ext_getElem? fun i => ?_
  rw [List.getElem?_take, List.getElem?_drop]
  split
  · rename_i hi
    have hb := List.getElem?_eq_getElem hi
    rw [hb, fillRecord_stated (h i _ hb)]
  · rename_i hi
    exact (List.getElem?_eq_none (Nat.not_lt.1 hi)).symm

theorem states_stated (bytes : List Byte) (more : List (Option Byte)) : states (stated bytes ++ more) 0 bytes := by
  intro i b h
  have hl : i < bytes.length := (List.getElem?_eq_some_iff.1 h).1
  rw [Nat.zero_add, List.getElem?_append_left (by simpa [stated] using hl)]
  simp [stated, h]

theorem states_stated_all (bytes : List Byte) : states (stated bytes) 0 bytes := by
  simpa using states_stated bytes []

theorem states_append {record : List (Option Byte)} {offset : Nat} {a b : List Byte} (ha : states record offset a)
    (hb : states record (offset + a.length) b) : states record offset (a ++ b) := by
  intro i x h
  by_cases hi : i < a.length
  · rw [List.getElem?_append_left hi] at h
    exact ha i x h
  · rw [List.getElem?_append_right (Nat.not_lt.1 hi)] at h
    have := hb _ x h
    rwa [Nat.add_assoc, Nat.add_sub_cancel' (Nat.not_lt.1 hi)] at this

/-- What a field states, the record of its fields states behind the fields before it. -/
theorem states_flatten {fields : List (List (Option Byte))} {f : List (Option Byte)} {i k : Nat} {bytes : List Byte}
    (hf : fields[i]? = some f) (h : states f 0 bytes) (hk : ((fields.take i).map List.length).sum = k) :
    states fields.flatten k bytes := by
  subst hk
  induction fields generalizing i with
  | nil => cases hf
  | cons g l ih =>
    intro j b hb
    cases i with
    | zero =>
      obtain rfl : g = f := by simpa using hf
      have hg := h j b hb
      have hj := (List.getElem?_eq_some_iff.1 hg).1
      show (g ++ l.flatten)[0 + j]? = _
      rw [List.getElem?_append_left hj, hg]
    | succ i =>
      have := ih (i := i) (by simpa using hf) j b hb
      rw [List.flatten_cons, List.take_succ_cons, List.map_cons, List.sum_cons, Nat.add_assoc,
        List.getElem?_append_right (Nat.le_add_right _ _), Nat.add_sub_cancel_left]
      exact this

/-! ### The fields (R191) -/

theorem numBytes_eq_spelled (k n : Nat) : numBytes k n = spelled k n := by
  induction k with
  | zero => rfl
  | succ k ih =>
    unfold spelled
    rw [List.range_succ_eq_map, List.map_cons, List.map_map]
    show BitVec.ofNat 8 (n / 256 ^ k) :: numBytes k n = _
    rw [ih]
    unfold spelled
    congr 1
    refine List.map_congr_left fun i hi => ?_
    have : k + 1 - 1 - (i + 1) = k - 1 - i := by omega
    show _ = BitVec.ofNat 8 (n / 256 ^ (k + 1 - 1 - (i + 1)))
    rw [this]

theorem numField_of_lt {k n : Nat} (h : n < 256 ^ k) : numField k n = stated (spelled k n) := by
  rw [← numBytes_eq_spelled]
  exact if_pos h

@[simp] theorem length_stated (l : List Byte) : (stated l).length = l.length := by simp [stated]
@[simp] theorem length_unstated (n : Nat) : (unstated n).length = n := by simp [unstated]
@[simp] theorem length_spelled (k n : Nat) : (spelled k n).length = k := by simp [spelled]
@[simp] theorem length_byteField (n : Nat) : (byteField n).length = 1 := rfl
@[simp] theorem length_flagField (b : Bool) : (flagField b).length = 1 := rfl

@[simp] theorem length_numField (k n : Nat) : (numField k n).length = k := by
  unfold numField
  split
  · simp [numBytes_eq_spelled]
  · simp

@[simp] theorem length_optField (k : Nat) (n : Option Nat) : (optField k n).length = k := by
  cases n <;> simp [optField]

@[simp] theorem length_blockField (b : Option BlockId) : (blockField b).length = 2 := by
  cases b <;> simp [blockField]

@[simp] theorem length_locField (l : Option Loc) : (locField l).length = 4 := by
  cases l <;> simp [locField]

@[simp] theorem length_regionField (s : State) (l : Nat) : (regionField s l).length = 2 := by
  unfold regionField
  split <;> simp

@[simp] theorem length_entryField (s : State) (l : Nat) : (entryField s l).length = 3 := by
  unfold entryField
  split <;> simp

theorem spelled_one (n : Nat) : spelled 1 n = [BitVec.ofNat 8 n] := by simp [spelled]

theorem states_byteField (n : Nat) : states (byteField n) 0 [BitVec.ofNat 8 n] := states_stated_all _

theorem states_numField {k n : Nat} (h : n < 256 ^ k) : states (numField k n) 0 (spelled k n) := by
  rw [numField_of_lt h]
  exact states_stated_all _

/-! ### Regions and lists (R2, R191) -/

theorem regionCovers_iff {r : Region} {l : Nat} : regionCovers r l = true ↔ r.base ≤ l ∧ l < r.base + r.count := by
  simp [regionCovers]

theorem regionFrom_of_first {l : Nat} {rs : List Region} {i : Nat} {r : Region} (hi : rs[i]? = some r)
    (hc : regionCovers r l = true) (hn : ∀ j q, j < i → rs[j]? = some q → ¬ regionCovers q l = true) (n : Nat) :
    regionFrom l n rs = some (n + i, r) := by
  induction rs generalizing i n with
  | nil => cases hi
  | cons q rs ih =>
    cases i with
    | zero =>
      obtain rfl : q = r := by simpa using hi
      simp [regionFrom, hc]
    | succ i =>
      have hq : regionCovers q l = false := Bool.eq_false_iff.2 (hn 0 q (Nat.succ_pos i) rfl)
      have := ih (i := i) (by simpa using hi) (fun j p hj hp => hn (j + 1) p (Nat.succ_lt_succ hj) (by simpa using hp)) (n + 1)
      simp only [regionFrom, hq, Bool.false_eq_true, if_false, this]
      rw [Nat.add_assoc, Nat.add_comm 1 i]

theorem regionFrom_of_none {l : Nat} {rs : List Region} (h : ∀ r ∈ rs, ¬ regionCovers r l = true) (n : Nat) :
    regionFrom l n rs = none := by
  induction rs generalizing n with
  | nil => rfl
  | cons q rs ih =>
    rw [regionFrom, if_neg (h q List.mem_cons_self)]
    exact ih (fun r hr => h r (List.mem_cons_of_mem q hr)) _

theorem placeOf_of_first {b : BlockId} {front back : List BlockId} (h : b ∉ front) :
    placeOf b (front ++ b :: back) = some front.length := by
  unfold placeOf
  induction front with
  | nil => simp [List.findIdx?_cons]
  | cons a l ih =>
    obtain ⟨hne, hl⟩ := not_or.1 (mt List.mem_cons.2 h)
    have : (a == b) = false := beq_eq_false_iff_ne.2 (Ne.symm hne)
    simp [List.findIdx?_cons, this, ih hl]

/-! ### The line record (R17) -/

/-- The fields of a line record, in their order. -/
def lineFields (s : State) (l : Nat) : List (List (Option Byte)) :=
  [numField 3 l, regionField s l, flagField (isFrozen s l), byteField (mapGet s l).state.code, locField (mapGet s l).state.loc,
    numField 5 ((mapGet s l).state.seq.getD 0), byteField (mapGet s l).stamps, entryField s l]

theorem lineRecord_eq (s : State) (l : Nat) : lineRecord s l = (lineFields s l).flatten := by
  simp [lineRecord, lineFields, List.append_assoc]

theorem length_lineRecord (s : State) (l : Nat) : (lineRecord s l).length = 20 := by simp [lineRecord_eq, lineFields]

/-- What a field of a line record states, the record states at the field's offset. -/
theorem states_lineRecord {l i k : Nat} {f : List (Option Byte)} {bytes : List Byte} (hf : (lineFields s l)[i]? = some f)
    (h : states f 0 bytes) (hk : (((lineFields s l).take i).map List.length).sum = k) : states (lineRecord s l) k bytes := by
  rw [lineRecord_eq]
  exact states_flatten hf h hk

theorem regionOf_of_first {l i : Nat} {r : Region} (hi : s.regions[i]? = some r) (hc : regionCovers r l = true)
    (hn : ∀ j q, j < i → s.regions[j]? = some q → ¬ regionCovers q l = true) : regionOf s l = some (i, r) := by
  simpa [regionOf] using regionFrom_of_first hi hc hn 0

theorem regionOf_of_none {l : Nat} (h : ∀ r ∈ s.regions, ¬ regionCovers r l = true) : regionOf s l = none :=
  regionFrom_of_none h 0

theorem states_regionField_some {l i : Nat} {r : Region} (h : regionOf s l = some (i, r)) :
    states (regionField s l) 0 [BitVec.ofNat 8 i, BitVec.ofNat 8 (regionCode r.kind)] := by
  simp only [regionField, h]
  exact states_stated_all _

theorem states_regionField_none {l : Nat} (h : regionOf s l = none) : states (regionField s l) 0 [0xFF, 0xFF] := by
  simp only [regionField, h]
  exact states_stated_all _

theorem states_locField_some (l : Loc) :
    states (locField (some l)) 0 [BitVec.ofNat 8 l.die, BitVec.ofNat 8 l.block, BitVec.ofNat 8 l.page, BitVec.ofNat 8 l.slot] :=
  states_stated_all _

theorem states_locField_none : states (locField none) 0 [0xFF] := states_stated _ _

theorem states_entryField_some {l i : Nat} (h : currentEntry s l = some i) :
    states (entryField s l) 0
      [BitVec.ofNat 8 i, BitVec.ofNat 8 (entryAt s i).state.code, BitVec.ofNat 8 (kindCode (entryAt s i).kind)] := by
  simp only [entryField, h]
  exact states_stated_all _

theorem states_entryField_none {l : Nat} (h : currentEntry s l = none) : states (entryField s l) 0 [0xFF] := by
  simp only [entryField, h]
  exact states_stated _ _

/-! ### The block record (R83) -/

/-- The fields of a block record, in their order. -/
def blockFields (s : State) (b : BlockId) (r : BlockRec) : List (List (Option Byte)) :=
  [blockField (some b), byteField r.state.code, numField 2 r.valid, byteField (blockFlags s b r), optField 4 r.eraseCount,
    optField 5 r.closeSeq, numField 1 r.readers, optField 2 (placeOf b s.freeList), optField 2 (placeOf b s.reclaim.reloc)]

theorem blockRecord_eq (s : State) (b : BlockId) (r : BlockRec) : blockRecord s b r = (blockFields s b r).flatten := by
  simp [blockRecord, blockFields, List.append_assoc]

theorem length_blockRecord (s : State) (b : BlockId) (r : BlockRec) : (blockRecord s b r).length = 20 := by
  simp [blockRecord_eq, blockFields]

/-- What a field of a block record states, the record states at the field's offset. -/
theorem states_blockRecord {b : BlockId} {r : BlockRec} {i k : Nat} {f : List (Option Byte)} {bytes : List Byte}
    (hf : (blockFields s b r)[i]? = some f) (h : states f 0 bytes)
    (hk : (((blockFields s b r).take i).map List.length).sum = k) : states (blockRecord s b r) k bytes := by
  rw [blockRecord_eq]
  exact states_flatten hf h hk

theorem states_optField {k n : Nat} {o : Option Nat} (ho : o = some n) (h : n < 256 ^ k) :
    states (optField k o) 0 (spelled k n) := by
  subst ho
  exact states_numField h

/-! ### The requests (R17, R83, R187) -/

theorem accepts_getLine {m : Mode} (h1 : m ≠ .mounting) (h2 : m ≠ .parked) : accepts m .getLine = true := by
  cases m with
  | mounting => exact absurd rfl h1
  | parked => exact absurd rfl h2
  | unformatted | formatting | active | readOnly | draining => rfl

theorem accepts_getBlock {m : Mode} (h1 : m ≠ .mounting) (h2 : m ≠ .parked) : accepts m .getBlock = true := by
  cases m with
  | mounting => exact absurd rfl h1
  | parked => exact absurd rfl h2
  | unformatted | formatting | active | readOnly | draining => rfl

/-- GET LINE of a line of the space: the reply (R17). -/
theorem getLine_reports {line : BitVec 24} (hl : line.toNat < 262144) (t : State) :
    getLine line t = replyRecord (lineRecord t line.toNat) t := if_pos hl

theorem getBlock_reports {die block : Byte} {r : BlockRec} {t : State} (hd : die.toNat < t.diesInUse)
    (hr : blockGet t ⟨die.toNat, block.toNat⟩ = some r) :
    getBlock die block t = replyRecord (blockRecord t ⟨die.toNat, block.toNat⟩ r) t := by
  simp only [getBlock, hd, hr, if_true]

/-- Settles O21. Both records are the concatenation of their fields, so a field stands behind the lengths of those before it; the free
values fill the unstated bytes alone. -/
theorem getLineAndBlockReport : Obligations.GetLineAndBlockReport := by
  unfold Obligations.GetLineAndBlockReport
  intro s hr hm hp report bit
  refine ⟨fun line => ?_, fun die block => ?_⟩
  · intro l covers data has
    have hgo : frame 3 (shortRequest .getLine (getLine line)) s = getLine line (framed 3 s) :=
      shortRequest_taken (accepts_getLine hm hp)
    have hstates : ∀ {k bytes}, states (lineRecord s l) k bytes → has k bytes := fun h => hasField_of_states h _
    refine ⟨fun hl => ?_, fun hl => exec_of_quick rfl hr (hgo.trans (if_neg (Nat.not_lt.2 hl)))⟩
    refine ⟨exec_of_quick rfl hr (hgo.trans (getLine_reports hl _)), (length_fillRecord _ _).trans (length_lineRecord s l),
      hstates (states_lineRecord (i := 0) rfl (states_numField line.isLt) rfl), ?_, ?_, ?_, ?_, ?_, ?_, ?_, ?_⟩
    · intro i r hi hc hn
      have hreg : regionOf s l = some (i, r) :=
        regionOf_of_first hi (regionCovers_iff.2 hc) fun j q hj hq => mt regionCovers_iff.1 (hn j q hj hq)
      refine ⟨?_, ?_⟩
      · have := hstates (states_lineRecord (i := 1) rfl (states_regionField_some hreg) (k := 3) (by simp [lineFields]))
        cases hk : r.kind <;> simpa [hk, regionCode] using this
      · have := hstates (states_lineRecord (i := 2) rfl (states_byteField _) (k := 5) (by simp [lineFields]))
        by_cases hf : i ∈ s.frozen <;> simpa [isFrozen, hreg, hf] using this
    · intro hno
      have hreg : regionOf s l = none := regionOf_of_none fun r hr' => mt regionCovers_iff.1 (hno r hr')
      have hfirst := states_lineRecord (i := 1) rfl (states_regionField_none hreg) (k := 3) (by simp [lineFields])
      have hlast := states_lineRecord (s := s) (l := l) (i := 2) rfl (states_byteField _) (k := 5) (by simp [lineFields])
      have : states (lineRecord s l) 5 [0] := by simpa [isFrozen, hreg] using hlast
      exact hstates (states_append hfirst this)
    · have := hstates (states_lineRecord (i := 3) rfl (states_byteField _) (k := 6) (by simp [lineFields]))
      cases hst : (mapGet s l).state <;> simpa [hst, MapState.code] using this
    · intro loc q hst
      have hloc : (mapGet s l).state.loc = some loc ∧ (mapGet s l).state.seq = some q := by
        rcases hst with hst | hst <;> simp [hst, MapState.loc, MapState.seq]
      refine ⟨hstates (states_lineRecord (i := 4) rfl ?_ (k := 7) (by simp [lineFields])), fun hq =>
        hstates (states_lineRecord (i := 5) rfl ?_ (k := 11) (by simp [lineFields]))⟩
      · rw [hloc.1]
        exact states_locField_some loc
      · rw [hloc.2]
        exact states_numField hq
    · intro hno
      have hseq : (mapGet s l).state.seq = none := by
        cases hst : (mapGet s l).state <;> simp [hst, MapState.loc, MapState.seq] at hno ⊢
      refine ⟨hstates (states_lineRecord (i := 4) rfl ?_ (k := 7) (by simp [lineFields])),
        hstates (states_lineRecord (i := 5) rfl ?_ (k := 11) (by simp [lineFields]))⟩
      · rw [hno]
        exact states_locField_none
      · rw [hseq]
        exact states_numField (by decide)
    · rw [spelled_one]
      exact hstates (states_lineRecord (i := 6) rfl (states_byteField _) (by simp [lineFields]))
    · intro i hi
      have := hstates (states_lineRecord (i := 7) rfl (states_entryField_some hi) (k := 17) (by simp [lineFields]))
      cases hst : (entryAt s i).state <;> cases hk : (entryAt s i).kind <;>
        simpa [hst, hk, EntryState.code, kindCode] using this
    · intro hno
      exact hstates (states_lineRecord (i := 7) rfl (states_entryField_none hno) (by simp [lineFields]))
  · intro b
    have hgo : frame 2 (shortRequest .getBlock (getBlock die block)) s = getBlock die block (framed 2 s) :=
      shortRequest_taken (accepts_getBlock hm hp)
    refine ⟨?_, fun hd => exec_of_quick rfl hr (hgo.trans (if_neg (Nat.not_lt.2 hd)))⟩
    intro r hd hrec data has
    have hstates : ∀ {k bytes}, states (blockRecord s b r) k bytes → has k bytes := fun h => hasField_of_states h _
    refine ⟨exec_of_quick rfl hr (hgo.trans (getBlock_reports hd hrec)),
      (length_fillRecord _ _).trans (length_blockRecord s b r), ?_, ?_, ?_, ?_, ?_, ?_, ?_, ?_, ?_⟩
    · have := hstates (states_blockRecord (i := 0) rfl (states_stated_all [BitVec.ofNat 8 b.die, BitVec.ofNat 8 b.block]) rfl)
      simpa [b] using this
    · have := hstates (states_blockRecord (i := 1) rfl (states_byteField _) (k := 2) (by simp [blockFields]))
      cases hst : r.state <;> simpa [hst, BlockState.code] using this
    · exact fun hv => hstates (states_blockRecord (i := 2) rfl (states_numField hv) (by simp [blockFields]))
    · have := hstates (states_blockRecord (i := 3) rfl (states_byteField _) (k := 5) (by simp [blockFields]))
      rw [spelled_one]
      simpa [blockFlags, bit] using this
    · exact fun c hc h => hstates (states_blockRecord (i := 4) rfl (states_optField hc h) (by simp [blockFields]))
    · exact fun q hq h => hstates (states_blockRecord (i := 5) rfl (states_optField hq h) (by simp [blockFields]))
    · exact fun h => hstates (states_blockRecord (i := 6) rfl (states_numField h) (by simp [blockFields]))
    · intro front back hl hb h
      have hplace : placeOf b s.freeList = some front.length := hl ▸ placeOf_of_first hb
      exact hstates (states_blockRecord (i := 7) rfl (states_optField hplace h) (by simp [blockFields]))
    · intro front back hl hb h
      have hplace : placeOf b s.reclaim.reloc = some front.length := hl ▸ placeOf_of_first hb
      exact hstates (states_blockRecord (i := 8) rfl (states_optField hplace h) (by simp [blockFields]))

end Sys2Proof.Machine
end

section
/-! SUPPORT. Proofs: copy programs and the engine's choice of work (O50). -/
namespace Sys2Proof.Machine

variable {s : State}

/-! ### A copy program is answered (R125, R126) -/

/-- What the engine keeps when its copy program is over. -/
def Reclaim.over (r : Reclaim) : Reclaim :=
  { r with buffer := [], programOut := false, state := if r.state = .programming then .idle else r.state }

theorem programOver_eq (s : State) : programOver s = { s with reclaim := s.reclaim.over } := rfl

theorem copyRecs_eq_foldl (b : BlockId) (page first : Nat) (recs : List CopyRec) (s : State) :
    copyRecs b page first recs s =
      recs.zipIdx.foldl (fun x p => copyToMap p.1.line p.1.source (locIn b page (first + p.2)) x) s :=
  slots_fold (fun loc (c : CopyRec) x => copyToMap c.line c.source loc x) copyRecs b page (fun _ _ => rfl) (fun _ _ _ _ => rfl)
    recs first 0 s

theorem copyRecs_reclaim (b : BlockId) (page : Nat) (recs : List CopyRec) (slot : Nat) (s : State) :
    (copyRecs b page slot recs s).reclaim = s.reclaim := by
  induction recs generalizing slot s with
  | nil => rfl
  | cons c recs ih => exact (ih (slot + 1) _).trans (copyToMap_same c.line c.source _ s)

/-- The copy head after a passed program of `n` records: moved on by R119, or gone with its block CLOSED. -/
def moveCopyHead (h : LogHead) (n : Nat) (s : State) : State :=
  match h.advance n with
  | some x => engine (fun r => { r with head := some x }) s
  | none => closeHead h (engine (fun r => { r with head := none }) s)

theorem copyPass_eq (src : Source) (h : LogHead) (s : State) :
    copyPass src h s =
      groupOver src
        (moveCopyHead { h with topSeq := s.reclaim.buffer.foldl (fun m c => some (max c.seq (m.getD 0))) h.topSeq }
          s.reclaim.buffer.length
          { copyRecs h.block h.page h.next s.reclaim.buffer s with reclaim := s.reclaim.over }) := by
  have e := programOver_eq (copyRecs h.block h.page h.next s.reclaim.buffer s)
  rw [copyRecs_reclaim] at e
  rw [← withSeqs_map h CopyRec.seq, ← e]
  rfl

theorem effect_copyProgram {t : State} {d : Nat} {op : Op} {st : Status} (hc : carries d op .copyProgram s)
    (ht : onCopyProgram st (dieAnswered d s) = t) : Effect (.copyProgramAnswer d st) s t := by
  refine effect_status rfl hc rfl ?_
  unfold deliverStatus
  rw [hc.2.2.2, hc.2.2.1]
  exact ht

theorem onCopyProgram_pass {src : Source} {h : LogHead} (hs : s.reclaim.source = some src) (hh : s.reclaim.head = some h) :
    onCopyProgram .pass s = copyPass src h s := by
  simp only [onCopyProgram, hs, hh]

theorem onCopyProgram_fail {src : Source} {h : LogHead} (hs : s.reclaim.source = some src) (hh : s.reclaim.head = some h) :
    onCopyProgram .fail s = copyFail src h s := by
  simp only [onCopyProgram, hs, hh]

/-- A passed copy program, by what becomes of the copy head. -/
theorem effect_copyPass {t : State} {d : Nat} {op : Op} {src : Source} {h : LogHead} (hc : carries d op .copyProgram s)
    (hs : s.reclaim.source = some src) (hh : s.reclaim.head = some h)
    (ht : moveCopyHead { h with topSeq := s.reclaim.buffer.foldl (fun m c => some (max c.seq (m.getD 0))) h.topSeq }
      s.reclaim.buffer.length
      { s.reclaim.buffer.zipIdx.foldl (fun x p => copyToMap p.1.line p.1.source (locIn h.block h.page (h.next + p.2)) x)
          (dieAnswered d s) with reclaim := s.reclaim.over } = t) :
    Effect (.copyProgramAnswer d .pass) s (groupOver src t) := by
  refine effect_copyProgram hc ((onCopyProgram_pass (s := dieAnswered d s) hs hh).trans ?_)
  rw [copyPass_eq, copyRecs_eq_foldl]
  exact congrArg (groupOver src) ht

/-! ### A group is over (R123, R126) -/

theorem groupOver_goesOn {src : Source} (h : s.reclaim.readCursor src ≠ 1024) :
    groupOver src s =
      { s with reclaim := s.reclaim.setCursors src (s.reclaim.readCursor src) (s.reclaim.readCursor src) } := if_neg h

theorem groupOver_victim (h : s.reclaim.victimRead = 1024) :
    groupOver .victim s = { s with reclaim := { s.reclaim with victimKept := 1024, victimWalked := true, source := none } } := by
  refine (if_pos h).trans ?_
  unfold endWalk engine Reclaim.setCursors Reclaim.readCursor
  simp only [h]

theorem groupOver_relocation {b : BlockId} {rest : List BlockId} (h : s.reclaim.relocRead = 1024)
    (hl : s.reclaim.reloc = b :: rest) :
    groupOver .relocation s =
      { blockUpd b (fun r => { r with work := .retireWaiting }) s with
        reclaim :=
          { s.reclaim with
            reloc := rest
            relocRead := 2
            relocKept := 2
            source := none
            retireWait := s.reclaim.retireWait ++ [b] } } := by
  refine (if_pos h).trans ?_
  have : (engine (fun r => r.setCursors .relocation (s.reclaim.readCursor .relocation) (s.reclaim.readCursor .relocation))
    s).reclaim.reloc = b :: rest := hl
  simp only [endWalk, this, awaitRetire]
  rw [blockUpd_eq, blockUpd_eq]
  rfl

/-! ### The lines of a block's slots (R122) -/

/-- Under the map's invariant `lineAt` inverts the map's locations. -/
theorem lineAt_spec (hi : MapInv s) (loc : Loc) (l : Nat) :
    (lineAt s loc = some l → (mapGet s l).state.loc = some loc) ∧ (lineAt s loc = none → (mapGet s l).state.loc ≠ some loc) := by
  have hrise : keysRise s.lineMap = true := by
    simp only [MapInv, mapWf, Bool.and_eq_true] at hi
    exact hi.1
  unfold lineAt
  refine ⟨fun h => ?_, fun h hl => ?_⟩
  · obtain ⟨p, hp, rfl⟩ := Option.map_eq_some_iff.1 h
    rw [mapGet, keyGet_mem hrise (List.mem_of_find?_eq_some hp)]
    simpa using List.find?_some hp
  · have hnone := List.find?_eq_none.1 (Option.map_eq_none_iff.1 h)
    unfold mapGet at hl
    cases hk : keyGet l s.lineMap with
    | none => rw [hk] at hl; cases hl
    | some e =>
      rw [hk] at hl
      exact hnone (l, e) (mem_of_keyGet hk) (beq_iff_eq.2 hl)

/-- The line the map names at a slot of a block, by the slot's index in the walk. -/
def lineIn (s : State) (b : BlockId) (k : Nat) : Option Nat := lineAt s (locIn b (k / 16) (k % 16))

/-- The slots of a block with a line, among so many from an index on. -/
def namedFrom (s : State) (b : BlockId) (i fuel : Nat) : List Nat := (List.range' i fuel).filter fun k => (lineIn s b k).isSome

theorem namedFrom_eq_filter {b : BlockId} {i : Nat} (hi : i ≤ 1024) :
    (List.range 1024).filter (fun k => decide (i ≤ k) && (lineAt s (locIn b (k / 16) (k % 16))).isSome) =
      namedFrom s b i (1024 - i) := by
  have hsplit : List.range 1024 = List.range' 0 i ++ List.range' i (1024 - i) := by
    have := (List.range'_append_1 (s := 0) (m := i) (n := 1024 - i)).symm
    rwa [Nat.zero_add, Nat.add_sub_cancel' hi, ← List.range_eq_range'] at this
  rw [hsplit, List.filter_append]
  have hbelow : (List.range' 0 i).filter (fun k => decide (i ≤ k) && (lineIn s b k).isSome) = [] := by
    refine List.filter_eq_nil_iff.2 fun k hk => ?_
    have : k < i := by simpa using hk
    simp [Nat.not_le.2 this]
  have habove : (List.range' i (1024 - i)).filter (fun k => decide (i ≤ k) && (lineIn s b k).isSome) =
      namedFrom s b i (1024 - i) := by
    refine List.filter_congr fun k hk => ?_
    have : i ≤ k := (List.mem_range'_1.1 hk).1
    simp [this]
  exact (congrArg₂ (· ++ ·) hbelow habove).trans (List.nil_append _)

theorem namedFrom_succ_some {b : BlockId} {i l fuel : Nat} (h : lineIn s b i = some l) :
    namedFrom s b i (fuel + 1) = i :: namedFrom s b (i + 1) fuel := by
  simp [namedFrom, List.range'_succ, h]

theorem namedFrom_succ_none {b : BlockId} {i fuel : Nat} (h : lineIn s b i = none) :
    namedFrom s b i (fuel + 1) = namedFrom s b (i + 1) fuel := by
  simp [namedFrom, List.range'_succ, h]

/-- What the walk takes of a slot: its line and its place. -/
def takenIn (s : State) (b : BlockId) (k : Nat) : Option (Nat × Loc) :=
  (lineIn s b k).map fun l => (l, locIn b (k / 16) (k % 16))

theorem walk_succ_some {b : BlockId} {fuel n i l : Nat} (h : lineIn s b i = some l) :
    walk s b (fuel + 1) (n + 1) i =
      ((l, locIn b (i / 16) (i % 16)) :: (walk s b fuel n (i + 1)).1, (walk s b fuel n (i + 1)).2) := by
  have h' : lineAt s (locIn b (i / Config.pageSlots) (i % Config.pageSlots)) = some l := h
  simp only [walk, h']

theorem walk_succ_none {b : BlockId} {fuel n i : Nat} (h : lineIn s b i = none) :
    walk s b (fuel + 1) (n + 1) i = walk s b fuel (n + 1) (i + 1) := by
  have h' : lineAt s (locIn b (i / Config.pageSlots) (i % Config.pageSlots)) = none := h
  simp only [walk, h']

/-- The walk takes the first `n` named slots, and its cursor stands behind the last of them, or at the end where there are fewer. -/
theorem walk_eq (b : BlockId) {fuel n i : Nat} (hi : i + fuel = 1024) :
    walk s b fuel n i =
      (((namedFrom s b i fuel).take n).filterMap (takenIn s b),
        if (namedFrom s b i fuel).length < n then 1024
        else (((namedFrom s b i fuel).take n).getLast?.map (· + 1)).getD i) := by
  induction fuel generalizing n i with
  | zero =>
    obtain rfl : i = 1024 := hi
    cases n with
    | zero => rfl
    | succ n => rfl
  | succ fuel ih =>
    cases n with
    | zero => simp [walk]
    | succ n =>
      have hi' : i + 1 + fuel = 1024 := by omega
      cases hl : lineIn s b i with
      | none =>
        rw [walk_succ_none hl, namedFrom_succ_none hl, ih hi']
        refine Prod.ext rfl ?_
        dsimp only
        split
        · rfl
        · rename_i hlen
          have hlast : (namedFrom s b (i + 1) fuel)[n]?.isSome := by simp; omega
          obtain ⟨k, hk⟩ := Option.isSome_iff_exists.1 hlast
          simp [List.getLast?_take, hk]
      | some l =>
        rw [walk_succ_some hl, namedFrom_succ_some hl, ih hi']
        simp [takenIn, hl, List.getLast?_cons]

/-- The copy reads of the slots taken (R122). -/
def copyReads (src : Source) (s : State) (b : BlockId) (group : List Nat) : List Op :=
  group.filterMap fun k => (lineIn s b k).map fun l =>
    mapRead .copyRead (copyClass src) l (locIn b (k / 16) (k % 16)) ((mapGet s l).state.seq.getD 0)

theorem copyReads_eq (src : Source) (b : BlockId) (group : List Nat) :
    (group.filterMap (takenIn s b)).map
      (fun p => mapRead .copyRead (copyClass src) p.1 p.2 ((mapGet s p.1).state.seq.getD 0)) = copyReads src s b group := by
  rw [List.map_filterMap]
  refine List.filterMap_congr fun k _ => ?_
  cases h : lineIn s b k <;> simp [takenIn, h]

theorem copyReads_length {src : Source} {b : BlockId} {group : List Nat} (h : ∀ k ∈ group, (lineIn s b k).isSome) :
    (copyReads src s b group).length = group.length := by
  induction group with
  | nil => rfl
  | cons k group ih =>
    obtain ⟨l, hl⟩ := Option.isSome_iff_exists.1 (h k List.mem_cons_self)
    simp only [copyReads, List.filterMap_cons, hl, Option.map_some, List.length_cons]
    exact congrArg (· + 1) (ih fun j hj => h j (List.mem_cons_of_mem k hj))

/-- The engine on a source, its read cursor behind a walk (R122). -/
def Reclaim.walkedTo (r : Reclaim) (src : Source) (c : Nat) : Reclaim :=
  { r.setCursors src c (r.keptCursor src) with source := some src }

/-- The group of the slots that a walk took, with the read cursor behind them. -/
def groupOf (src : Source) (s : State) (w : List (Nat × Loc) × Nat) : State :=
  let ops := w.1.map fun p => mapRead .copyRead (copyClass src) p.1 p.2 ((mapGet s p.1).state.seq.getD 0)
  let r := s.reclaim.walkedTo src w.2
  if ops.isEmpty then groupOver src { s with reclaim := r }
  else issueTogether ops { s with reclaim := { r with state := .reading, readsOut := ops.length, buffer := [] } }

theorem startGroup_eq_groupOf (src : Source) (b : BlockId) (h : LogHead) (s : State) :
    startGroup src b h s =
      groupOf src s (walk s b (1024 - s.reclaim.readCursor src) (16 - h.next) (s.reclaim.readCursor src)) := rfl

/-- The next group of a source starts from the named slots left behind its read cursor. -/
theorem startGroup_eq {src : Source} {b : BlockId} {h : LogHead} {named : List Nat} {n last : Nat}
    (hi : s.reclaim.readCursor src ≤ 1024) (hn : 16 - h.next = n) (hpos : 0 < n)
    (hnamed : namedFrom s b (s.reclaim.readCursor src) (1024 - s.reclaim.readCursor src) = named)
    (hlast : (if named.length < n then 1024 else ((named.take n).getLast?.map (· + 1)).getD 1024) = last) :
    startGroup src b h s =
      if named.take n = [] then groupOver src { s with reclaim := s.reclaim.walkedTo src last }
      else issueTogether (copyReads src s b (named.take n))
        { s with reclaim := { s.reclaim.walkedTo src last with state := .reading, readsOut := (named.take n).length, buffer := [] } } := by
  have hwalk := walk_eq (s := s) b (n := n) (Nat.add_sub_cancel' hi)
  rw [hnamed] at hwalk
  have hcursor : (if named.length < n then 1024
      else ((named.take n).getLast?.map (· + 1)).getD (s.reclaim.readCursor src)) = last := by
    rw [← hlast]
    split
    · rfl
    · have hsome : named[n - 1]?.isSome := by simp; omega
      obtain ⟨k, hk⟩ := Option.isSome_iff_exists.1 hsome
      simp [List.getLast?_take, hk, Nat.ne_of_gt hpos]
  rw [hcursor] at hwalk
  have hlen : (copyReads src s b (named.take n)).length = (named.take n).length :=
    copyReads_length fun k hk => by
      have : k ∈ named := List.mem_of_mem_take hk
      rw [← hnamed] at this
      exact (List.mem_filter.1 this).2
  have hempty : (copyReads src s b (named.take n)).isEmpty = true ↔ named.take n = [] := by
    rw [List.isEmpty_iff_length_eq_zero, hlen, List.length_eq_zero_iff]
  rw [startGroup_eq_groupOf, hn, hwalk]
  unfold groupOf
  dsimp only
  rw [copyReads_eq, hlen]
  split
  · rename_i he
    rw [if_pos (hempty.1 he)]
  · rename_i he
    rw [if_neg (mt hempty.2 he)]

/-! ### The victim (R118) -/

/-- One step of a choice: the element, where nothing was chosen or it comes before what was. -/
def bestBy {α : Type} (before : α → α → Bool) (best : Option α) (p : α) : Option α :=
  match best with
  | none => some p
  | some q => if before p q then some p else some q

section
variable {α : Type} {before : α → α → Bool}

theorem foldl_bestBy_mem (l : List α) (o : Option α) {q : α} (h : l.foldl (bestBy before) o = some q) : q ∈ l ∨ o = some q := by
  induction l generalizing o with
  | nil => exact .inr h
  | cons p l ih =>
    rcases ih _ h with hq | hq
    · exact .inl (List.mem_cons_of_mem p hq)
    · cases o with
      | none => exact .inl (Option.some.inj hq ▸ List.mem_cons_self)
      | some r =>
        unfold bestBy at hq
        dsimp only at hq
        split at hq
        · exact .inl (Option.some.inj hq ▸ List.mem_cons_self)
        · exact .inr hq

theorem foldl_bestBy_stays {l : List α} {p : α} (h : ∀ r ∈ l, before r p = false) :
    l.foldl (bestBy before) (some p) = some p := by
  induction l with
  | nil => rfl
  | cons r l ih =>
    have : bestBy before (some p) r = some p := by simp [bestBy, h r List.mem_cons_self]
    rw [List.foldl_cons, this]
    exact ih fun q hq => h q (List.mem_cons_of_mem r hq)

/-- In a list, the element that is before every one in front of it, and not behind one that follows, is chosen. -/
theorem foldl_bestBy_eq {front back : List α} {p : α} (hf : ∀ r ∈ front, before p r = true)
    (hb : ∀ r ∈ back, before r p = false) : (front ++ p :: back).foldl (bestBy before) none = some p := by
  rw [List.foldl_append, List.foldl_cons]
  have htaken : bestBy before (front.foldl (bestBy before) none) p = some p := by
    cases ho : front.foldl (bestBy before) none with
    | none => rfl
    | some q =>
      rcases foldl_bestBy_mem front none ho with hq | hq
      · simp [bestBy, hf q hq]
      · cases hq
  rw [htaken]
  exact foldl_bestBy_stays hb

end

theorem chooseVictim_eq (s : State) :
    chooseVictim s = ((s.blocks.filter (qualifies s)).foldl (bestBy victimBefore) none).map fun p => blockAt p.1 := by
  have hstep : bestBy victimBefore = fun best p => match best with
      | none => some p
      | some q => if victimBefore p q then some p else some q := by
    funext best p
    cases best <;> rfl
  rw [hstep]
  rfl

/-- The order of R118: valid count, close sequence, die and block. -/
def comesFirst (p r : Nat × BlockRec) : Prop :=
  p.2.valid < r.2.valid ∨ (p.2.valid = r.2.valid ∧ (p.2.closeSeq.getD 0 < r.2.closeSeq.getD 0 ∨
    (p.2.closeSeq.getD 0 = r.2.closeSeq.getD 0 ∧ p.1 < r.1)))

theorem victimBefore_of_comesFirst {p r : Nat × BlockRec} (h : comesFirst p r) (hlt : r.1 < p.1) : victimBefore p r = true := by
  simp only [victimBefore, Bool.or_eq_true, Bool.and_eq_true, decide_eq_true_eq, beq_iff_eq]
  rcases h with hv | ⟨hv, hq | ⟨-, hk⟩⟩
  · exact .inl hv
  · exact .inr ⟨hv, hq⟩
  · omega

theorem not_victimBefore_of_comesFirst {p r : Nat × BlockRec} (h : comesFirst p r) : victimBefore r p = false := by
  refine Bool.eq_false_iff.2 fun hb => ?_
  simp only [victimBefore, Bool.or_eq_true, Bool.and_eq_true, decide_eq_true_eq, beq_iff_eq] at hb
  unfold comesFirst at h
  omega

theorem qualifies_iff {p : Nat × BlockRec} :
    qualifies s p = true ↔ p.2.state = .closed ∧ p.2.valid < 1022 ∧ (dieAt s (p.1 / 256)).state ≠ .offline := by
  simp [qualifies, isOffline, blockAt, Config.recordSlots, Config.dieBlocks, and_assoc]

theorem chooseVictim_of_first {p : Nat × BlockRec} (hrise : keysRise s.blocks = true)
    (hp : p ∈ s.blocks.filter (qualifies s)) (h : ∀ r ∈ s.blocks.filter (qualifies s), r ≠ p → comesFirst p r) :
    chooseVictim s = some (blockAt p.1) := by
  obtain ⟨front, back, hl⟩ := List.append_of_mem hp
  have hpair : (s.blocks.filter (qualifies s)).Pairwise fun p q => p.1 < q.1 :=
    ((keysRise_pairwise _).1 hrise).filter _
  rw [chooseVictim_eq]
  rw [hl] at hpair h ⊢
  obtain ⟨-, hback, hfront⟩ := List.pairwise_append.1 hpair
  have hafter := (List.pairwise_cons.1 hback).1
  have hchosen : (front ++ p :: back).foldl (bestBy victimBefore) none = some p := by
    refine foldl_bestBy_eq (fun r hr => ?_) (fun r hr => ?_)
    · have hlt : r.1 < p.1 := hfront r hr p List.mem_cons_self
      exact victimBefore_of_comesFirst
        (h r (List.mem_append_left _ hr) fun e => absurd (e ▸ hlt) (Nat.lt_irrefl _)) hlt
    · have hlt : p.1 < r.1 := hafter r hr
      exact not_victimBefore_of_comesFirst
        (h r (List.mem_append_right _ (List.mem_cons_of_mem p hr)) fun e => absurd (e ▸ hlt) (Nat.lt_irrefl _))
  rw [hchosen]
  rfl

theorem chooseVictim_none (h : ∀ p ∈ s.blocks, qualifies s p = false) : chooseVictim s = none := by
  have : s.blocks.filter (qualifies s) = [] := List.filter_eq_nil_iff.2 fun p hp => by simp [h p hp]
  rw [chooseVictim_eq, this]
  rfl

/-! ### The engine's choice (R117, R121) -/

theorem reclaimStep_none (h : s.mode ≠ .active ∨ (s.reclaim.state ≠ .idle ∧ (s.reclaim.state = .spaceWait → s.reclaim.retryDue = false))) :
    reclaimStep s = none := by
  unfold reclaimStep
  split
  · rfl
  · rename_i hm
    obtain ⟨hi, hw⟩ := h.resolve_left fun hne => hm hne
    split
    · rename_i hidle
      exact absurd hidle hi
    · rename_i hwait
      simp [hw hwait]
    · rfl

theorem reclaimStep_retry (hm : s.mode = .active) (hw : s.reclaim.state = .spaceWait) (hr : s.reclaim.retryDue = true) :
    reclaimStep s = some (requestCopyHead { s with reclaim := { s.reclaim with retryDue := false } }) := by
  simp only [reclaimStep, hm, hw, hr, ne_eq, not_true_eq_false, if_false, if_true, engine]

theorem reclaimStep_relocation {b : BlockId} {rest : List BlockId} (hm : s.mode = .active) (hi : s.reclaim.state = .idle)
    (hl : s.reclaim.reloc = b :: rest) : reclaimStep s = some (workOn .relocation b s) := by
  simp only [reclaimStep, hm, hi, hl, ne_eq, not_true_eq_false, if_false]

theorem reclaimStep_victim {v : BlockId} (hm : s.mode = .active) (hi : s.reclaim.state = .idle) (hl : s.reclaim.reloc = [])
    (hv : s.reclaim.victim = some v) :
    reclaimStep s = if s.reclaim.victimWalked then none else some (workOn .victim v s) := by
  simp only [reclaimStep, hm, hi, hl, hv, ne_eq, not_true_eq_false, if_false]

/-- What an IDLE engine without a source does, by its choice of a victim. -/
def victimChoice (s : State) : Option BlockId → Option State
  | some b => some (takeVictim b s)
  | none => if s.freeList.length ≤ 6 then some (requestReadOnly s) else none

theorem reclaimStep_free (hm : s.mode = .active) (hi : s.reclaim.state = .idle) (hl : s.reclaim.reloc = [])
    (hv : s.reclaim.victim = none) :
    reclaimStep s = if s.reclaimCond then victimChoice s (chooseVictim s) else none := by
  simp only [reclaimStep, hm, hi, hl, hv, ne_eq, not_true_eq_false, if_false]
  cases chooseVictim s with
  | some b => rfl
  | none => rfl

theorem takeVictim_eq (b : BlockId) (s : State) :
    takeVictim b s =
      { blockUpd b (fun r => { r with state := .victim }) s with
        reclaim := { s.reclaim with victim := some b, victimRead := 2, victimKept := 2, victimWalked := false } } := by
  unfold takeVictim
  rw [blockUpd_eq]
  rfl

theorem workOn_empty {src : Source} {b : BlockId} (h : (blockGet s b).map (·.valid) = some 0) :
    workOn src b s = groupOver src { s with reclaim := s.reclaim.setCursors src 1024 1024 } := if_pos h

theorem workOn_noHead {src : Source} {b : BlockId} (h : (blockGet s b).map (·.valid) ≠ some 0) (hh : s.reclaim.head = none) :
    workOn src b s = requestCopyHead { s with reclaim := { s.reclaim with source := some src } } := by
  simp only [workOn, if_neg h, hh, engine]

theorem workOn_head {src : Source} {b : BlockId} {x : LogHead} (h : (blockGet s b).map (·.valid) ≠ some 0)
    (hh : s.reclaim.head = some x) : workOn src b s = startGroup src b x s := by
  simp only [workOn, if_neg h, hh]

/-- Settles O50. A copy program moves its records and its head; the engine's choice is read off `reclaimStep` branch by branch, its walk
is the filter of the slots that the map names, and the fold of `chooseVictim` ends at the block that comes first. -/
theorem copyProgramAnswered : Obligations.CopyProgramAnswered := by
  unfold Obligations.CopyProgramAnswered
  refine ⟨?_, ?_⟩
  · intro s d op src h hc hs hh a buf ended v n top left headed pass kept
    refine ⟨fun hl => effect_copyPass hc hs hh ?_, fun hl hp => effect_copyPass hc hs hh ?_,
      fun hl hp => effect_copyPass hc hs hh ?_, ?_, ?_⟩
    · rw [moveCopyHead, advance_of_not_pageDone (h := { h with topSeq := top }) hl]
      rfl
    · rw [moveCopyHead, advance_of_pageDone (h := { h with topSeq := top }) hl hp]
      rfl
    · rw [moveCopyHead, advance_off_block (h := { h with topSeq := top }) hl hp]
      show blockUpd h.block _ _ = _
      rw [closeSeq_eq]
      rfl
    · exact effect_copyProgram hc (onCopyProgram_fail (s := dieAnswered d s) hs hh)
    · refine fun x => ⟨groupOver_goesOn, fun hsrc => hsrc ▸ groupOver_victim, fun b rest hsrc => hsrc ▸ groupOver_relocation⟩
  · intro s hrise q step
    refine ⟨reclaimStep_none, reclaimStep_retry, fun hm hi => ?_, fun hmap loc l => lineAt_spec hmap loc l⟩
    intro works fits first
    have hworks : ∀ src b, step = some (workOn src b s) → works src b := by
      intro src b hstep
      unfold works
      intro start named
      refine ⟨fun he => hstep.trans (congrArg some (workOn_empty he)), fun hv => ⟨fun hn => ?_, ?_⟩⟩
      · exact hstep.trans (congrArg some (workOn_noHead hv hn))
      · intro h hh hnext hstart n group last moved
        have hgroup := startGroup_eq (s := s) (src := src) (b := b) (h := h) hstart rfl (Nat.sub_pos_of_lt hnext)
          (namedFrom_eq_filter hstart).symm (rfl : _ = last)
        have hgo := hstep.trans (congrArg some ((workOn_head hv hh).trans hgroup))
        refine ⟨fun he => hgo.trans (congrArg some (if_pos he)), fun he => (hgo.trans (congrArg some (if_neg he))).trans ?_⟩
        cases src <;> rfl
    have hfits : ∀ p, fits p ↔ p ∈ s.blocks.filter (qualifies s) := fun p => by
      rw [List.mem_filter, qualifies_iff]
    refine ⟨fun b rest hl => hworks _ b (reclaimStep_relocation hm hi hl), fun v hl hv => ⟨fun hw => ?_, fun hw => ?_⟩,
      fun hl hv => ?_⟩
    · exact (reclaimStep_victim hm hi hl hv).trans (if_pos hw)
    · exact hworks _ v ((reclaimStep_victim hm hi hl hv).trans (if_neg (Bool.eq_false_iff.1 hw)))
    · have hfree := reclaimStep_free hm hi hl hv
      refine ⟨fun hc => hfree.trans (if_neg (Bool.eq_false_iff.1 hc)), ?_, fun hc hno => ?_⟩
      · intro p hc hp hfirst b
        have hchosen : chooseVictim s = some b :=
          chooseVictim_of_first hrise ((hfits p).1 hp) fun r hr => hfirst r ((hfits r).2 hr)
        rw [hchosen, if_pos hc] at hfree
        exact hfree.trans (congrArg some (takeVictim_eq b s))
      · have hchosen : chooseVictim s = none := chooseVictim_none fun p hp =>
          Bool.eq_false_iff.2 fun hq => hno p ((hfits p).2 (List.mem_filter.2 ⟨hp, hq⟩))
        rw [hchosen, if_pos hc] at hfree
        exact ⟨fun hf => hfree.trans (if_pos hf), fun hf => hfree.trans (if_neg (Nat.not_le.2 hf))⟩

end Sys2Proof.Machine
end

section
/-! SUPPORT. Proofs: the identity reads of the mount and the selection (O53), and what all reads of the mount share. -/
namespace Sys2Proof.Machine

variable {s : State}

/-! ### Reads of the mount are answered -/

theorem answeredOp_dies (d : Nat) (op : Op) (raws : List RawSlot) (s : State) :
    (answeredOp d op raws s).dies = (gradeSlots d raws (dieAnswered d s)).dies := by
  unfold answeredOp countReader
  split
  · rw [blockUpd_eq]
  · rfl

theorem answeredOp_dies_length (d : Nat) (op : Op) (raws : List RawSlot) (s : State) :
    (answeredOp d op raws s).dies.length = s.dies.length := by
  simp [answeredOp_dies, gradeSlots, dieAnswered, dieUpd]

theorem answeredOp_ident (d : Nat) (op : Op) (raws : List RawSlot) (s : State) : (answeredOp d op raws s).ident = s.ident := by
  rw [answeredOp_eq]

theorem answeredOp_mount (d : Nat) (op : Op) (raws : List RawSlot) (s : State) : (answeredOp d op raws s).mount = s.mount := by
  rw [answeredOp_eq]

/-! ### Operations issued together, and faults raised in a row -/

theorem enqueue_eq (op : Op) (s : State) :
    ∃ di bl, enqueue op s = { s with dies := di, blocks := bl } ∧
      ∀ i, (di.getD i DieRec.unused).state = (dieAt s i).state := by
  refine ⟨(enqueue op s).dies, (enqueue op s).blocks, ?_, fun i => ?_⟩
  · unfold enqueue countReader
    split
    · rw [blockUpd_eq]; rfl
    · rfl
  · rw [enqueue_dies, List.getD_eq_getElem?_getD, List.getElem?_set]
    unfold dieAt
    rw [List.getD_eq_getElem?_getD]
    split
    · rename_i h
      subst h
      split
      · rfl
      · rename_i hlen
        rw [List.getD_eq_getElem?_getD, List.getElem?_eq_none (Nat.not_lt.1 hlen)]
    · rfl

/-- Issuing operations together changes the queues of the dies, the reader counts and the ticket, and nothing else. -/
theorem issueTogether_eq (ops : List Op) (s : State) :
    ∃ di bl ti, issueTogether ops s = { s with dies := di, blocks := bl, ticket := ti } ∧
      ∀ i, (di.getD i DieRec.unused).state = (dieAt s i).state := by
  have key : ∃ di bl, ops.foldl (fun t op => enqueue op t) s = { s with dies := di, blocks := bl } ∧
      ∀ i, (di.getD i DieRec.unused).state = (dieAt s i).state := by
    induction ops generalizing s with
    | nil => exact ⟨_, _, rfl, fun _ => rfl⟩
    | cons op ops ih =>
      obtain ⟨di, bl, e, hd⟩ := enqueue_eq op s
      obtain ⟨dj, bm, e', hd'⟩ := ih { s with dies := di, blocks := bl }
      refine ⟨dj, bm, ?_, fun i => (hd' i).trans (hd i)⟩
      rw [List.foldl_cons, e, e']
  obtain ⟨di, bl, e, hd⟩ := key
  refine ⟨di, bl, s.ticket + 1, ?_, hd⟩
  unfold issueTogether
  rw [e]

/-- The faults raised depend on the fault list and the sequence counter alone (R189). -/
theorem raises_maint {α : Type} (k : FaultKind) (f : α → Subject) (l : List α) {s t : State} (hm : s.maint = t.maint)
    (hc : s.commit = t.commit) : (l.foldl (fun x b => raise k (f b) x) s).maint = (l.foldl (fun x b => raise k (f b) x) t).maint := by
  induction l generalizing s t with
  | nil => exact hm
  | cons b l ih =>
    refine ih ?_ hc
    simp only [raise, seqValue, hm, hc]

/-! ### Identity pages (R145) -/

theorem idSlotFits_iff {kind : IdPageKind} {copy : IdCopy} {page i n : Nat} {r : SlotResult} :
    idSlotFits kind copy page i n r = true ↔ ∃ g, r = .good g (.identity kind copy page i n) := by
  unfold idSlotFits
  split
  · simp only [Bool.and_eq_true, beq_iff_eq, SlotResult.good.injEq, SlotContent.identity.injEq]
    aesop
  · rename_i hno
    simp only [Bool.false_eq_true, false_iff, not_exists]
    rintro g rfl
    exact hno _ _ _ _ _ _ rfl

theorem idSlotsFit_iff {kind : IdPageKind} {copy : IdCopy} {page n i : Nat} {rs : List SlotResult} :
    idSlotsFit kind copy page n i rs = true ↔
      ∀ j, j < rs.length → ∃ g, rs[j]? = some (.good g (.identity kind copy page (i + j) n)) := by
  induction rs generalizing i with
  | nil => simp [idSlotsFit]
  | cons r rs ih =>
    rw [idSlotsFit, Bool.and_eq_true, idSlotFits_iff, ih]
    refine ⟨fun ⟨⟨g, hg⟩, hrest⟩ j hj => ?_, fun h => ⟨?_, fun j hj => ?_⟩⟩
    · cases j with
      | zero => exact ⟨g, by simp [hg]⟩
      | succ j =>
        obtain ⟨g', hg'⟩ := hrest j (Nat.lt_of_succ_lt_succ hj)
        exact ⟨g', by rw [List.getElem?_cons_succ, hg', Nat.add_assoc, Nat.add_comm 1 j]⟩
    · obtain ⟨g, hg⟩ := h 0 (Nat.succ_pos _)
      exact ⟨g, by simpa using hg⟩
    · obtain ⟨g, hg⟩ := h (j + 1) (Nat.succ_lt_succ hj)
      rw [List.getElem?_cons_succ, Nat.add_comm j 1, ← Nat.add_assoc] at hg
      exact ⟨g, hg⟩

/-- Every slot of a page of a copy carries the page's header and one number (R145). -/
def spellsPage (copy : IdCopy) (page : Nat) (rs : List SlotResult) (n : Nat) : Prop :=
  rs.length = 16 ∧ ∀ i, i < 16 →
    ∃ g, rs[i]? = some (.good g (.identity (if page = 0 then .descriptor else .update) copy page i n))

theorem spellsPage_iff {copy : IdCopy} {page n : Nat} {rs : List SlotResult} :
    spellsPage copy page rs n ↔
      rs.length = 16 ∧ idSlotsFit (if page = 0 then IdPageKind.descriptor else .update) copy page n 0 rs = true := by
  unfold spellsPage
  refine and_congr_right fun hl => ?_
  rw [idSlotsFit_iff, hl]
  simp only [Nat.zero_add]

theorem idNumber_of_spellsPage {copy : IdCopy} {page n : Nat} {rs : List SlotResult} (h : spellsPage copy page rs n) :
    (rs.head?.map idNumber).getD 0 = n := by
  obtain ⟨g, hg⟩ := h.2 0 (by decide)
  rw [List.head?_eq_getElem?, hg]
  rfl

theorem judgePage_erased {copy : IdCopy} {page : Nat} {rs : List SlotResult} {content : IdContent} (h : ∀ q ∈ rs, q = .erased) :
    judgePage copy page rs content = .erased := if_pos (by simpa using h)

/-- What a page judged READABLE by its slots contains (R145). -/
def judgedContent (page n : Nat) : IdContent → PageResult
  | .descriptor dies g =>
    if page = 0 ∧ (dies = 1 ∨ dies = 2 ∨ dies = 4) ∧ validTable g = true then .descriptor ⟨n, dies, g⟩ else .torn
  | .update fr re => if page = 0 then .torn else .update ⟨n, fr, re⟩

theorem judgePage_of_not_erased {copy : IdCopy} {page : Nat} {rs : List SlotResult} {content : IdContent}
    (h : ∃ q ∈ rs, q ≠ .erased) :
    judgePage copy page rs content =
      if rs.length = 16 ∧ idSlotsFit (if page = 0 then IdPageKind.descriptor else .update) copy page
        ((rs.head?.map idNumber).getD 0) 0 rs = true then judgedContent page ((rs.head?.map idNumber).getD 0) content
      else .torn := by
  have hne : ¬ (rs.all (· == .erased) = true) := by simpa using h
  refine (if_neg hne).trans ?_
  simp only [Bool.and_eq_true, decide_eq_true_eq]
  refine if_congr Iff.rfl ?_ rfl
  cases content with
  | descriptor dies g =>
    refine if_congr ?_ rfl rfl
    simp only [Bool.or_eq_true, beq_iff_eq, and_assoc, or_assoc]
  | update fr re => rfl

theorem judgePage_torn {copy : IdCopy} {page : Nat} {rs : List SlotResult} {content : IdContent} (h : ∃ q ∈ rs, q ≠ .erased)
    (hno : ∀ n, ¬ spellsPage copy page rs n) : judgePage copy page rs content = .torn :=
  (judgePage_of_not_erased h).trans (if_neg (mt spellsPage_iff.2 (hno _)))

theorem judgePage_of_spellsPage {copy : IdCopy} {page n : Nat} {rs : List SlotResult} {content : IdContent}
    (h : spellsPage copy page rs n) : judgePage copy page rs content = judgedContent page n content := by
  have hne : ∃ q ∈ rs, q ≠ .erased := by
    obtain ⟨g, hg⟩ := h.2 0 (by decide)
    exact ⟨_, List.mem_of_getElem? hg, nofun⟩
  rw [judgePage_of_not_erased hne, idNumber_of_spellsPage h, if_pos (spellsPage_iff.1 h)]

/-! ### The selection (R147) -/

theorem usable_some {f : CopyFinding} {d : Descriptor} {u : UpdatePage} (hd : f.descriptor = some d) (hu : f.update = some u) :
    f.usable = some (d, u) := by simp only [CopyFinding.usable, hd, hu]

theorem usable_none {f : CopyFinding} (h : f.descriptor = none ∨ f.update = none) : f.usable = none := by
  unfold CopyFinding.usable
  split
  · rename_i hd hu
    rcases h with h | h
    · rw [hd] at h; cases h
    · rw [hu] at h; cases h
  · rfl

theorem selectCopy_both {x y : CopyFinding} {d e : Descriptor} {u w : UpdatePage} (hx : x.usable = some (d, u))
    (hy : y.usable = some (e, w)) :
    selectCopy x y =
      if d.serial < e.serial ∨ (d.serial = e.serial ∧ u.counter < w.counter) then some (.b, e, w) else some (.a, d, u) := by
  simp only [selectCopy, hx, hy]

theorem selectCopy_a {x y : CopyFinding} {d : Descriptor} {u : UpdatePage} (hx : x.usable = some (d, u)) (hy : y.usable = none) :
    selectCopy x y = some (.a, d, u) := by simp only [selectCopy, hx, hy]

theorem selectCopy_b {x y : CopyFinding} {d : Descriptor} {u : UpdatePage} (hx : x.usable = some (d, u)) (hy : y.usable = none) :
    selectCopy y x = some (.b, d, u) := by simp only [selectCopy, hx, hy]

theorem selectCopy_neither {x y : CopyFinding} (hx : x.usable = none) (hy : y.usable = none) : selectCopy x y = none := by
  simp only [selectCopy, hx, hy]

/-! ### CLASSIFY begins (R166, R167) -/

/-- What the mount notes of the blocks it is to class: those that CLASSIFY reads, not yet read. -/
def firstFindings (s : State) : List (Nat × Finding) :=
  ((List.range (s.diesInUse * 256)).filter fun k =>
    decide (2 ≤ k) && !isOffline s (k / 256) && !s.ident.retired.contains ⟨k / 256, k % 256⟩).map fun k => (k, Finding.initial)

theorem firstFindings_eq (s : State) :
    (classifyBlocks s).map (fun b => (blockKey b, Finding.initial)) = firstFindings s := by
  unfold classifyBlocks firstFindings
  rw [List.filter_map, List.map_map]
  have hblock : ∀ k, (!isIdentityBlock (blockAt k)) = decide (2 ≤ k) := fun k => by
    rw [isIdentityBlock_blockAt, ← decide_not]
    simp only [Nat.not_lt]
  refine (List.map_congr_left fun k _ => ?_).trans (congrArg _ (List.filter_congr fun k _ => ?_))
  · show (blockKey (blockAt k), _) = _
    rw [blockKey_blockAt]
  · show (!isIdentityBlock (blockAt k) && _ && _) = _
    rw [hblock]
    rfl

/-- CLASSIFY begins with a finding for every block that it reads; the reads change the dies' queues alone. -/
theorem startClassify_eq (s : State) :
    ∃ di bl ti, startClassify s =
        { s with dies := di, blocks := bl, ticket := ti, mount := { s.mount with phase := .classify, findings := firstFindings s } } ∧
      ∀ i, (di.getD i DieRec.unused).state = (dieAt s i).state := by
  obtain ⟨di, bl, ti, e, hd⟩ := issueTogether_eq ((classifyBlocks s).map fun b => mountRead .classifyRead b 0)
    { s with mount := { s.mount with phase := .classify, findings := firstFindings s } }
  refine ⟨di, bl, ti, ?_, hd⟩
  rw [← e, ← firstFindings_eq]
  rfl

theorem selectDie_notNamed {n i : Nat} (h : n ≤ i) (p : Probe) (r : DieRec) : (selectDie n i p r).state = .notUsed := by
  rw [selectDie, if_pos h]
  rfl

theorem selectDie_absent {n i : Nat} (h : i < n) {p : Probe} (hp : p ≠ .present) (r : DieRec) :
    (selectDie n i p r).state = .offline := by
  rw [selectDie, if_neg (Nat.not_le.2 h), if_pos hp]

theorem selectDie_present {n i : Nat} (h : i < n) {p : Probe} (hp : p = .present) (r : DieRec) :
    (selectDie n i p r).state = if r.state = .notUsed then .ready else r.state := by
  rw [selectDie, if_neg (Nat.not_le.2 h), if_neg (not_not_intro hp)]
  split <;> rfl

theorem keptCopy_eq (x y : IdCopy) (serial : Nat) (f : CopyFinding) :
    keptCopy (x == y) serial f =
      { good := true
        next := (f.top.map (· + 1)).getD 1
        rollDue := decide (x ≠ y ∧ (f.descriptor.map (·.serial) ≠ some serial ∨ f.update = none)) } := by
  unfold keptCopy
  congr 1
  · cases f.top with
    | none => rfl
    | some n => exact Nat.max_eq_right (Nat.le_add_left 1 n)
  · rw [Bool.eq_iff_iff]
    simp

/-- The identity manager that a selection hands over (R147). -/
def selectedIdent (c : IdCopy) (d : Descriptor) (u : UpdatePage) (s : State) : Identity :=
  { copyA := keptCopy (c == .a) d.serial s.mount.copyA, copyB := keptCopy (c == .b) d.serial s.mount.copyB, descriptor := some d,
    counter := u.counter, retired := u.retired, persistent := u.frozen, queue := [], update := none, remembered := some d.serial }

/-- The die positions that a selection leaves (R166). -/
def selectedDies (count : Nat) (s : State) : List DieRec :=
  s.dies.zipIdx.map fun (r, i) => selectDie count i (s.mount.probes.getD i .absent) r

theorem selectedDies_getD {count i : Nat} (h : i < s.dies.length) :
    (selectedDies count s).getD i DieRec.unused = selectDie count i (s.mount.probes.getD i .absent) (dieAt s i) := by
  unfold selectedDies dieAt
  simp [List.getD_eq_getElem?_getD, List.getElem?_eq_getElem h]

/-- A selection (R147, R166): the identity manager, the dies in use and their states, the faults of absent dies, and CLASSIFY. -/
theorem takeSelection_eq (c : IdCopy) (d : Descriptor) (u : UpdatePage) (s : State) :
    ∃ t di bl ti, takeSelection c d u s =
        { s with
          ident := selectedIdent c d u s
          diesInUse := d.dieCount
          maint := ((absentDies d.dieCount s.mount.probes).foldl (fun x i => raise .dieOffline (.die i) x) s).maint
          dies := di
          blocks := bl
          ticket := ti
          mount := { s.mount with phase := .classify, findings := firstFindings t } } ∧
      t.diesInUse = d.dieCount ∧ t.ident.retired = u.retired ∧ (∀ i, (di.getD i DieRec.unused).state = (dieAt t i).state) ∧
      t.dies = selectedDies d.dieCount s := by
  let q : State := { s with ident := selectedIdent c d u s, diesInUse := d.dieCount, dies := selectedDies d.dieCount s }
  obtain ⟨ma, hma⟩ := raises_keep .dieOffline Subject.die (absentDies d.dieCount s.mount.probes) q
  have hm := raises_maint .dieOffline Subject.die (absentDies d.dieCount s.mount.probes) (s := q) (t := s) rfl rfl
  rw [hma] at hm
  obtain ⟨di, bl, ti, e, hd⟩ := startClassify_eq { q with maint := ma }
  refine ⟨{ q with maint := ma }, di, bl, ti, ?_, rfl, rfl, hd, rfl⟩
  rw [← hm]
  refine Eq.trans ?_ e
  show startClassify (List.foldl (fun t i => raise .dieOffline (.die i) t) q (absentDies d.dieCount s.mount.probes)) = _
  rw [hma]

/-- A die position after a selection is as `selectDie` leaves it (R166). -/
theorem dieAt_takeSelection (c : IdCopy) (d : Descriptor) (u : UpdatePage) {i : Nat} (h : i < s.dies.length) :
    (dieAt (takeSelection c d u s) i).state =
      (selectDie d.dieCount i (s.mount.probes.getD i .absent) (dieAt s i)).state := by
  obtain ⟨q, dj, bl, ti, ht, -, -, hstates, hdies⟩ := takeSelection_eq c d u s
  rw [ht, ← selectedDies_getD h]
  refine (hstates i).trans ?_
  rw [dieAt, hdies]

/-- A selection notes the blocks of the dies in use that it leaves not OFFLINE (R167). -/
theorem findings_takeSelection (c : IdCopy) (d : Descriptor) (u : UpdatePage) (s : State) :
    (takeSelection c d u s).mount.findings =
      ((List.range (d.dieCount * 256)).filter fun k =>
        decide (2 ≤ k) && !isOffline (takeSelection c d u s) (k / 256) && !u.retired.contains ⟨k / 256, k % 256⟩).map
          fun k => (k, Finding.initial) := by
  obtain ⟨q, dj, bl, ti, ht, hcount, hretired, hstates, -⟩ := takeSelection_eq c d u s
  have hoff : ∀ i, isOffline (takeSelection c d u s) i = isOffline q i := fun i => by
    rw [ht]
    exact congrArg (· == DieState.offline) (hstates i)
  simp only [hoff]
  rw [ht]
  show firstFindings q = _
  rw [firstFindings, hcount, hretired]

/-! ### The mount ends UNFORMATTED (R12, R81) -/

/-- What a mount that ends UNFORMATTED hands over, before the mode changes. -/
def unformattedCut (s : State) : State :=
  mountUpd (fun m => { m with phase := .done }) (reconsiderSpace { s with
    diesInUse := s.mount.diesPresent
    lineMap := []
    regions := []
    frozen := []
    blocks := unformattedTable s.mount.diesPresent
    freeList := []
    ident := { s.ident with remembered := greatestSerial s.mount.copyA s.mount.copyB } })

theorem mountUnformatted_eq (hm : s.mode = .mounting) :
    ∃ hro dr re ho ma, mountUnformatted s =
      { unformattedCut s with
        mode := .unformatted
        heldReadOnly := hro
        drainRunning := dr
        reclaim := re
        host := ho
        maint := { (ma : Maint) with modeChanged := true } } := by
  have hc : (unformattedCut s).mode = .mounting := hm
  exact ⟨_, _, _, _, _, setMode_eq (s := unformattedCut s) (by rw [hc]; nofun) (by rw [hc]; nofun) (.inr ⟨nofun, nofun⟩)⟩

theorem keyGet_unformattedTable {n die block : Nat} (hd : die < n) (hb : block < 256) :
    keyGet (blockKey ⟨die, block⟩) (unformattedTable n) =
      some
        { state := if die = 0 ∧ block < 2 then .identity else .closed, valid := 0
          eraseCount := if die = 0 ∧ block < 2 then some 0 else none, closeSeq := none, readers := 0, work := .none } := by
  have hlt : blockKey ⟨die, block⟩ < n * Config.dieBlocks := by
    simp only [blockKey, Config.dieBlocks]
    omega
  unfold unformattedTable
  rw [keyGet_range, if_pos hlt, blockAt_blockKey hb]
  have hid : isIdentityBlock ⟨die, block⟩ = true ↔ die = 0 ∧ block < 2 := by simp [isIdentityBlock]
  by_cases h : die = 0 ∧ block < 2
  · rw [if_pos (hid.2 h), if_pos h, if_pos h]
    rfl
  · rw [if_neg (mt hid.1 h), if_neg h, if_neg h]
    rfl

/-! ### An identity read is answered (R147) -/

/-- The mount once a page of a copy has been judged. -/
def afterPage (c : IdCopy) (page : Nat) (r : PageResult) (m : Mount) : Mount :=
  match c with
  | .a => { m with copyA := findPage page r m.copyA }
  | .b => { m with copyB := findPage page r m.copyB }

theorem copyOf_copyBlock (c : IdCopy) : copyOf (copyBlock c) = c := by
  cases c <;> rfl

/-- The state once a page of a copy has been judged. -/
def pageJudged (c : IdCopy) (page : Nat) (rs : List SlotResult) (content : IdContent) (s : State) : State :=
  { s with mount := afterPage c page (judgePage c page rs content) (seeSlots rs s).mount }

/-- What follows the last page of a copy: copy B, or the selection. -/
def afterCopy : IdCopy → State → State
  | .a, s => readIdentity .b 0 s
  | .b, s => selectIdentity s

/-- What follows a page of a copy: its next page, copy B, or the selection. -/
theorem onIdentityRead_eq {op : Op} {c : IdCopy} {rs : List SlotResult} {content : IdContent} (hp : s.mount.phase = .identity)
    (hb : op.block = copyBlock c) :
    onIdentityRead op rs content s =
      if judgePage c op.page rs content = .erased ∨ op.page + 1 = 64 then
        afterCopy c (pageJudged c op.page rs content s)
      else readIdentity c (op.page + 1) (pageJudged c op.page rs content s) := by
  obtain rfl : copyOf op.block = c := (congrArg copyOf hb).trans (copyOf_copyBlock c)
  refine (if_neg (not_not_intro hp)).trans ?_
  dsimp only
  cases copyOf op.block with
  | a => rfl
  | b => rfl

theorem selectIdentity_some {c : IdCopy} {d : Descriptor} {u : UpdatePage}
    (h : selectCopy s.mount.copyA s.mount.copyB = some (c, d, u)) : selectIdentity s = takeSelection c d u s := by
  simp only [selectIdentity, h]

theorem selectIdentity_none (h : selectCopy s.mount.copyA s.mount.copyB = none) : selectIdentity s = mountUnformatted s := by
  simp only [selectIdentity, h]

theorem absentDies_eq (count : Nat) (probes : List Probe) :
    absentDies count probes = (List.range count).filter fun i => decide (¬ probes.getD i .absent = .present) :=
  List.filter_congr fun i _ => by rw [Bool.eq_iff_iff]; simp

theorem effect_identityRead {t : State} {op : Op} {raws : List RawSlot} {content : IdContent} (h : carries 0 op .identityRead s)
    (hn : op.count = 16) (he : op.expect = none) (hl : raws.length = 16)
    (ht : onIdentityRead op (raws.map checkSlot) content (answeredOp 0 op raws s) = t) :
    Effect (.identityReadAnswer raws content) s t := by
  refine effect_page rfl h rfl hn he hl ?_
  unfold deliverRead
  rw [h.2.2.1]
  exact ht

theorem findPage_eq (page : Nat) (r : PageResult) (f : CopyFinding) :
    findPage page r f =
      match r with
      | .erased => f
      | .torn => { f with top := some page }
      | .descriptor d => { f with top := some page, descriptor := some d }
      | .update u => { f with top := some page, update := some u } := by
  cases r with
  | erased | torn | descriptor | update => rfl

/-- Settles O53. A page is judged by its slots; what follows is the next page, copy B, or the selection, and the operations and faults
that follow it touch the dies' queues and the fault list alone. -/
theorem identityReadAnswered : Obligations.IdentityReadAnswered := by
  unfold Obligations.IdentityReadAnswered
  intro s op raws content c hc hn he hl hb hpage hphase hmode a rs r found k m answer
  have hdies : a.dies.length = s.dies.length := answeredOp_dies_length 0 op raws s
  have hm : pageJudged c op.page rs content a = { a with mount := m } := by
    unfold pageJudged
    congr 1
    have hk : k.copyA = s.mount.copyA ∧ k.copyB = s.mount.copyB :=
      have hmount : a.mount = s.mount := answeredOp_mount 0 op raws s
      ⟨(congrArg Mount.copyA hmount : a.mount.copyA = _), (congrArg Mount.copyB hmount : a.mount.copyB = _)⟩
    have hfound : ∀ f, findPage op.page r f = found f := findPage_eq op.page r
    show afterPage c op.page r k = m
    unfold afterPage m
    rw [hk.1, hk.2, hfound, hfound]
    cases c <;> rfl
  have hnext := onIdentityRead_eq (s := a) (op := op) (c := c) (rs := rs) (content := content)
    ((congrArg Mount.phase (answeredOp_mount 0 op raws s)).trans hphase) hb
  rw [hm] at hnext
  have hanswer : ∀ t, onIdentityRead op rs content a = t → answer t := fun t ht => effect_identityRead hc hn he hl ht
  refine ⟨fun hr hp => ?_, fun hover => ⟨fun hca => ?_, fun hcb => ⟨?_, ?_⟩⟩, ?_, ?_, ?_⟩
  · refine hanswer _ (hnext.trans (if_neg ?_))
    rintro (h | h)
    · exact hr h
    · omega
  · subst hca
    exact hanswer _ (hnext.trans (if_pos (hover.imp_right (congrArg (· + 1)))))
  · intro x d u hsel keeps
    subst hcb
    have hgo := hanswer _ (hnext.trans (if_pos (hover.imp_right (congrArg (· + 1)))))
    rw [afterCopy, selectIdentity_some (s := { a with mount := m }) hsel] at hgo
    obtain ⟨q, dj, bl, ti, ht, -⟩ := takeSelection_eq x d u { a with mount := m }
    refine ⟨_, hgo, ?_, ?_, ?_, ?_, ⟨?_, fun hlen4 i hi => ?_⟩, findings_takeSelection x d u _⟩
    · rw [ht]
      exact (answeredOp_mode 0 op raws s).trans hmode
    · rw [ht]
    · rw [ht]
    · rw [ht]
      show selectedIdent x d u _ = _
      unfold selectedIdent
      rw [keptCopy_eq, keptCopy_eq]
    · rw [ht, absentDies_eq]
      exact raises_maint _ _ _ rfl rfl
    · have hil : i < a.dies.length := hdies.symm ▸ hlen4.symm ▸ hi
      have hdie := dieAt_takeSelection (s := { a with mount := m }) x d u hil
      exact ⟨fun h => hdie.trans (selectDie_notNamed h _ _), fun h hp => hdie.trans (selectDie_absent h hp _),
        fun h hp => hdie.trans (selectDie_present h hp _)⟩
  · intro hsel
    subst hcb
    have hgo := hanswer _ (hnext.trans (if_pos (hover.imp_right (congrArg (· + 1)))))
    rw [afterCopy, selectIdentity_none (s := { a with mount := m }) hsel] at hgo
    obtain ⟨hro, dr, re, ho, ma, ht⟩ :=
      mountUnformatted_eq (s := { a with mount := m }) ((answeredOp_mode 0 op raws s).trans hmode)
    rw [ht] at hgo
    have hmount : a.mount = s.mount := answeredOp_mount 0 op raws s
    have hpresent : m.diesPresent = s.mount.diesPresent :=
      (congrArg Mount.diesPresent hmount : a.mount.diesPresent = s.mount.diesPresent)
    refine ⟨_, hgo, rfl, rfl, hpresent, rfl, rfl, rfl, rfl, rfl, fun die block hd hb => ?_, ?_⟩
    · exact keyGet_unformattedTable (hpresent.symm ▸ hd) hb
    · have hident : a.ident = s.ident := answeredOp_ident 0 op raws s
      show { a.ident with remembered := greatestSerial m.copyA m.copyB } = _
      rw [hident]
      rfl
  · intro x y d e u w hxd hxu hyd hyu
    have hboth := selectCopy_both (usable_some hxd hxu) (usable_some hyd hyu)
    refine ⟨fun h => hboth.trans (if_pos h), fun h => hboth.trans (if_neg (by omega)), fun z hz => ?_⟩
    exact ⟨selectCopy_a (usable_some hxd hxu) (usable_none hz), selectCopy_b (usable_some hxd hxu) (usable_none hz)⟩
  · exact fun x y hx hy => selectCopy_neither (usable_none hx) (usable_none hy)
  · intro y page rs content judged spells
    refine ⟨judgePage_erased, judgePage_torn, fun n hs => ⟨?_, ?_⟩⟩
    · rintro dies g rfl
      exact judgePage_of_spellsPage hs
    · rintro fr re rfl
      exact judgePage_of_spellsPage hs

end Sys2Proof.Machine
end

section
/-! SUPPORT. Proofs: classification and scan reads of the mount (the reads of O54). -/
namespace Sys2Proof.Machine

variable {s : State}

/-! ### What an answer keeps -/

/-- An answer leaves no die OFFLINE that was not: the answering die is READY (R94). -/
theorem isOffline_answeredOp {d i : Nat} {op : Op} (hd : d < s.dies.length) (h : isOffline s i = false) (raws : List RawSlot) :
    isOffline (answeredOp d op raws s) i = false := by
  have hdie : dieAt (answeredOp d op raws s) i = dieAt (gradeSlots d raws (dieAnswered d s)) i := by
    rw [dieAt, answeredOp_dies]
    rfl
  rw [isOffline, hdie]
  by_cases hi : i = d
  · subst hi
    have hlen : i < (dieAnswered i s).dies.length := by simpa [dieAnswered, dieUpd] using hd
    rw [gradeSlots, dieAt_dieUpd_same hlen, dieAnswered, dieAt_dieUpd_same hd]
    rfl
  · rw [gradeSlots, dieAt_dieUpd_other _ hi, dieAnswered, dieAt_dieUpd_other _ hi]
    exact h

theorem currentSerial_answeredOp (d : Nat) (op : Op) (raws : List RawSlot) (s : State) :
    currentSerial (answeredOp d op raws s) = currentSerial s := by
  rw [answeredOp_eq]
  rfl

theorem findingOf_answeredOp (d : Nat) (op : Op) (raws : List RawSlot) (s : State) (b : BlockId) :
    findingOf (answeredOp d op raws s) b = findingOf s b := by
  rw [findingOf, answeredOp_mount]
  rfl

theorem effect_classifyRead {t : State} {d : Nat} {op : Op} {raws : List RawSlot} (h : carries d op .classifyRead s)
    (hn : op.count = 16) (he : op.expect = none) (hl : raws.length = 16) (hp : s.mount.phase = .classify)
    (ht : classifyPage op (raws.map checkSlot) (seeSlots (raws.map checkSlot) (answeredOp d op raws s)) = t) :
    Effect (.classifyReadAnswer d raws) s t := by
  refine effect_page rfl h rfl hn he hl ?_
  unfold deliverRead
  rw [h.2.2.1]
  exact (if_pos ((congrArg Mount.phase (answeredOp_mount d op raws s)).trans hp)).trans ht

theorem effect_scanRead {t : State} {d : Nat} {op : Op} {raws : List RawSlot} (h : carries d op .scanRead s)
    (hn : op.count = 16) (he : op.expect = none) (hl : raws.length = 16) (hp : s.mount.phase = .scan)
    (ht : scanPage op (raws.map checkSlot) (seeSlots (raws.map checkSlot) (answeredOp d op raws s)) = t) :
    Effect (.scanReadAnswer d raws) s t := by
  refine effect_page rfl h rfl hn he hl ?_
  unfold deliverRead
  rw [h.2.2.1]
  exact (if_pos ((congrArg Mount.phase (answeredOp_mount d op raws s)).trans hp)).trans ht

/-! ### What the slots of a page show (R48, R164) -/

theorem seqSeen_iff {r : SlotResult} {q : Nat} :
    seqSeen r = some q ↔ (∃ g role b, r = .good g (.openStamp role q b)) ∨
      ∃ k l st p, r = .lostKnown (.record k l q st p) ∨ ∃ g, r = .good g (.record k l q st p) := by
  unfold seqSeen
  split <;> aesop

theorem countSeen_iff {r : SlotResult} {c : Nat} : countSeen r = some c ↔ ∃ g serial, r = .good g (.eraseStamp serial c) := by
  unfold countSeen
  split <;> aesop

/-- A bound on what every slot shows is one on what some slot shows. -/
theorem forall_seen_iff {rs : List SlotResult} {seen : SlotResult → Option Nat} {shows : SlotResult → Nat → Prop}
    (h : ∀ r q, seen r = some q ↔ shows r q) (n : Nat) :
    (∀ r ∈ rs, ∀ q, seen r = some q → q ≤ n) ↔ ∀ q, (∃ r ∈ rs, shows r q) → q ≤ n := by
  simp only [h]
  exact ⟨fun hb q ⟨r, hr, hq⟩ => hb r hr q hq, fun hb r hr q hq => hb q ⟨r, hr, hq⟩⟩

/-! ### Slots of a LOG block (R168) -/

theorem takeSlots_eq_foldl (b : BlockId) (page first : Nat) (rs : List SlotResult) (s : State) :
    takeSlots b page first rs s = rs.zipIdx.foldl (fun x p => takeSlot (locIn b page (first + p.2)) p.1 x) s :=
  slots_fold takeSlot takeSlots b page (fun _ _ => rfl) (fun _ _ _ _ => rfl) rs first 0 s

theorem findingOf_setFinding (b : BlockId) (f : Finding) (s : State) : findingOf (setFinding b f s) b = f := by
  unfold findingOf setFinding mountUpd
  dsimp only
  rw [keyGet_keyPut_same]
  rfl

theorem findingOf_offer (loc : Loc) (k : RecKind) (l q st : Nat) (lost : Bool) (s : State) :
    ∃ h, findingOf (offer loc k l q st lost s) (blockOf loc) = { findingOf s (blockOf loc) with highSeq := h } := by
  refine ⟨some (max q ((findingOf s (blockOf loc)).highSeq.getD 0)), ?_⟩
  unfold offer
  dsimp only
  split <;> exact findingOf_setFinding (blockOf loc) _ s

/-- A slot taken from a block changes of the finding on that block the highest sequence alone. -/
theorem findingOf_takeSlot (loc : Loc) (r : SlotResult) (s : State) :
    ∃ h, findingOf (takeSlot loc r s) (blockOf loc) = { findingOf s (blockOf loc) with highSeq := h } := by
  unfold takeSlot
  split
  · exact ⟨_, rfl⟩
  · exact findingOf_offer ..
  · exact ⟨_, rfl⟩
  · exact findingOf_offer ..
  · exact ⟨_, rfl⟩
  · exact ⟨_, rfl⟩

theorem findingOf_takeSlots (b : BlockId) (page first : Nat) (rs : List SlotResult) (s : State) :
    ∃ h, findingOf (takeSlots b page first rs s) b = { findingOf s b with highSeq := h } := by
  induction rs generalizing first s with
  | nil => exact ⟨_, rfl⟩
  | cons r rs ih =>
    obtain ⟨h, e⟩ := ih (first + 1) (takeSlot (locIn b page first) r s)
    obtain ⟨h', e'⟩ : ∃ h', findingOf (takeSlot (locIn b page first) r s) b = { findingOf s b with highSeq := h' } :=
      findingOf_takeSlot (locIn b page first) r s
    exact ⟨h, by rw [takeSlots, e, e']⟩

/-- The line lies in a region of the selected descriptor's table. -/
theorem selectedBacked_iff {l : Nat} :
    selectedBacked s l = true ↔ ∃ d, s.ident.descriptor = some d ∧ ∃ r ∈ d.regions, r.base ≤ l ∧ l < r.base + r.count := by
  have hfrom : ∀ (rs : List Region) (n : Nat), (regionFrom l n rs).isSome = true ↔ ∃ r ∈ rs, r.base ≤ l ∧ l < r.base + r.count := by
    intro rs
    induction rs with
    | nil => simp [regionFrom]
    | cons r rs ih =>
      intro n
      rw [regionFrom]
      split
      · rename_i hc
        exact ⟨fun _ => ⟨r, List.mem_cons_self, regionCovers_iff.1 hc⟩, fun _ => rfl⟩
      · rename_i hc
        rw [ih, List.exists_mem_cons_iff]
        exact ⟨.inr, fun h => h.resolve_left (mt regionCovers_iff.2 hc)⟩
  unfold selectedBacked
  cases hd : s.ident.descriptor with
  | none => simp
  | some d => simp [hfrom]

/-- A record offered by a slot: its block's highest sequence, and the candidates it adds. -/
def offered (loc : Loc) (q : Nat) (cs : List Candidate) (s : State) : State :=
  { s with
    mount :=
      { s.mount with
        findings := keyPut (blockKey (blockOf loc))
          { findingOf s (blockOf loc) with highSeq := some (max q ((findingOf s (blockOf loc)).highSeq.getD 0)) } s.mount.findings
        cands := s.mount.cands ++ cs } }

theorem offer_named {loc : Loc} {k : RecKind} {l q st : Nat} {lost : Bool} (h : selectedBacked s l = true) :
    offer loc k l q st lost s = offered loc q [⟨l, loc, k, q, st, lost⟩] s := if_pos h

theorem offer_not_named {loc : Loc} {k : RecKind} {l q st : Nat} {lost : Bool} (h : ¬ selectedBacked s l = true) :
    offer loc k l q st lost s = offered loc q [] s := by
  refine (if_neg h).trans ?_
  unfold offered
  rw [List.append_nil]
  rfl

/-! ### The class of a block (R167) -/

/-- A block's class by its page 0 is taken: the finding, the noted slot 1, and the slots of a LOG block. -/
def classed (b : BlockId) (f : Finding) (slot1 : Bool) (rs : List SlotResult) (s : State) : State :=
  let t := setFinding b f s
  let t := if slot1 then note (locIn b 0 1) t else t
  if f.cls = some .log then takeSlots b 0 2 (rs.drop 2) t else t

theorem classifyPage_classed {op : Op} {rs : List SlotResult} {f : Finding} {slot1 : Bool} (hp : op.page = 0)
    (h : classOf (currentSerial s) op.block rs = some (f, slot1)) :
    classifyPage op rs s = classed op.block f slot1 rs s := by
  simp only [classifyPage, hp, if_true, h, classed]

theorem classifyPage_blank {op : Op} {rs : List SlotResult} (hp : op.page = 0)
    (h : classOf (currentSerial s) op.block rs = none) :
    classifyPage op rs s = readBlank op.block 1 Finding.initial s := by
  simp only [classifyPage, hp, if_true, h]

theorem findingOf_classed (b : BlockId) (f : Finding) (slot1 : Bool) (rs : List SlotResult) (s : State) :
    ∃ h, findingOf (classed b f slot1 rs s) b = { f with highSeq := h } := by
  have hput : findingOf (if slot1 then note (locIn b 0 1) (setFinding b f s) else setFinding b f s) b = f := by
    split <;> exact findingOf_setFinding b f s
  unfold classed
  dsimp only
  split
  · obtain ⟨h, e⟩ := findingOf_takeSlots b 0 2 (rs.drop 2)
      (if slot1 then note (locIn b 0 1) (setFinding b f s) else setFinding b f s)
    exact ⟨h, by rw [e, hput]⟩
  · exact ⟨_, hput⟩

/-- A finding with a readable erase stamp of the current serial (R167). -/
def stamped (n : Nat) : Finding := { Finding.initial with eraseCount := some n }

section
variable {serial n : Nat} {b : BlockId} {g : Grade} {s1 s2 : SlotResult} {rest : List SlotResult}

theorem classOf_free :
    classOf serial b (.good g (.eraseStamp serial n) :: .erased :: s2 :: rest) =
      some ({ stamped n with cls := some .free }, false) := by
  simp [classOf, stamped]

theorem classOf_log {g' : Grade} {role : HeadRole} {q : Nat} :
    classOf serial b (.good g (.eraseStamp serial n) :: .good g' (.openStamp role q b) :: s2 :: rest) =
      some ({ stamped n with cls := some .log, role := some role, openSeq := some q }, false) := by
  simp [classOf, stamped]

theorem classOf_torn_stamp (h1 : s1 ≠ .erased) (h2 : ∀ g' role q, s1 ≠ .good g' (.openStamp role q b)) :
    classOf serial b (.good g (.eraseStamp serial n) :: s1 :: s2 :: rest) =
      if s2 = .erased then some ({ stamped n with cls := some .erase }, false)
      else some ({ stamped n with cls := some .log }, true) := by
  simp only [classOf, stamped, if_true]
  split
  · exact absurd rfl h1
  · rename_i g' role q blk
    rw [if_neg]
    rintro rfl
    exact h2 g' role q rfl
  · rfl

theorem classOf_other_serial {ser : Nat} (h : ser ≠ serial) :
    classOf serial b (.good g (.eraseStamp ser n) :: s1 :: s2 :: rest) =
      some ({ Finding.initial with cls := some .erase }, false) := by
  simp [classOf, h]

end

theorem classOf_no_stamp {serial : Nat} {b : BlockId} {s0 : SlotResult} {rest : List SlotResult}
    (h : ∀ g n ser, s0 ≠ .good g (.eraseStamp ser n)) (hr : ∃ r ∈ s0 :: rest, r ≠ .erased) :
    classOf serial b (s0 :: rest) = some ({ Finding.initial with cls := some .erase }, false) := by
  obtain ⟨r, hr, hr'⟩ := hr
  have hne : ¬ ((s0 :: rest).all (· == .erased) = true) := fun hall => hr' (beq_iff_eq.1 (List.all_eq_true.1 hall r hr))
  unfold classOf
  dsimp only
  split
  · rename_i g ser n s1 s2 t he
    exact absurd (List.cons.inj he).1 (h g n ser)
  · exact if_neg hne

theorem classOf_erased {serial : Nat} {b : BlockId} {rs : List SlotResult} (h : ∀ r ∈ rs, r = .erased) :
    classOf serial b rs = none := by
  unfold classOf
  dsimp only
  split
  · exact absurd (h _ List.mem_cons_self) nofun
  · exact if_pos (by simpa using h)

theorem classifyPage_later {op : Op} {rs : List SlotResult} (hp : op.page ≠ 0) (ho : isOffline s op.block.die = false) :
    classifyPage op rs s =
      let f := findingOf s op.block
      let blank := f.blank && rs.all (· == .erased)
      if op.page + 1 < 64 then readBlank op.block (op.page + 1) { f with blank := blank } s
      else setFinding op.block { f with cls := some (if blank then .blank else .erase), blank := blank } s := by
  simp only [classifyPage, if_neg hp, ho, Bool.false_eq_true, if_false]

/-! ### The scan (R168) -/

theorem scanPage_eq {op : Op} {rs : List SlotResult} (ho : isOffline s op.block.die = false) :
    scanPage op rs s =
      let t := takeSlots op.block op.page 0 rs s
      let f := if rs.all (· == .erased) then findingOf t op.block else { findingOf t op.block with lastPage := op.page }
      if (∀ r ∈ rs, r = .erased) ∨ op.page + 1 = 64 then setFinding op.block { f with scanned := true } t
      else issue (pageRead .scanRead .mountRead op.block (op.page + 1)) (setFinding op.block { f with cursor := op.page + 1 } t) := by
  have herased : rs.all (· == .erased) = true ↔ ∀ r ∈ rs, r = .erased := by simp
  unfold scanPage
  dsimp only
  refine if_congr ?_ rfl rfl
  rw [ho, Bool.or_false, Bool.or_eq_true, herased, beq_iff_eq]

theorem foldl_drop_eq_takeSlots (b : BlockId) (rs : List SlotResult) (s : State) :
    (rs.drop 2).zipIdx.foldl (fun x p => takeSlot (locIn b 0 (p.2 + 2)) p.1 x) s = takeSlots b 0 2 (rs.drop 2) s := by
  rw [takeSlots_eq_foldl]
  simp only [Nat.add_comm 2]

end Sys2Proof.Machine
end

section
/-! SUPPORT. Proofs: the settlement of the mount (R169, R170). -/
namespace Sys2Proof.Machine

variable {s : State}

/-! ### SCAN begins (R168) -/

theorem mountStep_classify (hp : s.mount.phase = .classify) :
    mountStep s = if classifyOver s then some (beginScan s) else none := by
  simp only [mountStep, hp]

theorem mountStep_scan (hp : s.mount.phase = .scan) : mountStep s = if scanOver s then some (settleMount s) else none := by
  simp only [mountStep, hp]

theorem classifyOver_iff : classifyOver s = true ↔ ∀ p ∈ s.mount.findings, p.2.cls ≠ none := by
  simp only [classifyOver, List.all_eq_true, Option.isSome_iff_ne_none]

theorem scanOver_iff : scanOver s = true ↔ ∀ p ∈ s.mount.findings, p.2.cls = some .log → p.2.scanned = true := by
  simp only [scanOver, List.all_eq_true, Bool.or_eq_true, Bool.not_eq_true', Finding.isLog, beq_eq_false_iff_ne]
  exact forall₂_congr fun p _ => Classical.or_iff_not_imp_left.trans (by rw [not_not])

theorem startScan_eq (p : Nat × Finding) :
    (p.1, startScan s p) =
      if p.2.cls = some .log then
        (p.1, if isOffline s (p.1 / 256) then { p.2 with scanned := true } else { p.2 with cursor := 1 })
      else p := by
  by_cases h : p.2.cls = some .log
  · have hl : p.2.isLog = true := beq_iff_eq.2 h
    rw [if_pos h, startScan, if_pos hl]
    rfl
  · have hl : ¬ p.2.isLog = true := mt beq_iff_eq.1 h
    rw [if_neg h, startScan, if_neg hl]

/-! ### The newest LOG block of a role (R170) -/

/-- A LOG block of a role whose die is not OFFLINE. -/
def logBlock (s : State) (role : HeadRole) (p : Nat × Finding) : Bool :=
  p.2.isLog && p.2.role == some role && !isOffline s (blockAt p.1).die

theorem logBlock_iff {role : HeadRole} {p : Nat × Finding} :
    logBlock s role p = true ↔ p.2.cls = some .log ∧ p.2.role = some role ∧ (dieAt s (p.1 / 256)).state ≠ .offline := by
  simp [logBlock, Finding.isLog, isOffline, blockAt, Config.dieBlocks, and_assoc]

/-- One LOG block is newer than another: its open sequence is greater. -/
def newerLog (p q : Nat × Finding) : Bool := decide (q.2.openSeq.getD 0 < p.2.openSeq.getD 0)

theorem newestLog_eq (s : State) (role : HeadRole) :
    newestLog s role = (s.mount.findings.filter (logBlock s role)).foldl (bestBy newerLog) none := by
  rw [List.foldl_filter]
  unfold newestLog
  congr 1
  funext best p
  unfold logBlock
  split
  · cases best <;> simp [bestBy, newerLog]
  · rfl

/-- Of some LOG blocks with different open sequences the newest is chosen. -/
theorem foldl_newerLog {l : List (Nat × Finding)} {p : Nat × Finding} (hp : p ∈ l)
    (h : ∀ r ∈ l, r ≠ p → r.2.openSeq.getD 0 < p.2.openSeq.getD 0) : l.foldl (bestBy newerLog) none = some p := by
  obtain ⟨front, back, rfl, hfront⟩ := List.eq_append_cons_of_mem hp
  refine foldl_bestBy_eq (fun r hr => ?_) (fun r hr => ?_)
  · exact decide_eq_true (h r (List.mem_append_left _ hr) fun e => hfront (e ▸ hr))
  · refine decide_eq_false (Nat.not_lt.2 ?_)
    by_cases e : r = p
    · rw [e]
    · exact (h r (List.mem_append_right _ (List.mem_cons_of_mem p hr)) e).le

/-- The newest LOG block of a role, where the open sequences of those blocks differ (R170). -/
theorem newestLog_iff {role : HeadRole} {p : Nat × Finding}
    (hne : ∀ q ∈ s.mount.findings.filter (logBlock s role), ∀ r ∈ s.mount.findings.filter (logBlock s role), q ≠ r →
      q.2.openSeq.getD 0 ≠ r.2.openSeq.getD 0) :
    newestLog s role = some p ↔
      p ∈ s.mount.findings.filter (logBlock s role) ∧
        ∀ r ∈ s.mount.findings.filter (logBlock s role), r ≠ p → r.2.openSeq.getD 0 < p.2.openSeq.getD 0 := by
  rw [newestLog_eq]
  generalize s.mount.findings.filter (logBlock s role) = l at hne
  refine ⟨fun h => ?_, fun ⟨hp, hmax⟩ => foldl_newerLog hp hmax⟩
  have hp : p ∈ l := (foldl_bestBy_mem l none h).resolve_right nofun
  obtain ⟨q, hq⟩ : ∃ q, l.argmax (fun r => r.2.openSeq.getD 0) = some q :=
    Option.ne_none_iff_exists'.1 (mt List.argmax_eq_none.1 (List.ne_nil_of_mem hp))
  have hqmem : q ∈ l := List.argmax_mem hq
  have hmax : ∀ r ∈ l, r ≠ q → r.2.openSeq.getD 0 < q.2.openSeq.getD 0 := fun r hr hrq =>
    lt_of_le_of_ne (List.le_of_mem_argmax hr hq) (hne r hr q hqmem hrq)
  have hpq : p = q := Option.some.inj (h.symm.trans (foldl_newerLog hqmem hmax))
  subst hpq
  exact ⟨hp, hmax⟩

/-- A location lies in the torn tail of the newest LOG block of a role (R170). -/
theorem torn_iff {l : Loc} :
    torn s l = true ↔
      ∃ role p, newestLog s role = some p ∧ l.die * 256 + l.block = p.1 ∧ l.page = p.2.lastPage := by
  have htail : ∀ tail : Option (Nat × Finding),
      inTail tail l = true ↔ ∃ p, tail = some p ∧ l.die * 256 + l.block = p.1 ∧ l.page = p.2.lastPage := by
    intro tail
    cases tail with
    | none => simp [inTail]
    | some p => simp [inTail, blockKey, blockOf, Config.dieBlocks]
  unfold torn
  rw [Bool.or_eq_true, htail, htail]
  refine ⟨?_, ?_⟩
  · rintro (h | h)
    · exact ⟨_, h⟩
    · exact ⟨_, h⟩
  · rintro ⟨role, h⟩
    cases role with
    | hostLog => exact .inl h
    | copyLog => exact .inr h

/-! ### The noted slots that are judged (R170) -/

theorem locInsert_perm (l : Loc) (ls : List Loc) : (locInsert l ls).Perm (l :: ls) := by
  induction ls with
  | nil => exact .refl _
  | cons m ls ih =>
    rw [locInsert]
    split
    · exact .refl _
    · exact (ih.cons m).trans (.swap l m ls)

theorem locInsert_sorted (l : Loc) {ls : List Loc} (h : ls.Pairwise fun a b => locKey a ≤ locKey b) :
    (locInsert l ls).Pairwise fun a b => locKey a ≤ locKey b := by
  induction ls with
  | nil => exact List.pairwise_singleton _ _
  | cons m ls ih =>
    obtain ⟨hm, hls⟩ := List.pairwise_cons.1 h
    rw [locInsert]
    split
    · rename_i hlt
      refine List.pairwise_cons.2 ⟨fun a ha => ?_, h⟩
      rcases List.mem_cons.1 ha with rfl | ha
      · exact hlt.le
      · exact hlt.le.trans (hm a ha)
    · rename_i hge
      refine List.pairwise_cons.2 ⟨fun a ha => ?_, ih hls⟩
      rcases List.mem_cons.1 ((locInsert_perm l ls).mem_iff.1 ha) with rfl | ha
      · exact Nat.not_lt.1 hge
      · exact hm a ha

theorem badRecords_spec (s : State) :
    (badRecords s).Perm (s.mount.noted.filter fun l => !isOffline s l.die && !torn s l) ∧
      (badRecords s).Pairwise fun a b => locKey a ≤ locKey b := by
  have hfold : ∀ (l acc : List Loc), (acc.Pairwise fun a b => locKey a ≤ locKey b) →
      (l.foldl (fun acc l => locInsert l acc) acc).Perm (l ++ acc) ∧
        (l.foldl (fun acc l => locInsert l acc) acc).Pairwise fun a b => locKey a ≤ locKey b := by
    intro l
    induction l with
    | nil => exact fun acc h => ⟨.refl _, h⟩
    | cons a l ih =>
      intro acc h
      obtain ⟨hp, hs⟩ := ih (locInsert a acc) (locInsert_sorted a h)
      exact ⟨hp.trans (((locInsert_perm a acc).append_left l).trans List.perm_middle), hs⟩
  obtain ⟨hp, hs⟩ := hfold (s.mount.noted.filter fun l => !isOffline s l.die && !torn s l) [] .nil
  rw [List.append_nil] at hp
  exact ⟨hp, hs⟩

/-! ### The winners (R169) -/

theorem settledCands_iff {c : Candidate} :
    c ∈ settledCands s ↔
      c ∈ s.mount.cands ∧ (dieAt s c.loc.die).state ≠ .offline ∧ ¬ (c.lost = true ∧ torn s c.loc = true) := by
  rw [settledCands, List.mem_filter, Bool.and_eq_true, Bool.not_eq_true', isOffline, beq_eq_false_iff_ne, Bool.not_eq_true',
    ← Bool.not_eq_true, Bool.and_eq_true]

/-- One winner's step of R169 is a choice among the candidates of each line. -/
theorem keyGet_winnersOf (s : State) (cands : List Candidate) (l : Nat) :
    keyGet l (winnersOf s cands) = (cands.filter fun c => c.line = l).foldl (bestBy (candBeats s)) none := by
  have hstep : ∀ (acc : List (Nat × Candidate)),
      keyGet l (cands.foldl (fun acc c =>
        match keyGet c.line acc with
        | none => keyPut c.line c acc
        | some w => if candBeats s c w then keyPut c.line c acc else acc) acc) =
      (cands.filter fun c => c.line = l).foldl (bestBy (candBeats s)) (keyGet l acc) := by
    induction cands with
    | nil => exact fun _ => rfl
    | cons c cands ih =>
      intro acc
      rw [List.foldl_cons, ih]
      by_cases hc : c.line = l
      · subst hc
        rw [List.filter_cons_of_pos (by simp), List.foldl_cons]
        congr 1
        cases hk : keyGet c.line acc with
        | none => exact keyGet_keyPut_same _ _ _
        | some w =>
          dsimp only [bestBy]
          split
          · exact keyGet_keyPut_same _ _ _
          · exact hk
      · rw [List.filter_cons_of_neg (by simpa using hc)]
        congr 1
        have hput : keyGet l (keyPut c.line c acc) = keyGet l acc := keyGet_keyPut_other (Ne.symm hc) _ _
        split
        · exact hput
        · split
          · exact hput
          · rfl
  exact hstep []

/-- A candidate's rank in R169: sequence, open sequence of its block, place. -/
theorem candBeats_iff {c w : Candidate} :
    candBeats s c w = true ↔
      w.seq < c.seq ∨ (w.seq = c.seq ∧
        ((findingOf s (blockOf w.loc)).openSeq.getD 0 < (findingOf s (blockOf c.loc)).openSeq.getD 0 ∨
          ((findingOf s (blockOf w.loc)).openSeq.getD 0 = (findingOf s (blockOf c.loc)).openSeq.getD 0 ∧
            locKey w.loc < locKey c.loc))) := by
  simp only [candBeats, Bool.or_eq_true, Bool.and_eq_true, decide_eq_true_eq, beq_iff_eq]
  omega

theorem candBeats_asymm {c w : Candidate} (h : candBeats s c w = true) : candBeats s w c = false := by
  refine Bool.eq_false_iff.2 fun hw => ?_
  rw [candBeats_iff] at h hw
  omega

/-- The candidate of a line that every other loses to is the line's winner. -/
theorem keyGet_winnersOf_of_wins {cands : List Candidate} {c : Candidate} (hc : c ∈ cands)
    (h : ∀ e ∈ cands, e.line = c.line → e ≠ c → candBeats s c e = true) : keyGet c.line (winnersOf s cands) = some c := by
  rw [keyGet_winnersOf]
  have hmem : c ∈ cands.filter fun e => e.line = c.line := List.mem_filter.2 ⟨hc, by simp⟩
  obtain ⟨front, back, hl, hfront⟩ := List.eq_append_cons_of_mem hmem
  have hother : ∀ r ∈ cands.filter (fun e => e.line = c.line), r ≠ c → candBeats s c r = true := fun r hr hne => by
    obtain ⟨hr, hline⟩ := List.mem_filter.1 hr
    exact h r hr (of_decide_eq_true hline) hne
  rw [hl] at hother ⊢
  refine foldl_bestBy_eq (fun r hr => ?_) (fun r hr => ?_)
  · exact hother r (List.mem_append_left _ hr) fun e => hfront (e ▸ hr)
  · by_cases e : r = c
    · subst e
      refine Bool.eq_false_iff.2 fun hself => ?_
      rw [candBeats_asymm hself] at hself
      cases hself
    · exact candBeats_asymm (hother r (List.mem_append_right _ (List.mem_cons_of_mem c hr)) e)

theorem keyGet_winnersOf_of_no_cand {cands : List Candidate} {l : Nat} (h : ∀ c ∈ cands, c.line ≠ l) :
    keyGet l (winnersOf s cands) = none := by
  have : (cands.filter fun c => c.line = l) = [] := List.filter_eq_nil_iff.2 fun c hc => by simpa using h c hc
  rw [keyGet_winnersOf, this]
  rfl

end Sys2Proof.Machine
end

section
/-! SUPPORT. Proofs: the hand-over of the mount (R12, R81, R171) and the mount's reads together (O54). -/
namespace Sys2Proof.Machine

variable {s : State}

/-! ### Operations issued together (R96) -/

theorem enqueue_congr {x y : State} (hd : x.dies = y.dies) (ht : x.ticket = y.ticket) (op : Op) :
    (enqueue op x).dies = (enqueue op y).dies ∧ (enqueue op x).ticket = (enqueue op y).ticket := by
  obtain ⟨_, _, ex, -⟩ := enqueue_eq op x
  obtain ⟨_, _, ey, -⟩ := enqueue_eq op y
  refine ⟨?_, ?_⟩
  · rw [enqueue_dies, enqueue_dies, dieAt, dieAt, hd, ht]
  · rw [ex, ey]
    exact ht

/-- The queues that operations issued together leave depend on the dies and the ticket alone. -/
theorem issueTogether_dies_congr (ops : List Op) {x y : State} (hd : x.dies = y.dies) (ht : x.ticket = y.ticket) :
    (issueTogether ops x).dies = (issueTogether ops y).dies := by
  show (ops.foldl (fun t op => enqueue op t) x).dies = (ops.foldl (fun t op => enqueue op t) y).dies
  induction ops generalizing x y with
  | nil => exact hd
  | cons op ops ih =>
    obtain ⟨hd', ht'⟩ := enqueue_congr hd ht op
    exact ih hd' ht'

/-- Operations that no reader count counts change the dies and the ticket, and nothing else. -/
theorem issueTogether_uncounted {ops : List Op} (h : ∀ op ∈ ops, op.role.counted = false) (s : State) :
    issueTogether ops s = { s with dies := (issueTogether ops s).dies, ticket := s.ticket + 1 } := by
  have key : ∃ di, ops.foldl (fun t op => enqueue op t) s = { s with dies := di } := by
    induction ops generalizing s with
    | nil => exact ⟨_, rfl⟩
    | cons op ops ih =>
      have hop : enqueue op s = { s with dies := (enqueue op s).dies } := by
        simp only [enqueue, countReader, h op List.mem_cons_self, Bool.false_eq_true, if_false, dieUpd]
      obtain ⟨di, e⟩ := ih (fun o ho => h o (List.mem_cons_of_mem op ho)) { s with dies := (enqueue op s).dies }
      refine ⟨di, ?_⟩
      rw [List.foldl_cons, hop, e]
  obtain ⟨di, e⟩ := key
  have : issueTogether ops s = { s with dies := di, ticket := s.ticket + 1 } := by
    unfold issueTogether
    rw [e]
  rw [this]

/-! ### The line map of the hand-over (R12) -/

theorem keyPut_append {α : Type} {k : Nat} (v : α) {m : List (Nat × α)} (h : ∀ q ∈ m, q.1 < k) :
    keyPut k v m = m ++ [(k, v)] := by
  induction m with
  | nil => rfl
  | cons q m ih =>
    have hq := h q List.mem_cons_self
    simp only [keyPut, if_neg (Nat.not_lt.2 hq.le), if_neg (Nat.ne_of_gt hq), List.cons_append]
    rw [ih fun r hr => h r (List.mem_cons_of_mem q hr)]

/-- Winners by rising line are listed in the map as they come. -/
theorem foldl_mapPut_winners {ws : List (Nat × Candidate)} (hw : keysRise ws = true) {m : List (Nat × MapEntry)}
    (hm : ∀ q ∈ m, ∀ p ∈ ws, q.1 < p.1) :
    ws.foldl (fun m p => mapPut p.1 (winnerEntry p.2) m) m = m ++ ws.map fun p => (p.1, winnerEntry p.2) := by
  induction ws generalizing m with
  | nil => exact (List.append_nil m).symm
  | cons p ws ih =>
    obtain ⟨habove, hrest⟩ := (keysRise_cons _ _).1 hw
    have hput : mapPut p.1 (winnerEntry p.2) m = m ++ [(p.1, winnerEntry p.2)] :=
      (if_neg (winnerEntry_ne p.2)).trans (keyPut_append _ fun q hq => hm q hq p List.mem_cons_self)
    rw [List.foldl_cons, hput, ih hrest, List.append_assoc]
    · rfl
    · intro q hq r hr
      rcases List.mem_append.1 hq with hq | hq
      · exact hm q hq r (List.mem_cons_of_mem p hr)
      · rw [List.mem_singleton.1 hq]
        exact habove r hr

theorem keyGet_map {α β : Type} (g : α → β) (k : Nat) (l : List (Nat × α)) :
    keyGet k (l.map fun p => (p.1, g p.2)) = (keyGet k l).map g := by
  induction l with
  | nil => rfl
  | cons p l ih =>
    rw [List.map_cons]
    simp only [keyGet]
    split
    · rfl
    · exact ih

theorem winnerEntry_loc (c : Candidate) : (winnerEntry c).state.loc = if c.lost then none else some c.loc := by
  unfold winnerEntry
  split
  · rfl
  · split <;> rfl

/-! ### The free list of the hand-over (R73) -/

/-- The free list's order (R73): erase count, then die and block. -/
theorem freeBefore_iff {a b : BlockId} :
    freeBefore s a b = true ↔
      eraseRank s a < eraseRank s b ∨ (eraseRank s a = eraseRank s b ∧ blockKey a < blockKey b) := by
  simp [freeBefore]

theorem freeBefore_trans {a b c : BlockId} (hab : freeBefore s a b = true) (hbc : freeBefore s b c = true) :
    freeBefore s a c = true := by
  rw [freeBefore_iff] at *
  omega

theorem freeBefore_of_not {a b : BlockId} (h : ¬ freeBefore s b a = true) (hne : blockKey a ≠ blockKey b) :
    freeBefore s a b = true := by
  rw [freeBefore_iff] at *
  omega

theorem freeInsert_perm (s : State) (b : BlockId) (l : List BlockId) : (freeInsert s b l).Perm (b :: l) := by
  induction l with
  | nil => exact .refl _
  | cons a l ih =>
    rw [freeInsert]
    split
    · exact .refl _
    · exact (ih.cons a).trans (.swap b a l)

theorem freeInsert_sorted {b : BlockId} {l : List BlockId} (hl : l.Pairwise fun x y => freeBefore s x y = true)
    (hne : ∀ a ∈ l, blockKey a ≠ blockKey b) : (freeInsert s b l).Pairwise fun x y => freeBefore s x y = true := by
  induction l with
  | nil => exact List.pairwise_singleton _ _
  | cons a l ih =>
    obtain ⟨ha, hrest⟩ := List.pairwise_cons.1 hl
    rw [freeInsert]
    split
    · rename_i hb
      refine List.pairwise_cons.2 ⟨fun c hc => ?_, hl⟩
      rcases List.mem_cons.1 hc with rfl | hc
      · exact hb
      · exact freeBefore_trans hb (ha c hc)
    · rename_i hb
      refine List.pairwise_cons.2 ⟨fun c hc => ?_, ih hrest fun x hx => hne x (List.mem_cons_of_mem a hx)⟩
      rcases List.mem_cons.1 ((freeInsert_perm s b l).mem_iff.1 hc) with rfl | hc
      · exact freeBefore_of_not hb (hne a List.mem_cons_self)
      · exact ha c hc

/-- Blocks of different keys, inserted one by one, make a sorted list of these blocks. -/
theorem freeInserts_spec {bs : List BlockId} (hbs : (bs.map blockKey).Nodup) :
    (bs.foldl (fun l b => freeInsert s b l) []).Perm bs ∧
      (bs.foldl (fun l b => freeInsert s b l) []).Pairwise fun x y => freeBefore s x y = true := by
  have hfold : ∀ (bs acc : List BlockId), ((bs ++ acc).map blockKey).Nodup → (acc.Pairwise fun x y => freeBefore s x y = true) →
      (bs.foldl (fun l b => freeInsert s b l) acc).Perm (bs ++ acc) ∧
        (bs.foldl (fun l b => freeInsert s b l) acc).Pairwise fun x y => freeBefore s x y = true := by
    intro bs
    induction bs with
    | nil => exact fun acc _ h => ⟨.refl _, h⟩
    | cons b bs ih =>
      intro acc hnodup hsorted
      have hperm : (bs ++ freeInsert s b acc).Perm (b :: bs ++ acc) :=
        ((freeInsert_perm s b acc).append_left bs).trans List.perm_middle
      have hnew : ∀ a ∈ acc, blockKey a ≠ blockKey b := fun a ha e =>
        (List.nodup_cons.1 hnodup).1 (e ▸ List.mem_map_of_mem (List.mem_append_right bs ha))
      obtain ⟨hp, hs⟩ := ih (freeInsert s b acc) ((hperm.map blockKey).nodup_iff.2 hnodup) (freeInsert_sorted hsorted hnew)
      exact ⟨hp.trans hperm, hs⟩
  have := hfold bs [] (by rwa [List.append_nil]) .nil
  rwa [List.append_nil] at this

/-! ### The state handed over (R12, R81, R171) -/

/-- The winners of the settlement, by rising line. -/
def handWinners (s : State) : List (Nat × Candidate) := winnersOf s (settledCands s)

/-- The block table handed over (R81). -/
def handTable (s : State) : List (Nat × BlockRec) :=
  (List.range (s.diesInUse * 256)).map fun k => (k, handoverRec s (handWinners s) k)

/-- The state with the map and the table that are handed over. -/
def handBase (s : State) : State :=
  { s with
    lineMap := (handWinners s).foldl (fun m p => mapPut p.1 (winnerEntry p.2) m) []
    regions := (s.ident.descriptor.map (·.regions)).getD []
    frozen := s.ident.persistent
    blocks := handTable s
    commit := { s.commit with seq := some (s.mount.highest + 1) } }

/-- The free list handed over (R73). -/
def handFree (s : State) : List BlockId := (freeBlocks (handTable s)).foldl (fun l b => freeInsert (handBase s) b l) []

/-- The state with the free list and the space conditions (R75). -/
def handSet (s : State) : State := setSpace { handBase s with freeList := handFree s }

/-- The stamps and erases that the hand-over issues (R171). -/
def handOps (s : State) : List Op := (handTable s).filterMap (handoverOp (handSet s))

/-- The state handed over, before the mode changes. -/
def handed (s : State) : State := mountUpd (fun m => { m with phase := .done }) (issueTogether (handOps s) (handSet s))

theorem handOver_eq (s : State) : handOver s = endMode (anyOffline (issueTogether (handOps s) (handSet s))) (handed s) := rfl

theorem handed_eq (s : State) :
    handed s =
      { handBase s with
        freeList := handFree s
        reclaimCond := decide ((handFree s).length ≤ 12)
        boost := decide ((handFree s).length ≤ 6)
        mount := { s.mount with phase := .done }
        dies := (issueTogether (handOps s) s).dies
        ticket := s.ticket + 1 } := by
  have huncounted : ∀ op ∈ handOps s, op.role.counted = false := fun op hop => by
    rcases handoverOps_role op hop with h | h <;> rw [h] <;> rfl
  have hdies : (issueTogether (handOps s) (handSet s)).dies = (issueTogether (handOps s) s).dies :=
    issueTogether_dies_congr _ rfl rfl
  unfold handed
  rw [issueTogether_uncounted huncounted, hdies]
  rfl

/-- The dies keep their states at the hand-over. -/
theorem anyOffline_issueTogether (ops : List Op) (s : State) : anyOffline (issueTogether ops s) = anyOffline s := by
  obtain ⟨di, bl, ti, e, hd⟩ := issueTogether_eq ops s
  have hoff : ∀ i, isOffline (issueTogether ops s) i = isOffline s i := fun i => by
    rw [e]
    exact congrArg (· == DieState.offline) (hd i)
  have hfun : isOffline (issueTogether ops s) = isOffline s := funext hoff
  have hcount : (issueTogether ops s).diesInUse = s.diesInUse := by rw [e]
  rw [anyOffline, hfun, hcount]
  rfl

theorem anyOffline_eq (s : State) : anyOffline s = decide (∃ d, d < s.diesInUse ∧ ¬ (dieAt s d).state ≠ .offline) := by
  rw [Bool.eq_iff_iff, decide_eq_true_eq]
  simp [anyOffline, isOffline]

/-! ### The map handed over -/

theorem handed_lineMap (s : State) : (handed s).lineMap = (handWinners s).map fun p => (p.1, winnerEntry p.2) := by
  rw [handed_eq]
  exact (foldl_mapPut_winners (winnersOf_spec s (settledCands s)).1
    fun _ hq => absurd hq List.not_mem_nil).trans (List.nil_append _)

theorem mapWf_handed (s : State) : mapWf (handed s).lineMap = true := by
  rw [handed_eq]
  exact foldl_mapPut_wf (·.1) (fun p => winnerEntry p.2) (handWinners s) (m := []) rfl

theorem mapGet_handed (s : State) (l : Nat) :
    mapGet (handed s) l = ((keyGet l (handWinners s)).map winnerEntry).getD MapEntry.empty := by
  rw [mapGet, handed_lineMap, keyGet_map]

/-- The valid count of a LOG block is the number of lines that the map handed over names in it. -/
theorem winnersIn_eq (s : State) (b : BlockId) :
    winnersIn (handWinners s) b = (handed s).lineMap.countP fun p => p.2.state.loc.map blockOf == some b := by
  rw [handed_lineMap, List.countP_map]
  refine List.countP_congr fun p _ => ?_
  show _ ↔ ((winnerEntry p.2).state.loc.map blockOf == some b) = true
  rw [winnerEntry_loc]
  cases p.2.lost <;> simp

/-! ### The block table handed over -/

theorem blockGet_handed {d n : Nat} (hn : n < 256) :
    blockGet (handed s) ⟨d, n⟩ =
      if d < s.diesInUse then some (handoverRec s (handWinners s) (d * 256 + n)) else none := by
  have hlt : d * 256 + n < s.diesInUse * 256 ↔ d < s.diesInUse := by omega
  rw [blockGet, handed_eq]
  exact (keyGet_range _ _ _).trans (if_congr hlt rfl rfl)

section
variable {ws : List (Nat × Candidate)} {d n : Nat}

theorem handoverRec_identity (hn : n < 256) (h : d = 0 ∧ n < 2) : handoverRec s ws (d * 256 + n) = identityRec := by
  obtain ⟨rfl, hn2⟩ := h
  refine if_pos ?_
  rw [isIdentityBlock_blockAt]
  exact decide_eq_true (by omega)

/-- The record that a block of a die not OFFLINE gets by its class (R81). -/
def classRec (ws : List (Nat × Candidate)) (b : BlockId) (f : Finding) : BlockRec :=
  match f.cls with
  | some .free => { closedRec with state := .free, eraseCount := f.eraseCount }
  | some .blank => { closedRec with state := .erasing, work := .stampOut }
  | some .erase => { closedRec with state := .erasing, eraseCount := f.eraseCount, work := .eraseOut }
  | some .log =>
    { closedRec with
      valid := winnersIn ws b, eraseCount := f.eraseCount, closeSeq := some (f.highSeq.getD (f.openSeq.getD 0)) }
  | none => closedRec

section
variable {b : BlockId} {f : Finding}

theorem classRec_free (h : f.cls = some .free) :
    classRec ws b f = { closedRec with state := .free, eraseCount := f.eraseCount } := by simp only [classRec, h]

theorem classRec_blank (h : f.cls = some .blank) :
    classRec ws b f = { closedRec with state := .erasing, work := .stampOut } := by simp only [classRec, h]

theorem classRec_erase (h : f.cls = some .erase) :
    classRec ws b f = { closedRec with state := .erasing, eraseCount := f.eraseCount, work := .eraseOut } := by
  simp only [classRec, h]

theorem classRec_log (h : f.cls = some .log) :
    classRec ws b f =
      { closedRec with
        valid := winnersIn ws b, eraseCount := f.eraseCount, closeSeq := some (f.highSeq.getD (f.openSeq.getD 0)) } := by
  simp only [classRec, h]

end

/-- The record of a block that is no identity block: retired, of an OFFLINE die, or by its class (R81). -/
theorem handoverRec_other (hn : n < 256) (h : ¬ (d = 0 ∧ n < 2)) :
    handoverRec s ws (d * 256 + n) =
      if s.ident.retired.contains ⟨d, n⟩ then { closedRec with state := .retired }
      else if isOffline s d then closedRec
      else classRec ws ⟨d, n⟩ ((keyGet (d * 256 + n) s.mount.findings).getD Finding.initial) := by
  have hb : blockAt (d * 256 + n) = ⟨d, n⟩ := blockAt_blockKey (b := ⟨d, n⟩) hn
  have hid : ¬ isIdentityBlock ⟨d, n⟩ = true := by simpa [isIdentityBlock] using h
  unfold handoverRec
  rw [hb, if_neg hid]
  rfl

end

/-! ### The free list handed over -/

theorem mem_freeBlocks {l : List (Nat × BlockRec)} {b : BlockId} :
    b ∈ freeBlocks l ↔ ∃ p ∈ l, p.2.state = .free ∧ blockAt p.1 = b := by
  simp only [freeBlocks, List.mem_map, List.mem_filter, beq_iff_eq, and_assoc]

theorem handTable_rises (s : State) : keysRise (handTable s) = true := keysRise_range _ _

theorem handed_blocks (s : State) : (handed s).blocks = handTable s := by
  rw [handed_eq]
  rfl

theorem freeBlocks_nodup (s : State) : ((freeBlocks (handTable s)).map blockKey).Nodup := by
  have hkeys : (handTable s).Pairwise fun p q => p.1 < q.1 := (keysRise_pairwise _).1 (handTable_rises s)
  have : (freeBlocks (handTable s)).map blockKey = ((handTable s).filter fun p => p.2.state == .free).map (·.1) := by
    unfold freeBlocks
    rw [List.map_map]
    exact List.map_congr_left fun p _ => blockKey_blockAt p.1
  rw [this]
  exact List.pairwise_map.2 ((hkeys.filter _).imp Nat.ne_of_lt)

theorem mem_handFree {b : BlockId} :
    b ∈ handFree s ↔ b.block < 256 ∧ ∃ r, blockGet (handed s) b = some r ∧ r.state = .free := by
  have hperm := (freeInserts_spec (s := handBase s) (freeBlocks_nodup s)).1
  rw [show b ∈ handFree s ↔ b ∈ freeBlocks (handTable s) from hperm.mem_iff, mem_freeBlocks]
  rw [blockGet, handed_blocks]
  refine ⟨fun ⟨p, hp, hfree, hb⟩ => ?_, fun ⟨hb, r, hr, hfree⟩ => ?_⟩
  · subst hb
    refine ⟨blockAt_lt p.1, p.2, ?_, hfree⟩
    rw [blockKey_blockAt]
    exact keyGet_mem (handTable_rises s) hp
  · exact ⟨_, mem_of_keyGet hr, hfree, blockAt_blockKey hb⟩

theorem handFree_sorted (s : State) : (handFree s).Pairwise fun a b => freeBefore (handed s) a b = true := by
  have h := (freeInserts_spec (s := handBase s) (freeBlocks_nodup s)).2
  refine List.Pairwise.imp (fun hab => ?_) h
  rw [handed_eq]
  exact hab

/-! ### The operations of the hand-over (R171) -/

theorem handoverOp_eq (s : State) (k : Nat) (r : BlockRec) :
    handoverOp s (k, r) =
      if r.work = .stampOut then some (eraseStampOp s (blockAt k) (nextErase s (blockAt k)))
      else if r.work = .eraseOut then some (eraseOp .erase .eraseStamp (blockAt k)) else none := by
  unfold handoverOp
  dsimp only
  split
  · rename_i h
    rw [if_pos h]
  · rename_i h
    rw [if_neg (by rw [h]; nofun), if_pos h]
  · rename_i hstamp herase
    rw [if_neg hstamp, if_neg herase]

/-- The stamp of a BLANK block or the erase of an ERASE block, by the block's record (R171). -/
theorem handOps_eq (s : State) :
    handOps s = (List.range (s.diesInUse * 256)).filterMap fun k =>
      (blockGet (handed s) (blockAt k)).bind fun r =>
        if r.work = .stampOut then
          some (programOp .eraseStamp .eraseStamp (blockAt k) 0 0
            [.eraseStamp (currentSerial s) (nextErase (handed s) (blockAt k))])
        else if r.work = .eraseOut then some (eraseOp .erase .eraseStamp (blockAt k))
        else none := by
  unfold handOps
  rw [handTable, List.filterMap_map]
  refine List.filterMap_congr fun k hk => ?_
  have hget : blockGet (handed s) (blockAt k) = some (handoverRec s (handWinners s) k) := by
    rw [blockGet, handed_blocks, blockKey_blockAt]
    exact (keyGet_range _ _ _).trans (if_pos (List.mem_range.1 hk))
  have hnext : nextErase (handed s) (blockAt k) = nextErase (handSet s) (blockAt k) := by
    rw [handed_eq]
    rfl
  rw [hget, hnext]
  exact handoverOp_eq (handSet s) k _

end Sys2Proof.Machine
end

section
/-! SUPPORT. Proofs: the reads of the mount and what follows them (O54). -/
namespace Sys2Proof.Machine

variable {s : State}

theorem beginScan_eq (s : State) :
    beginScan s =
      issueTogether
        ((s.mount.findings.filter fun p => p.2.cls == some .log && !isOffline s (p.1 / 256)).map fun p =>
          pageRead .scanRead .mountRead ⟨p.1 / 256, p.1 % 256⟩ 1)
        { s with
          mount :=
            { s.mount with
              phase := .scan
              findings := s.mount.findings.map fun p =>
                if p.2.cls = some .log then
                  (p.1, if isOffline s (p.1 / 256) then { p.2 with scanned := true } else { p.2 with cursor := 1 })
                else p } } := by
  have hbegun := List.map_congr_left fun p (_ : p ∈ s.mount.findings) => startScan_eq (s := s) p
  rw [← hbegun]
  rfl

/-! ### The mount settles (R170) -/

/-- The state once the noted slots are judged. -/
def judged (s : State) : State :=
  { s with
    maint := ((badRecords s).foldl (fun x l => raise .mountBadRecord (.location l) x) s).maint
    mount := { s.mount with phase := .settle } }

theorem settleMount_eq (s : State) : settleMount s = endMode (anyOffline s) (handed (judged s)) := by
  have hjudged : (badRecords s).foldl (fun x l => raise .mountBadRecord (.location l) x)
      (mountUpd (fun m => { m with phase := .settle }) s) = judged s := by
    obtain ⟨ma, e⟩ := raises_keep .mountBadRecord Subject.location (badRecords s) (mountUpd (fun m => { m with phase := .settle }) s)
    have hma := raises_maint .mountBadRecord Subject.location (badRecords s)
      (s := mountUpd (fun m => { m with phase := .settle }) s) (t := s) rfl rfl
    rw [e] at hma
    rw [e, judged, ← hma]
    rfl
  unfold settleMount
  rw [hjudged, handOver_eq, anyOffline_issueTogether]
  rfl

theorem handed_freeList (s : State) : (handed s).freeList = handFree s := by rw [handed_eq]

theorem findingOf_judged (l : Loc) :
    (findingOf (judged s) (blockOf l)).openSeq.getD 0 =
      ((keyGet (l.die * 256 + l.block) s.mount.findings).bind (·.openSeq)).getD 0 := by
  show ((keyGet (l.die * 256 + l.block) s.mount.findings).getD Finding.initial).openSeq.getD 0 = _
  cases keyGet (l.die * 256 + l.block) s.mount.findings <;> rfl

/-- Which noted slots are judged bad (R170): those of dies not OFFLINE outside the torn tails. -/
theorem count_badRecords {l : Loc} (hlive : (dieAt s l.die).state ≠ .offline) (ht : ¬ torn s l = true) :
    (badRecords s).count l = s.mount.noted.count l := by
  rw [(badRecords_spec s).1.count_eq]
  refine List.count_filter ?_
  rw [Bool.and_eq_true, Bool.not_eq_true', Bool.not_eq_true', isOffline]
  exact ⟨beq_eq_false_iff_ne.2 hlive, Bool.eq_false_iff.2 ht⟩

theorem not_mem_badRecords {l : Loc} (h : ¬ (dieAt s l.die).state ≠ .offline ∨ torn s l = true) : l ∉ badRecords s := by
  intro hmem
  have hkept := (List.mem_filter.1 ((badRecords_spec s).1.mem_iff.1 hmem)).2
  rw [Bool.and_eq_true, Bool.not_eq_true', Bool.not_eq_true', isOffline] at hkept
  rcases h with h | h
  · exact h (beq_eq_false_iff_ne.1 hkept.1)
  · exact Bool.eq_false_iff.1 hkept.2 h

theorem winnerEntry_eq (c : Candidate) :
    winnerEntry c =
      { state := if c.lost then .damaged
          else match c.kind with
            | .line => .present c.loc c.seq
            | .trim => .trimmed c.loc c.seq
        stamps := c.stamps } := by
  unfold winnerEntry
  cases c.lost <;> cases c.kind <;> rfl

theorem endMode_of_pfw {ro high : Bool} {t : State} (h : t.pfwHigh = high) :
    endMode ro t =
      if high then setMode (if ro then .readOnly else .active) t else { setMode .parked t with heldReadOnly := ro } := by
  subst h
  rfl

/-- Settles O54. The reads by the class that page 0 gives and the slots of a LOG block; the settlement by the newest LOG blocks, the noted
slots and the winners, each a choice of one from a list; the hand-over by the tables that it makes of them. -/
theorem mountReadAnswered : Obligations.MountReadAnswered := by
  unfold Obligations.MountReadAnswered
  refine ⟨?_, ?_, ?_, ?_⟩
  · intro s d op raws hn he hl hon a rs seen b f
    have hserial : currentSerial seen = currentSerial s := currentSerial_answeredOp d op raws s
    have hf : findingOf seen b = f := findingOf_answeredOp d op raws s b
    refine ⟨fun hc hp hpage => ?_, fun hc hp hpage => ?_, fun hc hp => ?_⟩
    · intro classed' put stamped' logged
      have hlogged : ∀ x, logged x = takeSlots b 0 2 (rs.drop 2) x := foldl_drop_eq_takeSlots b rs
      have hclass : ∀ {f slot1 x} {p : Finding → Prop}, classOf (currentSerial s) b rs = some (f, slot1) →
          classed b f slot1 rs seen = x → (∀ h, p { f with highSeq := h }) → classed' p x := by
        rintro f slot1 x p hcls rfl hfind
        obtain ⟨h, e⟩ := findingOf_classed b f slot1 rs seen
        refine ⟨effect_classifyRead hc hn he hl hp (classifyPage_classed hpage (by rw [hserial]; exact hcls)), ?_⟩
        rw [e]
        exact hfind h
      clear_value classed'
      have hof : ∀ {l c}, rs = l → classOf (currentSerial s) b l = c → classOf (currentSerial s) b rs = c :=
        fun hrs h => (congrArg (classOf (currentSerial s) b) hrs).trans h
      refine ⟨?_, ?_, ?_, ?_, ?_, ?_⟩
      · intro g n s2 rest hrs
        exact hclass (hof hrs classOf_free) rfl fun _ => ⟨rfl, rfl⟩
      · intro g g' n role q s2 rest hrs
        exact hclass (hof hrs classOf_log) (hlogged _).symm fun _ => ⟨rfl, rfl, rfl, rfl⟩
      · intro g n s1 s2 rest hrs h1 h2
        have hcls := hof hrs (classOf_torn_stamp h1 h2)
        by_cases hs2 : s2 = .erased
        · rw [if_pos hs2] at hcls ⊢
          rw [if_pos hs2]
          exact hclass hcls rfl fun _ => ⟨rfl, rfl, rfl⟩
        · rw [if_neg hs2] at hcls ⊢
          rw [if_neg hs2]
          exact hclass hcls (hlogged _).symm fun _ => ⟨rfl, rfl, rfl⟩
      · intro g n serial s1 s2 rest hrs hne
        exact hclass (hof hrs (classOf_other_serial hne)) rfl fun _ => ⟨rfl, rfl⟩
      · intro s0 rest hrs h0 hr
        exact hclass (hof hrs (classOf_no_stamp h0 (by rwa [hrs] at hr))) rfl fun _ => ⟨rfl, rfl⟩
      · intro hall
        exact effect_classifyRead hc hn he hl hp (classifyPage_blank hpage (classOf_erased hall))
    · have hoff : isOffline seen b.die = false := isOffline_answeredOp (die_lt hc.2.1) hon raws
      have hgo := classifyPage_later (rs := rs) hpage hoff
      rw [show findingOf seen op.block = f from hf] at hgo
      refine ⟨fun h => effect_classifyRead hc hn he hl hp (hgo.trans (if_pos h)), fun h =>
        effect_classifyRead hc hn he hl hp (hgo.trans (if_neg (Nat.not_lt.2 h)))⟩
    · intro v g
      have hoff : isOffline seen b.die = false := isOffline_answeredOp (die_lt hc.2.1) hon raws
      have hv : takeSlots b op.page 0 rs seen = v := by
        rw [takeSlots_eq_foldl]
        simp only [Nat.zero_add]
        rfl
      have hgo := scanPage_eq (rs := rs) hoff
      rw [show takeSlots op.block op.page 0 rs seen = v from hv] at hgo
      refine ⟨fun hr hpage => effect_scanRead hc hn he hl hp (hgo.trans (if_neg ?_)), fun h =>
        effect_scanRead hc hn he hl hp (hgo.trans (if_pos h))⟩
      obtain ⟨r, hr, hr'⟩ := hr
      rintro (h | h)
      · exact hr' (h r hr)
      · exact hpage h
  · intro loc x g k l q st p key w noted offered' named
    have hnamed : named ↔ selectedBacked x l = true := selectedBacked_iff.symm
    refine ⟨rfl, rfl, fun h => ⟨offer_named (hnamed.1 h), ?_⟩, fun h => ⟨?_, ?_⟩⟩
    · exact offer_named (s := noted) (hnamed.1 h)
    · exact (offer_not_named (mt hnamed.2 h)).trans rfl
    · exact (offer_not_named (s := noted) (mt hnamed.2 h)).trans rfl
  · intro rs x seq count
    refine ⟨(seeSlots rs x).mount.highest, (seeSlots rs x).mount.largestErase, rfl, fun n => ?_, fun n => ?_⟩
    · exact seeSlots_highest_le.trans (and_congr_right fun _ => forall_seen_iff (fun _ _ => seqSeen_iff) n)
    · exact seeSlots_largestErase_le.trans (and_congr_right fun _ => forall_seen_iff (fun _ _ => countSeen_iff) n)
  · intro s fs
    refine ⟨fun hp => ⟨?_, fun hall => ?_⟩, fun hp => ⟨?_, fun hall => ?_⟩⟩
    · rintro ⟨p, hmem, hnone⟩
      exact (mountStep_classify hp).trans (if_neg fun h => classifyOver_iff.1 h p hmem hnone)
    · exact (mountStep_classify hp).trans ((if_pos (classifyOver_iff.2 hall)).trans (congrArg some (beginScan_eq s)))
    · rintro ⟨p, hmem, hn⟩
      exact (mountStep_scan hp).trans (if_neg fun h => hn (scanOver_iff.1 h p hmem))
    · intro place opened live logs newest tail left beaten wins off hdist
      have hlogs : ∀ role p, logs role p ↔ p ∈ fs.filter (logBlock s role) := fun role p => by
        rw [List.mem_filter, logBlock_iff]
      have hnewest : ∀ role p, newest role p ↔ newestLog s role = some p := fun role p => by
        rw [newestLog_iff fun q hq r hr => hdist role q r ((hlogs role q).2 hq) ((hlogs role r).2 hr)]
        simp only [newest, hlogs]
        rfl
      have htail : ∀ l, tail l ↔ torn s l = true := fun l => by
        rw [torn_iff]
        simp only [tail, hnewest]
      have hleft : ∀ c, left c ↔ c ∈ settledCands (judged s) := fun c => by
        rw [show settledCands (judged s) = settledCands s from rfl, settledCands_iff, ← htail]
      have hpfw : (handed (judged s)).pfwHigh = s.pfwHigh := by
        rw [handed_eq]
        rfl
      have hgo : mountStep s = some (endMode off (handed (judged s))) := by
        have hoff : anyOffline s = off := anyOffline_eq s
        rw [mountStep_scan hp, if_pos (scanOver_iff.2 hall), settleMount_eq, hoff]
      refine ⟨handed (judged s), badRecords s, hgo.trans (congrArg some (endMode_of_pfw hpfw)), ?_, ?_, fun l => ⟨fun hl ht => ?_,
        fun h => ?_⟩, (badRecords_spec s).2, mapWf_handed _, ?_, ?_, ?_, ?_, ?_, ?_, ?_⟩
      · rw [handed_eq]
        rfl
      · rw [handed_eq]
        rfl
      · exact count_badRecords hl (mt (htail l).2 ht)
      · exact not_mem_badRecords (h.imp_right (htail l).1)
      · rintro c ⟨hc, hbeats⟩
        have hwin : keyGet c.line (handWinners (judged s)) = some c := by
          refine keyGet_winnersOf_of_wins ((hleft c).1 hc) fun e he hline hne => candBeats_iff.2 ?_
          rw [findingOf_judged, findingOf_judged]
          exact hbeats e ((hleft e).2 he) hline hne
        rw [mapGet_handed, hwin]
        exact winnerEntry_eq c
      · intro l hno
        have hnone : keyGet l (handWinners (judged s)) = none :=
          keyGet_winnersOf_of_no_cand fun c hc => hno c ((hleft c).2 hc)
        rw [mapGet_handed, hnone]
        rfl
      · intro d n hn
        have hget := blockGet_handed (s := judged s) (d := d) hn
        exact ⟨fun hd h => (nomatch (hget.trans (if_pos hd)).symm.trans h), fun hd => hget.trans (if_neg (Nat.not_lt.2 hd))⟩
      · intro d n r hn hget b f given
        have hr : r = handoverRec (judged s) (handWinners (judged s)) (d * 256 + n) :=
          Option.some.inj (Option.ite_none_right_eq_some.1 ((blockGet_handed hn).symm.trans hget)).2.symm
        refine ⟨fun hid => hr.trans (handoverRec_identity hn hid), fun hid => ?_⟩
        have hother := hr.trans (handoverRec_other hn hid)
        refine ⟨fun hret => hother.trans (if_pos (List.contains_iff_mem.2 hret)), fun hret => ?_⟩
        have hkept := hother.trans (if_neg (mt List.contains_iff_mem.1 hret))
        refine ⟨fun hlive => hkept.trans (if_pos (beq_iff_eq.2 (not_not.1 hlive))), fun hlive => ?_⟩
        have hclass : r = classRec (handWinners (judged s)) b f := hkept.trans (if_neg (mt beq_iff_eq.1 hlive))
        refine ⟨fun hc => ?_, fun hc => ?_, fun hc => ?_, fun hc => ?_⟩
        · exact hclass.trans (classRec_free hc)
        · exact hclass.trans (classRec_blank hc)
        · exact hclass.trans (classRec_erase hc)
        · rw [← winnersIn_eq]
          exact hclass.trans (classRec_log hc)
      · intro b
        rw [handed_freeList]
        exact mem_handFree
      · rw [handed_freeList]
        exact (handFree_sorted (judged s)).imp freeBefore_iff.1
      · have hdies : (handed (judged s)).dies = (issueTogether (handOps (judged s)) s).dies := by
          rw [handed_eq]
          exact issueTogether_dies_congr _ rfl rfl
        rw [hdies, handOps_eq]
        rfl

end Sys2Proof.Machine
end

section
/-! SUPPORT. Proofs: what every step keeps (O59), and RST_N low (O5). -/
namespace Sys2Proof.Machine

variable {s t : State} {c : Instr} {f : Bool}

/-! ### What one command keeps -/

/-- An event whose settings were in range at some moment of it leaves `t`. -/
def Kept (f : Bool) (t : State) : Prop := ∃ r, SettingsInv r ∧ Ok r (.none f) t

theorem Kept.inv (h : Kept f t) : Inv t :=
  let ⟨_, hset, hok⟩ := h
  hok.inv hset

theorem Kept.stampInv (h : Kept true t) : StampInv t :=
  let ⟨_, _, hok⟩ := h
  hok.stampInv

/-- The settings may be replaced inside the event. -/
theorem OkC.with_settings {w : Due} (h : Ok s w t) (c : Settings) :
    Ok { s with maint := { s.maint with settings := c } } w { t with maint := { t.maint with settings := c } } :=
  { h with set := rfl }

/-- SET PARAMETER keeps the settings in range, where each value it takes is (R188). -/
theorem setParameter_kept {inRange : Bool} {g : Settings → Settings} (h : Inv s)
    (hg : inRange = true → SettingsInv { s with maint := { s.maint with settings := g s.maint.settings } })
    (hok : Ok s (.none f) s) : Kept f (frame 3 (shortRequest .setParameter (setParameter inRange g)) s) := by
  have framed : Ok s (.none f) (shiftOut 6 s) := shiftOut_ok 6 hok
  unfold frame shortRequest
  split
  · unfold setParameter
    split
    · exact ⟨_, hg ‹_›, reply_ok _ _ (framed.with_settings _)⟩
    · exact ⟨s, h.settings, reply_ok _ _ framed⟩
  · exact ⟨s, h.settings, reply_ok _ _ framed⟩

/-- The invariants hold, and where `f` says that what the medium answers is well-formed, so do those of the stamps. -/
def Holds (f : Bool) (s : State) : Prop := Inv s ∧ (f = true → StampInv s)

theorem Kept.holds (h : Kept f t) : Holds f t := ⟨h.inv, fun hf => by subst hf; exact h.stampInv⟩

theorem OkAny.kept (h : OkAny f s t) (hset : SettingsInv s) : Kept f t :=
  let ⟨n, _, hok⟩ := h
  ⟨{ s with now := n }, hset, hok⟩

theorem Kept.finish (h : Kept f t) : Kept f (finish t) :=
  let ⟨_, hset, hok⟩ := h
  ⟨_, hset, finish_ok hok⟩

theorem event_holds {g : State → State} (e : event g s = .next t) (h : Holds f s) (hg : Ok s (.none f) s → Kept f (g s)) :
    Holds f t := by
  unfold event at e
  split at e
  · cases e; exact h
  · rename_i hr
    rw [← Host.Outcome.next.inj e]
    exact (hg (h.1.start h.2 (by simpa using hr))).finish.holds

theorem quick_holds {g : State → State} (e : quick g s = .next t) (h : Holds f s) (hg : Ok s (.none f) s → Kept f (g s)) :
    Holds f t := by
  unfold quick at e
  split at e
  · cases e; exact h
  · rename_i hr
    rw [← Host.Outcome.next.inj e]
    obtain ⟨_, hset, hok⟩ := hg (h.1.start h.2 (by simpa using hr))
    exact Kept.holds ⟨_, hset, drive_ok hok⟩

/-- The recorded PFW level is in none of the invariants (R158). -/
theorem Holds.with_pfw (h : Holds f s) (high : Bool) : Holds f { s with pfwHigh := high } :=
  ⟨{ h.1 with block := { h.1.block with }, mount := { h.1.mount with } }, fun hf => { h.2 hf with }⟩

theorem pfwChanges_holds (h : Holds f s) (high : Bool) : Holds f (pfwChanges high s) := by
  unfold pfwChanges
  split
  · exact h.with_pfw high
  · rename_i hr
    have hok := h.1.start h.2 (by simpa using hr)
    refine Kept.holds ⟨{ s with pfwHigh := high }, h.1.settings, finish_ok ?_⟩
    cases high
    · exact pfwFalls_ok hok
    · exact pfwRises_ok hok

theorem resetRelease_holds (h : Holds f s) : Holds f (if s.rstLow then drive s.released else s) := by
  split
  · rename_i hr
    have hphase : s.mount.phase ≠ .done := by
      rw [(h.1.mode.1 hr).2]
      exact fun k => MountPhase.noConfusion k
    exact ⟨drive_inv (released_inv h.1 hr), fun hf => drive_stampInv (released_stampInv (h.2 hf) hphase)⟩
  · exact h

/-- Every command keeps the invariants; those of the stamps, where it is well-formed. -/
theorem exec_holds (h : Holds f s) (hw : f = true → c.wf = true) (e : exec c s = .next t) : Holds f t := by
  have set : SettingsInv s := h.1.settings
  obtain ⟨hdelay, hlow, hhigh, hwait, hlimit⟩ := h.1.settings
  by_cases hc : setsOrPins c = true
  · cases c with
    | setCommitDelay v =>
      refine event_holds e h (setParameter_kept h.1 fun hv => ?_)
      exact ⟨of_decide_eq_true hv, hlow, hhigh, hwait, hlimit⟩
    | setBatchThreshold v =>
      refine event_holds e h (setParameter_kept h.1 fun hv => ?_)
      obtain ⟨h1, h2⟩ := Bool.and_eq_true_iff.1 hv
      exact ⟨hdelay, of_decide_eq_true h1, of_decide_eq_true h2, hwait, hlimit⟩
    | setWaitLimit v =>
      refine quick_holds e h (setParameter_kept h.1 fun hv => ?_)
      obtain ⟨h1, h2⟩ := Bool.and_eq_true_iff.1 hv
      exact ⟨hdelay, hlow, hhigh, of_decide_eq_true h1, of_decide_eq_true h2⟩
    | setAttentionMask v => exact quick_holds e h (setParameter_kept h.1 fun _ => set)
    | resetAssert =>
      cases e
      exact ⟨inReset_inv .., fun _ => inReset_stampInv ..⟩
    | resetRelease =>
      cases e
      exact resetRelease_holds h
    | pfwLow =>
      rw [← Host.Outcome.next.inj e]
      exact pfwChanges_holds h false
    | pfwHigh =>
      rw [← Host.Outcome.next.inj e]
      exact pfwChanges_holds h true
    | _ => cases hc
  · rcases exec_any (Bool.not_eq_true _ ▸ hc) h.1 (fun hf => ⟨hw hf, h.2 hf⟩) e with ⟨_, rfl⟩ | ⟨_, hany⟩
    · exact h
    · exact (hany.kept set).holds

/-! ### The pins -/

theorem drive_pinsInv (s : State) : PinsInv (drive s) := rfl

/-- A command other than those of RST_N and PFW is an event, or is answered without one. -/
theorem exec_event_or_quick (h : c ≠ .resetAssert ∧ c ≠ .resetRelease ∧ c ≠ .pfwLow ∧ c ≠ .pfwHigh) :
    ∃ g, exec c = event g ∨ exec c = quick g := by
  cases c with
  | resetAssert => exact absurd rfl h.1
  | resetRelease => exact absurd rfl h.2.1
  | pfwLow => exact absurd rfl h.2.2.1
  | pfwHigh => exact absurd rfl h.2.2.2
  | badFrame | fetchFrame | getStatus | getFaults | getLine | getBlock | setWaitLimit | setAttentionMask =>
    exact ⟨_, .inr rfl⟩
  | _ => exact ⟨_, .inl rfl⟩

theorem event_pinsInv {g : State → State} (h : PinsInv s) (e : event g s = .next t) : PinsInv t := by
  unfold event at e
  split at e
  · cases e; exact h
  · rw [← Host.Outcome.next.inj e]
    exact drive_pinsInv _

theorem quick_pinsInv {g : State → State} (h : PinsInv s) (e : quick g s = .next t) : PinsInv t := by
  unfold quick at e
  split at e
  · cases e; exact h
  · rw [← Host.Outcome.next.inj e]
    exact drive_pinsInv _

theorem assertReset_pinsInv (s : State) : PinsInv (assertReset s) := by
  simp [PinsInv, assertReset, State.inReset, pinsOf, hwaitHigh, hrdyHigh, attnHigh, driven, pendingSet, DieRec.unused,
    DieRec.heldHigh]

/-- Every command drives the pins from the state it leaves. -/
theorem exec_pinsInv (h : PinsInv s) (e : exec c s = .next t) : PinsInv t := by
  by_cases hc : c ≠ .resetAssert ∧ c ≠ .resetRelease ∧ c ≠ .pfwLow ∧ c ≠ .pfwHigh
  · obtain ⟨g, hg | hg⟩ := exec_event_or_quick hc
    · exact event_pinsInv h ((congrFun hg s).symm.trans e)
    · exact quick_pinsInv h ((congrFun hg s).symm.trans e)
  · have hpfw (high : Bool) : PinsInv (pfwChanges high s) := by
      unfold pfwChanges
      split
      · exact h
      · exact drive_pinsInv _
    cases c with
    | resetAssert => cases e; exact assertReset_pinsInv s
    | resetRelease =>
      rw [← Host.Outcome.next.inj e]
      split
      · exact drive_pinsInv _
      · exact h
    | pfwLow => rw [← Host.Outcome.next.inj e]; exact hpfw false
    | pfwHigh => rw [← Host.Outcome.next.inj e]; exact hpfw true
    | _ => simp at hc

/-! ### O59: one step -/

/-- The queue of commands is in none of the invariants. -/
theorem Holds.with_pending (h : Holds f s) (l : List Instr) : Holds f { s with pending := l } :=
  ⟨{ h.1 with block := { h.1.block with }, mount := { h.1.mount with } }, fun hf => { h.2 hf with }⟩

/-- One microsecond of the timebase changes nothing that the invariants speak of. -/
theorem Holds.tick (h : Holds f s) : Holds f (tick s) :=
  ⟨{ h.1 with block := { h.1.block with }, mount := { h.1.mount with } }, fun hf => { h.2 hf with }⟩

theorem step_holds (h : Holds f s) (hw : f = true → ∀ c ∈ s.pending.head?, c.wf = true)
    (e : step s = .next t) : Holds f t := by
  unfold step at e
  split at e
  · rename_i c rest hp
    exact exec_holds (h.with_pending rest) (fun hf => hw hf c (by simp [hp])) e
  · cases e
    exact h.tick

theorem step_pinsInv (h : PinsInv s) (e : step s = .next t) : PinsInv t := by
  unfold step at e
  split at e
  · rename_i c rest hp
    have hq : PinsInv { s with pending := rest } := h
    exact exec_pinsInv hq e
  · cases e
    exact h

/-- Settles O59: a command keeps what every operation inside its event keeps, and the settings and pins are taken apart. -/
theorem stepKeepsInvariants : Obligations.StepKeepsInvariants := by
  intro s t e
  refine ⟨fun hi => ?_, fun hi hs hw => ?_, fun hp => step_pinsInv hp e⟩
  · exact (step_holds (f := false) ⟨hi, fun hf => (nomatch hf)⟩ (fun hf => (nomatch hf)) e).1
  · exact (step_holds (f := true) ⟨hi, fun _ => hs⟩ (fun _ => hw) e).2 rfl

/-! ### O5: RST_N low -/

/-- Settles O5: an event and a request answered without one leave the state as it is, and the level is recorded alone. -/
theorem resetLowTakesNoCommand : Obligations.ResetLowTakesNoCommand := by
  intro s c hr
  have recorded (high : Bool) : pfwChanges high s = { s with pfwHigh := high } := if_pos hr
  refine ⟨fun h1 h2 h3 h4 => ?_, ?_, ?_⟩
  · obtain ⟨g, hg | hg⟩ := exec_event_or_quick ⟨h1, h2, h3, h4⟩
    · exact (congrFun hg s).trans (if_pos hr)
    · exact (congrFun hg s).trans (if_pos hr)
  · exact congrArg Host.Outcome.next (recorded false)
  · exact congrArg Host.Outcome.next (recorded true)

end Sys2Proof.Machine
end

section
/-! SUPPORT. Proofs: host accesses that the mode answers (O6), that an entry serves or takes (O7, O10, O12), and
their end (O14). -/
namespace Sys2Proof.Machine

variable {s : State}

/-! ### O6: R19 -/

theorem takeRead_instead {fault : Option FaultKind} (addr : BitVec 24) (ha : s.host.access = none)
    (hm : readAnswer s.mode = .instead fault) :
    takeRead addr s = raiseOpt fault (addr.toNat / 64) (answeredAccess none addr (some 0xFF) s) := by
  unfold takeRead
  rw [ha, hm]
  cases fault <;> rfl

theorem takeWrite_instead {fault : Option FaultKind} (addr : BitVec 24) (data : Byte) (ha : s.host.access = none)
    (hm : writeAnswer s.mode = .instead fault) :
    takeWrite addr data s = raiseOpt fault (addr.toNat / 64) (answeredAccess (some data) addr none s) := by
  unfold takeWrite
  rw [ha, hm]
  cases fault <;> rfl

/-- Settles O6, by the rows of R19's table. -/
theorem accessAnsweredByMode : Obligations.AccessAnsweredByMode := by
  intro s addr data hr ha
  have read {fault t} (hm : readAnswer s.mode = .instead fault)
      (ht : raiseOpt fault (addr.toNat / 64) (answeredAccess none addr (some 0xFF) s) = t) : Effect (.hostRead addr) s t :=
    Effect.of_event (f := takeRead addr) rfl hr ((takeRead_instead addr ha hm).trans ht)
  have write {fault t} (hm : writeAnswer s.mode = .instead fault)
      (ht : raiseOpt fault (addr.toNat / 64) (answeredAccess (some data) addr none s) = t) : Effect (.hostWrite addr data) s t :=
    Effect.of_event (f := takeWrite addr data) rfl hr ((takeWrite_instead addr data ha hm).trans ht)
  refine ⟨fun hm => ⟨read (by rw [hm]; rfl) rfl, write (by rw [hm]; rfl) rfl⟩, fun hm => ?_, fun hm => ?_, fun hm => ?_⟩
  · exact read (fault := none) (by rcases hm with hm | hm | hm <;> rw [hm] <;> rfl) rfl
  · exact write (fault := some .modeDrop) (by rcases hm with hm | hm | hm | hm <;> rw [hm] <;> rfl) rfl
  · exact write (fault := none) (by rw [hm]; rfl) rfl

/-! ### O7: a host read of a staged line -/

theorem serveRead_staged {line i : Nat} (off : Nat) (hb : isBacked s line = true) (hc : currentEntry s line = some i) :
    serveRead line off s = serveHit i line off s := by
  simp [serveRead, hb, hc]

theorem serveHit_clean {i line off : Nat} (h : (entryAt s i).state = .clean) :
    serveHit i line off s = touchLru i (answer (some ((entryAt s i).readByte off)) s) := by
  simp [serveHit, h]

theorem serveHit_held {i line off : Nat} (h : (entryAt s i).state = .dirty ∨ (entryAt s i).state = .committing) :
    serveHit i line off s = answer (some ((entryAt s i).readByte off)) s := by
  rcases h with h | h <;> simp [serveHit, h]

theorem serveHit_loading {i line off : Nat} (h : (entryAt s i).state = .loading) :
    serveHit i line off s =
      if byteValid (isOnce s line) off (entryAt s i) = true then answer (some ((entryAt s i).data.getD off Config.fill)) s
      else waitOn (.fetch i) s := by
  simp [serveHit, h]

theorem byteValid_iff {once : Bool} {off : Nat} {e : Entry} :
    byteValid once off e = true ↔ e.trimPending = true ∨ (once = false ∧ e.written.getLsbD off = true) := by
  simp [byteValid]

theorem readByte_line {e : Entry} (h : e.kind = .line) (off : Nat) : e.readByte off = e.data.getD off 0xFF := by
  simp [Entry.readByte, h]

theorem readByte_trim {e : Entry} (h : e.kind = .trim) (off : Nat) : e.readByte off = 0xFF := by
  simp [Entry.readByte, h]

/-- Settles O7, by the entry's state. -/
theorem readServedFromEntry : Obligations.ReadServedFromEntry := by
  intro s addr i hr ha hm line off e once hb hc
  have hit {t} (ht : serveHit i line off (takeAccess none addr s) = t) : Effect (.hostRead addr) s t :=
    effect_hostRead hr ha hm ((serveRead_staged (s := takeAccess none addr s) off hb hc).trans ht)
  have held (he : e.state = .dirty ∨ e.state = .committing) {b : Byte} (hbyte : e.readByte off = b) :
      Effect (.hostRead addr) s (answeredAccess none addr (some b) s) := by
    rw [← hbyte]
    exact hit (serveHit_held (s := takeAccess none addr s) he)
  refine ⟨fun he hk => ?_, fun he hk => held he (readByte_line hk off), fun he hk => held he (readByte_trim hk off),
    fun he => ⟨fun hv => ?_, fun hp hn => ?_⟩⟩
  · rw [← readByte_line hk off]
    exact hit (serveHit_clean (s := takeAccess none addr s) he)
  · exact hit ((serveHit_loading (s := takeAccess none addr s) he).trans (if_pos (byteValid_iff.2 hv)))
  · refine hit ((serveHit_loading (s := takeAccess none addr s) he).trans (if_neg fun hv => ?_))
    rcases byteValid_iff.1 hv with hv | ⟨ho, hw⟩
    · exact Bool.false_ne_true (hp.symm.trans hv)
    · rcases hn with hn | hn
      · exact Bool.false_ne_true (ho.symm.trans hn)
      · exact Bool.false_ne_true (hn.symm.trans hw)

/-! ### O10: a host write merged at once -/

theorem stageWrite_of_held {t : State} {line off : Nat} {b : Byte} (h : mergeHeld line off b s = some t) :
    stageWrite line off b s = answer none t := by
  simp [stageWrite, h]

theorem mergeHeld_loading {line i : Nat} (hc : currentEntry s line = some i) (h : (entryAt s i).state = .loading) (off : Nat)
    (b : Byte) : mergeHeld line off b s = some (mergeLoading i off b (isOnce s line) s) := by
  simp [mergeHeld, hc, h]

theorem mergeHeld_clean {line i : Nat} (hc : currentEntry s line = some i) (h : (entryAt s i).state = .clean) (off : Nat)
    (b : Byte) : mergeHeld line off b s = some (mergeClean i off b (isOnce s line) s) := by
  simp [mergeHeld, hc, h]

theorem mergeHeld_dirty {line i : Nat} (hc : currentEntry s line = some i) (h : (entryAt s i).state = .dirty) (off : Nat)
    (b : Byte) : mergeHeld line off b s = some (mergeDirty i off b (isOnce s line) s) := by
  simp [mergeHeld, hc, h]

theorem mergeHeld_committing {line i : Nat} (hc : currentEntry s line = some i) (h : (entryAt s i).state = .committing)
    (off : Nat) (b : Byte) : mergeHeld line off b s = none := by
  simp [mergeHeld, hc, h]

theorem mergeDirty_line {i : Nat} (h : (entryAt s i).kind = .line) (off : Nat) (b : Byte) (once : Bool) :
    mergeDirty i off b once s =
      setEntry i { entryAt s i with data := mergeByte once off b (entryAt s i).data, touched := true } s := by
  simp [mergeDirty, h]

theorem mergeDirty_trim {i : Nat} (h : (entryAt s i).kind = .trim) (off : Nat) (b : Byte) (once : Bool) :
    mergeDirty i off b once s =
      setEntry i
        { entryAt s i with kind := .line, data := mergeByte once off b fillLine, touched := true, refresh := false } s := by
  simp [mergeDirty, h]

/-- Settles O10, by the entry's state. -/
theorem writeMergedIntoEntry : Obligations.WriteMergedIntoEntry := by
  intro s addr data i hr ha hm line off e once old merged done hw hc
  have hoff : off < 64 := Nat.mod_lt _ (by decide)
  have merge {u t} (hu : mergeHeld line off data (takeAccess (some data) addr s) = some u) (ht : answer none u = t) :
      Effect (.hostWrite addr data) s t :=
    effect_hostWrite_staged hr ha hm hw ((stageWrite_of_held hu).trans ht)
  have hc' : currentEntry (takeAccess (some data) addr s) line = some i := hc
  refine ⟨fun he => ?_, fun he => ?_, fun he hk => ?_, fun he hk => ?_⟩
  · exact merge (mergeHeld_loading hc' he off data) rfl
  · exact merge (mergeHeld_clean hc' he off data) rfl
  · refine merge (mergeHeld_dirty hc' he off data) ?_
    rw [mergeDirty_line (s := takeAccess (some data) addr s) hk]
    rfl
  · refine merge (mergeHeld_dirty hc' he off data) ?_
    rw [mergeDirty_trim (s := takeAccess (some data) addr s) hk, mergeByte_fillLine _ hoff]
    rfl

/-! ### O12: a host write linked to a COMMITTING entry, or waiting -/

theorem mergeGiven_linked {line i j off : Nat} {b : Byte} (hc : currentEntry s line = some j) :
    mergeGiven i line off b s =
      dirtyEntry i
        { Entry.cleared with
          line := some line
          data := mergeByte (isOnce s line) off b (if (entryAt s j).kind = .line then (entryAt s j).data else fillLine)
          touched := true }
        (setEntry j { entryAt s j with newer := some i } s) := by
  unfold mergeGiven
  rw [hc]
  cases hk : (entryAt s j).kind <;> simp [hk]

theorem stageWrite_given {u : State} {line off i : Nat} {b : Byte} (hn : mergeHeld line off b s = none)
    (hal : allocate s = some (i, u)) : stageWrite line off b s = answer none (mergeGiven i line off b u) := by
  simp [stageWrite, hn, hal]

theorem stageWrite_waits {line off : Nat} {b : Byte} (hn : mergeHeld line off b s = none) (hal : allocate s = none) :
    stageWrite line off b s = waitOn .entry s := by
  simp [stageWrite, hn, hal]

/-- Settles O12: no entry takes the write at once, and R25 gives one or none. -/
theorem writeLinkedOrWaits : Obligations.WriteLinkedOrWaits := by
  intro s addr data hr ha hm line off once hw
  have staged {t} (ht : stageWrite line off data (takeAccess (some data) addr s) = t) : Effect (.hostWrite addr data) s t :=
    effect_hostWrite_staged hr ha hm hw ht
  refine ⟨?_, fun hal hc => ?_⟩
  · intro i j u hc hj hl hal c base
    have hu : u = { s with staging := u.staging, lru := u.lru } := allocate_eq hal
    have hal' : allocate (takeAccess (some data) addr s) = some (i, takeAccess (some data) addr u) := by
      rw [takeAccess, allocate_setAccess, hal]; rfl
    have hcu : currentEntry u line = some j := currentEntry_linked_alloc hal hc hj hl
    have hnow : u.now = s.now := by rw [hu]
    have honce : isOnce u line = once := by rw [hu]; rfl
    refine staged ((stageWrite_given (mergeHeld_committing (s := takeAccess (some data) addr s) hc hj off data) hal').trans ?_)
    rw [mergeGiven_linked (s := takeAccess (some data) addr u) hcu, ← hnow, ← honce]
    rfl
  · refine staged ((stageWrite_waits (s := takeAccess (some data) addr s) ?_ ?_).trans rfl)
    · rcases hc with hc | ⟨j, hc, hj⟩
      · exact mergeHeld_of_unstaged (s := takeAccess (some data) addr s) hc off data
      · exact mergeHeld_committing (s := takeAccess (some data) addr s) hc hj off data
    · rw [takeAccess, allocate_setAccess, hal]; rfl

/-! ### O14: the end of an access -/

theorem waitExpires_waiting {a : Access} {started limit : Nat} {why : WaitFor} (ha : s.host.access = some a)
    (hp : a.phase = .waiting started limit why) :
    waitExpires s =
      let ended := fun b => ({ s with
        now := max s.now (started + limit)
        host := { s.host with access := some { a with phase := .answered b } } } : State)
      if a.write.isSome then raise .writeOverrun (.line (a.addr.toNat / 64)) (ended none)
      else raise .readOverrun (.line (a.addr.toNat / 64)) (ended (some 0xFF)) := by
  simp only [waitExpires, ha, hp, answer]
  rfl

theorem waitExpires_of_not_waiting (h : hwaitHigh s = false) : waitExpires s = s := by
  unfold waitExpires
  split
  · rename_i a ha
    split
    · rename_i hp
      simp [hwaitHigh, ha, hp] at h
    · rfl
  · rfl

/-- Settles O14, by whether the access waits, and is a write. -/
theorem accessEndsByStrobeOrWaitLimit : Obligations.AccessEndsByStrobeOrWaitLimit := by
  intro s hr
  refine ⟨Effect.of_event (f := releaseStrobe) rfl hr rfl, ?_,
    fun h => Effect.of_event (f := waitExpires) rfl hr (waitExpires_of_not_waiting h)⟩
  intro a started limit why ha hp u
  refine ⟨fun hw => ?_, fun hw => ?_⟩
  · refine Effect.of_event (f := waitExpires) rfl hr ((waitExpires_waiting ha hp).trans (if_neg ?_))
    simp [hw]
  · exact Effect.of_event (f := waitExpires) rfl hr ((waitExpires_waiting ha hp).trans
      (if_pos (Option.isSome_iff_ne_none.2 hw)))

end Sys2Proof.Machine
end

section
/-! SUPPORT. Proofs: the entry that R25 gives, and to whom (O13), and the TRIM walk on one line (O32). -/
namespace Sys2Proof.Machine

variable {s t u : State}

/-! ### Allocation (R25) -/

theorem lowestFree_none_iff : lowestFree s = none ↔ ∀ j, j < 32 → (entryAt s j).state ≠ .free := by
  unfold lowestFree findEntry
  simp

theorem lowestFree_some {i : Nat} (h : lowestFree s = some i) :
    i < 32 ∧ (entryAt s i).state = .free ∧ ∀ j, j < i → (entryAt s j).state ≠ .free := by
  obtain ⟨hi, hfree, hlow⟩ := findEntry_some h
  exact ⟨hi, beq_iff_eq.1 hfree, fun j hj => beq_eq_false_iff_ne.1 (hlow j hj)⟩

theorem allocate_of_free {i : Nat} (h : lowestFree s = some i) : allocate s = some (i, s) := by
  simp [allocate, h]

theorem allocate_of_full (h : lowestFree s = none) :
    allocate s =
      match s.lru with
      | i :: l => some (i, { s with lru := l, staging := s.staging.set i Entry.cleared })
      | [] => none := by
  unfold allocate
  rw [h]
  rfl

theorem allocate_none_iff : allocate s = none ↔ (∀ j, j < 32 → (entryAt s j).state ≠ .free) ∧ s.lru = [] := by
  rw [← lowestFree_none_iff]
  cases hf : lowestFree s with
  | some i => simp [allocate_of_free hf]
  | none => cases hl : s.lru <;> simp [allocate_of_full hf, hl]

/-- What an allocation gives, and what it leaves (R25). -/
theorem allocate_some {i : Nat} (h : allocate s = some (i, u)) :
    (i < 32 ∧ (entryAt s i).state = .free ∧ (∀ j, j < i → (entryAt s j).state ≠ .free) ∧ u = s) ∨
      ((∀ j, j < 32 → (entryAt s j).state ≠ .free) ∧ s.lru.head? = some i ∧
        u = { s with lru := s.lru.tail, staging := s.staging.set i Entry.cleared }) := by
  cases hf : lowestFree s with
  | some k =>
    rw [allocate_of_free hf] at h
    cases h
    obtain ⟨hi, hfree, hlow⟩ := lowestFree_some hf
    exact .inl ⟨hi, hfree, hlow, rfl⟩
  | none =>
    rw [allocate_of_full hf] at h
    cases hl : s.lru with
    | nil => rw [hl] at h; cases h
    | cons k l =>
      rw [hl] at h
      cases h
      exact .inr ⟨lowestFree_none_iff.1 hf, rfl, rfl⟩

theorem canAllocate_iff : canAllocate s = true ↔ allocate s ≠ none := by
  unfold canAllocate
  cases hf : lowestFree s with
  | some i => simp [allocate_of_free hf]
  | none => cases hl : s.lru <;> simp [allocate_of_full hf, hl]

theorem canAllocate_of_some {i : Nat} (h : allocate s = some (i, u)) : canAllocate s = true :=
  canAllocate_iff.2 (by rw [h]; exact Option.some_ne_none _)

/-! ### The waiting write (R27, R136, R140) -/

theorem grantStep_write (hw : writeWaiting s = true) (ha : allocate s ≠ none) : grantStep s = some (grantWrite s) := by
  simp [grantStep, hw, canAllocate_iff.2 ha]

theorem writeWaiting_of_access {a : Access} {started limit : Nat} (ha : s.host.access = some a)
    (hp : a.phase = .waiting started limit .entry) : writeWaiting s = true := by
  simp [writeWaiting, ha, hp]

theorem mergeHeld_keeps {line off : Nat} {b : Byte} (h : mergeHeld line off b s = some t) :
    t.regions = s.regions ∧ t.freeze = s.freeze := by
  unfold mergeHeld at h
  split at h
  · split at h
    · cases h; exact ⟨rfl, rfl⟩
    · cases h; exact ⟨rfl, rfl⟩
    · cases h
      unfold mergeDirty
      dsimp only
      split <;> exact ⟨rfl, rfl⟩
    · cases h
  · cases h

theorem mergeGiven_keeps (i line off : Nat) (b : Byte) (s : State) :
    (mergeGiven i line off b s).regions = s.regions ∧ (mergeGiven i line off b s).freeze = s.freeze := by
  unfold mergeGiven
  dsimp only
  split
  · exact ⟨rfl, rfl⟩
  · split
    · unfold issueFill
      rw [issue_eq]
      exact ⟨rfl, rfl⟩
    · exact ⟨rfl, rfl⟩

theorem answer_keeps (b : Option Byte) (s : State) : answer b s = { s with host := (answer b s).host } := by
  unfold answer
  split <;> rfl

/-- A write to the staging buffer changes neither the regions nor the freeze logic. -/
theorem stageWrite_keeps (line off : Nat) (b : Byte) (ha : allocate s ≠ none) :
    (stageWrite line off b s).regions = s.regions ∧ (stageWrite line off b s).freeze = s.freeze := by
  cases hm : mergeHeld line off b s with
  | some t =>
    rw [stageWrite_of_held hm, answer_keeps]
    obtain ⟨hreg, hfrz⟩ := mergeHeld_keeps hm
    exact ⟨hreg, hfrz⟩
  | none =>
    cases hal : allocate s with
    | none => exact absurd hal ha
    | some p =>
      obtain ⟨i, u⟩ := p
      rw [stageWrite_given hm hal, answer_keeps]
      have hu : u.regions = s.regions ∧ u.freeze = s.freeze := by rw [allocate_eq hal]; exact ⟨rfl, rfl⟩
      have hg := mergeGiven_keeps i line off b u
      exact ⟨hg.1.trans hu.1, hg.2.trans hu.2⟩

theorem answer_trackFreeze (line : Nat) (b : Option Byte) (s : State) :
    answer b (trackFreeze line s) = trackFreeze line (answer b s) := by
  have hent : currentEntry (answer b s) line = currentEntry s line := by rw [answer_keeps]; rfl
  have hreg : regionOf (answer b s) line = regionOf s line := by rw [answer_keeps]; rfl
  have hfrz : (answer b s).freeze = s.freeze := by rw [answer_keeps]
  unfold trackFreeze
  rw [hent, hreg, hfrz]
  split
  · split
    · unfold answer
      dsimp only
      cases s.host.access <;> rfl
    · rfl
  · rfl

theorem grantWrite_spent {a : Access} (ha : s.host.access = some a)
    (h : isOnce s (lineOf a.addr) = true ∧ onceAccepts s (lineOf a.addr) = false) :
    grantWrite s = answer none (raise .onceExhausted (.line (lineOf a.addr)) s) := by
  simp [grantWrite, ha, h]

/-- A granted write that the stamps leave room for does what a write does that finds an entry, and the entry is
tracked (R27, R140). -/
theorem grantWrite_staged {a : Access} {b : Byte} (ha : s.host.access = some a) (hb : a.write = some b)
    (h : ¬ (isOnce s (lineOf a.addr) = true ∧ onceAccepts s (lineOf a.addr) = false)) (hal : allocate s ≠ none) :
    grantWrite s = trackFreeze (lineOf a.addr) (stageWrite (lineOf a.addr) (offsetOf a.addr) b s) := by
  have hadm : ¬ (isOnce s (lineOf a.addr) && !onceAccepts s (lineOf a.addr)) = true := by simpa using h
  unfold grantWrite
  rw [ha]
  dsimp only
  rw [if_neg hadm, hb, Option.getD_some]
  unfold stageWrite
  split
  · rw [answer_trackFreeze]
  · cases hp : allocate s with
    | none => exact absurd hp hal
    | some p => exact answer_trackFreeze ..

theorem trackFreeze_tracks {line i r : Nat} {q : Region} (hc : currentEntry s line = some i) (hq : regionOf s line = some (r, q))
    (hf : s.freeze.phase = .flushing ∧ s.freeze.region = some r) :
    trackFreeze line s = { s with freeze := { s.freeze with tracked := setAdd i s.freeze.tracked } } := by
  unfold trackFreeze
  rw [hc, hq]
  exact if_pos hf

theorem trackFreeze_of_not_freezing {line : Nat}
    (h : ∀ r q, regionOf s line = some (r, q) → ¬ (s.freeze.phase = .flushing ∧ s.freeze.region = some r)) :
    trackFreeze line s = s := by
  unfold trackFreeze
  split
  · exact if_neg (h _ _ ‹_›)
  · rfl

/-! ### The waiting TRIM walk and scrub walker (R27, R39, R113) -/

theorem trimGained_of_not_waiting (h : s.trim.waiting = false) : trimGained s = false := by
  simp [trimGained, h]

theorem grantStep_scrub (hw : writeWaiting s = false) (ht : s.trim.waiting = false) (hs : s.scrub.state = .waiting)
    (ha : allocate s ≠ none) : grantStep s = some (grantScrub s) := by
  simp [grantStep, hw, ht, hs, trimGained_of_not_waiting ht, canAllocate_iff.2 ha]

theorem grantStep_none (ht : s.trim.waiting = false)
    (h : allocate s = none ∨ (writeWaiting s = false ∧ s.scrub.state ≠ .waiting)) : grantStep s = none := by
  rcases h with h | ⟨hw, hs⟩
  · have hc : canAllocate s = false := Bool.not_eq_true _ ▸ fun hc => canAllocate_iff.1 hc h
    simp [grantStep, hc, ht, trimGained_of_not_waiting ht]
  · simp [grantStep, hw, hs, ht, trimGained_of_not_waiting ht]

theorem grantScrub_not_named {i : Nat} (hal : allocate s = some (i, t)) (hn : ¬ scrubNamed t = true) :
    grantScrub s = scrubLineDone t := by
  simp [grantScrub, hal, hn]

theorem grantScrub_unstaged {i : Nat} (hal : allocate s = some (i, t)) (hn : scrubNamed t = true)
    (hc : currentEntry t t.scrub.current = none) :
    grantScrub s = scrubLineDone (dirtyEntry i (refreshEntry t.scrub.current (t.scrub.held.getD [])) t) := by
  simp [grantScrub, hal, hn, hc]

theorem grantScrub_staged {i j : Nat} (hal : allocate s = some (i, t)) (hn : scrubNamed t = true)
    (hc : currentEntry t t.scrub.current = some j) :
    grantScrub s = scrubLineDone (if (entryAt t j).state = .clean then refreshClean j t else t) := by
  simp [grantScrub, hal, hn, hc]

/-- Settles O13, by what R25 gives and by the waiter of the highest rank. -/
theorem allocationOrder : Obligations.AllocationOrder := by
  intro s
  refine ⟨fun i u hal => allocate_some hal, allocate_none_iff, ?_, ?_, fun hw ht hs => grantStep_none ht (.inr ⟨hw, hs⟩),
    fun hal ht => grantStep_none ht (.inl hal)⟩
  · intro a b started limit ha hb hp hal line u spent freezing
    have hspent : spent ↔ isOnce s line = true ∧ onceAccepts s line = false := by
      rw [onceAccepts_eq_false]
    have hgrant := grantStep_write (writeWaiting_of_access ha hp) hal
    obtain ⟨hreg, hfrz⟩ : u.regions = s.regions ∧ u.freeze = s.freeze := stageWrite_keeps line (a.addr.toNat % 64) b hal
    have hregion : regionOf u line = regionOf s line := by
      unfold regionOf
      rw [hreg]
    refine ⟨fun h => ?_, fun h => ?_⟩
    · rw [hgrant, grantWrite_spent ha (hspent.1 h)]
      obtain ⟨_, addr, _⟩ := a
      subst hb
      simp only [answer, raise_host, ha]
      rfl
    · have hstaged : grantWrite s = trackFreeze line u := grantWrite_staged ha hb (mt hspent.2 h) hal
      refine ⟨fun i r q hc hq hf => ⟨setAdd i u.freeze.tracked, fun k => mem_setAdd, ?_⟩, fun hn => ?_⟩
      · rw [hgrant, hstaged, trackFreeze_tracks hc (hregion.trans hq) (by rw [hfrz]; exact hf)]
      · rw [hgrant, hstaged, trackFreeze_of_not_freezing fun r q hq => ?_]
        rw [hfrz]
        exact hn r q (hregion.symm.trans hq)
  · intro i t hw ht hs hal line done named
    have hgrant := grantStep_scrub hw ht hs (by rw [hal]; exact Option.some_ne_none _)
    have hkept : t = { s with staging := t.staging, lru := t.lru } := allocate_eq hal
    have hscrub : t.scrub = s.scrub := by rw [hkept]
    have hline : t.scrub.current = line := by rw [hscrub]
    have hnamed : scrubNamed t = true ↔ named := by
      rw [hkept]
      exact scrubNamed_iff s
    have finished {x} (h : grantScrub s = scrubLineDone x) : done x := hgrant.trans (congrArg some h)
    refine ⟨fun h => finished (grantScrub_not_named hal (mt hnamed.1 h)),
      fun h => ⟨fun hc payload hp => ?_, fun j hc => ?_⟩⟩
    · refine finished ((grantScrub_unstaged hal (hnamed.2 h) (by rw [hline]; exact hc)).trans ?_)
      rw [hline, hscrub, hp]
      rfl
    · have hstaged := grantScrub_staged hal (hnamed.2 h) (by rw [hline]; exact hc)
      exact ⟨fun he => finished (hstaged.trans (congrArg scrubLineDone (if_pos he))),
        fun he => finished (hstaged.trans (congrArg scrubLineDone (if_neg he)))⟩

/-! ### O32: the TRIM walk on one line (R39, R40, R185) -/

theorem trimAct_unbacked (hb : isBacked s s.trim.current = false) : trimAct s = trimNext s := by
  simp [trimAct, hb]

/-- A line whose entry the walk can act on is done with that entry. -/
theorem trimAct_held {i : Nat} (hb : isBacked s s.trim.current = true) (hc : currentEntry s s.trim.current = some i)
    (hh : trimHeld i s.trim.current s = some u) : trimAct s = trimNext (trimTrack i u) := by
  simp [trimAct, hb, hc, hh]

/-- No entry of the line is LOADING, CLEAN or DIRTY. -/
def Unheld (s : State) (line : Nat) : Prop :=
  currentEntry s line = none ∨ ∃ i, currentEntry s line = some i ∧ (entryAt s i).state = .committing

theorem trimHeld_of_clean {i line : Nat} (h : (entryAt s i).state = .clean) :
    trimHeld i line s = some (dirtyEntry i (trimEntry line) { s with lru := s.lru.filter (· != i) }) := by
  simp [trimHeld, h]

theorem trimHeld_of_dirty {i line : Nat} (h : (entryAt s i).state = .dirty) :
    trimHeld i line s =
      some (setEntry i { entryAt s i with kind := .trim, data := [], touched := false, refresh := false } s) := by
  simp [trimHeld, h]

theorem trimHeld_of_loading {i line : Nat} (h : (entryAt s i).state = .loading) :
    trimHeld i line s =
      some (answerFetch i
        (setEntry i { entryAt s i with written := 0, data := fillLine, trimPending := true, touched := false } s)) := by
  simp [trimHeld, h]

theorem trimHeld_of_committing {i line : Nat} (h : (entryAt s i).state = .committing) : trimHeld i line s = none := by
  simp [trimHeld, h]

theorem trimAct_given {j : Nat} (hb : isBacked s s.trim.current = true) (hn : Unheld s s.trim.current)
    (hal : allocate s = some (j, u)) : trimAct s = trimNext (trimTrack j (trimGiven j s.trim.current u)) := by
  rcases hn with hc | ⟨i, hc, he⟩
  · simp [trimAct, hb, hc, hal]
  · simp [trimAct, hb, hc, trimHeld_of_committing he, hal]

theorem trimAct_waits (hb : isBacked s s.trim.current = true) (hn : Unheld s s.trim.current) (hal : allocate s = none) :
    trimAct s = { s with trim := { s.trim with waiting := true } } := by
  rcases hn with hc | ⟨i, hc, he⟩
  · simp [trimAct, hb, hc, hal]
  · simp [trimAct, hb, hc, trimHeld_of_committing he, hal]

theorem trimGiven_unstaged {j line : Nat} (hc : currentEntry s line = none) :
    trimGiven j line s = dirtyEntry j (trimEntry line) s := by
  simp [trimGiven, hc]

theorem trimGiven_linked {i j line : Nat} (hc : currentEntry s line = some i) :
    trimGiven j line s = dirtyEntry j (trimEntry line) (setEntry i { entryAt s i with newer := some j } s) := by
  simp [trimGiven, hc]

/-- An answered read and the walk's own progress do not touch each other. -/
theorem trimNext_answeredFetch (i j : Nat) (b : Byte) (s : State) :
    trimNext (trimTrack i (answeredFetch j b s)) = answeredFetch j b (trimNext (trimTrack i s)) := by
  have hw : waitsFor (trimNext (trimTrack i s)) = waitsFor s := rfl
  unfold answeredFetch
  rw [hw]
  split <;> rfl

/-- A read that waits on an entry which becomes trim pending gets the fill value (R29, R40). -/
theorem answerFetch_trimPending {i : Nat} {e : Entry} (hi : i < s.staging.length) (hs : e.state = .loading) :
    answerFetch i (setEntry i { e with written := 0, data := fillLine, trimPending := true, touched := false } s) =
      answeredFetch i 0xFF (setEntry i { e with written := 0, data := fillLine, trimPending := true, touched := false } s) := by
  rw [answerFetch_held, entryAt_setEntry_same hi, readByte_fill (accessOffset_lt _) rfl]
  rw [entryAt_setEntry_same hi]
  show e.state ≠ .free
  rw [hs]
  exact fun h => EntryState.noConfusion h

theorem running_trim_iff : running .trim s = true ↔ ∃ b c, s.maint.slot = some (.trim b c) := by
  unfold running
  cases hs : s.maint.slot with
  | none => simp
  | some c => cases c <;> simp [LongCmd.kind]

theorem trimWalk_moves
    (h : (∃ b c, s.maint.slot = some (.trim b c)) ∧ s.trim.waiting = false ∧ s.trim.current < s.trim.stop) :
    trimWalk s = trimAct s := by
  simp [trimWalk, running_trim_iff.2 h.1, h.2.1, h.2.2]

theorem trimWalk_idle
    (h : s.trim.stop ≤ s.trim.current ∨ s.trim.waiting = true ∨ ∀ b c, s.maint.slot ≠ some (.trim b c)) :
    trimWalk s = s := by
  refine if_neg fun hw => ?_
  simp only [Bool.and_eq_true, Bool.not_eq_true', decide_eq_true_eq, running_trim_iff] at hw
  obtain ⟨⟨⟨b, c, hs⟩, hwait⟩, hlt⟩ := hw
  rcases h with h | h | h
  · omega
  · exact Bool.false_ne_true (hwait.symm.trans h)
  · exact h b c hs

theorem trimGained_of_held {i : Nat} (hw : s.trim.waiting = true) (hc : currentEntry s s.trim.current = some i)
    (he : (entryAt s i).state ≠ .committing) : trimGained s = true := by
  simp [trimGained, hw, hc, he]

theorem grantStep_trim (hw : writeWaiting s = false)
    (ht : trimGained s = true ∨ (s.trim.waiting = true ∧ canAllocate s = true)) :
    grantStep s = some (trimAct s) := by
  rcases ht with ht | ⟨ht, hc⟩
  · simp [grantStep, hw, ht]
  · simp [grantStep, hw, ht, hc]

/-- Settles O32, by the line's entry and by what R25 gives; `moves` is one lemma for the walk's event and for its grant. -/
theorem trimWalkHandlesLine : Obligations.TrimWalkHandlesLine := by
  intro s hr
  refine ⟨fun h => Effect.of_event (f := trimWalk) rfl hr (trimWalk_idle h), ?_⟩
  intro b c hslot hlt moves line passed trimmed took
  have walked {t} (hw : s.trim.waiting = false) (ht : trimAct s = t) : Effect .trimWalkLine s t :=
    Effect.of_event (f := trimWalk) rfl hr ((trimWalk_moves ⟨⟨b, c, hslot⟩, hw, hlt⟩).trans ht)
  have moved {t} (ht : trimAct s = t)
      (hg : s.trim.waiting = true → trimGained s = true ∨ (s.trim.waiting = true ∧ canAllocate s = true)) : moves t :=
    ⟨fun hw => walked hw ht, fun hw hq => (grantStep_trim hq (hg hw)).trans (congrArg some ht)⟩
  refine ⟨fun hb hw => walked hw (trimAct_unbacked hb), fun hb => ⟨fun i hc => ?_, fun hc => ?_⟩⟩
  · have held {u t} (he : (entryAt s i).state ≠ .committing) (hh : trimHeld i line s = some u)
        (ht : trimNext (trimTrack i u) = t) : moves t :=
      moved ((trimAct_held hb hc hh).trans ht) fun hw => .inl (trimGained_of_held hw hc he)
    refine ⟨fun he => ?_, fun he => ?_, fun hsize hi he => ?_, fun he => ⟨fun j u hl hal => ?_, fun hal hw => ?_⟩⟩
    · exact held (by rw [he]; decide) (trimHeld_of_clean he) rfl
    · exact held (by rw [he]; decide) (trimHeld_of_dirty he) rfl
    · have hlen : i < s.staging.length := by rw [hsize.1]; exact hi
      refine held (by rw [he]; decide) (trimHeld_of_loading he) ?_
      rw [answerFetch_trimPending hlen he, trimNext_answeredFetch]
      rfl
    · have hcu := currentEntry_linked_alloc hal hc he hl
      refine moved ((trimAct_given hb (.inr ⟨i, hc, he⟩) hal).trans ?_) fun hw => .inr ⟨hw, canAllocate_of_some hal⟩
      rw [trimGiven_linked hcu]
      obtain ⟨st, l, rfl⟩ : ∃ st l, u = { s with staging := st, lru := l } := ⟨_, _, allocate_eq hal⟩
      rfl
    · exact walked hw (trimAct_waits hb (.inr ⟨i, hc, he⟩) hal)
  · refine ⟨fun j u hal => ?_, fun hal hw => walked hw (trimAct_waits hb (.inl hc) hal)⟩
    have hcu := currentEntry_none_alloc hal hc
    refine moved ((trimAct_given hb (.inl hc) hal).trans ?_) fun hw => .inr ⟨hw, canAllocate_of_some hal⟩
    rw [trimGiven_unstaged hcu]
    obtain ⟨st, l, rfl⟩ : ∃ st l, u = { s with staging := st, lru := l } := ⟨_, _, allocate_eq hal⟩
    rfl

end Sys2Proof.Machine
end

section
/-! SUPPORT. Proofs: a die's answer, and that of stale work (O39), and a read-fill answered good (O40). -/
namespace Sys2Proof.Machine

variable {s : State}

/-! ### O40: a read-fill answered good -/

theorem mapGet_answeredOp (d : Nat) (op : Op) (raws : List RawSlot) (s : State) (line : Nat) :
    mapGet (answeredOp d op raws s) line = mapGet s line := by
  unfold mapGet
  rw [answeredOp_lineMap]

theorem isOnce_answeredOp (d : Nat) (op : Op) (raws : List RawSlot) (s : State) (line : Nat) :
    isOnce (answeredOp d op raws s) line = isOnce s line := by
  rw [answeredOp_eq]
  rfl

theorem entryAt_answeredOp (d : Nat) (op : Op) (raws : List RawSlot) (s : State) (i : Nat) :
    entryAt (answeredOp d op raws s) i = entryAt s i := by
  unfold entryAt
  rw [answeredOp_staging]

theorem onReadFill_good {op : Op} {i : Nat} (hs : op.stale = false) (hp : (entryAt s i).trimPending = false) (g : Grade)
    (c : SlotContent) : onReadFill i op (.good g c) s = answerFetch i (completeGood i op.line g (payloadOf c) s) := by
  simp [onReadFill, hs, hp]

/-- A read waiting on an entry that becomes CLEAN gets its byte of the new version (R29). -/
theorem answerFetch_cleaned {i : Nat} (hi : i < s.staging.length) (line : Option Nat) (data : LineData) :
    answerFetch i (cleaned i line data s) =
      answeredFetch i (data.getD (accessOffset s) 0xFF) (cleaned i line data s) := by
  have hent : entryAt (cleaned i line data s) i = { Entry.cleared with state := .clean, line := line, data := data } :=
    entryAt_setEntry_same hi _
  rw [answerFetch_held (by rw [hent]; exact fun h => EntryState.noConfusion h), hent]
  rfl

/-- What a good fetch makes of an entry (R31, R32, R108). -/
theorem completeGood_eq (i line : Nat) (g : Grade) (stored : LineData) (s : State) :
    let e := entryAt s i
    let data := mergeFetched (isOnce s line) e.written e.data stored
    (((mapGet s line).state = .damaged ∨ g = .weak) →
      completeGood i line g stored s = dirtied i { e with data := data, refresh := true } s) ∧
    (¬ ((mapGet s line).state = .damaged ∨ g = .weak) →
      (e.touched = true → completeGood i line g stored s = dirtied i { e with data := data, refresh := false } s) ∧
      (e.touched = false → completeGood i line g stored s = cleaned i e.line data s)) := by
  intro e data
  refine ⟨fun h => if_pos h, fun h => ⟨fun ht => (if_neg h).trans (if_pos ht), fun ht => (if_neg h).trans ?_⟩⟩
  exact if_neg (Bool.eq_false_iff.1 ht)

/-- Settles O40, by the line's state, the grade and the entry's touch; `completeGood_eq` gives the version. -/
theorem readFillGoodCompletesEntry : Obligations.ReadFillGoodCompletesEntry := by
  intro s d i op raw line seq stamps g kind stored h he hsz hi hg hp u e data byte
  have hu : i < u.staging.length := by
    rw [show u.staging = _ from answeredOp_staging d op [raw] s, hsz.1]
    exact hi
  have hent : entryAt u i = e := entryAt_answeredOp ..
  have hoff : accessOffset u = accessOffset s := accessOffset_congr (answeredOp_host ..)
  have hdata : mergeFetched (isOnce u line) e.written e.data stored = data := by
    rw [show isOnce u line = isOnce s line from isOnce_answeredOp ..]
    rfl
  obtain ⟨hrefresh, hplain⟩ := completeGood_eq i line g stored u
  rw [show (mapGet u line).state = (mapGet s line).state from congrArg _ (mapGet_answeredOp ..), hent, hdata] at hrefresh hplain
  have fill {v t} (hv : completeGood i line g stored u = v) (ht : answerFetch i v = t) : Effect (.readFillAnswer d raw) s t := by
    refine effect_readFill h he ?_
    rw [expectSlot_of_readGood hg, onReadFill_good h.2.2.2 (by rw [show entryAt _ i = e from hent]; exact hp), expects_line he]
    exact (congrArg (answerFetch i) hv).trans ht
  have dirty (r : Bool) : answerFetch i (dirtied i { e with data := data, refresh := r } u) =
      answeredFetch i byte (dirtied i { e with data := data, refresh := r } u) := by
    rw [answerFetch_dirtied hu, hoff]
    rfl
  refine ⟨fun hc => fill (hrefresh hc) (dirty true), fun hd hw => ?_⟩
  obtain ⟨htouched, huntouched⟩ := hplain (not_or.2 ⟨hd, hw⟩)
  refine ⟨fun ht => fill (htouched ht) (dirty false), fun ht => fill (huntouched ht) ?_⟩
  rw [answerFetch_cleaned hu, hoff]

/-! ### O39: a die's answer (R71, R92, R94) -/

theorem dieAt_answeredOp_same {d : Nat} (h : d < s.dies.length) (op : Op) (raws : List RawSlot) :
    dieAt (answeredOp d op raws s) d =
      { dieAt s d with
        state := .ready
        inFlight := none
        timer := none
        timeouts := 0
        grades := raws.foldl (fun g r => countGrade (checkSlot r) g) (dieAt s d).grades } := by
  have hlen : d < (dieAnswered d s).dies.length := by simpa [dieAnswered, dieUpd] using h
  have hdie : dieAt (answeredOp d op raws s) d = dieAt (gradeSlots d raws (dieAnswered d s)) d := by
    unfold dieAt
    rw [answeredOp_dies]
  rw [hdie, gradeSlots, dieAt_dieUpd_same hlen, dieAnswered, dieAt_dieUpd_same h]

theorem dieAt_answeredOp_other {d k : Nat} (h : k ≠ d) (op : Op) (raws : List RawSlot) (s : State) :
    dieAt (answeredOp d op raws s) k = dieAt s k := by
  have hdie : dieAt (answeredOp d op raws s) k = dieAt (gradeSlots d raws (dieAnswered d s)) k := by
    unfold dieAt
    rw [answeredOp_dies]
  rw [hdie, gradeSlots, dieAt_dieUpd_other _ h, dieAnswered, dieAt_dieUpd_other _ h]

theorem blockGet_answeredOp {b : BlockId} {r : BlockRec} (h : blockGet s b = some r) (d : Nat) (op : Op) (raws : List RawSlot) :
    blockGet (answeredOp d op raws s) b =
      some { r with
        readers := if op.role.counted = true ∧ blockKey b = blockKey op.block then r.readers - 1 else r.readers } := by
  have hget : blockGet (gradeSlots d raws (dieAnswered d s)) b = some r := h
  unfold answeredOp countReader
  by_cases hc : op.role.counted = true
  · rw [if_pos hc, blockGet_blockUpd, hget]
    by_cases hk : blockKey b = blockKey op.block
    · simp [hc, hk]
    · simp [hk, Ne.symm hk]
  · rw [if_neg hc, hget]
    simp [hc]

/-- An answer that brings no slot, of an operation that no reader count holds, frees the die alone. -/
theorem answeredOp_of_status {d : Nat} {op : Op} (h : d < s.dies.length) (hc : op.role.counted = false) :
    answeredOp d op [] s = dieAnswered d s := by
  have hlen : d < (dieAnswered d s).dies.length := by simpa [dieAnswered, dieUpd] using h
  have hset : (dieAnswered d s).dies.set d (dieAt (dieAnswered d s) d) = (dieAnswered d s).dies := by
    have hget : dieAt (dieAnswered d s) d = (dieAnswered d s).dies[d] := List.getD_eq_getElem _ _ hlen
    rw [hget]
    exact List.set_getElem_self hlen
  have hgrade : gradeSlots d [] (dieAnswered d s) = { dieAnswered d s with dies := (dieAnswered d s).dies } := by
    conv_rhs => rw [← hset]
    rfl
  unfold answeredOp countReader
  rw [if_neg (Bool.eq_false_iff.1 hc), hgrade]

/-! ### Answers of stale work (R20, R61, R114, R154) -/

/-- A die carries an operation whose requester no longer takes the answer. -/
def CarriesStale (d : Nat) (op : Op) (s : State) : Prop :=
  s.rstLow = false ∧ (dieAt s d).inFlight = some op ∧ op.stale = true

theorem carried_of_role {want : OpRole → Bool} {d : Nat} {op : Op} (hf : (dieAt s d).inFlight = some op)
    (hw : want op.role = true) : carried want d s = some op := by
  unfold carried
  rw [hf, Option.filter_some, if_pos hw]

/-- The status of a stale program or erase is discarded. -/
theorem effect_status_stale {c : Instr} {want : OpRole → Bool} {d : Nat} {op : Op} {st : Status}
    (hc : exec c s = event (answerStatus want d st) s) (h : CarriesStale d op s) (hw : want op.role = true) :
    Effect c s (dieAnswered d s) := by
  obtain ⟨hr, hf, hs⟩ := h
  refine Effect.of_event hc hr ?_
  unfold answerStatus
  rw [carried_of_role hf hw]
  exact if_pos hs

/-- A stale line map read leaves what its requester still makes of the slot. -/
theorem effect_read_stale {c : Instr} {want : OpRole → Bool} {t : State} {d : Nat} {op : Op} {raw : RawSlot} {line seq : Nat}
    (hc : exec c s = event (answerRead want d [raw] noContent) s) (h : CarriesStale d op s) (hw : want op.role = true)
    (he : expects op line seq)
    (ht : deliverRead op [expectSlot (some (line, seq)) (checkSlot raw)] noContent (answeredOp d op [raw] s) = t) :
    Effect c s t := by
  obtain ⟨hr, hf, -⟩ := h
  refine Effect.of_event hc hr ?_
  unfold answerRead
  rw [carried_of_role hf hw]
  dsimp only
  rw [if_pos (by rw [he.1]; rfl), ← ht, he.2]
  rfl

/-- The line map reads whose stale answers are discarded. -/
def OpRole.isDiscarded (r : OpRole) : Prop := (∃ i, r = .readFill i) ∨ r = .copyRead ∨ r = .scrubRead

theorem deliverRead_stale_good {op : Op} (hs : op.stale = true) (hr : op.role.isDiscarded) (g : Grade) (c : SlotContent) :
    deliverRead op [.good g c] noContent s = s := by
  rcases hr with ⟨i, hr⟩ | hr | hr
  · simp [deliverRead, hr, onReadFill, hs]
  · simp [deliverRead, hr, onCopyRead, hs]
  · simp [deliverRead, hr, onScrubRead, hs]

theorem deliverRead_stale_lost {op : Op} {r : SlotResult} (hs : op.stale = true) (hr : op.role.isDiscarded)
    (hl : ∀ g c, r ≠ .good g c) : deliverRead op [r] noContent s = lostGrading op.line op.loc s := by
  rcases hr with ⟨i, hr⟩ | hr | hr <;> cases r with
  | good g c => exact absurd rfl (hl g c)
  | _ => simp [deliverRead, hr, onReadFill, onCopyRead, onScrubRead, hs]

theorem onDirectRead_stale_good {op : Op} (hs : op.stale = true) (g : Grade) (c : SlotContent) :
    onDirectRead op (.good g c) s = serveWaiting (directIn s) :=
  if_neg (by simp [hs])

theorem onDirectRead_stale_lost {op : Op} {r : SlotResult} (hs : op.stale = true) (hl : ∀ g c, r ≠ .good g c) :
    onDirectRead op r s = serveWaiting (lostGrading op.line op.loc (directIn s)) := by
  cases r with
  | good g c => exact absurd rfl (hl g c)
  | _ => exact if_neg (by simp [hs])

theorem directIn_answeredOp (d : Nat) (op : Op) (raws : List RawSlot) (s : State) :
    directIn (answeredOp d op raws s) = { answeredOp d op raws s with host := { s.host with directOut := false } } := by
  unfold directIn
  rw [answeredOp_host]

/-- A direct read's end changes nothing of the access, so the read that waits for it is the one that waited. -/
theorem serveWaiting_congr {t : State} (h : t.host.access = s.host.access) :
    serveWaiting t =
      if waitsFor s = some .earlierDirect then serveRead (accessLine s) (accessOffset s) t else t := by
  have hline : accessLine t = accessLine s := by unfold accessLine; rw [h]
  have hoff : accessOffset t = accessOffset s := by unfold accessOffset; rw [h]
  unfold serveWaiting
  rw [waitsFor_congr h, hline, hoff]

/-- Settles O39: the die, the counts and the reader count field by field, then the stale answers by the shape of the operation. -/
theorem answerFreesDie : Obligations.AnswerFreesDie := by
  intro s d op raws hd u
  refine ⟨dieAt_answeredOp_same hd op raws, fun k hk => dieAt_answeredOp_other hk op raws s,
    fun b r hb => blockGet_answeredOp hb d op raws, ?_, fun hc hn => ?_, ?_⟩
  · show answeredOp d op raws s = { s with dies := (answeredOp d op raws s).dies, blocks := (answeredOp d op raws s).blocks }
    rw [answeredOp_eq]
  · show dieAnswered d s = answeredOp d op raws s
    rw [hn, answeredOp_of_status hd hc]
  intro hr hf hs a
  have h : CarriesStale d op s := ⟨hr, hf, hs⟩
  have status {c : Instr} {st : Status} {role : OpRole} (hc : exec c s = event (answerStatus (isRole role) d st) s)
      (hro : op.role = role) : Effect c s a :=
    effect_status_stale hc h (by rw [hro]; exact beq_self_eq_true role)
  refine ⟨fun st => ⟨status rfl, status rfl, status rfl, status rfl, status rfl, status rfl, ?_, ?_, ?_, ?_⟩, ?_⟩
  · rintro hro rfl
    exact status rfl hro
  · rintro hro rfl
    exact status rfl hro
  · rintro hro rfl
    exact status rfl hro
  · rintro hro rfl
    exact status rfl hro
  · intro raw line seq he r discarded
    have dropped {c : Instr} {want : OpRole → Bool} (hro : op.role.isDiscarded)
        (hc : exec c s = event (answerRead want d [raw] noContent) s) (hw : want op.role = true) : discarded c := by
      refine ⟨fun g kind stamps payload hg => effect_read_stale hc h hw he ?_, fun hl => effect_read_stale hc h hw he ?_⟩
      · rw [expectSlot_of_readGood hg, deliverRead_stale_good hs hro]
      · rw [deliverRead_stale_lost hs hro (expectSlot_of_readLost hl), expects_line he]
    refine ⟨fun i hro => dropped (.inl ⟨i, hro⟩) rfl (by rw [hro]; rfl),
      fun hro => dropped (.inr (.inl hro)) rfl (by rw [hro]; rfl),
      fun hro => dropped (.inr (.inr hro)) rfl (by rw [hro]; rfl), ?_⟩
    intro hro u v served
    have direct {x : State} (hx : x.host.access = s.host.access)
        (ht : onDirectRead op (expectSlot (some (line, seq)) (checkSlot raw)) (answeredOp d op [raw] s) = serveWaiting x) :
        served x := by
      rw [serveWaiting_congr hx] at ht
      have taken {t} (e : onDirectRead op (expectSlot (some (line, seq)) (checkSlot raw)) (answeredOp d op [raw] s) = t) :
          Effect (.directReadAnswer d raw) s t :=
        effect_read_stale rfl h (by rw [hro]; rfl) he ((deliverRead_directRead hro _ _).trans e)
      exact ⟨fun hw => taken (ht.trans (if_pos hw)), fun hw => taken (ht.trans (if_neg hw))⟩
    refine ⟨fun g kind stamps payload hg => direct rfl ?_, fun hl => direct ?_ ?_⟩
    · rw [expectSlot_of_readGood hg, onDirectRead_stale_good hs, directIn_answeredOp]
    · show v.host.access = _
      rw [show v.host = u.host from lostGrading_host line op.loc u]
    · rw [onDirectRead_stale_lost hs (expectSlot_of_readLost hl), expects_line he, directIn_answeredOp]

end Sys2Proof.Machine
end

section
/-! SUPPORT. Proofs: what a mode change does in every block (O15). -/
namespace Sys2Proof.Machine

variable {s : State} {m : Mode}

/-! ### The steps of a mode change (R159) -/

/-- The state that a mode change stops the long commands in: the waiting access has been dealt with (R21). -/
def modeCalled (m : Mode) (s : State) : State := { s with host := modeHost m s, maint := modeMaint m s }

theorem endWaiting_eq (m : Mode) (s : State) : endWaitingRead m (endWaitingWrite m s) = modeCalled m s := by
  obtain ⟨ho, ma, e⟩ := endWaitingWrite_eq m s
  obtain ⟨ho', e'⟩ := endWaitingRead_eq m (endWaitingWrite m s)
  unfold modeCalled modeHost modeMaint
  rw [e', e]

/-- What a mode change does before the read-fills withheld in PARKED are issued. -/
def modeEntered (m : Mode) (s : State) : State :=
  let t := stopLong m (modeCalled m s)
  { t with
    mode := m
    heldReadOnly := if m = .readOnly ∨ m = .unformatted then false else t.heldReadOnly
    drainRunning := decide (m = .draining)
    reclaim := engineMode s.mode m t.reclaim
    maint := { t.maint with modeChanged := true } }

theorem setMode_of_ne (h : s.mode ≠ m) :
    setMode m s = if s.mode = .parked then issueWithheld (modeEntered m s) else modeEntered m s := by
  unfold setMode
  rw [if_neg h, endWaiting_eq]
  rfl

theorem completeLong_maint (r : Result) (s : State) : completeLong r s = { s with maint := (completeLong r s).maint } := by
  unfold completeLong
  split <;> rfl

/-- What a mode change does with the running long command: nothing, it goes on persisting a FREEZE, or it ends the command. -/
theorem stopLong_cases (m : Mode) (s : State) :
    stopLong m s = s ∨ stopLong m s = freezeReadOnly s ∨ stopLong m s = freezeDrain s ∨
      ∃ r, stopLong m s = flushEnd r s ∨ stopLong m s = trimEnd r s ∨ stopLong m s = scrubEnd r s := by
  unfold stopLong
  split
  · split_ifs
    · exact .inr (.inr (.inr ⟨_, .inl rfl⟩))
    · exact .inr (.inr (.inr ⟨_, .inr (.inl rfl)⟩))
    · exact .inr (.inr (.inr ⟨_, .inr (.inr rfl)⟩))
    · exact .inr (.inr (.inl rfl))
    · exact .inl rfl
  · split_ifs
    · exact .inr (.inr (.inr ⟨_, .inl rfl⟩))
    · exact .inr (.inr (.inr ⟨_, .inr (.inl rfl)⟩))
    · exact .inr (.inr (.inr ⟨_, .inr (.inr rfl)⟩))
    · exact .inr (.inl rfl)
    · exact .inl rfl
  · exact .inl rfl

/-- Stopping the long commands changes what the commands themselves run on, and nothing else. -/
theorem stopLong_eq (m : Mode) (s : State) :
    stopLong m s =
      { s with
        maint := (stopLong m s).maint
        flushTracked := (stopLong m s).flushTracked
        trim := (stopLong m s).trim
        scrub := (stopLong m s).scrub
        freeze := (stopLong m s).freeze
        ident := (stopLong m s).ident
        dies := (stopLong m s).dies } := by
  rcases stopLong_cases m s with h | h | h | ⟨r, h | h | h⟩
  · rw [h]
  · rw [h, freezeReadOnly]
    split <;> rfl
  · rw [h, freezeDrain, completeLong_maint]
  · rw [h, flushEnd, completeLong_maint]
  · rw [h, trimEnd, completeLong_maint]
  · rw [h, scrubEnd, completeLong_maint]
    rfl

theorem modeEntered_eq (m : Mode) (s : State) :
    let t := stopLong m (modeCalled m s)
    modeEntered m s =
      { s with
        mode := m
        heldReadOnly := if m = .readOnly ∨ m = .unformatted then false else s.heldReadOnly
        drainRunning := decide (m = .draining)
        reclaim := engineMode s.mode m s.reclaim
        host := modeHost m s
        maint := { t.maint with modeChanged := true }
        flushTracked := t.flushTracked
        trim := t.trim
        scrub := t.scrub
        freeze := t.freeze
        ident := t.ident
        dies := t.dies } := by
  intro t
  have ht : t = _ := stopLong_eq m (modeCalled m s)
  unfold modeEntered
  show ({ t with
    mode := m
    heldReadOnly := if m = .readOnly ∨ m = .unformatted then false else t.heldReadOnly
    drainRunning := decide (m = .draining)
    reclaim := engineMode s.mode m t.reclaim
    maint := { t.maint with modeChanged := true } } : State) = _
  rw [ht]
  rfl

theorem issueWithheld_of_nil (h : s.withheld = []) : issueWithheld s = s := by
  have hs : { s with withheld := [] } = s := by rw [← h]
  simp [issueWithheld, h, hs]

theorem setMode_unwithheld (h : s.mode ≠ m) (hw : s.mode ≠ .parked ∨ s.withheld = []) : setMode m s = modeEntered m s := by
  rw [setMode_of_ne h]
  split
  · refine issueWithheld_of_nil ?_
    rw [modeEntered_eq]
    exact hw.resolve_left (not_not.2 ‹_›)
  · rfl

/-! ### The waiting access (R21) -/

theorem writeWaiting_iff : writeWaiting s = true ↔ waitsFor s = some .entry := by
  unfold writeWaiting waitsFor
  cases s.host.access with
  | none => simp
  | some a =>
    obtain ⟨_, _, phase⟩ := a
    cases phase with
    | answered _ => simp
    | waiting _ _ why => cases why <;> simp

theorem waitsFor_of_access {a : Access} {started limit : Nat} {why : WaitFor} (ha : s.host.access = some a)
    (hp : a.phase = .waiting started limit why) : waitsFor s = some why := by
  simp [waitsFor, ha, hp]

theorem answer_of_access {a : Access} (ha : s.host.access = some a) (b : Option Byte) :
    answer b s = { s with host := { s.host with access := some { a with phase := .answered b } } } := by
  simp only [answer, ha]
  rfl

theorem endWaitingWrite_of_not_waiting (m : Mode) (h : waitsFor s ≠ some .entry) : endWaitingWrite m s = s :=
  if_neg fun hw => h (writeWaiting_iff.1 (Bool.and_eq_true_iff.1 hw).1)

/-- A waiting write is dropped, with the fault that R19 gives for the new mode. -/
theorem endWaitingWrite_waiting (hm : m ≠ .active) (h : waitsFor s = some .entry) :
    endWaitingWrite m s =
      match writeAnswer m with
      | .instead f => raiseOpt f (accessLine s) (answer none s)
      | .normally => answer none s :=
  if_pos (by rw [writeWaiting_iff.2 h]; simpa using hm)

theorem raiseOpt_host (f : Option FaultKind) (line : Nat) (s : State) : (raiseOpt f line s).host = s.host := by
  cases f <;> rfl

theorem endWaitingWrite_host (hm : m ≠ .active) (h : waitsFor s = some .entry) :
    (endWaitingWrite m s).host = (answer none s).host := by
  rw [endWaitingWrite_waiting hm h]
  split
  · exact raiseOpt_host ..
  · rfl

theorem endWaitingRead_of_not_waiting (m : Mode) (h : waitsFor s = none) : endWaitingRead m s = s :=
  if_neg fun hw => by rw [h] at hw; exact Bool.false_ne_true hw.2

theorem modeHost_of_write (hm : m ≠ .active) (h : waitsFor s = some .entry) : modeHost m s = (answer none s).host := by
  have hhost := endWaitingWrite_host hm h
  have hnone : waitsFor (endWaitingWrite m s) = none :=
    (waitsFor_congr (congrArg HostPort.access hhost)).trans (waitsFor_answer none s)
  unfold modeHost
  rw [endWaitingRead_of_not_waiting m hnone, hhost]

theorem modeHost_of_read (m : Mode) (h : waitsFor s ≠ some .entry) :
    modeHost m s = if m = .formatting ∧ (waitsFor s).isSome then (answer (some Config.fill) s).host else s.host := by
  unfold modeHost
  rw [endWaitingWrite_of_not_waiting m h]
  unfold endWaitingRead
  split <;> rfl

theorem modeMaint_of_write (hm : m ≠ .active) (h : waitsFor s = some .entry) :
    modeMaint m s =
      match writeAnswer m with
      | .instead (some k) => (raise k (.line (accessLine s)) s).maint
      | _ => s.maint := by
  have hraise (k : FaultKind) : (raise k (.line (accessLine s)) (answer none s)).maint =
      (raise k (.line (accessLine s)) s).maint := by
    rw [answer_keeps]
    rfl
  unfold modeMaint
  rw [endWaitingRead_maint, endWaitingWrite_waiting hm h]
  cases m with
  | active => exact absurd rfl hm
  | parked => exact answer_maint none s
  | _ => exact hraise _

theorem modeMaint_of_read (m : Mode) (h : waitsFor s ≠ some .entry) : modeMaint m s = s.maint := by
  unfold modeMaint
  rw [endWaitingRead_maint, endWaitingWrite_of_not_waiting m h]

theorem modeCalled_no_write (hm : m ≠ .active) : waitsFor (modeCalled m s) ≠ some .entry := by
  by_cases h : waitsFor s = some .entry
  · have hnone : waitsFor (modeCalled m s) = waitsFor (answer none s) :=
      waitsFor_congr (congrArg HostPort.access (modeHost_of_write hm h))
    rw [hnone, waitsFor_answer]
    exact (Option.some_ne_none _).symm
  · have hhost : (modeCalled m s).host = _ := modeHost_of_read m h
    split at hhost
    · rw [waitsFor_congr (congrArg HostPort.access hhost), waitsFor_answer]
      exact (Option.some_ne_none _).symm
    · rw [waitsFor_congr (congrArg HostPort.access hhost)]
      exact h

/-! ### The running long command (R115, R142, R183) -/

/-- The result of a long command that a change to DRAINING or READ-ONLY ends. -/
def stopResult (m : Mode) : Result := if m = .draining then .aborted else .medium

theorem stopLong_flush (hm : m = .draining ∨ m = .readOnly) (hs : s.maint.slot = some .flush) :
    stopLong m s = flushEnd (stopResult m) s := by
  rcases hm with rfl | rfl <;> simp [stopLong, running, hs, LongCmd.kind, stopResult]

theorem stopLong_trim {b c : Nat} (hm : m = .draining ∨ m = .readOnly) (hs : s.maint.slot = some (.trim b c)) :
    stopLong m s = trimEnd (stopResult m) s := by
  rcases hm with rfl | rfl <;> simp [stopLong, running, hs, LongCmd.kind, stopResult]

theorem stopLong_scrub {b c : Nat} (hm : m = .draining ∨ m = .readOnly) (hs : s.maint.slot = some (.scrub b c)) :
    stopLong m s = scrubEnd (stopResult m) s := by
  rcases hm with rfl | rfl <;> simp [stopLong, running, hs, LongCmd.kind, stopResult]

theorem stopLong_freeze_draining {r : Nat} (hs : s.maint.slot = some (.freeze r)) : stopLong .draining s = freezeDrain s := by
  simp [stopLong, running, hs, LongCmd.kind]

theorem stopLong_freeze_readOnly {r : Nat} (hs : s.maint.slot = some (.freeze r)) : stopLong .readOnly s = freezeReadOnly s := by
  simp [stopLong, running, hs, LongCmd.kind]

theorem completeLong_faults (r : Result) (s : State) : (completeLong r s).maint.faults = s.maint.faults := by
  unfold completeLong
  split <;> rfl

theorem stopLong_faults (m : Mode) (s : State) : (stopLong m s).maint.faults = s.maint.faults := by
  rcases stopLong_cases m s with h | h | h | ⟨r, h | h | h⟩
  · rw [h]
  · rw [h, freezeReadOnly]
    split <;> rfl
  · rw [h]; exact completeLong_faults ..
  · rw [h]; exact completeLong_faults ..
  · rw [h]; exact completeLong_faults ..
  · rw [h]; exact completeLong_faults ..

/-- Every operation that a marking names is stale afterwards. -/
theorem stale_of_marked {p : Op → Bool} {d : DieRec} {op : Op} (hd : d ∈ (markStale p s).dies) (ho : op ∈ d.ops)
    (h : p op = true) : op.stale = true := by
  obtain ⟨r, -, rfl⟩ := List.mem_map.1 hd
  have mem : ∃ o, (if p o then { o with stale := true } else o) = op := by
    rcases List.mem_append.1 ho with ho | ho
    · obtain ⟨o, -, e⟩ := Option.map_eq_some_iff.1 (Option.mem_toList.1 ho)
      exact ⟨o, e⟩
    · obtain ⟨o, -, e⟩ := List.mem_map.1 ho
      exact ⟨o, e⟩
  obtain ⟨o, rfl⟩ := mem
  by_cases hpo : p o = true
  · rw [if_pos hpo]
  · rw [if_neg hpo] at h
    exact absurd h hpo

/-- What a FREEZE's request becomes when its command has completed (R142). -/
theorem orphanRequest_eq (q : IdRequest) : orphanRequest q = if q = .frozenSet true then .frozenSet false else q := by
  cases q with
  | retire b => rfl
  | frozenSet live => cases live <;> rfl

/-! ### The withheld read-fills (R178, R179) -/

/-- The list of withheld read-fills replaced. -/
def withhold (l : List Nat) (s : State) : State := { s with withheld := l }

theorem answer_withhold (b : Option Byte) (l : List Nat) (s : State) : answer b (withhold l s) = withhold l (answer b s) := by
  unfold answer withhold
  dsimp only
  cases s.host.access <;> rfl

theorem endWaitingWrite_withhold (m : Mode) (l : List Nat) (s : State) :
    endWaitingWrite m (withhold l s) = withhold l (endWaitingWrite m s) := by
  have hwaits : writeWaiting (withhold l s) = writeWaiting s := rfl
  unfold endWaitingWrite
  rw [hwaits]
  split
  · rw [answer_withhold]
    cases m <;> rfl
  · rfl

theorem endWaitingRead_withhold (m : Mode) (l : List Nat) (s : State) :
    endWaitingRead m (withhold l s) = withhold l (endWaitingRead m s) := by
  have hwaits : waitsFor (withhold l s) = waitsFor s := rfl
  unfold endWaitingRead
  rw [hwaits]
  split
  · exact answer_withhold ..
  · rfl

theorem completeLong_withhold (r : Result) (l : List Nat) (s : State) :
    completeLong r (withhold l s) = withhold l (completeLong r s) := by
  unfold completeLong withhold
  dsimp only
  cases s.maint.slot <;> rfl

theorem flushEnd_withhold (r : Result) (l : List Nat) (s : State) : flushEnd r (withhold l s) = withhold l (flushEnd r s) :=
  completeLong_withhold r l { s with flushTracked := [] }

theorem trimEnd_withhold (r : Result) (l : List Nat) (s : State) : trimEnd r (withhold l s) = withhold l (trimEnd r s) :=
  completeLong_withhold r l { s with trim := { s.trim with tracked := [], waiting := false } }

theorem scrubEnd_withhold (r : Result) (l : List Nat) (s : State) : scrubEnd r (withhold l s) = withhold l (scrubEnd r s) :=
  completeLong_withhold r l (scrubIdle s)

/-- What DRAINING takes from a FREEZE and from its request, before the command completes (R142). -/
def freezeDropped (s : State) : State :=
  { s with
    freeze := Freeze.initial
    ident := { s.ident with
      queue := s.ident.queue.map orphanRequest
      update := s.ident.update.map fun u => { u with served := u.served.map orphanRequest } } }

theorem freezeDrain_withhold (l : List Nat) (s : State) : freezeDrain (withhold l s) = withhold l (freezeDrain s) :=
  completeLong_withhold .aborted l (freezeDropped s)

theorem freezeReadOnly_withhold (l : List Nat) (s : State) : freezeReadOnly (withhold l s) = withhold l (freezeReadOnly s) := by
  have hphase : (withhold l s).freeze = s.freeze := rfl
  unfold freezeReadOnly
  rw [hphase]
  split <;> rfl

theorem stopLong_withhold (m : Mode) (l : List Nat) (s : State) : stopLong m (withhold l s) = withhold l (stopLong m s) := by
  have hruns (k : LongKind) : running k (withhold l s) = running k s := rfl
  unfold stopLong
  simp only [hruns]
  split
  · split_ifs
    · exact flushEnd_withhold ..
    · exact trimEnd_withhold ..
    · exact scrubEnd_withhold ..
    · exact freezeDrain_withhold ..
    · rfl
  · split_ifs
    · exact flushEnd_withhold ..
    · exact trimEnd_withhold ..
    · exact scrubEnd_withhold ..
    · exact freezeReadOnly_withhold ..
    · rfl
  · rfl

theorem modeEntered_withhold (m : Mode) (l : List Nat) (s : State) :
    modeEntered m (withhold l s) = withhold l (modeEntered m s) := by
  unfold modeEntered
  rw [← endWaiting_eq, endWaitingWrite_withhold, endWaitingRead_withhold, stopLong_withhold, endWaiting_eq]
  rfl

/-- The withheld read-fills are issued together where the map still names a slot for each. -/
theorem issueWithheld_eq {ops : List Op} (hw : s.withheld ≠ []) (h : s.withheld.map (withheldRead s) = ops.map some) :
    issueWithheld s = issueTogether ops (withhold [] s) := by
  have hops : s.withheld.filterMap (withheldRead s) = ops := by
    have hid : (s.withheld.map (withheldRead s)).filterMap id = s.withheld.filterMap (withheldRead s) := by
      rw [List.filterMap_map]
      rfl
    rw [← hid, h, List.filterMap_map]
    exact List.filterMap_some
  have hgone : (s.withheld.filter fun i => (withheldRead s i).isNone) = [] := by
    refine List.filter_eq_nil_iff.2 fun i hi hnone => ?_
    have hmem : withheldRead s i ∈ ops.map some := h ▸ List.mem_map_of_mem hi
    obtain ⟨op, -, e⟩ := List.mem_map.1 hmem
    rw [← e] at hnone
    exact Bool.false_ne_true hnone
  have hne : ¬ ops.isEmpty = true := by
    rw [List.isEmpty_iff]
    rintro rfl
    exact hw (List.map_eq_nil_iff.1 h)
  unfold issueWithheld
  rw [hops, hgone]
  exact if_neg hne

/-- A change that leaves PARKED is the change with nothing withheld, and then the issue of what was (R178, R179). -/
theorem setMode_leaves_parked {ops : List Op} (hp : s.mode = .parked) (hm : m ≠ .parked) (hw : s.withheld ≠ [])
    (h : s.withheld.map (withheldRead s) = ops.map some) :
    setMode m s = issueTogether ops (setMode m { s with withheld := [] }) := by
  have hne : s.mode ≠ m := fun e => hm (e.symm.trans hp)
  have hlist : (modeEntered m s).withheld = s.withheld := by rw [modeEntered_eq]
  have hread (i : Nat) : withheldRead (modeEntered m s) i = withheldRead s i := by
    rw [modeEntered_eq]
    rfl
  have hleft : setMode m { s with withheld := [] } = withhold [] (modeEntered m s) :=
    (setMode_unwithheld (s := { s with withheld := [] }) hne (.inr rfl)).trans (modeEntered_withhold m [] s)
  rw [setMode_of_ne hne, if_pos hp, hleft]
  refine issueWithheld_eq (by rw [hlist]; exact hw) ?_
  rw [hlist, ← h]
  exact List.map_congr_left fun i _ => hread i

/-! ### The drain's end (R173, R176) -/

theorem drainStep_eq (s : State) :
    drainStep s =
      if s.mode = .draining ∧ ∀ e ∈ s.staging, e.waitedFor = false then
        some (setMode (if s.pfwHigh then .active else .parked) s)
      else none := by
  have hcount : (s.mode == .draining && drainCount s == 0) = true ↔
      s.mode = .draining ∧ ∀ e ∈ s.staging, e.waitedFor = false := by
    simp [drainCount, List.countP_eq_zero]
  unfold drainStep
  exact if_congr hcount rfl rfl

theorem waitedFor_iff {e : Entry} :
    e.waitedFor = true ↔
      e.state = .dirty ∨ e.state = .committing ∨ (e.state = .loading ∧ (e.touched = true ∨ e.trimPending = true)) := by
  simp [Entry.waitedFor, or_assoc]

/-! ### O15 -/

theorem engineMode_left {new : Mode} (r : Reclaim) : (engineMode .active new r).state = .stopped := rfl

theorem engineMode_entered {old : Mode} (h : old ≠ .active) (r : Reclaim) : (engineMode old .active r).state ≠ .stopped := by
  unfold engineMode
  rw [if_neg h]
  split
  · dsimp only
    split_ifs <;> exact fun k => EngineState.noConfusion k
  · rename_i hr
    exact fun k => hr ⟨rfl, k⟩

/-- What becomes of a waiting access: a write is dropped, with a fault in the modes that give one, and a read is answered at
FORMATTING alone. -/
theorem modeEntered_access {a : Access} {started limit : Nat} {why : WaitFor} (ha : s.host.access = some a)
    (hp : a.phase = .waiting started limit why) :
    (why = .entry → m ≠ .active →
      (modeEntered m s).host.access = some { a with phase := .answered none } ∧
      (m = .readOnly ∨ m = .draining →
        (modeEntered m s).maint.faults = (raise .modeDrop (.line (a.addr.toNat / 64)) s).maint.faults) ∧
      (m = .parked → (modeEntered m s).maint.faults = s.maint.faults)) ∧
    (why ≠ .entry →
      (modeEntered m s).host.access = some (if m = .formatting then { a with phase := .answered (some 0xFF) } else a) ∧
      (modeEntered m s).maint.faults = s.maint.faults) := by
  have hwaits := waitsFor_of_access ha hp
  have hhost : (modeEntered m s).host = modeHost m s := by rw [modeEntered_eq]
  have hfaults : (modeEntered m s).maint.faults = (modeMaint m s).faults := stopLong_faults m (modeCalled m s)
  have hline : accessLine s = a.addr.toNat / 64 := by
    unfold accessLine
    rw [ha]
    rfl
  refine ⟨fun hw hm => ?_, fun hw => ?_⟩
  · subst hw
    rw [hhost, hfaults, modeHost_of_write hm hwaits, modeMaint_of_write hm hwaits, answer_of_access ha, hline]
    refine ⟨rfl, ?_, ?_⟩
    · rintro (rfl | rfl) <;> rfl
    · rintro rfl
      rfl
  · have hread : waitsFor s ≠ some .entry := by
      rw [hwaits]
      exact fun k => hw (Option.some.inj k)
    rw [hhost, hfaults, modeHost_of_read m hread, modeMaint_of_read m hread, hwaits]
    refine ⟨?_, rfl⟩
    by_cases hm : m = .formatting
    · rw [if_pos ⟨hm, rfl⟩, if_pos hm, answer_of_access ha]
    · rw [if_neg fun k => hm k.1, if_neg hm, ha]

theorem modeCalled_slot (m : Mode) (s : State) : (modeCalled m s).maint.slot = s.maint.slot := (modeMaint_kept m s).slot

/-- A long command that the mode change ends has emptied the slot and left its result (R183). -/
theorem modeEntered_ended {k : LongKind} {r : Result} {x : State} (h : stopLong m (modeCalled m s) = completed k r x) :
    (modeEntered m s).maint.slot = none ∧ (modeEntered m s).maint.last = some (k, r) ∧
      (modeEntered m s).maint.done = true := by
  show (stopLong m (modeCalled m s)).maint.slot = none ∧ (stopLong m (modeCalled m s)).maint.last = some (k, r) ∧
    (stopLong m (modeCalled m s)).maint.done = true
  rw [h]
  exact ⟨rfl, rfl, rfl⟩

/-- The result of the command of one kind that a mode change ended, with the slot empty and DONE pending (R183). -/
def endedBy (k : LongKind) (m : Mode) (s : State) : Prop :=
  s.maint.slot = none ∧ s.maint.last = some (k, if m = .draining then Result.aborted else .medium) ∧ s.maint.done = true

theorem modeEntered_flush (hm : m = .draining ∨ m = .readOnly) (hs : s.maint.slot = some .flush) :
    endedBy .flush m (modeEntered m s) ∧ (modeEntered m s).flushTracked = [] := by
  have hslot := (modeCalled_slot m s).trans hs
  have ht : stopLong m (modeCalled m s) = completed .flush (stopResult m) { modeCalled m s with flushTracked := [] } :=
    (stopLong_flush hm hslot).trans
      (completeLong_of_running (s := { modeCalled m s with flushTracked := [] }) (stopResult m) hslot)
  exact ⟨modeEntered_ended ht, congrArg State.flushTracked ht⟩

theorem modeEntered_trim {b c : Nat} (hm : m = .draining ∨ m = .readOnly) (hs : s.maint.slot = some (.trim b c)) :
    endedBy .trim m (modeEntered m s) ∧ (modeEntered m s).trim = { s.trim with tracked := [], waiting := false } := by
  have hslot := (modeCalled_slot m s).trans hs
  have ht : stopLong m (modeCalled m s) =
      completed .trim (stopResult m) { modeCalled m s with trim := { s.trim with tracked := [], waiting := false } } :=
    (stopLong_trim hm hslot).trans (completeLong_of_running
      (s := { modeCalled m s with trim := { s.trim with tracked := [], waiting := false } }) (stopResult m) hslot)
  exact ⟨modeEntered_ended ht, congrArg State.trim ht⟩

theorem modeEntered_scrub {b c : Nat} (hm : m = .draining ∨ m = .readOnly) (hs : s.maint.slot = some (.scrub b c)) :
    endedBy .scrub m (modeEntered m s) ∧
      (modeEntered m s).scrub = { s.scrub with state := .idle, readSlot := none, held := none, abortPending := false } ∧
      ∀ d ∈ (modeEntered m s).dies, ∀ op ∈ d.ops, op.role = .scrubRead → op.stale = true := by
  have hslot := (modeCalled_slot m s).trans hs
  have ht : stopLong m (modeCalled m s) = completed .scrub (stopResult m) (scrubIdle (modeCalled m s)) :=
    (stopLong_scrub hm hslot).trans (completeLong_of_running (s := scrubIdle (modeCalled m s)) (stopResult m) hslot)
  have hdies : (modeEntered m s).dies = (scrubIdle (modeCalled m s)).dies := (congrArg State.dies ht).trans rfl
  refine ⟨modeEntered_ended ht, congrArg State.scrub ht, fun d hd op ho hr => ?_⟩
  rw [hdies] at hd
  exact stale_of_marked hd ho (by rw [hr]; rfl)

theorem modeEntered_freeze_draining {r : Nat} (hs : s.maint.slot = some (.freeze r)) :
    endedBy .freeze .draining (modeEntered .draining s) ∧
      (modeEntered .draining s).freeze = { phase := .idle, region := none, tracked := [], aborted := false, medium := false } ∧
      (modeEntered .draining s).ident = (freezeDropped s).ident := by
  have hslot := (modeCalled_slot .draining s).trans hs
  have ht : stopLong .draining (modeCalled .draining s) =
      completed .freeze .aborted (freezeDropped (modeCalled .draining s)) :=
    (stopLong_freeze_draining hslot).trans
      (completeLong_of_running (s := freezeDropped (modeCalled .draining s)) .aborted hslot)
  exact ⟨modeEntered_ended ht, congrArg State.freeze ht, (congrArg State.ident ht).trans rfl⟩

/-- READ-ONLY lets a FREEZE that flushes persist what it has, to end MEDIUM (R142). -/
theorem modeEntered_freeze_flushing {r : Nat} (hs : s.maint.slot = some (.freeze r)) (hf : s.freeze.phase = .flushing) :
    (modeEntered .readOnly s).maint.slot = s.maint.slot ∧
      (modeEntered .readOnly s).freeze = { s.freeze with phase := .persisting, tracked := [], medium := true } ∧
      (modeEntered .readOnly s).ident = { s.ident with queue := s.ident.queue ++ [.frozenSet true] } := by
  have hslot := modeCalled_slot .readOnly s
  have ht : stopLong .readOnly (modeCalled .readOnly s) =
      freezePersist { modeCalled .readOnly s with freeze := { s.freeze with medium := true } } :=
    (stopLong_freeze_readOnly (hslot.trans hs)).trans (if_pos hf)
  exact ⟨(congrArg (·.maint.slot) ht).trans hslot, congrArg State.freeze ht, congrArg State.ident ht⟩

theorem modeEntered_freeze_persisting {r : Nat} (hs : s.maint.slot = some (.freeze r)) (hf : s.freeze.phase ≠ .flushing) :
    (modeEntered .readOnly s).maint.slot = s.maint.slot ∧ (modeEntered .readOnly s).freeze = s.freeze ∧
      (modeEntered .readOnly s).ident = s.ident := by
  have hslot := modeCalled_slot .readOnly s
  have ht : stopLong .readOnly (modeCalled .readOnly s) = modeCalled .readOnly s :=
    (stopLong_freeze_readOnly (hslot.trans hs)).trans (if_neg hf)
  exact ⟨(congrArg (·.maint.slot) ht).trans hslot, (congrArg State.freeze ht).trans rfl, (congrArg State.ident ht).trans rfl⟩

/-- Settles O15: what a mode change does is `modeEntered`, then the withheld read-fills of PARKED; the drain's end is
`drainStep`. -/
theorem modeChangeReachesBlocks : Obligations.ModeChangeReachesBlocks := by
  intro m s u waited
  refine ⟨fun h => if_pos h, fun hne hw => ?_, fun ops hpark hm hw hops => ?_, fun hm hw => ?_, fun h => ?_⟩
  · have hu : u = modeEntered m s := setMode_unwithheld hne hw
    have hall := hu.trans (modeEntered_eq m s)
    refine ⟨by rw [hall], by rw [hall], ?_, ?_, fun ha => ?_, fun ha => ?_, fun ha => ?_, by rw [hall], by rw [hall],
      by rw [hall], by rw [hall], by rw [hall], by rw [hall], by rw [hall], by rw [hall], by rw [hall], ?_, ?_⟩
    · rw [hall]
      exact decide_eq_true_iff
    · rw [hall]
      show (if m = .readOnly ∨ m = .unformatted then false else s.heldReadOnly) = true ↔ _
      split_ifs with h
      · simp only [false_iff]
        rintro ⟨-, h1, h2⟩
        exact h.elim h1 h2
      · exact ⟨fun k => ⟨k, not_or.1 h⟩, fun k => k.1⟩
    · rw [hall]
      show (engineMode s.mode m s.reclaim).state = _
      rw [ha]
      exact engineMode_left _
    · rw [hall]
      subst ha
      exact engineMode_entered hne _
    · refine Bool.eq_false_iff.2 fun k => modeCalled_no_write (s := s) ha ((waitsFor_congr ?_).trans (writeWaiting_iff.1 k))
      rw [hall]
      rfl
    · intro a started limit why ha hp
      rw [hu]
      exact modeEntered_access ha hp
    · intro hstop ended orphan
      have horphan : orphan = orphanRequest := funext fun q => (orphanRequest_eq q).symm
      rw [horphan]
      clear_value u
      subst hu
      exact ⟨fun hs => modeEntered_flush hstop hs, fun b c hs => modeEntered_trim hstop hs,
        fun f c hs => modeEntered_scrub hstop hs, fun r hs => ⟨fun hm => by subst hm; exact modeEntered_freeze_draining hs,
          fun hm hf => by subst hm; exact modeEntered_freeze_flushing hs hf,
          fun hm hf => by subst hm; exact modeEntered_freeze_persisting hs hf⟩⟩
  · exact setMode_leaves_parked hpark hm hw hops
  · rw [drainStep_eq, if_pos ⟨hm, fun e he => Bool.eq_false_iff.2 fun k => hw e he (waitedFor_iff.1 k)⟩]
  · rw [drainStep_eq, if_neg]
    rintro ⟨hm, hnone⟩
    rcases h with h | ⟨e, he, hw⟩
    · exact h hm
    · exact Bool.false_ne_true ((hnone e he).symm.trans (waitedFor_iff.2 hw))

end Sys2Proof.Machine
end

section
/-! SUPPORT. Proofs: open stamps and copy-head requests (O47), and what opening a head does, which both engines share. -/
namespace Sys2Proof.Machine

variable {s t : State}

/-! ### Answers of programs and erases (R94) -/

/-- A status is answered to the requester of its role: `deliverStatus` decides by the role alone. -/
theorem effect_taken {c : Instr} {want : OpRole → Bool} {d : Nat} {op : Op} {role : OpRole} {st : Status}
    (hc : exec c s = event (answerStatus want d st) s) (h : carries d op role s) (hw : want role = true)
    (ht : deliverStatus { op with role := role, stale := false } st (dieAnswered d s) = t) : Effect c s t := by
  obtain ⟨hrole, hstale⟩ := carries_role h
  refine effect_status hc h hw ?_
  rw [← ht, ← hrole, ← hstale]

/-! ### The block table and the free list (R66, R73) -/

@[simp] theorem blockUpd_reclaim (b : BlockId) (f : BlockRec → BlockRec) (s : State) : (blockUpd b f s).reclaim = s.reclaim := by
  rw [blockUpd_eq]

@[simp] theorem blockUpd_commit (b : BlockId) (f : BlockRec → BlockRec) (s : State) : (blockUpd b f s).commit = s.commit := by
  rw [blockUpd_eq]

@[simp] theorem blockUpd_format (b : BlockId) (f : BlockRec → BlockRec) (s : State) : (blockUpd b f s).format = s.format := by
  rw [blockUpd_eq]

theorem anyErasing_iff : anyErasing s = true ↔ ∃ p ∈ s.blocks, p.2.state = .erasing := by simp [anyErasing]

theorem anyErasing_eq_false : anyErasing s = false ↔ ∀ p ∈ s.blocks, p.2.state ≠ .erasing := by simp [anyErasing]

/-- The front block has been taken off the free list as a head, and the space conditions follow (R73, R75, R76). -/
def frontTaken (st : BlockState) (b : BlockId) (rest : List BlockId) (s : State) : State :=
  { blockUpd b (fun r => { r with state := st }) s with
    freeList := rest
    boost := decide (rest.length ≤ 6)
    reclaimCond := if rest.length ≤ 12 then true else if 20 ≤ rest.length then false else s.reclaimCond }

theorem takeFront_eq {b : BlockId} {rest : List BlockId} (h : s.freeList = b :: rest) (st : BlockState) :
    takeFront st s = some (b, frontTaken st b rest s) := by
  unfold takeFront frontTaken
  rw [h]
  dsimp only
  rw [blockUpd_eq, blockUpd_eq]
  rfl

@[simp] theorem frontTaken_commit (st : BlockState) (b : BlockId) (rest : List BlockId) (s : State) :
    (frontTaken st b rest s).commit = s.commit := blockUpd_commit ..

@[simp] theorem frontTaken_reclaim (st : BlockState) (b : BlockId) (rest : List BlockId) (s : State) :
    (frontTaken st b rest s).reclaim = s.reclaim := blockUpd_reclaim ..

/-! ### The sequence counter (R48) -/

theorem canDraw_of_le {n v : Nat} (hv : s.commit.seq = some v) (h : v + n ≤ 2 ^ 40) : canDraw n s = true := by
  simp only [canDraw, hv, decide_eq_true_eq, Config.seqMax]
  omega

theorem canDraw_spent {n : Nat} (h : ∀ v, s.commit.seq = some v → 2 ^ 40 < v + n) : canDraw n s = false := by
  unfold canDraw
  split
  · rename_i v hv
    have := h v hv
    simp only [decide_eq_false_iff_not, Config.seqMax]
    omega
  · rfl

theorem seqValue_of_some {v : Nat} (hv : s.commit.seq = some v) : seqValue s = v := by simp [seqValue, hv]

theorem drawSeq_of_some {v : Nat} (hv : s.commit.seq = some v) (n : Nat) :
    drawSeq n s = { s with commit := { s.commit with seq := some (v + n) } } := by
  simp [drawSeq, hv]

/-! ### A failed head's block (R70, R128) -/

theorem awaitRetire_eq (b : BlockId) (s : State) :
    awaitRetire b s =
      { blockUpd b (fun r => { r with work := .retireWaiting }) s with
        reclaim := { s.reclaim with retireWait := s.reclaim.retireWait ++ [b] } } := by
  unfold awaitRetire
  simp only [blockUpd_reclaim]

theorem blockGet_awaitRetire (b c : BlockId) (s : State) :
    blockGet (awaitRetire c s) b =
      if blockKey c = blockKey b then (blockGet s b).map fun r => { r with work := .retireWaiting } else blockGet s b := by
  rw [awaitRetire_eq]
  exact blockGet_blockUpd b c _ s

/-- The block of a failed head has become RELOCATING, with its close sequence. -/
def headRelocating (h : LogHead) (s : State) : State :=
  blockUpd h.block (fun r => { r with state := .relocating, closeSeq := h.closeSeq }) s

theorem blockGet_headRelocating {h : LogHead} {r : BlockRec} (hr : blockGet s h.block = some r) :
    blockGet (headRelocating h s) h.block = some { r with state := .relocating, closeSeq := h.closeSeq } := by
  unfold headRelocating
  rw [blockGet_blockUpd, if_pos rfl, hr]
  rfl

theorem blockGet_headRelocating_other {h : LogHead} {b : BlockId} (hb : blockKey b ≠ blockKey h.block) :
    blockGet (headRelocating h s) b = blockGet s b := by
  unfold headRelocating
  rw [blockGet_blockUpd, if_neg (Ne.symm hb)]

theorem headRelocating_eq (h : LogHead) (s : State) :
    headRelocating h s = { s with blocks := (headRelocating h s).blocks } := by
  unfold headRelocating
  rw [blockUpd_eq]

/-- The relocation list with one block more, its walk at the start where the list was empty (R122, R128). -/
def Reclaim.relocates (b : BlockId) (q : Reclaim) : Reclaim :=
  { q with
    reloc := q.reloc ++ [b]
    relocRead := if q.reloc = [] then 2 else q.relocRead
    relocKept := if q.reloc = [] then 2 else q.relocKept
    retryDue := true }

theorem relocateHead_emptied {h : LogHead} {r : BlockRec} (hr : blockGet s h.block = some r) (hv : r.valid = 0)
    (hn : r.readers = 0) : relocateHead h s = awaitRetire h.block (headRelocating h s) := by
  have hg := blockGet_headRelocating hr
  unfold headRelocating at hg
  unfold relocateHead
  simp only [hg]
  exact if_pos ⟨hv, hn⟩

theorem relocateHead_listed {h : LogHead} {r : BlockRec} (hr : blockGet s h.block = some r) (hv : r.valid ≠ 0 ∨ r.readers ≠ 0) :
    relocateHead h s = { headRelocating h s with reclaim := s.reclaim.relocates h.block } := by
  have hg := blockGet_headRelocating hr
  unfold headRelocating at hg
  unfold relocateHead headRelocating
  simp only [hg]
  rw [if_neg fun hc => hv.elim (· hc.1) (· hc.2)]
  cases hl : s.reclaim.reloc <;> simp [Reclaim.relocates, hl]

theorem blockGet_relocateHead_other {h : LogHead} {b : BlockId} {r : BlockRec} (hr : blockGet s h.block = some r)
    (hb : blockKey b ≠ blockKey h.block) : blockGet (relocateHead h s) b = blockGet s b := by
  by_cases he : r.valid = 0 ∧ r.readers = 0
  · rw [relocateHead_emptied hr he.1 he.2, blockGet_awaitRetire, if_neg (Ne.symm hb), blockGet_headRelocating_other hb]
  · rw [relocateHead_listed hr (by rwa [← not_and_or])]
    exact blockGet_headRelocating_other hb

/-! ### A copy head is requested (R74, R120, R121) -/

/-- The class of a copy head's open stamp (R95). -/
def copyStampClass (q : Reclaim) : OpClass := if q.reloc = [] then .reclaimCopy else .relocationCopy

theorem copyHeadGranted_iff : copyHeadGranted s = true ↔ (if s.reclaim.reloc = [] then 1 else 0) < s.freeList.length := by
  unfold copyHeadGranted freeCount
  cases s.reclaim.reloc <;> simp

theorem requestCopyHead_granted (h : copyHeadGranted s = true) :
    requestCopyHead s = openCopyHead (!s.reclaim.reloc.isEmpty) s := if_pos h

theorem requestCopyHead_readOnly (h : copyHeadGranted s = false) (hr : s.reclaim.reloc ≠ [] ∨ anyErasing s = false) :
    requestCopyHead s = requestReadOnly s := by
  unfold requestCopyHead
  rw [h]
  cases hl : s.reclaim.reloc with
  | nil => simp [hr.resolve_left fun hne => hne hl]
  | cons b rest => rfl

theorem requestCopyHead_waits (h : copyHeadGranted s = false) (hr : s.reclaim.reloc = []) (he : anyErasing s = true) :
    requestCopyHead s = { s with reclaim := { s.reclaim with state := .spaceWait, retryDue := false } } := by
  simp only [requestCopyHead, h, hr, he, List.isEmpty_nil, Bool.not_true, Bool.false_eq_true, if_false, if_true, engine]

theorem openCopyHead_stamped {b : BlockId} {rest : List BlockId} {v : Nat} (hl : s.freeList = b :: rest)
    (hv : s.commit.seq = some v) (hle : v < 2 ^ 40) :
    openCopyHead (!s.reclaim.reloc.isEmpty) s =
      issue (programOp .copyOpenStamp (copyStampClass s.reclaim) b 0 1 [.openStamp .copyLog v b])
        { frontTaken .copyHead b rest s with
          commit := { s.commit with seq := some (v + 1) }
          reclaim := { s.reclaim with state := .opening, head := some ⟨b, 0, 2, 2, .inFlight, some v, none⟩ } } := by
  have hseq : (frontTaken .copyHead b rest s).commit.seq = some v := by rw [frontTaken_commit, hv]
  have hcls : (if (!s.reclaim.reloc.isEmpty) = true then OpClass.relocationCopy else .reclaimCopy) = copyStampClass s.reclaim := by
    unfold copyStampClass
    cases s.reclaim.reloc <;> rfl
  unfold openCopyHead
  rw [takeFront_eq hl]
  dsimp only
  rw [if_pos (canDraw_of_le hseq hle), hcls, seqValue_of_some hseq, drawSeq_of_some hseq]
  simp only [engine, frontTaken_commit, frontTaken_reclaim]

theorem openCopyHead_unstamped {b : BlockId} {rest : List BlockId} (hl : s.freeList = b :: rest)
    (hv : ∀ v, s.commit.seq = some v → 2 ^ 40 ≤ v) (forRelocation : Bool) :
    openCopyHead forRelocation s =
      requestReadOnly
        { frontTaken .copyHead b rest s with
          reclaim := { s.reclaim with head := some ⟨b, 0, 2, 2, .never, none, none⟩ } } := by
  have hspent : canDraw 1 (frontTaken .copyHead b rest s) = false :=
    canDraw_spent fun v h => Nat.lt_succ_of_le (hv v (by rwa [frontTaken_commit] at h))
  unfold openCopyHead
  rw [takeFront_eq hl]
  dsimp only
  rw [hspent]
  simp only [Bool.false_eq_true, if_false, engine, frontTaken_reclaim]

/-! ### Open stamps are answered (R54, R120) -/

theorem onHostOpenStamp_pass {h : LogHead} (hh : s.commit.head = some h) :
    onHostOpenStamp .pass s = setHead (some { h with stamp := .passed }) s := by
  simp only [onHostOpenStamp, hh]

theorem onHostOpenStamp_fail {h : LogHead} (hh : s.commit.head = some h) :
    onHostOpenStamp .fail s = relocateHead h (setHead none (raise .programFail (.block h.block) s)) := by
  simp only [onHostOpenStamp, hh]

/-- The engine's state once its open stamp is answered (R120). -/
def Reclaim.opened (q : Reclaim) : EngineState := if q.state = .opening then .idle else q.state

theorem onCopyOpenStamp_pass {h : LogHead} (hh : s.reclaim.head = some h) :
    onCopyOpenStamp .pass s =
      { s with reclaim := { s.reclaim with head := some { h with stamp := .passed }, state := s.reclaim.opened } } := by
  simp only [onCopyOpenStamp, hh, engine, Reclaim.opened]

theorem onCopyOpenStamp_fail {h : LogHead} (hh : s.reclaim.head = some h) :
    onCopyOpenStamp .fail s =
      relocateHead h
        { raise .programFail (.block h.block) s with reclaim := { s.reclaim with head := none, state := s.reclaim.opened } } := by
  simp only [onCopyOpenStamp, hh, engine, Reclaim.opened]
  rfl

/-- Settles O47: the stamps by `onHostOpenStamp` and `onCopyOpenStamp`, the failed head by the two cases of `relocateHead`, the request by
its tier and then by the counter. -/
theorem openStampAnswered : Obligations.OpenStampAnswered := by
  intro s d op h a leaves
  refine ⟨fun hc hh => ⟨?_, ?_⟩, fun hc hh => ⟨?_, ?_⟩, fun r hr => ?_, ?_⟩
  · exact effect_taken rfl hc rfl (onHostOpenStamp_pass (s := a) hh)
  · exact effect_taken rfl hc rfl (onHostOpenStamp_fail (s := a) hh)
  · exact effect_taken rfl hc rfl (onCopyOpenStamp_pass (s := a) hh)
  · exact effect_taken rfl hc rfl (onCopyOpenStamp_fail (s := a) hh)
  · intro u seq q
    have hseq : h.closeSeq = seq := closeSeq_eq h
    have hrel := blockGet_headRelocating hr
    rw [hseq] at hrel
    refine ⟨fun hv hn => ?_, fun hv => ?_, fun b hb => blockGet_relocateHead_other hr hb⟩
    · have hu : u = awaitRetire h.block (headRelocating h s) := relocateHead_emptied hr hv hn
      refine ⟨?_, ?_⟩
      · rw [hu, blockGet_awaitRetire, if_pos rfl, hrel]
        rfl
      · rw [hu, awaitRetire_eq, blockUpd_eq, headRelocating_eq]
    · have hu : u = { headRelocating h s with reclaim := q.relocates h.block } := relocateHead_listed hr hv
      refine ⟨?_, ?_⟩
      · rw [hu]
        exact hrel
      · rw [hu, headRelocating_eq]
        rfl
  · intro q tier
    refine ⟨fun hf => ?_, fun b rest hl hf => ?_⟩
    · have hno : copyHeadGranted s = false := Bool.eq_false_iff.2 fun hg => Nat.not_lt.2 hf (copyHeadGranted_iff.1 hg)
      exact ⟨fun hr => requestCopyHead_readOnly hno (hr.imp_right anyErasing_eq_false.2),
        fun hr he => requestCopyHead_waits hno hr (anyErasing_iff.2 he)⟩
    · intro t
      have hopen := requestCopyHead_granted (copyHeadGranted_iff.2 hf)
      exact ⟨fun v hv hlt => hopen.trans (openCopyHead_stamped hl hv hlt),
        fun hv => hopen.trans (openCopyHead_unstamped hl hv _)⟩

end Sys2Proof.Machine
end

section
/-! SUPPORT. Proofs: a failed batch program (O49). -/
namespace Sys2Proof.Machine

variable {s t : State}

/-! ### The tracked sets of a failed batch (R140, R184, R185) -/

/-- An entry of a failed batch leaves the tracked set of FLUSH or TRIM, where it is freed, and its linked entry takes its place. -/
def relinked (newer : Nat → Option Nat) (l : List Nat) (i : Nat) : List Nat :=
  match newer i with
  | some j => (if i ∈ l then setAdd j l else l).filter (· ≠ i)
  | none => l

/-- The entries of a batch that its failure frees: those with a linked entry (R64). -/
def FreedIn (newer : Nat → Option Nat) (ids : List Nat) (i : Nat) : Prop := i ∈ ids ∧ newer i ≠ none

theorem mem_relinked {newer : Nat → Option Nat} {l : List Nat} {i j k : Nat} (hj : newer i = some j) :
    k ∈ relinked newer l i ↔ (k ∈ l ∨ (i ∈ l ∧ k = j)) ∧ k ≠ i := by
  simp only [relinked, hj, List.mem_filter, decide_eq_true_eq]
  refine and_congr_left fun _ => ?_
  split
  · rename_i hi
    rw [mem_setAdd]
    tauto
  · rename_i hi
    simp [hi]

/-- Where no freed entry is linked to a freed one, each freed entry is replaced by its linked entry, whatever the order. -/
theorem mem_foldl_relinked {newer : Nat → Option Nat} {ids : List Nat}
    (hd : ∀ i j, FreedIn newer ids i → newer i = some j → ¬ FreedIn newer ids j) (l : List Nat) (k : Nat) :
    k ∈ ids.foldl (relinked newer) l ↔
      (k ∈ l ∧ ¬ FreedIn newer ids k) ∨ ∃ i ∈ l, FreedIn newer ids i ∧ newer i = some k := by
  induction ids generalizing l with
  | nil => simp [FreedIn]
  | cons a ids ih =>
    have hcons (i : Nat) : FreedIn newer (a :: ids) i ↔ (i = a ∧ newer a ≠ none) ∨ FreedIn newer ids i := by
      unfold FreedIn
      rw [List.mem_cons]
      constructor
      · rintro ⟨rfl | hi, hn⟩
        · exact .inl ⟨rfl, hn⟩
        · exact .inr ⟨hi, hn⟩
      · rintro (⟨rfl, hn⟩ | ⟨hi, hn⟩)
        · exact ⟨.inl rfl, hn⟩
        · exact ⟨.inr hi, hn⟩
    rw [List.foldl_cons, ih fun i j hi hj hc => hd i j ((hcons i).2 (.inr hi)) hj ((hcons j).2 (.inr hc))]
    cases ha : newer a with
    | none =>
      have : relinked newer l a = l := by simp only [relinked, ha]
      simp only [hcons, this, ha, ne_eq, not_true_eq_false, and_false, false_or]
    | some j =>
      have hself : ¬ FreedIn newer (a :: ids) j := hd a j ((hcons a).2 (.inl ⟨rfl, by simp [ha]⟩)) ha
      have hne : j ≠ a := fun e => hself ((hcons j).2 (.inl ⟨e, by simp [ha]⟩))
      have hnot : ¬ FreedIn newer ids j := fun e => hself ((hcons j).2 (.inr e))
      simp only [mem_relinked ha, hcons, ha, ne_eq, reduceCtorEq, not_false_eq_true, and_true, not_or]
      constructor
      · rintro (⟨⟨hk | ⟨hal, rfl⟩, hka⟩, hf⟩ | ⟨i, ⟨hi | ⟨-, rfl⟩, hia⟩, hf, hik⟩)
        · exact .inl ⟨hk, hka, hf⟩
        · exact .inr ⟨a, hal, .inl rfl, ha⟩
        · exact .inr ⟨i, hi, .inr hf, hik⟩
        · exact absurd hf hnot
      · rintro (⟨hk, hka, hf⟩ | ⟨i, hi, hf, hik⟩)
        · exact .inl ⟨⟨.inl hk, hka⟩, hf⟩
        · by_cases hia : i = a
          · subst hia
            obtain rfl : j = k := Option.some.inj (ha.symm.trans hik)
            exact .inl ⟨⟨.inr ⟨hi, rfl⟩, hne⟩, hnot⟩
          · exact .inr ⟨i, ⟨.inl hi, hia⟩, hf.resolve_left hia, hik⟩

/-! ### One record of a failed batch (R64) -/

/-- An entry of a failed batch: DIRTY again, or FREE where it has a linked entry. -/
def failedEntry (e : Entry) : Entry := if e.newer = none then { e with state := .dirty } else Entry.cleared

/-- The failure of one record changes its entry and the tracked sets, and nothing else. -/
theorem failRec_eq {newer : Nat → Option Nat} {r : BatchRec} (hn : (entryAt t r.entry).newer = newer r.entry) :
    failRec r t =
      { t with
        staging := t.staging.set r.entry (failedEntry (entryAt t r.entry))
        flushTracked := relinked newer t.flushTracked r.entry
        trim := { t.trim with tracked := relinked newer t.trim.tracked r.entry }
        freeze := { t.freeze with
          tracked := t.freeze.tracked.filter fun i => decide ¬ (i = r.entry ∧ newer r.entry ≠ none) } } := by
  have hbne (l : List Nat) (i : Nat) : l.filter (· != i) = l.filter (· ≠ i) :=
    List.filter_congr fun k _ => by by_cases h : k = i <;> simp [h]
  unfold failRec relinked failedEntry
  cases hj : newer r.entry with
  | none =>
    rw [hj] at hn
    simp [hn, setEntry]
  | some j =>
    rw [hj] at hn
    simp only [hn, freeEntry, untrack, setEntry, trackLinked, hbne, List.contains_eq_mem, decide_eq_true_eq]
    split <;> split <;> simp [*]

/-! ### The records of a failed batch -/

theorem entryAt_failRec_same {r : BatchRec} (hr : r.entry < t.staging.length) :
    entryAt (failRec r t) r.entry = failedEntry (entryAt t r.entry) := by
  rw [failRec_eq (newer := fun i => (entryAt t i).newer) rfl]
  exact entryAt_setEntry_same hr _

theorem failRec_staging_length (r : BatchRec) (t : State) : (failRec r t).staging.length = t.staging.length := by
  rw [failRec_eq (newer := fun i => (entryAt t i).newer) rfl]
  exact List.length_set

theorem entryAt_failRecs_other {recs : List BatchRec} {i : Nat} (hi : i ∉ recs.map (·.entry)) :
    entryAt (recs.foldl (fun u r => failRec r u) t) i = entryAt t i := by
  induction recs generalizing t with
  | nil => rfl
  | cons r recs ih =>
    obtain ⟨hne, hrest⟩ := not_or.1 (mt List.mem_cons.2 hi)
    exact (ih hrest).trans (failRec_other r t hne)

theorem entryAt_failRecs_mem {recs : List BatchRec} (hlt : ∀ r ∈ recs, r.entry < t.staging.length)
    (hd : (recs.map (·.entry)).Nodup) {r : BatchRec} (hr : r ∈ recs) :
    entryAt (recs.foldl (fun u r => failRec r u) t) r.entry = failedEntry (entryAt t r.entry) := by
  induction recs generalizing t with
  | nil => cases hr
  | cons q recs ih =>
    obtain ⟨hq, hrest⟩ := List.nodup_cons.1 (show (q.entry :: recs.map (·.entry)).Nodup from hd)
    rcases List.mem_cons.1 hr with rfl | hr
    · exact (entryAt_failRecs_other hq).trans (entryAt_failRec_same (hlt r List.mem_cons_self))
    · have hne : r.entry ≠ q.entry := fun e => hq (e ▸ List.mem_map_of_mem hr)
      have hlt' : ∀ x ∈ recs, x.entry < (failRec q t).staging.length := fun x hx =>
        (failRec_staging_length q t).symm ▸ hlt x (List.mem_cons_of_mem q hx)
      rw [List.foldl_cons, ih hlt' hrest hr, failRec_other q t hne]

/-- The failure of a batch's records changes their entries and the tracked sets, and nothing else. -/
theorem failRecs_eq {newer : Nat → Option Nat} {recs : List BatchRec} (hd : (recs.map (·.entry)).Nodup)
    (hn : ∀ r ∈ recs, (entryAt t r.entry).newer = newer r.entry) :
    recs.foldl (fun u r => failRec r u) t =
      { t with
        staging := (recs.foldl (fun u r => failRec r u) t).staging
        flushTracked := recs.foldl (fun l r => relinked newer l r.entry) t.flushTracked
        trim := { t.trim with tracked := recs.foldl (fun l r => relinked newer l r.entry) t.trim.tracked }
        freeze := { t.freeze with
          tracked := t.freeze.tracked.filter fun i => decide ¬ (i ∈ recs.map (·.entry) ∧ newer i ≠ none) } } := by
  induction recs generalizing t with
  | nil => simp
  | cons q recs ih =>
    obtain ⟨hq, hrest⟩ := List.nodup_cons.1 (show (q.entry :: recs.map (·.entry)).Nodup from hd)
    have hlater : ∀ r ∈ recs, (entryAt (failRec q t) r.entry).newer = newer r.entry := fun r hr => by
      rw [failRec_other q t fun e => hq (e ▸ List.mem_map_of_mem hr)]
      exact hn r (List.mem_cons_of_mem q hr)
    have hfilter (l : List Nat) :
        (l.filter fun i => decide ¬ (i = q.entry ∧ newer q.entry ≠ none)).filter
            (fun i => decide ¬ (i ∈ recs.map (·.entry) ∧ newer i ≠ none)) =
          l.filter fun i => decide ¬ (i ∈ (q :: recs).map (·.entry) ∧ newer i ≠ none) := by
      rw [List.filter_filter]
      refine List.filter_congr fun i _ => ?_
      rw [← Bool.decide_and]
      refine decide_eq_decide.2 ?_
      rw [List.map_cons, List.mem_cons]
      by_cases hi : i = q.entry
      · subst hi
        tauto
      · tauto
    rw [List.foldl_cons, ih hrest hlater]
    simp only [failRec_eq (hn q List.mem_cons_self), hfilter, List.foldl_cons]

/-! ### The batch (R64, R128, R174) -/

/-- A failed batch, its head given up: the entries that are DIRTY again stand at the front of the queue, in batch order (R64, R65). -/
def batchReturned (b : Batch) (s : State) : State :=
  let back := (b.recs.filter fun r => (entryAt s r.entry).newer.isNone).map (·.entry)
  { b.recs.foldl (fun u r => failRec r u) (raise .programFail (.block b.block) s) with
    commit :=
      { s.commit with head := none, batch := none, queue := back ++ s.commit.queue, returned := back ++ s.commit.returned } }

theorem failRecs_mode (recs : List BatchRec) (t : State) : (recs.foldl (fun u r => failRec r u) t).mode = t.mode := by
  induction recs generalizing t with
  | nil => rfl
  | cons r recs ih =>
    rw [List.foldl_cons, ih, failRec_eq (newer := fun i => (entryAt t i).newer) rfl]

theorem batchFail_eq {h : LogHead} (b : Batch) (hh : s.commit.head = some h) :
    batchFail b s =
      if s.mode = .draining ∨ s.mode = .parked then closeHead h (batchReturned b s) else relocateHead h (batchReturned b s) := by
  have hcommit := (failRecs_same b.recs (raise .programFail (.block b.block) s)).1
  have hmode := failRecs_mode b.recs (raise .programFail (.block b.block) s)
  change _ = s.commit at hcommit
  change _ = s.mode at hmode
  unfold batchFail
  simp only [hcommit, hh]
  rw [← hmode]
  rfl

theorem effect_batchFail {d : Nat} {op : Op} {b : Batch} (hc : carries d op .batchProgram s) (hb : s.commit.batch = some b)
    (ht : batchFail b (dieAnswered d s) = t) : Effect (.batchProgramAnswer d .fail) s t := by
  refine effect_taken rfl hc rfl (Eq.trans ?_ ht)
  show onBatchProgram .fail (dieAnswered d s) = _
  have : (dieAnswered d s).commit.batch = some b := hb
  simp only [onBatchProgram, this]

/-- Settles O49: `batchFail_eq` gives the head's two ends, and the records one by one what they leave; the linked entries take the place of
the freed ones because no record's failure changes the entry of another. -/
theorem batchProgramFails : Obligations.BatchProgramFails := by
  intro s d op b h hc hb hh hsize hlt hnd back freed moved
  have hfail := batchFail_eq (s := dieAnswered d s) b hh
  have hlt' : ∀ r ∈ b.recs, r.entry < (raise .programFail (.block b.block) (dieAnswered d s)).staging.length := fun r hr =>
    hsize.1.symm ▸ hlt r hr
  refine ⟨fun hdis l k => ?_, batchReturned b (dieAnswered d s), fun hm => ?_, fun hd hp => ?_, ?_, fun r hr hn => ?_,
    fun r hr hn => ?_, fun i hi => entryAt_failRecs_other hi⟩
  · have hfold : moved l = (b.recs.map (·.entry)).foldl (relinked fun i => (entryAt s i).newer) l := by
      rw [List.foldl_map]
      rfl
    rw [hfold]
    exact mem_foldl_relinked hdis l k
  · refine effect_batchFail hc hb ((hfail.trans (if_pos hm)).trans ?_)
    rw [← closeSeq_eq]
    rfl
  · exact effect_batchFail hc hb (hfail.trans (if_neg (not_or.2 ⟨hd, hp⟩)))
  · have hrecs := failRecs_eq (t := raise .programFail (.block b.block) (dieAnswered d s)) (newer := fun i => (entryAt s i).newer)
      hnd fun _ _ => rfl
    exact congrArg (fun x : State => { x with commit := (batchReturned b (dieAnswered d s)).commit }) hrecs
  · exact (entryAt_failRecs_mem hlt' hnd hr).trans (if_pos hn)
  · exact (entryAt_failRecs_mem hlt' hnd hr).trans (if_neg hn)

end Sys2Proof.Machine
end

section
/-! SUPPORT. Proofs: erases and erase stamps, emptied blocks and retirement (O51). -/
namespace Sys2Proof.Machine

variable {s t : State}

/-! ### A failed erase or stamp (R79, R155) -/

theorem eraseFailed_retires (b : BlockId) (hf : s.format = none) : eraseFailed b s = awaitRetire b s := by
  simp [eraseFailed, hf]

theorem eraseFailed_format {j : FormatJob} (b : BlockId) (hf : s.format = some j) : eraseFailed b s = formatRetire b s := by
  simp [eraseFailed, hf]

theorem eraseFailed_formatRetired {j : FormatJob} (b : BlockId) (hf : s.format = some j) (hr : s.ident.retired.length < 128) :
    eraseFailed b s =
      blockUpd b (fun r => { r with state := .retired, valid := 0, closeSeq := none, work := .none })
        { s with ident := { s.ident with retired := s.ident.retired ++ [b] } } :=
  (eraseFailed_format b hf).trans (if_pos hr)

theorem eraseFailed_limit {j : FormatJob} (b : BlockId) (hf : s.format = some j) (hr : 128 ≤ s.ident.retired.length) :
    eraseFailed b s =
      raise .retireLimit (.block b)
        { blockUpd b (fun r => { r with work := .stuck }) s with format := some { j with limitMet := true } } := by
  refine (eraseFailed_format b hf).trans ((if_neg (Nat.not_lt.2 hr)).trans ?_)
  simp only [job, blockUpd_format, hf, Option.map_some]

/-! ### Erases and stamps are answered (R72, R78, R157) -/

theorem onErase_pass (b : BlockId) (hm : s.mode ≠ .unformatted) :
    onErase b .pass s = issue (eraseStampOp s b (nextErase s b)) (blockUpd b (fun r => { r with work := .stampOut }) s) := if_neg hm

theorem onErase_pass_unformatted (b : BlockId) (hm : s.mode = .unformatted) : onErase b .pass s = s := if_pos hm

theorem onErase_fail (b : BlockId) (hm : s.mode ≠ .unformatted) :
    onErase b .fail s = eraseFailed b (raise .eraseFail (.block b) s) := if_neg hm

theorem onErase_fail_unformatted (b : BlockId) (hm : s.mode = .unformatted) :
    onErase b .fail s = raise .eraseFail (.block b) s := if_pos hm

theorem joinFree_reclaim (b : BlockId) (s : State) : (joinFree b s).reclaim = s.reclaim := blockUpd_reclaim ..

/-- The block's record holds the erase count of its passed stamp (R72). -/
def eraseCounted (b : BlockId) (count : Nat) (s : State) : State := blockUpd b (fun r => { r with eraseCount := some count }) s

theorem onEraseStamp_pass (b : BlockId) (serial count : Nat) (hm : s.mode ≠ .unformatted) :
    onEraseStamp b (.slots [.eraseStamp serial count]) .pass s =
      { joinFree b (eraseCounted b count s) with reclaim := { s.reclaim with retryDue := true } } := by
  refine (if_neg hm).trans ?_
  unfold engine eraseCounted
  rw [joinFree_reclaim, blockUpd_reclaim]
  rfl

theorem onEraseStamp_pass_unformatted (b : BlockId) (serial count : Nat) (hm : s.mode = .unformatted) :
    onEraseStamp b (.slots [.eraseStamp serial count]) .pass s = eraseCounted b count s := if_pos hm

theorem onEraseStamp_fail (b : BlockId) (data : OpData) (hm : s.mode ≠ .unformatted) :
    onEraseStamp b data .fail s = eraseFailed b (raise .programFail (.block b) s) := if_neg hm

theorem onEraseStamp_fail_unformatted (b : BlockId) (data : OpData) (hm : s.mode = .unformatted) :
    onEraseStamp b data .fail s = raise .programFail (.block b) s := if_pos hm

theorem nextErase_known {b : BlockId} {c : Nat} (hc : (blockGet s b).bind (·.eraseCount) = some c) (hlt : c < 2 ^ 32 - 1) :
    nextErase s b = c + 1 := by
  unfold nextErase
  rw [hc]
  exact if_pos hlt

theorem nextErase_unknown {b : BlockId} (hc : (blockGet s b).bind (·.eraseCount) = none) :
    nextErase s b = if s.format.isSome then 0 else s.mount.largestErase := by
  unfold nextErase
  rw [hc]

/-! ### Emptied blocks (R127, R129, R130) -/

theorem handsWork_iff {m : Mode} : handsWork m = true ↔ m = .active ∨ m = .readOnly := by simp [handsWork]

theorem emptied_iff {b : BlockId} : emptied s b = true ↔ ∃ r, blockGet s b = some r ∧ r.valid = 0 ∧ r.readers = 0 := by
  unfold emptied
  cases blockGet s b <;> simp

theorem victimStep_erases {b : BlockId} (hv : s.reclaim.victim = some b) (hw : s.reclaim.victimWalked = true)
    (hm : handsWork s.mode = true) (he : emptied s b = true) :
    victimStep s = some
      { blockUpd b (fun r => { r with state := .erasing, closeSeq := none, work := .eraseWaiting }) s with
        reclaim := { s.reclaim with victim := none, victimRead := 2, victimKept := 2, victimWalked := false } } := by
  simp only [victimStep, hv, hw, hm, he, Bool.and_self, if_true, engine, blockUpd_reclaim]

theorem victimStep_none
    (h : ∀ b, s.reclaim.victim = some b → s.reclaim.victimWalked = true → handsWork s.mode = true → emptied s b = false) :
    victimStep s = none := by
  unfold victimStep
  split
  · rename_i b hv
    refine if_neg fun hc => ?_
    simp only [Bool.and_eq_true] at hc
    obtain ⟨⟨hw, hm⟩, he⟩ := hc
    exact Bool.false_ne_true ((h b hv hw hm).symm.trans he)
  · rfl

theorem retireStep_none (h : handsWork s.mode = false ∨ ∀ b ∈ s.reclaim.retireWait, emptied s b = false) : retireStep s = none := by
  unfold retireStep
  split
  · rename_i hm
    have hnone := h.resolve_left (by simp [hm])
    rw [List.find?_eq_none.2 fun b hb => by simp [hnone b hb]]
    rfl
  · rfl

theorem retireStep_first {front back : List BlockId} {b : BlockId} (hm : handsWork s.mode = true)
    (hl : s.reclaim.retireWait = front ++ b :: back) (hf : ∀ c ∈ front, emptied s c = false) (he : emptied s b = true) :
    retireStep s = some (handRetire b s) := by
  unfold retireStep
  rw [if_pos hm, List.find?_eq_some_iff_append.2 ⟨he, front, back, hl, fun c hc => by simp [hf c hc]⟩]
  rfl

theorem handRetire_handed (b : BlockId) (h : s.ident.retired.length + s.reclaim.retirements < 128) :
    handRetire b s =
      { blockUpd b (fun r => { r with work := .retireHanded }) s with
        reclaim := { s.reclaim with retireWait := s.reclaim.retireWait.filter (· != b), retirements := s.reclaim.retirements + 1 }
        ident := { s.ident with queue := s.ident.queue ++ [.retire b] } } := by
  refine (if_pos h).trans ?_
  rw [blockUpd_eq, blockUpd_eq]
  rfl

theorem handRetire_limit (b : BlockId) (h : 128 ≤ s.ident.retired.length + s.reclaim.retirements) :
    handRetire b s =
      requestReadOnly (raise .retireLimit (.block b)
        { blockUpd b (fun r => { r with work := .stuck }) s with
          reclaim := { s.reclaim with retireWait := s.reclaim.retireWait.filter (· != b) } }) := by
  refine (if_neg (Nat.not_lt.2 h)).trans ?_
  rw [blockUpd_eq, blockUpd_eq]
  rfl

/-! ### Erases queued together (R71, R78) -/

theorem updAt_head {k : Nat} (f : BlockRec → BlockRec) (r : BlockRec) (m : List (Nat × BlockRec)) :
    updAt k f ((k, r) :: m) = (k, f r) :: m := by
  simp [updAt, keyGet, keyPut]

theorem updAt_tail {k : Nat} {p : Nat × BlockRec} {m : List (Nat × BlockRec)} (hp : p.1 ≠ k) (h : keysAbove p.1 m)
    (f : BlockRec → BlockRec) : updAt k f (p :: m) = p :: updAt k f m := by
  have hget : keyGet k (p :: m) = keyGet k m := if_neg hp
  cases hm : keyGet k m with
  | none => simp only [updAt, hget, hm]
  | some r =>
    have hlt : p.1 < k := h _ (mem_of_keyGet hm)
    rw [updAt_some (hget.trans hm), updAt_some hm]
    exact (if_neg (Nat.not_lt.2 hlt.le)).trans (if_neg hp.symm)

/-- In a table with rising keys, a record changed where it is. -/
theorem updAt_eq_map (k : Nat) (f : BlockRec → BlockRec) {m : List (Nat × BlockRec)} (h : keysRise m = true) :
    updAt k f m = m.map fun p => if p.1 = k then (p.1, f p.2) else p := by
  induction m with
  | nil => rfl
  | cons p m ih =>
    obtain ⟨habove, hrise⟩ := (keysRise_cons p m).1 h
    by_cases hk : p.1 = k
    · have hlater : (m.map fun p => if p.1 = k then (p.1, f p.2) else p) = m.map id :=
        List.map_congr_left fun q hq => if_neg (hk ▸ (habove q hq).ne')
      subst hk
      rw [updAt_head, List.map_cons, if_pos rfl, hlater, List.map_id]
    · rw [updAt_tail hk habove, List.map_cons, if_neg hk, ih hrise]

theorem eraseReady_eq (p : Nat × BlockRec) :
    eraseReady s p =
      (p.2.work == .eraseWaiting && p.2.readers == 0 &&
        (dieAt s (p.1 / 256)).ops.all (fun o => o.block != ⟨p.1 / 256, p.1 % 256⟩)) := by
  simp [eraseReady, blockBusy, blockAt, bne, List.not_any_eq_all_not]

/-- Changing the records of some keys one by one changes each of them where it is. -/
theorem foldl_updAt_eq_map (ks : List Nat) (f : BlockRec → BlockRec) (hf : ∀ r, f (f r) = f r) {m : List (Nat × BlockRec)}
    (h : keysRise m = true) :
    ks.foldl (fun m k => updAt k f m) m = m.map fun p => if p.1 ∈ ks then (p.1, f p.2) else p := by
  induction ks generalizing m with
  | nil => simp
  | cons k ks ih =>
    rw [List.foldl_cons, ih (updAt_rises k f h), updAt_eq_map k f h, List.map_map]
    refine List.map_congr_left fun p _ => ?_
    by_cases hk : p.1 = k
    · simp [hk, hf]
    · simp [hk]

theorem foldl_blockUpd_eq (bs : List BlockId) (f : BlockRec → BlockRec) (s : State) :
    bs.foldl (fun t b => blockUpd b f t) s = { s with blocks := (bs.map blockKey).foldl (fun m k => updAt k f m) s.blocks } := by
  induction bs generalizing s with
  | nil => rfl
  | cons b bs ih => rw [List.foldl_cons, ih, blockUpd_eq]; rfl

theorem eraseStep_none (h : ∀ p ∈ s.blocks, eraseReady s p = false) : eraseStep s = none := by
  unfold eraseStep
  rw [List.filter_eq_nil_iff.2 fun p hp => by simp [h p hp]]
  rfl

theorem eraseStep_together (hrise : keysRise s.blocks = true) (h : ∃ p ∈ s.blocks, eraseReady s p = true) :
    eraseStep s = some
      (issueTogether ((s.blocks.filter (eraseReady s)).map fun p => eraseOp .erase .eraseStamp (blockAt p.1))
        { s with blocks := s.blocks.map fun p => if eraseReady s p then (p.1, { p.2 with work := .eraseOut }) else p }) := by
  have hne : (s.blocks.filter (eraseReady s)).map (fun p => blockAt p.1) ≠ [] := by
    obtain ⟨p, hp, hr⟩ := h
    exact List.ne_nil_of_mem (List.mem_map_of_mem (List.mem_filter.2 ⟨hp, hr⟩))
  have hkeys : ((s.blocks.filter (eraseReady s)).map fun p => blockAt p.1).map blockKey =
      (s.blocks.filter (eraseReady s)).map (·.1) := by
    rw [List.map_map]
    exact List.map_congr_left fun p _ => blockKey_blockAt p.1
  have hready : ∀ p ∈ s.blocks, p.1 ∈ (s.blocks.filter (eraseReady s)).map (·.1) ↔ eraseReady s p = true := by
    intro p hp
    refine ⟨fun hk => ?_, fun hr => List.mem_map_of_mem (List.mem_filter.2 ⟨hp, hr⟩)⟩
    obtain ⟨q, hq, hqk⟩ := List.mem_map.1 hk
    obtain ⟨hqb, hqr⟩ := List.mem_filter.1 hq
    have hval : q.2 = p.2 := Option.some.inj ((keyGet_mem hrise hqb).symm.trans (hqk ▸ keyGet_mem hrise hp))
    rwa [Prod.ext hqk hval] at hqr
  have hblocks : ((s.blocks.filter (eraseReady s)).map (·.1)).foldl
      (fun m k => updAt k (fun r => { r with work := .eraseOut }) m) s.blocks =
      s.blocks.map fun p => if eraseReady s p then (p.1, { p.2 with work := .eraseOut }) else p := by
    refine (foldl_updAt_eq_map _ (fun r => { r with work := .eraseOut }) (fun _ => rfl) hrise).trans ?_
    refine List.map_congr_left fun p hp => ?_
    simp only [hready p hp]
  unfold eraseStep
  split
  · rename_i he
    exact absurd he hne
  · rw [foldl_blockUpd_eq, hkeys, hblocks, List.map_map]
    rfl

/-- Settles O51: each answer by `onErase` and `onEraseStamp`, a failure by `eraseFailed`, and the engine's steps one by one; the erases
queued together are the ready records of the table, changed where they are. -/
theorem eraseAndStampAnswered : Obligations.EraseAndStampAnswered := by
  intro s d op b a failed
  have hfailed : ∀ c x, (∀ u, eraseFailed b x = u → Effect c s u) → x.format = s.format → x.ident = s.ident →
      x.reclaim = s.reclaim → failed c x := by
    intro c x he hf hi hr
    refine ⟨fun hn => he _ ?_, fun j hj => ⟨fun hlt => he _ ?_, fun hle => he _ ?_⟩⟩
    · rw [eraseFailed_retires b (hf.trans hn), awaitRetire_eq, hr]
    · rw [eraseFailed_formatRetired b (hf.trans hj) (hi.symm ▸ hlt), hi]
    · rw [eraseFailed_limit b (hf.trans hj) (hi.symm ▸ hle)]
  refine ⟨fun hc => ⟨fun hm => ⟨?_, ?_⟩, fun hm => ⟨?_, ?_⟩⟩, fun serial count hc hdata => ?_,
    fun c hk hlt => nextErase_known hk hlt, fun hk => nextErase_unknown hk, ?_, fun hrise => ?_⟩
  · exact effect_taken rfl hc rfl (onErase_pass (s := a) b hm)
  · exact hfailed _ _ (fun u hu => effect_taken rfl hc rfl ((onErase_fail (s := a) b hm).trans hu)) rfl rfl rfl
  · exact effect_taken rfl hc rfl (onErase_pass_unformatted (s := a) b hm)
  · exact effect_taken rfl hc rfl (onErase_fail_unformatted (s := a) b hm)
  · intro v
    have htaken : ∀ st u, onEraseStamp b (.slots [.eraseStamp serial count]) st a = u → Effect (.eraseStampAnswer d st) s u :=
      fun st u hu => effect_taken rfl hc rfl (by rw [← hu, ← hdata]; rfl)
    refine ⟨fun hm => ⟨htaken _ _ (onEraseStamp_pass (s := a) b serial count hm), ?_⟩,
      fun hm => ⟨htaken _ _ (onEraseStamp_pass_unformatted (s := a) b serial count hm),
        htaken _ _ (onEraseStamp_fail_unformatted (s := a) b _ hm)⟩⟩
    exact hfailed _ _ (fun u hu => htaken _ _ ((onEraseStamp_fail (s := a) b _ hm).trans hu)) rfl rfl rfl
  · intro q hands emptyOne
    have hempty (b : BlockId) : emptied s b = false ↔ ¬ emptyOne b := by rw [← Bool.not_eq_true, emptied_iff]
    refine ⟨fun b hv hw hm he => victimStep_erases hv hw (handsWork_iff.2 hm) (emptied_iff.2 he),
      fun h => victimStep_none fun b hv hw hm => (hempty b).2 (h b hv hw (handsWork_iff.1 hm)),
      fun h => retireStep_none ?_, fun front b back hm hl hf he => ?_⟩
    · exact h.imp (fun hn => Bool.eq_false_iff.2 fun hm => hn (handsWork_iff.1 hm)) fun hn c hc => (hempty c).2 (hn c hc)
    · intro left
      have hstep := retireStep_first (handsWork_iff.2 hm) hl (fun c hc => (hempty c).2 (hf c hc)) (emptied_iff.2 he)
      exact ⟨fun hlt => hstep.trans (congrArg some (handRetire_handed b hlt)),
        fun hle => hstep.trans (congrArg some (handRetire_limit b hle))⟩
  · intro waits
    have hwaits : waits = eraseReady s := funext fun p => (eraseReady_eq p).symm
    rw [hwaits]
    exact ⟨eraseStep_none, eraseStep_together hrise⟩

end Sys2Proof.Machine
end

section
/-! SUPPORT. Proofs: when a batch is due, how its head is opened and how it is formed (O37). -/
namespace Sys2Proof.Machine

variable {s : State}

/-! ### The age limit (R59) -/

theorem commitDelayExpires_aged {i t : Nat} {rest : List Nat} (hq : s.commit.queue = i :: rest)
    (ht : (entryAt s i).dirtySince = some t) :
    commitDelayExpires s = { s with now := max s.now (t + s.maint.settings.commitDelay * 1000) } := by
  simp only [commitDelayExpires, hq, ht]

theorem commitDelayExpires_ageless
    (h : s.commit.queue = [] ∨ ∃ i rest, s.commit.queue = i :: rest ∧ (entryAt s i).dirtySince = none) :
    commitDelayExpires s = s := by
  unfold commitDelayExpires
  rcases h with hq | ⟨i, rest, hq, ht⟩
  · rw [hq]
  · simp only [hq, ht]

/-! ### The triggers (R59) -/

theorem delayDue_iff :
    delayDue s = true ↔
      ∃ i rest t, s.commit.queue = i :: rest ∧ (entryAt s i).dirtySince = some t ∧
        t + s.maint.settings.commitDelay * 1000 ≤ s.now := by
  unfold delayDue
  cases hq : s.commit.queue with
  | nil => simp
  | cons i rest =>
    cases ht : (entryAt s i).dirtySince with
    | none => simp [ht]
    | some t => simp [ht]

theorem writeWaiting_iff_access :
    writeWaiting s = true ↔ ∃ a started limit, s.host.access = some a ∧ a.phase = .waiting started limit .entry := by
  refine ⟨fun h => ?_, fun ⟨a, started, limit, ha, hp⟩ => writeWaiting_of_access ha hp⟩
  cases ha : s.host.access with
  | none => simp [writeWaiting, ha] at h
  | some a =>
    cases hp : a.phase with
    | answered b => simp [writeWaiting, ha, hp] at h
    | waiting started limit why =>
      obtain rfl : why = .entry := Option.some.inj ((waitsFor_of_access ha hp).symm.trans (writeWaiting_iff.1 h))
      exact ⟨a, started, limit, rfl, hp⟩

theorem running_flush_iff : running .flush s = true ↔ s.maint.slot = some .flush := by
  unfold running
  cases hs : s.maint.slot with
  | none => simp
  | some c => cases c <;> simp [LongCmd.kind]

/-- Some entry of a tracked set is in the commit queue. -/
theorem any_queued_iff (l : List Nat) : l.any (s.commit.queue.contains ·) = true ↔ ∃ i ∈ l, i ∈ s.commit.queue := by
  simp

theorem flushDue_iff :
    flushDue s = true ↔
      (s.maint.slot = some .flush ∧ ∃ i ∈ s.flushTracked, i ∈ s.commit.queue) ∨
        (s.freeze.phase = .flushing ∧ ∃ i ∈ s.freeze.tracked, i ∈ s.commit.queue) := by
  unfold flushDue
  rw [Bool.or_eq_true, Bool.and_eq_true, Bool.and_eq_true, any_queued_iff, any_queued_iff, running_flush_iff, beq_iff_eq]

theorem batchDue_iff :
    batchDue s = true ↔
      s.maint.settings.threshold ≤ s.commit.queue.length ∨ delayDue s = true ∨ writeWaiting s = true ∨ s.trim.waiting = true ∨
        flushDue s = true ∨ s.mode = .draining ∨ ∃ i ∈ s.commit.returned, i ∈ s.commit.queue := by
  unfold batchDue pressure retryDue
  rw [← any_queued_iff]
  simp only [Bool.or_eq_true, decide_eq_true_eq, beq_iff_eq, or_assoc]

/-! ### What the commit engine does next (R48, R53, R55, R174) -/

theorem commitStep_idle (h : (s.mode ≠ .active ∧ s.mode ≠ .draining) ∨ batchDue s = false) : commitStep s = none := by
  refine if_neg fun hc => ?_
  simp only [Bool.and_eq_true, Bool.or_eq_true, beq_iff_eq] at hc
  obtain ⟨hm, hd⟩ := hc
  rcases h with ⟨ha, hdr⟩ | h
  · exact hm.elim ha hdr
  · exact Bool.false_ne_true (h.symm.trans hd)

theorem commitStep_works (hm : s.mode = .active ∨ s.mode = .draining) (hd : batchDue s = true) :
    ((s.mode == .active || s.mode == .draining) && batchDue s) = true := by
  simpa [hd] using hm

theorem commitStep_noHead (hm : s.mode = .active ∨ s.mode = .draining) (hd : batchDue s = true) (hh : s.commit.head = none) :
    commitStep s =
      if (if s.mode = .draining then 0 else 6) < s.freeList.length then some (openHostHead s)
      else if s.mode = .draining ∧ anyErasing s = false then some (requestReadOnly s) else none := by
  unfold commitStep
  rw [if_pos (commitStep_works hm hd), hh]
  rfl

theorem commitStep_head {h : LogHead} (hm : s.mode = .active ∨ s.mode = .draining) (hd : batchDue s = true)
    (hh : s.commit.head = some h) :
    commitStep s =
      if h.stamp = .passed ∧ s.commit.batch = none ∧ s.commit.queue ≠ [] then
        if canDraw (batchSize h s) s then some (formBatch h s) else some (requestReadOnly s)
      else none := by
  unfold commitStep
  rw [if_pos (commitStep_works hm hd), hh]

theorem openHostHead_stamped {b : BlockId} {rest : List BlockId} {v : Nat} (hl : s.freeList = b :: rest)
    (hv : s.commit.seq = some v) (hlt : v < 2 ^ 40) :
    openHostHead s =
      issue (programOp .hostOpenStamp .commitProgram b 0 1 [.openStamp .hostLog v b])
        { frontTaken .hostHead b rest s with
          commit := { s.commit with seq := some (v + 1), head := some ⟨b, 0, 2, 2, .inFlight, some v, none⟩ } } := by
  have hseq : (frontTaken .hostHead b rest s).commit.seq = some v := by rw [frontTaken_commit, hv]
  unfold openHostHead
  rw [takeFront_eq hl]
  dsimp only
  rw [if_pos (canDraw_of_le hseq hlt), seqValue_of_some hseq, drawSeq_of_some hseq]
  simp only [setHead, frontTaken_commit]

theorem openHostHead_unstamped {b : BlockId} {rest : List BlockId} (hl : s.freeList = b :: rest)
    (hv : ∀ v, s.commit.seq = some v → 2 ^ 40 ≤ v) :
    openHostHead s =
      requestReadOnly
        { frontTaken .hostHead b rest s with
          commit := { s.commit with head := some ⟨b, 0, 2, 2, .never, none, none⟩ } } := by
  have hspent : canDraw 1 (frontTaken .hostHead b rest s) = false :=
    canDraw_spent fun v h => Nat.lt_succ_of_le (hv v (by rwa [frontTaken_commit] at h))
  unfold openHostHead
  rw [takeFront_eq hl]
  dsimp only
  rw [hspent]
  simp only [Bool.false_eq_true, if_false, setHead, frontTaken_commit]

/-! ### A batch is formed (R58, R60) -/

theorem recordStamps_eq (e : Entry) (line : Nat) :
    recordStamps s e line =
      if e.kind = .line ∧ isOnce s line = true then (mapGet s line).stamps + (if e.touched then 1 else 0) else 0 := by
  unfold recordStamps
  cases e.kind <;> simp

/-- The record of the entry at a place of the queue, the batch's sequences counted from `v` (R60). -/
def formedRec (s : State) (v : Nat) (p : Nat × Nat) : BatchRec :=
  let e := entryAt s p.1
  let line := e.line.getD 0
  { entry := p.1, line := line, kind := e.kind, seq := v + p.2
    stamps := if e.kind = .line ∧ isOnce s line = true then (mapGet s line).stamps + (if e.touched then 1 else 0) else 0 }

theorem batchRecs_eq (v j : Nat) (ids : List Nat) : batchRecs s (v + j) ids = (ids.zipIdx j).map (formedRec s v) := by
  induction ids generalizing j with
  | nil => rfl
  | cons i ids ih =>
    rw [List.zipIdx_cons, List.map_cons, ← ih (j + 1)]
    simp only [batchRecs, recordStamps_eq, formedRec, Nat.add_assoc]

/-- An entry taken into a batch (R60). -/
def committed (e : Entry) : Entry := { e with state := .committing, newer := none }

theorem getElem?_foldl_set {f : Entry → Entry} (hf : ∀ e, f (f e) = f e) (ids : List Nat) (st : List Entry) (j : Nat) :
    (ids.foldl (fun st i => st.set i (f (st.getD i Entry.cleared))) st)[j]? =
      st[j]?.map fun e => if j ∈ ids then f e else e := by
  induction ids generalizing st with
  | nil => simp
  | cons i ids ih =>
    rw [List.foldl_cons, ih]
    by_cases hij : i = j
    · subst hij
      by_cases hlt : i < st.length
      · simp [hlt, hf]
      · simp [hlt]
    · simp [List.getElem?_set_ne hij, Ne.symm hij]

/-- Setting the entries of some numbers one by one sets each of them where it is. -/
theorem foldl_set_eq_map {f : Entry → Entry} (hf : ∀ e, f (f e) = f e) (ids : List Nat) (st : List Entry) :
    ids.foldl (fun st i => st.set i (f (st.getD i Entry.cleared))) st =
      st.zipIdx.map fun p => if p.2 ∈ ids then f p.1 else p.1 := by
  refine List.ext_getElem? fun j => ?_
  rw [getElem?_foldl_set hf, List.getElem?_map, List.getElem?_zipIdx, Option.map_map, Nat.zero_add]
  rfl

theorem startCommit_eq (ids : List Nat) (s : State) :
    startCommit ids s = { s with staging := s.staging.zipIdx.map fun p => if p.2 ∈ ids then committed p.1 else p.1 } := by
  rw [startCommit_staging, ← foldl_set_eq_map (f := committed) (fun _ => rfl)]
  rfl

theorem formBatch_eq (h : LogHead) {v n : Nat} {ids : List Nat} (hv : s.commit.seq = some v)
    (hn : batchSize h s = n) (hids : s.commit.queue.take n = ids) :
    formBatch h s =
      issue (programOp .batchProgram .commitProgram h.block h.page h.next
          ((ids.zipIdx.map (formedRec s v)).map fun r => .record r.kind r.line r.seq r.stamps (entryAt s r.entry).data))
        { s with
          staging := s.staging.zipIdx.map fun p => if p.2 ∈ ids then committed p.1 else p.1
          commit :=
            { s.commit with
              queue := s.commit.queue.drop n
              returned := s.commit.returned.filter (· ∉ ids)
              seq := some (v + n)
              batch := some ⟨h.block, h.page, h.next, ids.zipIdx.map (formedRec s v)⟩ } } := by
  have hrecs := batchRecs_eq (s := s) v 0 ids
  have hfilter (l : List Nat) : l.filter (fun i => !ids.contains i) = l.filter (· ∉ ids) :=
    List.filter_congr fun i _ => by simp
  unfold formBatch
  simp only [hn, hids, seqValue_of_some hv, drawSeq_of_some hv, startCommit_eq, hfilter]
  rw [← hrecs]
  rfl

/-- Settles O37: the clock by `commitDelayExpires`, the six triggers by `batchDue_iff`, and what a due batch does by the branches of
`commitStep`: the tier and the counter where no head is open, the counter alone where one is. -/
theorem commitDelayMakesBatchDue : Obligations.CommitDelayMakesBatchDue := by
  intro s q waits due
  have hdue : batchDue s = true ↔ due := by
    rw [batchDue_iff, delayDue_iff, writeWaiting_iff_access, flushDue_iff, or_assoc]
  refine ⟨fun hr => ⟨fun i rest t hq ht => ?_, fun hq => ?_⟩, hdue, fun h => ?_, fun hm hd => ?_⟩
  · intro u
    refine ⟨Effect.of_event rfl hr (commitDelayExpires_aged hq ht), ?_⟩
    exact batchDue_iff.2 (.inr (.inl (delayDue_iff.2 ⟨i, rest, t, hq, ht, le_max_right _ _⟩)))
  · exact Effect.of_event rfl hr (commitDelayExpires_ageless hq)
  · exact commitStep_idle (h.imp_right fun hn => Bool.eq_false_iff.2 (mt hdue.1 hn))
  · intro tier
    refine ⟨fun hh => ?_, fun h hh => ?_⟩
    · have hstep := commitStep_noHead hm (hdue.2 hd) hh
      refine ⟨fun hf => ?_, fun b rest hl hf => ?_⟩
      · have hclosed := hstep.trans (if_neg (Nat.not_lt.2 hf))
        refine ⟨fun hdr he => hclosed.trans (if_pos ⟨hdr, anyErasing_eq_false.2 he⟩), fun h => hclosed.trans (if_neg ?_)⟩
        rintro ⟨hdr, he⟩
        rcases h with ha | ⟨p, hp, hs⟩
        · exact Mode.noConfusion (ha.symm.trans hdr)
        · exact anyErasing_eq_false.1 he p hp hs
      · intro t
        have hopen := hstep.trans (if_pos hf)
        exact ⟨fun v hv hlt => hopen.trans (congrArg some (openHostHead_stamped hl hv hlt)),
          fun hv => hopen.trans (congrArg some (openHostHead_unstamped hl hv))⟩
    · have hstep := commitStep_head hm (hdue.2 hd) hh
      refine ⟨fun hno => hstep.trans (if_neg ?_), fun hp hb hq => ?_⟩
      · rintro ⟨hp, hb, hq⟩
        exact hno.elim (· hp) fun h => h.elim (· hb) hq
      · intro n ids
        have hform := hstep.trans (if_pos ⟨hp, hb, hq⟩)
        refine ⟨fun v hv hle => ?_, fun hv => ?_⟩
        · intro recs
          exact (hform.trans (if_pos (canDraw_of_le hv hle))).trans (congrArg some (formBatch_eq h hv rfl rfl))
        · exact hform.trans (if_neg (Bool.eq_false_iff.1 (canDraw_spent hv)))

end Sys2Proof.Machine
end

section
/-! SUPPORT. Proofs: the replies that turn a long request away (O24). -/
namespace Sys2Proof.Machine

variable {s : State}

/-! ### A long request turned away (R182) -/

section
variable {c : Instr} {r : Request} {n : Nat} {refuses : State → Option ReplyCode} {start : State → State}

theorem effect_long_busy (hc : exec c s = event (frame n (longRequest r refuses start)) s) (hr : s.rstLow = false)
    (ha : accepts s.mode r = true) (hs : s.maint.slot.isSome = true) : Effect c s (heldReply .busy [] (framed n s)) :=
  Effect.of_event hc hr (longRequest_busy (s := framed n s) ha hs)

theorem effect_long_refused {code : ReplyCode} (hc : exec c s = event (frame n (longRequest r refuses start)) s)
    (hr : s.rstLow = false) (ha : accepts s.mode r = true) (hs : s.maint.slot = none)
    (hf : refuses (framed n s) = some code) : Effect c s (heldReply code [] (framed n s)) :=
  Effect.of_event hc hr (longRequest_refused (s := framed n s) ha hs hf)

end

/-! ### The tests of TRIM, SCRUB and FREEZE (R110, R138, R139, R185) -/

theorem meetsOnce_iff {base count : Nat} :
    meetsOnce base count s = true ↔
      ∃ r ∈ s.regions, r.kind = .once ∧ r.base < base + count ∧ base < r.base + r.count := by
  simp [meetsOnce, regionsMeet]

theorem trimRefuses_badArgument {base count : Nat}
    (h : count = 0 ∨ 4096 < count ∨ 262144 ≤ base ∨ 262144 < base + count ∨
      ∃ r ∈ s.regions, r.kind = .once ∧ r.base < base + count ∧ base < r.base + r.count) :
    trimRefuses base count s = some .badArgument := by
  refine if_neg ?_
  rintro ⟨hpos, hmax, hbase, hend, honce⟩
  rcases h with h | h | h | h | h
  · omega
  · omega
  · exact Nat.not_lt.2 h hbase
  · exact Nat.not_le.2 h hend
  · simp [meetsOnce_iff.2 h] at honce

theorem scrubRefuses_badArgument {first count : Nat} (h : 262144 ≤ first ∨ count = 0 ∨ 262144 < first + count) :
    scrubRefuses first count = some .badArgument := by
  refine if_neg ?_
  rintro ⟨hfirst, hpos, -, hend⟩
  rcases h with h | h | h
  · exact Nat.not_lt.2 h hfirst
  · omega
  · exact Nat.not_le.2 h hend

theorem freezeRefuses_wpLow (r : Nat) : freezeRefuses r false s = some .isProtected := rfl

theorem freezeRefuses_notOnce {r : Nat} (h : s.regions[r]? = none ∨ ∃ g, s.regions[r]? = some g ∧ g.kind = .plain) :
    freezeRefuses r true s = some .badArgument := by
  rcases h with hg | ⟨g, hg, hk⟩
  · simp [freezeRefuses, hg]
  · simp [freezeRefuses, hg, hk]

theorem freezeRefuses_frozen {r : Nat} {g : Region} (hg : s.regions[r]? = some g) (hk : g.kind = .once) (hf : r ∈ s.frozen) :
    freezeRefuses r true s = some .refusedState := by
  simp [freezeRefuses, hg, hk, hf]

/-! ### The tests of FORMAT (R3, R80, R153) -/

theorem formatRefuses_wpLow (t : List RawRegion) : formatRefuses t false s = some .isProtected := rfl

theorem formatRefuses_badTable {t : List RawRegion} (h : readTable t = none ∨ ∃ g, readTable t = some g ∧ validTable g = false) :
    formatRefuses t true s = some .badArgument := by
  refine formatRefuses_invalid fun g hg => ?_
  rcases h with h | ⟨g', h, hv⟩
  · rw [h] at hg
    cases hg
  · obtain rfl := Option.some.inj (h.symm.trans hg)
    exact hv

/-- Settles O24: the slot is looked at first (`effect_long_busy`), then each command's tests in turn (`effect_long_refused`). -/
theorem longRequestRefused : Obligations.LongRequestRefused := by
  intro s hr held
  refine ⟨fun hm hs b f n c r w => ?_, fun hm hs => ⟨fun b c h => ?_, fun f n h => ?_, fun r => ⟨?_, fun h => ?_, fun g hg hk hf => ?_⟩⟩,
    fun hm t => ?_⟩
  · have hbusy {c r n refuses start} (hc : exec c s = event (frame n (longRequest r refuses start)) s) :=
      effect_long_busy hc hr (accepts_active hm r) hs
    exact ⟨hbusy rfl, hbusy rfl, hbusy rfl, hbusy rfl⟩
  · exact effect_long_refused rfl hr (accepts_active hm .trim) hs (trimRefuses_badArgument (s := framed 5 s) h)
  · exact effect_long_refused rfl hr (accepts_active hm .scrub) hs (scrubRefuses_badArgument h)
  · exact effect_long_refused rfl hr (accepts_active hm .freeze) hs (freezeRefuses_wpLow r.toNat)
  · exact effect_long_refused rfl hr (accepts_active hm .freeze) hs (freezeRefuses_notOnce (s := framed 1 s) h)
  · exact effect_long_refused rfl hr (accepts_active hm .freeze) hs (freezeRefuses_frozen (s := framed 1 s) hg hk hf)
  · intro refused
    have hm : s.mode = .unformatted ∨ s.mode = .readOnly ∨ s.mode = .active := by tauto
    refine ⟨fun hs w => effect_long_busy rfl hr (accepts_format_modes hm) hs, fun hs => ⟨?_, fun h => ?_, fun g hg hv => ?_⟩⟩
    · exact effect_long_refused rfl hr (accepts_format_modes hm) hs (formatRefuses_wpLow t)
    · exact effect_format_refused hr hm hs (formatRefuses_badTable h)
    · intro retired limit
      have htests := formatRefuses_eq (s := s) hg hv
      refine ⟨fun hcap => effect_format_refused hr hm hs (htests.trans (if_pos hcap)), fun hcap hser => ?_⟩
      exact effect_format_refused hr hm hs ((htests.trans (if_neg (Nat.not_lt.2 hcap))).trans (if_pos hser))

end Sys2Proof.Machine
end

section
/-! SUPPORT. Proofs: a block joins the free list (O36). -/
namespace Sys2Proof.Machine

variable {s : State} {b : BlockId}

/-! ### The block's place (R73) -/

/-- A block is put behind the blocks in front of which it does not stand, and before the first in front of which it does. -/
theorem freeInsert_split (s : State) (b : BlockId) (l : List BlockId) :
    ∃ front back, l = front ++ back ∧ freeInsert s b l = front ++ b :: back ∧ (∀ a ∈ front, ¬ freeBefore s b a = true) ∧
      ∀ a, back.head? = some a → freeBefore s b a = true := by
  induction l with
  | nil => exact ⟨[], [], rfl, rfl, by simp, by simp⟩
  | cons c l ih =>
    rw [freeInsert]
    split
    · rename_i hb
      exact ⟨[], c :: l, rfl, rfl, by simp, by simpa using hb⟩
    · rename_i hb
      obtain ⟨front, back, hl, hins, hfront, hback⟩ := ih
      refine ⟨c :: front, back, by rw [hl]; rfl, by rw [hins]; rfl, fun a ha => ?_, hback⟩
      rcases List.mem_cons.1 ha with rfl | ha
      · exact hb
      · exact hfront a ha

theorem length_freeInsert (s : State) (b : BlockId) (l : List BlockId) : (freeInsert s b l).length = l.length + 1 :=
  (freeInsert_perm s b l).length_eq

/-! ### The record, the order and the space conditions (R73, R75, R76) -/

/-- A FREE block's record: its erase count and its readers stay (R73, R78). -/
def freedRec (r : BlockRec) : BlockRec := { r with state := .free, valid := 0, closeSeq := none, work := .none }

/-- A change of records that keeps each erase count keeps the free list's order. -/
theorem eraseRank_blockUpd {f : BlockRec → BlockRec} (hf : ∀ r, (f r).eraseCount = r.eraseCount) (s : State) (b x : BlockId) :
    eraseRank (blockUpd b f s) x = eraseRank s x := by
  unfold eraseRank
  rw [blockGet_blockUpd]
  split
  · cases blockGet s x with
    | none => rfl
    | some r => simp [hf r]
  · rfl

theorem freeBefore_freed {x y : BlockId} :
    freeBefore (blockUpd b freedRec s) x y = true ↔
      eraseRank s x < eraseRank s y ∨ (eraseRank s x = eraseRank s y ∧ blockKey x < blockKey y) := by
  have hrank := eraseRank_blockUpd (f := freedRec) (fun _ => rfl) s b
  rw [freeBefore_iff, hrank, hrank]

theorem blockGet_joinFree {r : BlockRec} (h : blockGet s b = some r) : blockGet (joinFree b s) b = some (freedRec r) := by
  show blockGet (blockUpd b freedRec s) b = _
  rw [blockGet_blockUpd, if_pos rfl, h]
  rfl

theorem joinFree_freeList (b : BlockId) (s : State) :
    (joinFree b s).freeList = freeInsert (blockUpd b freedRec s) b s.freeList := by
  unfold joinFree
  rw [blockUpd_eq, blockUpd_eq]
  rfl

theorem length_joinFree (b : BlockId) (s : State) : (joinFree b s).freeList.length = s.freeList.length + 1 := by
  rw [joinFree_freeList, length_freeInsert]

theorem joinFree_boost (b : BlockId) (s : State) : (joinFree b s).boost = decide (s.freeList.length + 1 ≤ 6) := by
  rw [← length_joinFree b s]
  rfl

theorem joinFree_reclaimCond (b : BlockId) (s : State) :
    (joinFree b s).reclaimCond =
      if s.freeList.length + 1 ≤ 12 then true else if 20 ≤ s.freeList.length + 1 then false else s.reclaimCond := by
  rw [← length_joinFree b s]
  unfold joinFree
  rw [blockUpd_eq]
  rfl

/-- The block table, the free list and the space conditions are all that changes. -/
theorem joinFree_frame (b : BlockId) (s : State) :
    joinFree b s =
      { s with
        blocks := (joinFree b s).blocks, freeList := (joinFree b s).freeList, boost := (joinFree b s).boost
        reclaimCond := (joinFree b s).reclaimCond } := by
  unfold joinFree
  rw [blockUpd_eq]
  rfl

/-- Settles O36: the record by `blockGet_joinFree`, the place by `freeInsert_split` in an order the freed record does not change, and the
conditions by the free count that has grown by one. -/
theorem freeBlockJoinsInOrder : Obligations.FreeBlockJoinsInOrder := by
  intro s b r hb u rank before
  have hcond := joinFree_reclaimCond b s
  refine ⟨blockGet_joinFree hb, ?_, joinFree_boost b s, fun h => hcond.trans (if_pos h), fun h => ?_, fun hl hh => ?_,
    joinFree_frame b s⟩
  · obtain ⟨front, back, hl, hins, hfront, hback⟩ := freeInsert_split (blockUpd b freedRec s) b s.freeList
    exact ⟨front, back, hl, (joinFree_freeList b s).trans hins, fun a ha => mt freeBefore_freed.2 (hfront a ha),
      fun a ha => freeBefore_freed.1 (hback a ha)⟩
  · exact (hcond.trans (if_neg (by omega))).trans (if_pos h)
  · exact (hcond.trans (if_neg (by omega))).trans (if_neg (by omega))

end Sys2Proof.Machine
end

section
/-! SUPPORT. Proofs: the release of RST_N (O3), the check unit's grades (O38), and the arbiter of a READY die (O57). -/
namespace Sys2Proof.Machine

variable {s : State}

/-! ### O3: RST_N rises -/

/-- Settles O3: with RST_N low the release is `State.released`, field by field, and the pins it sets are driven afresh. -/
theorem resetReleaseStartsMount : Obligations.ResetReleaseStartsMount := by
  intro s
  refine ⟨fun h => ?_, fun h => ?_⟩
  · show Host.Outcome.next (if s.rstLow then drive s.released else s) = _
    rw [if_pos h]
    rfl
  · show Host.Outcome.next (if s.rstLow then drive s.released else s) = _
    rw [if_neg (Bool.eq_false_iff.1 h)]

/-! ### O38: the verdict on one slot (R92) -/

theorem checkSlot_near_erased {r : RawSlot} (h : r.erasedDiff ≤ 6) : checkSlot r = .erased := if_pos h

theorem checkSlot_header_bad {r : RawSlot} (h : 6 < r.erasedDiff) (hh : r.headerOk = false) : checkSlot r = .lostUnknown :=
  (if_neg (Nat.not_le.2 h)).trans (if_pos (by rw [hh]; rfl))

theorem checkSlot_header_ok {r : RawSlot} (h : 6 < r.erasedDiff) (hh : r.headerOk = true) :
    checkSlot r = if r.bitErrors ≤ 6 then .good (gradeOf r.bitErrors) r.content else .lostKnown r.content :=
  (if_neg (Nat.not_le.2 h)).trans (if_neg (by rw [hh]; decide))

theorem gradeOf_corrected {n : Nat} (h1 : 1 ≤ n) (h3 : n ≤ 3) : gradeOf n = .corrected :=
  (if_neg (Nat.ne_of_gt h1)).trans (if_pos h3)

theorem gradeOf_weak {n : Nat} (h : 4 ≤ n) : gradeOf n = .weak :=
  (if_neg (by omega)).trans (if_neg (Nat.not_le.2 h))

/-! ### O38: the comparison (R93) -/

theorem meets_iff {line seq : Nat} {c : SlotContent} : meets line seq c = true ↔ ∃ k st p, c = .record k line seq st p := by
  unfold meets
  split
  · simp only [Bool.and_eq_true, beq_iff_eq, SlotContent.record.injEq]
    aesop
  · rename_i hno
    simp only [Bool.false_eq_true, false_iff, not_exists]
    rintro k st p rfl
    exact hno _ _ _ _ _ rfl

theorem expectSlot_good_met {line seq : Nat} (g : Grade) {c : SlotContent} (h : meets line seq c = true) :
    expectSlot (some (line, seq)) (.good g c) = .good g c := if_pos h

theorem expectSlot_good_unmet {line seq : Nat} (g : Grade) {c : SlotContent} (h : ¬ meets line seq c = true) :
    expectSlot (some (line, seq)) (.good g c) = .lostKnown c := if_neg h

/-- Settles O38: the verdict by the thresholds of R92, the comparison by whether the content is the record expected (`meets_iff`), the
counts by the verdict. -/
theorem slotsAreGraded : Obligations.SlotsAreGraded := by
  intro r line seq
  refine ⟨checkSlot_near_erased, checkSlot_header_bad, fun h hh => ?_, fun g k st p => ?_, fun g c hc => ?_, rfl, fun _ => rfl, rfl,
    fun _ => rfl, fun n => ⟨rfl, fun _ => ⟨rfl, rfl, rfl, rfl⟩, rfl⟩⟩
  · have good {g : Grade} (hn : r.bitErrors ≤ 6) (hg : gradeOf r.bitErrors = g) : checkSlot r = .good g r.content := by
      rw [checkSlot_header_ok h hh, if_pos hn, hg]
    refine ⟨fun h0 => good (h0.trans_le (Nat.zero_le _)) (if_pos h0), fun h1 h3 => good (by omega) (gradeOf_corrected h1 h3),
      fun h4 h6 => good h6 (gradeOf_weak h4), fun h7 => ?_⟩
    rw [checkSlot_header_ok h hh, if_neg (Nat.not_le.2 h7)]
  · exact expectSlot_good_met g (meets_iff.2 ⟨k, st, p, rfl⟩)
  · refine expectSlot_good_unmet g fun hm => ?_
    obtain ⟨k, st, p, rfl⟩ := meets_iff.1 hm
    exact hc k st p rfl

/-! ### O57: the arbiter (R95, R96) -/

theorem goesBefore_iff {boost : Bool} {a b : Op} :
    goesBefore boost a b = true ↔
      rank boost a.cls < rank boost b.cls ∨ (rank boost a.cls = rank boost b.cls ∧ a.ticket < b.ticket) := by
  simp [goesBefore]

theorem goesBefore_asymm {boost : Bool} {a b : Op} (h : goesBefore boost a b = true) : goesBefore boost b a = false := by
  rw [Bool.eq_false_iff, Ne, goesBefore_iff]
  rw [goesBefore_iff] at h
  omega

theorem goesBefore_irrefl (boost : Bool) (a : Op) : goesBefore boost a a = false := by
  rw [Bool.eq_false_iff, Ne, goesBefore_iff]
  omega

/-- Where one item of a list alone passes a test, its place alone is found. -/
theorem places_of_only {α : Type} {p : α → Bool} {x : α} {front back : List α} (hx : p x = true)
    (h : ∀ y ∈ front ++ back, p y = false) :
    ((front ++ x :: back).zipIdx.filter fun q => p q.1).map (·.2) = [front.length] := by
  have noPlace (l : List α) (n : Nat) (hl : ∀ y ∈ l, p y = false) : (l.zipIdx n).filter (fun q => p q.1) = [] :=
    List.filter_eq_nil_iff.2 fun q hq => Bool.eq_false_iff.1 (hl _ (List.fst_mem_of_mem_zipIdx hq))
  rw [List.zipIdx_append, List.zipIdx_cons, List.filter_append, noPlace _ _ fun y hy => h y (List.mem_append_left _ hy),
    List.filter_cons_of_pos (p := fun q : α × Nat => p q.1) hx, noPlace _ _ fun y hy => h y (List.mem_append_right _ hy)]
  simp

/-- An operation that goes before every other one is the arbiter's only choice. -/
theorem firstPlaces_of_first {boost : Bool} {op : Op} {front back : List Op}
    (h : ∀ o ∈ front ++ back, goesBefore boost op o = true) : firstPlaces boost (front ++ op :: back) = [front.length] := by
  refine places_of_only (p := fun x => (front ++ op :: back).all fun o => !goesBefore boost o x) ?_ fun y hy => ?_
  · refine List.all_eq_true.2 fun o ho => ?_
    rw [Bool.not_eq_true']
    rcases List.mem_append.1 ho with ho | ho
    · exact goesBefore_asymm (h o (List.mem_append_left _ ho))
    rcases List.mem_cons.1 ho with rfl | ho
    · exact goesBefore_irrefl boost o
    · exact goesBefore_asymm (h o (List.mem_append_right _ ho))
  · refine List.all_eq_false.2 ⟨op, by simp, ?_⟩
    rw [h y hy]
    decide

theorem startAt_of_queue {d : Nat} {op : Op} {front back : List Op} (h : (dieAt s d).queue = front ++ op :: back) :
    startAt d front.length s =
      dieUpd d (fun r => { r with state := .busy, inFlight := some op, queue := front ++ back, timer := some s.now }) s := by
  have hget : (dieAt s d).queue[front.length]? = some op := by rw [h]; simp
  have herase : (dieAt s d).queue.eraseIdx front.length = front ++ back := by
    rw [h, List.eraseIdx_append_of_length_le (Nat.le_refl _)]
    simp
  simp only [startAt, hget, dieUpd, herase]

/-- A READY die's arbiter starts the operation that goes before every other one. -/
theorem arbitrate_of_first {d : Nat} {op : Op} {front back : List Op} (hr : (dieAt s d).state = .ready)
    (hq : (dieAt s d).queue = front ++ op :: back) (h : ∀ o ∈ front ++ back, goesBefore s.boost op o = true) :
    arbitrate d s =
      dieUpd d (fun r => { r with state := .busy, inFlight := some op, queue := front ++ back, timer := some s.now }) s := by
  have hp : firstPlaces s.boost (dieAt s d).queue = [front.length] := by rw [hq, firstPlaces_of_first h]
  rw [← startAt_of_queue hq]
  simp only [arbitrate, hr, hp, if_true]

/-- Settles O57: the ranks are R96's table; a die that rests starts nothing (`arbitrate_of_rests`), and the operation before which none
goes is started (`arbitrate_of_first`). -/
theorem arbiterStartsHighestRank : Obligations.ArbiterStartsHighestRank := by
  refine ⟨fun _ => rfl, rfl, rfl, fun s d op front back => ⟨fun h => ?_, fun hr hq h => ?_⟩⟩
  · exact arbitrate_of_rests ((DieRec.rests_iff _).2 fun hr => h.resolve_left (not_not_intro hr))
  · refine arbitrate_of_first hr hq fun o ho => goesBefore_iff.2 ((h o ho).imp_right fun ⟨hcls, hticket⟩ => ⟨?_, hticket⟩)
    rw [hcls]

end Sys2Proof.Machine
end

section
/-! SUPPORT. Proofs: the positions of the probe, and a die that ends its reset or identifies itself (O55). -/
namespace Sys2Proof.Machine

variable {s : State} {d : Nat}

/-! ### The probe (R91, R165) -/

theorem probing_iff : probing s = true ↔ s.mode = .mounting ∧ s.mount.phase = .probe := by simp [probing]

/-- The probe's record once a position is decided. -/
def positionDecided (d : Nat) (p : Probe) : State → State := mountUpd fun m => { m with probes := m.probes.set d p }

theorem probeDecide_more {p : Probe} (hp : probing s = true) (hu : .undecided ∈ s.mount.probes.set d p) :
    probeDecide d p s = positionDecided d p s := by
  refine (if_pos hp).trans (if_neg fun hall => ?_)
  exact bne_iff_ne.1 (List.all_eq_true.1 hall _ hu) rfl

theorem probeDecide_last {p : Probe} (hp : probing s = true) (hu : .undecided ∉ s.mount.probes.set d p) :
    probeDecide d p s = endProbe (positionDecided d p s) := by
  refine (if_pos hp).trans (if_pos (List.all_eq_true.2 fun q hq => bne_iff_ne.2 ?_))
  rintro rfl
  exact hu hq

/-- The positions of the probe once the die count is fixed: a die beyond it is not used (R91). -/
def dieCountFixed (s : State) : State :=
  { s with
    mount := { s.mount with diesPresent := presentCount s.mount.probes, phase := .identity }
    dies := s.dies.zipIdx.map fun (r, i) =>
      if i < presentCount s.mount.probes then r else { DieRec.unused with grades := r.grades } }

theorem endProbe_noDie (h : presentCount s.mount.probes = 0) : endProbe s = mountUnformatted (dieCountFixed s) := if_pos h

theorem endProbe_someDie (h : presentCount s.mount.probes ≠ 0) :
    endProbe s = issue (pageRead .identityRead .identity ⟨0, 0⟩ 0) (dieCountFixed s) := if_neg h

/-- A mount that ends UNFORMATTED uses the dies present (R164, R166). -/
theorem mountUnformatted_mode_and_dies (hm : s.mode = .mounting) :
    (mountUnformatted s).mode = .unformatted ∧ (mountUnformatted s).diesInUse = s.mount.diesPresent := by
  obtain ⟨_, _, _, _, _, e⟩ := mountUnformatted_eq hm
  rw [e]
  exact ⟨rfl, rfl⟩

/-- A command that decides a position of the probe from a state `x`: more positions are awaited, or the die count is fixed and either
no die is present or copy A of the identity is read. -/
theorem effect_probeDecide {c : Instr} {f : State → State} {x : State} {p : Probe} (hc : exec c s = event f s)
    (hr : s.rstLow = false) (hx : f s = probeDecide d p x) (hp : probing x = true) :
    let probes := x.mount.probes.set d p
    (.undecided ∈ probes → Effect c s (positionDecided d p x)) ∧
      (.undecided ∉ probes → presentCount probes = 0 → ∃ v, Effect c s v ∧ v.mode = .unformatted ∧ v.diesInUse = 0) ∧
      (.undecided ∉ probes → presentCount probes ≠ 0 →
        Effect c s (issue (pageRead .identityRead .identity ⟨0, 0⟩ 0) (dieCountFixed (positionDecided d p x)))) := by
  intro probes
  have decided {v} (hv : probeDecide d p x = v) : Effect c s v := Effect.of_event hc hr (hx.trans hv)
  refine ⟨fun hu => decided (probeDecide_more hp hu), fun hu h0 => ?_, fun hu h0 => ?_⟩
  · refine ⟨_, decided ((probeDecide_last hp hu).trans (endProbe_noDie h0)), ?_⟩
    obtain ⟨hmode, hdies⟩ := mountUnformatted_mode_and_dies (s := dieCountFixed (positionDecided d p x)) (probing_iff.1 hp).1
    exact ⟨hmode, hdies.trans h0⟩
  · exact decided ((probeDecide_last hp hu).trans (endProbe_someDie h0))

/-! ### The die count (R91) -/

theorem presentCount_none {l : List Probe} {p : Probe} (h : p ≠ .present) : presentCount (p :: l) = 0 := by
  cases p with
  | present => exact absurd rfl h
  | absent | undecided => rfl

theorem presentCount_one {l : List Probe} {p : Probe} (h : p ≠ .present) : presentCount (.present :: p :: l) = 1 := by
  cases p with
  | present => exact absurd rfl h
  | absent | undecided => rfl

theorem presentCount_two {p q : Probe} (h : p ≠ .present ∨ q ≠ .present) : presentCount [.present, .present, p, q] = 2 := by
  cases p with
  | present =>
    cases q with
    | present => exact absurd rfl (h.resolve_left (not_not_intro rfl))
    | absent | undecided => rfl
  | absent | undecided => rfl

/-! ### O55: RESET DIE ends, and IDENTIFY is answered (R91, R99) -/

theorem dieReady_of_ne (h : (dieAt s d).state ≠ .resetting) : dieReady d s = s := if_neg h

theorem dieReady_resetting (h : (dieAt s d).state = .resetting) : dieReady d s = resetEnded d s := if_pos h

/-- The reset's end is followed by IDENTIFY where the probe awaits the position. -/
theorem asks_identify_iff :
    (probing s && s.mount.probes.getD d .absent == .undecided) = true ↔
      (s.mode = .mounting ∧ s.mount.phase = .probe) ∧ s.mount.probes.getD d .absent = .undecided := by
  rw [Bool.and_eq_true, probing_iff, beq_iff_eq]

theorem identified_eq {op : Op} (hf : (dieAt s d).inFlight = some op) (hi : op.role = .identify) (blocks pages slots : Nat) :
    identified d blocks pages slots s =
      probeDecide d (if blocks = 256 ∧ pages = 64 ∧ slots = 16 then .present else .absent) (dieAnswered d s) := by
  unfold identified
  rw [carried_of_role hf (by rw [hi]; rfl)]

/-- Settles O55: the end of a reset by whether the probe awaits the position, IDENTIFY by `effect_probeDecide`, the die count by the
first position that holds no die. -/
theorem dieShowsReadyAndIdentifies : Obligations.DieShowsReadyAndIdentifies := by
  intro s d blocks pages slots hr probing r
  have ready {t} (ht : dieReady d s = t) : Effect (.dieResetReady d) s t := Effect.of_event (f := dieReady d) rfl hr ht
  refine ⟨fun h => ready (dieReady_of_ne h), fun h => ⟨fun hno => ready ?_, fun hp hu => ready ?_⟩, fun op hf hi hp => ?_, fun p => ?_⟩
  · exact (dieReady_resetting h).trans (if_neg (mt asks_identify_iff.1 hno))
  · exact (dieReady_resetting h).trans (if_pos (asks_identify_iff.2 ⟨hp, hu⟩))
  · exact effect_probeDecide (f := identified d blocks pages slots) (x := dieAnswered d s) rfl hr
      (identified_eq hf hi blocks pages slots) (probing_iff.2 hp)
  · refine ⟨presentCount_none, fun h0 h1 => ?_, fun h0 h1 h => ?_, fun h0 h1 h2 h3 => ?_⟩
    · rw [h0]
      exact presentCount_one h1
    · rw [h0, h1]
      exact presentCount_two h
    · rw [h0, h1, h2, h3]
      rfl

end Sys2Proof.Machine
end

section
/-! SUPPORT. Proofs: timeouts of operations and of RESET DIE, and OFFLINE dies (O56). -/
namespace Sys2Proof.Machine

variable {s : State} {d : Nat}

/-! ### One die position changed again -/

/-- Two changes of one position are one change; beyond the positions neither is any. -/
theorem dieUpd_dieUpd (d : Nat) (f g : DieRec → DieRec) (s : State) : dieUpd d f (dieUpd d g s) = dieUpd d (fun r => f (g r)) s := by
  by_cases h : d < s.dies.length
  · show { s with dies := (s.dies.set d (g (dieAt s d))).set d (f (dieAt (dieUpd d g s) d)) } = _
    rw [dieAt_dieUpd_same h, List.set_set]
    rfl
  · have hset (x : DieRec) : s.dies.set d x = s.dies := List.set_eq_of_length_le (Nat.not_lt.1 h)
    simp only [dieUpd, hset]

/-- What a change of a position keeps is the same there, whether the position exists or not. -/
theorem dieAt_dieUpd_kept {α : Type} {part : DieRec → α} {f : DieRec → DieRec} (hf : ∀ r, part (f r) = part r) (d : Nat) (s : State) :
    part (dieAt (dieUpd d f s) d) = part (dieAt s d) := by
  by_cases h : d < s.dies.length
  · rw [dieAt_dieUpd_same h, hf]
  · have hset (x : DieRec) : s.dies.set d x = s.dies := List.set_eq_of_length_le (Nat.not_lt.1 h)
    simp only [dieAt, dieUpd, hset]

/-! ### A die times out (R98, R99) -/

/-- The state at the moment a timer that began at `t` expires (log 16). -/
def atExpiry (t : Nat) (s : State) : State := { s with now := max s.now (t + 50000) }

theorem dieTimesOut_idle (h : (dieAt s d).timer = none) : dieTimesOut d s = s := by
  simp only [dieTimesOut, h]

theorem dieTimesOut_carrying {t : Nat} {op : Op} (ht : (dieAt s d).timer = some t) (hf : (dieAt s d).inFlight = some op) :
    dieTimesOut d s = opTimeout d op (atExpiry t s) := by
  simp only [dieTimesOut, ht, hf]
  rfl

theorem dieTimesOut_resetting {t : Nat} (ht : (dieAt s d).timer = some t) (hf : (dieAt s d).inFlight = none)
    (hs : (dieAt s d).state = .resetting) : dieTimesOut d s = resetTimeout d (atExpiry t s) := by
  simp only [dieTimesOut, ht, hf, hs]
  rfl

/-- A die that is reset at the first timeout in succession (R98). -/
def DieRec.resetAt (now : Nat) (r : DieRec) : DieRec :=
  { r with state := .resetting, timeouts := 1, inFlight := none, timer := some now }

/-- A die that is OFFLINE at a further timeout in succession (R100). -/
def DieRec.offlineAfter (timeouts : Nat) (r : DieRec) : DieRec :=
  { r with state := .offline, timeouts := timeouts, inFlight := none, timer := none }

/-- The first timeout in succession has the die reset (R98). -/
theorem countTimeout_first (h : (dieAt s d).timeouts = 0) : countTimeout d s = dieUpd d (.resetAt s.now) s := by
  have hlt : ¬ 2 ≤ (dieAt s d).timeouts + 1 := by omega
  unfold countTimeout
  dsimp only
  rw [if_neg hlt, dieUpd_dieUpd, h]
  rfl

/-- The second timeout in succession takes the die OFFLINE (R98, R100). -/
theorem countTimeout_second (h : (dieAt s d).timeouts ≠ 0) :
    countTimeout d s =
      requestReadOnly (failQueue d (dieAt s d).queue.length (raise .dieOffline (.die d)
        (dieUpd d (.offlineAfter ((dieAt s d).timeouts + 1)) s))) := by
  have hle : 2 ≤ (dieAt s d).timeouts + 1 := by omega
  unfold countTimeout goOffline
  dsimp only
  rw [if_pos hle, dieUpd_dieUpd]
  rw [← dieAt_dieUpd_kept (part := DieRec.queue) (f := .offlineAfter ((dieAt s d).timeouts + 1)) (fun _ => rfl) d s]
  rfl

/-- The die's operation is taken from it, and its timer stops. -/
def operationTaken (d : Nat) : State → State := dieUpd d fun r => { r with inFlight := none, timer := none }

theorem opTimeout_requester {op : Op} (h : op.role ≠ .identify) :
    opTimeout d op s = countTimeout d (raise .dieTimeout (.die d) (failOp op (operationTaken d s))) := if_neg h

theorem opTimeout_identify {op : Op} (h : op.role = .identify) :
    opTimeout d op s = probeDecide d .absent (countTimeout d (operationTaken d s)) := if_pos h

theorem countTimeout_operationTaken (h : (dieAt s d).timeouts = 0) :
    countTimeout d (operationTaken d s) = dieUpd d (.resetAt s.now) s := by
  have hkept : (dieAt (operationTaken d s) d).timeouts = (dieAt s d).timeouts :=
    dieAt_dieUpd_kept (f := fun r => { r with inFlight := none, timer := none }) (fun _ => rfl) d s
  rw [countTimeout_first (hkept.trans h)]
  exact dieUpd_dieUpd ..

/-- The position is not used, by the model's choice (log 32). -/
def positionUnused (d : Nat) : State → State := dieUpd d fun r => { DieRec.unused with grades := r.grades }

theorem resetTimeout_decided (hp : probing s = true) (hu : s.mount.probes.getD d .absent ≠ .undecided) :
    resetTimeout d s = positionUnused d s := (if_pos hp).trans (if_neg hu)

theorem resetTimeout_undecided (hp : probing s = true) (hu : s.mount.probes.getD d .absent = .undecided) :
    resetTimeout d s = probeDecide d .absent (positionUnused d s) := (if_pos hp).trans (if_pos hu)

theorem resetTimeout_mounted (hp : ¬ probing s = true) :
    resetTimeout d s = countTimeout d (raise .dieTimeout (.die d) s) := if_neg hp

/-! ### O56 -/

/-- Settles O56: by what the die was doing (an operation, IDENTIFY, RESET DIE), then by its timeouts in succession
(`countTimeout_first`, `countTimeout_second`); in the probe the position is decided (`effect_probeDecide`). -/
theorem Timeouts.dieTimesOut : Obligations.DieTimesOut := by
  intro s d hr r
  have effect {t} (ht : Machine.dieTimesOut d s = t) : Effect (.dieTimeout d) s t :=
    Effect.of_event (f := Machine.dieTimesOut d) rfl hr ht
  refine ⟨fun h => effect (dieTimesOut_idle h), ?_, fun _ _ => rfl, ?_, fun op h => if_pos h,
    fun op h => if_neg (Bool.eq_false_iff.1 h)⟩
  · intro op t ht hf hi late u q
    have hout : Machine.dieTimesOut d s = countTimeout d u := (dieTimesOut_carrying ht hf).trans (opTimeout_requester hi)
    exact ⟨fun h0 => effect (hout.trans (countTimeout_first h0)), fun h0 => effect (hout.trans (countTimeout_second h0))⟩
  · intro t ht probing late probes absent
    refine ⟨fun op hf hi hp h0 => ?_, fun hf hs => ⟨fun hp => ⟨fun hu => ?_, fun hu => ?_⟩, fun hp h0 => ?_⟩⟩
    · refine effect_probeDecide (x := dieUpd d (.resetAt late.now) late) rfl hr ?_ (probing_iff.2 hp)
      have hcount := countTimeout_operationTaken (s := late) h0
      exact (dieTimesOut_carrying ht hf).trans ((opTimeout_identify hi).trans (congrArg _ hcount))
    · refine effect ((dieTimesOut_resetting ht hf hs).trans ?_)
      exact resetTimeout_decided (probing_iff.2 hp) hu
    · refine effect_probeDecide (x := positionUnused d late) rfl hr ?_ (probing_iff.2 hp)
      exact (dieTimesOut_resetting ht hf hs).trans (resetTimeout_undecided (probing_iff.2 hp) hu)
    · refine effect ((dieTimesOut_resetting ht hf hs).trans ?_)
      exact (resetTimeout_mounted (s := late) (mt probing_iff.1 hp)).trans
        (countTimeout_second (s := raise .dieTimeout (.die d) late) h0)

end Sys2Proof.Machine
end

section
/-! SUPPORT. Proofs: the scrub walker from its start and from line to line (O29, O46), and the answers of its reads (O45). -/
namespace Sys2Proof.Machine

variable {s : State}

/-! ### The lines that are read (R111) -/

theorem scrubTarget_eq_some {loc : Loc} {seq : Nat} : scrubTarget s = some (loc, seq) ↔ scrubReads s s.scrub.current loc seq := by
  unfold scrubTarget scrubReads
  cases hm : (mapGet s s.scrub.current).state with
  | present l q =>
    cases hb : isBacked s s.scrub.current with
    | false => simp [hm, hb]
    | true =>
      cases hc : currentEntry s s.scrub.current with
      | none => simp [hm, hb, hc]
      | some i => by_cases he : (entryAt s i).state = .clean <;> simp [hm, hb, hc, he]
  | unwritten => simp [hm]
  | trimmed l q => simp [hm]
  | damaged => simp [hm]

theorem scrubTarget_eq_none : scrubTarget s = none ↔ ¬ ∃ loc seq, scrubReads s s.scrub.current loc seq := by
  simp only [← scrubTarget_eq_some, Option.eq_none_iff_forall_ne_some, not_exists, Prod.forall, ne_eq]

/-! ### The walk over the lines (R111) -/

/-- The record of a line is read in class SCRUB READ, from the slot that the walker keeps (R110). -/
def scrubReading (line : Nat) (loc : Loc) (seq : Nat) (s : State) : State :=
  issue (mapRead .scrubRead .scrubRead line loc seq)
    { s with scrub := { s.scrub with current := line, state := .reading, readSlot := some (loc, seq) } }

theorem scrubDecide_reads {n k : Nat} {loc : Loc} {seq : Nat} (hfrom : s.scrub.current ≤ k) (hto : k ≤ s.scrub.last)
    (hn : k < s.scrub.current + n) (hk : scrubReads s k loc seq)
    (hpass : ∀ j, s.scrub.current ≤ j → j < k → ¬ ∃ loc' seq', scrubReads s j loc' seq') :
    scrubDecide n s = scrubReading k loc seq s := by
  induction n generalizing s with
  | zero => omega
  | succ n ih =>
    rcases hfrom.eq_or_lt with rfl | hlt
    · rw [scrubDecide, scrubTarget_eq_some.2 hk]
      rfl
    · have hlast : ¬ s.scrub.last ≤ s.scrub.current := by omega
      rw [scrubDecide, scrubTarget_eq_none.2 (hpass _ le_rfl hlt)]
      refine (if_neg hlast).trans (ih (s := scrubAt (s.scrub.current + 1) s) hlt hto ?_ hk ?_)
      · show k < s.scrub.current + 1 + n
        omega
      · exact fun j hj => hpass j (Nat.le_of_succ_le hj)

theorem scrubDecide_ends {n : Nat} (hto : s.scrub.current ≤ s.scrub.last) (hn : s.scrub.last < s.scrub.current + n)
    (hpass : ∀ j, s.scrub.current ≤ j → j ≤ s.scrub.last → ¬ ∃ loc seq, scrubReads s j loc seq) :
    scrubDecide n s = scrubEnd .ok (scrubAt (s.scrub.last + 1) s) := by
  induction n generalizing s with
  | zero => omega
  | succ n ih =>
    rw [scrubDecide, scrubTarget_eq_none.2 (hpass _ le_rfl hto)]
    rcases hto.eq_or_lt with heq | hlt
    · exact (if_pos heq.ge).trans (by rw [heq])
    · refine (if_neg (Nat.not_le.2 hlt)).trans (ih (s := scrubAt (s.scrub.current + 1) s) hlt ?_ ?_)
      · show s.scrub.last < s.scrub.current + 1 + n
        omega
      · exact fun j hj => hpass j (Nat.le_of_succ_le hj)

theorem scrubDecideNow_reads {k : Nat} {loc : Loc} {seq : Nat} (hfrom : s.scrub.current ≤ k) (hto : k ≤ s.scrub.last)
    (hk : scrubReads s k loc seq) (hpass : ∀ j, s.scrub.current ≤ j → j < k → ¬ ∃ loc' seq', scrubReads s j loc' seq') :
    scrubDecideNow s = scrubReading k loc seq { s with scrub := { s.scrub with held := none } } :=
  scrubDecide_reads (s := { s with scrub := { s.scrub with state := .deciding, readSlot := none, held := none } })
    hfrom hto (by show k < s.scrub.current + (s.scrub.last + 1 - s.scrub.current); omega) hk hpass

theorem scrubEnd_completed {f n : Nat} (r : Result) (hs : s.maint.slot = some (.scrub f n)) :
    scrubEnd r s = completed .scrub r (scrubIdle s) :=
  completeLong_of_running (s := scrubIdle s) r hs

theorem scrubDecideNow_ends {f n : Nat} (hs : s.maint.slot = some (.scrub f n)) (hto : s.scrub.current ≤ s.scrub.last)
    (hpass : ∀ j, s.scrub.current ≤ j → j ≤ s.scrub.last → ¬ ∃ loc seq, scrubReads s j loc seq) :
    scrubDecideNow s = completed .scrub .ok (scrubIdle (scrubAt (s.scrub.last + 1) s)) := by
  have hend := scrubDecide_ends (s := { s with scrub := { s.scrub with state := .deciding, readSlot := none, held := none } })
    (n := s.scrub.last + 1 - s.scrub.current) hto
    (by show s.scrub.last < s.scrub.current + (s.scrub.last + 1 - s.scrub.current); omega) hpass
  exact hend.trans (scrubEnd_completed .ok hs)

/-! ### O46: the line is done (R112, R115) -/

theorem scrubLineDone_aborted (h : s.scrub.abortPending = true) :
    scrubLineDone s = scrubEnd .aborted (scrubAt (s.scrub.current + 1) s) := if_pos h

theorem scrubLineDone_last (h : s.scrub.abortPending = false) (hl : s.scrub.last ≤ s.scrub.current) :
    scrubLineDone s = scrubEnd .ok (scrubAt (s.scrub.current + 1) s) :=
  (if_neg (Bool.eq_false_iff.1 h)).trans (if_pos hl)

theorem scrubLineDone_goesOn (h : s.scrub.abortPending = false) (hl : s.scrub.current < s.scrub.last) :
    scrubLineDone s = scrubDecideNow (scrubAt (s.scrub.current + 1) s) :=
  (if_neg (Bool.eq_false_iff.1 h)).trans (if_neg (Nat.not_le.2 hl))

/-- Settles O46: the walk ends (`scrubEnd_completed`), or it decides from the next line on. -/
theorem scrubLineDoneGoesOn : Obligations.ScrubLineDoneGoesOn := by
  intro s f n hs idle next
  refine ⟨fun ha => (scrubLineDone_aborted ha).trans (scrubEnd_completed .aborted hs), fun ha => ⟨fun hl => ?_, ?_, ?_⟩⟩
  · exact (scrubLineDone_last ha hl).trans (scrubEnd_completed .ok hs)
  · intro k loc seq hfrom hto hk hpass
    rw [scrubLineDone_goesOn ha (lt_of_lt_of_le hfrom hto)]
    exact scrubDecideNow_reads (s := scrubAt next s) hfrom hto hk hpass
  · intro hto hpass
    rw [scrubLineDone_goesOn ha hto]
    exact scrubDecideNow_ends (s := scrubAt next s) hs hto hpass

/-! ### O29: the walk starts (R110, R111) -/

theorem scrubRefuses_none {first count : Nat} (hpos : 1 ≤ count) (hend : first + count ≤ 262144) :
    scrubRefuses first count = none :=
  if_pos (by unfold Config.lines; omega)

/-- The walker of a SCRUB that starts, as it decides about the first line. -/
def scrubStarts (first count : Nat) (s : State) : State :=
  { s with
    scrub :=
      { state := .deciding, current := first, last := first + count - 1, readSlot := none, held := none, abortPending := false } }

section
variable {first count : Nat}

theorem scrubStarts_reads {k : Nat} {loc : Loc} {seq : Nat} (hfrom : first ≤ k) (hto : k ≤ first + count - 1)
    (hk : scrubReads s k loc seq) (hpass : ∀ j, first ≤ j → j < k → ¬ ∃ loc' seq', scrubReads s j loc' seq') :
    scrubDecideNow (scrubStarts first count s) =
      issue (mapRead .scrubRead .scrubRead k loc seq)
        { s with
          scrub :=
            { state := .reading, current := k, last := first + count - 1, readSlot := some (loc, seq), held := none,
              abortPending := false } } :=
  scrubDecideNow_reads (s := scrubStarts first count s) hfrom hto hk hpass

theorem scrubStarts_ends (hs : s.maint.slot = some (.scrub first count)) (hpos : 1 ≤ count)
    (hpass : ∀ j, first ≤ j → j ≤ first + count - 1 → ¬ ∃ loc seq, scrubReads s j loc seq) :
    scrubDecideNow (scrubStarts first count s) = completed .scrub .ok
      (markStale (·.role == .scrubRead)
        { s with
          scrub :=
            { state := .idle, current := first + count - 1 + 1, last := first + count - 1, readSlot := none, held := none,
              abortPending := false } }) :=
  scrubDecideNow_ends (s := scrubStarts first count s) hs (by show first ≤ first + count - 1; omega) hpass

end

theorem effect_scrub {t : State} {f n : BitVec 24} (hr : s.rstLow = false) (hm : s.mode = .active) (hs : s.maint.slot = none)
    (hpos : 1 ≤ n.toNat) (hend : f.toNat + n.toNat ≤ 262144)
    (ht : scrubDecideNow (scrubStarts f.toNat n.toNat (acceptedLong (.scrub f.toNat n.toNat) (framed 6 s))) = t) :
    Effect (.scrub f n) s t :=
  Effect.of_event rfl hr
    ((longRequest_accepted (accepts_active (s := framed 6 s) hm .scrub) hs (scrubRefuses_none hpos hend)).trans ht)

/-- Settles O29: the tests pass and the walker decides from the first line on. -/
theorem scrubStartsWithFirstReadLine : Obligations.ScrubStartsWithFirstReadLine := by
  intro s f n hr hm hs hpos hend walk last
  exact ⟨fun k loc seq hfrom hto hk hpass => effect_scrub hr hm hs hpos hend (scrubStarts_reads hfrom hto hk hpass),
    fun hpass => effect_scrub hr hm hs hpos hend (scrubStarts_ends rfl hpos hpass)⟩

/-! ### O45: a scrub read is answered (R112, R113) -/

theorem effect_scrubRead {t : State} {d line seq : Nat} {op : Op} {raw : RawSlot} (h : carries d op .scrubRead s)
    (he : expects op line seq)
    (ht : onScrubRead op (expectSlot (some (line, seq)) (checkSlot raw)) (answeredOp d op [raw] s) = t) :
    Effect (.scrubReadAnswer d raw) s t := by
  refine effect_read rfl h rfl he (Eq.trans ?_ ht)
  unfold deliverRead
  rw [h.2.2.1]

theorem onScrubRead_lost {op : Op} {r : SlotResult} (hs : op.stale = false) (hr : ∀ g c, r ≠ .good g c) :
    onScrubRead op r s = scrubLineDone (lostGrading op.line op.loc s) := by
  unfold onScrubRead
  split
  · exact absurd rfl (hr _ _)
  · simp [hs]

theorem onScrubRead_weak {op : Op} (hs : op.stale = false) (c : SlotContent) :
    onScrubRead op (.good .weak c) s = scrubWeak (payloadOf c) s := by
  simp [onScrubRead, hs]

theorem onScrubRead_not_weak {op : Op} {g : Grade} (hs : op.stale = false) (hg : g ≠ .weak) (c : SlotContent) :
    onScrubRead op (.good g c) s = scrubLineDone s := by
  simp [onScrubRead, hs, hg]

section
variable {payload : LineData}

theorem scrubWeak_not_named (hn : ¬ scrubNamed s = true) : scrubWeak payload s = scrubLineDone s := if_neg hn

theorem scrubWeak_staged {i : Nat} (hn : scrubNamed s = true) (hc : currentEntry s s.scrub.current = some i) :
    scrubWeak payload s = scrubLineDone (if (entryAt s i).state = .clean then refreshClean i s else s) := by
  simp [scrubWeak, hn, hc]

theorem scrubWeak_given {i : Nat} {t : State} (hn : scrubNamed s = true) (hc : currentEntry s s.scrub.current = none)
    (hal : allocate s = some (i, t)) :
    scrubWeak payload s = scrubLineDone (dirtyEntry i (refreshEntry s.scrub.current payload) t) := by
  simp [scrubWeak, hn, hc, hal]

theorem scrubWeak_no_entry (hn : scrubNamed s = true) (hc : currentEntry s s.scrub.current = none) (hal : allocate s = none) :
    scrubWeak payload s =
      if s.scrub.abortPending = true then scrubLineDone s
      else { s with scrub := { s.scrub with state := .waiting, held := some payload } } := by
  simp [scrubWeak, hn, hc, hal]

end

/-- Settles O45, by the grade; a WEAK record by what the map and the staging buffer hold of its line. -/
theorem scrubReadAnswered : Obligations.ScrubReadAnswered := by
  intro s d op raw line seq h he a ends now named
  have hst : op.stale = false := h.2.2.2
  have hscrub : a.scrub = s.scrub := by rw [show a = _ from answeredOp_eq d op [raw] s]
  have hlru : a.lru = s.lru := by rw [show a = _ from answeredOp_eq d op [raw] s]
  have hent (i : Nat) : entryAt a i = entryAt s i := entryAt_answeredOp d op [raw] s i
  have hcur : currentEntry a a.scrub.current = currentEntry s now := by
    rw [hscrub, show a = _ from answeredOp_eq d op [raw] s]
    rfl
  have hnamed : scrubNamed a = true ↔ named := by
    rw [scrubNamed_iff, hscrub, show mapGet a s.scrub.current = _ from mapGet_answeredOp d op [raw] s _]
  refine ⟨fun hl => ?_, fun g kind stamps payload hg => ?_⟩
  · refine effect_scrubRead h he ?_
    rw [onScrubRead_lost hst (expectSlot_of_readLost hl), expects_line he]
  · have slot := expectSlot_of_readGood hg
    have weak {t} (hw : g = .weak) (ht : scrubWeak payload a = t) : Effect (.scrubReadAnswer d raw) s t :=
      effect_scrubRead h he (by rw [slot, hw, onScrubRead_weak hst]; exact ht)
    refine ⟨fun hw => effect_scrubRead h he (by rw [slot, onScrubRead_not_weak hst hw]),
      fun hw hn => weak hw (scrubWeak_not_named (mt hnamed.1 hn)),
      fun hw hn => ⟨fun i hc => ?_, fun hc => ⟨fun i t hal => ?_, fun hal hp => ?_, fun hal hp => ?_⟩⟩⟩
    · have staged := scrubWeak_staged (payload := payload) (hnamed.2 hn) (hcur.trans hc)
      rw [hent] at staged
      refine ⟨fun hi => weak hw (staged.trans ?_), fun hi => weak hw (staged.trans (by rw [if_neg hi]))⟩
      rw [if_pos hi, ← hent, ← hlru]
      rfl
    · refine weak hw ((scrubWeak_given (hnamed.2 hn) (hcur.trans hc) hal).trans ?_)
      rw [hscrub]
      rfl
    · exact weak hw ((scrubWeak_no_entry (hnamed.2 hn) (hcur.trans hc) hal).trans (if_pos (by rw [hscrub]; exact hp)))
    · refine weak hw ((scrubWeak_no_entry (hnamed.2 hn) (hcur.trans hc) hal).trans ?_)
      rw [hscrub]
      exact if_neg (Bool.eq_false_iff.1 hp)

end Sys2Proof.Machine
end

section
/-! SUPPORT. Proofs: ABORT (O26). -/
namespace Sys2Proof.Machine

variable {s : State}

/-! ### ABORT reaches the long command (R186) -/

theorem effect_abort {t : State} (hr : s.rstLow = false) (ha : accepts s.mode .abort = true)
    (ht : abortLong (heldReply .ok [] (framed 0 s)) = t) : Effect .abort s t :=
  Effect.of_event rfl hr ((shortRequest_taken (s := framed 0 s) ha).trans ht)

theorem accepts_abort_modes {m : Mode} (h : accepts m .abort = true) : m ≠ .unformatted ∧ m ≠ .parked := by
  constructor <;> rintro rfl <;> cases h

theorem abortLong_none (hs : s.maint.slot = none) : abortLong s = s := by
  unfold abortLong
  rw [hs]

theorem abortLong_flush (hs : s.maint.slot = some .flush) :
    abortLong s = completed .flush .aborted { s with flushTracked := [] } := by
  unfold abortLong
  rw [hs]
  exact completeLong_of_running (s := { s with flushTracked := [] }) .aborted hs

theorem abortLong_trim {b c : Nat} (hs : s.maint.slot = some (.trim b c)) :
    abortLong s = completed .trim .aborted { s with trim := { s.trim with tracked := [], waiting := false } } := by
  unfold abortLong
  rw [hs]
  exact completeLong_of_running (s := { s with trim := { s.trim with tracked := [], waiting := false } }) .aborted hs

theorem abortLong_scrub_waiting {f c : Nat} (hs : s.maint.slot = some (.scrub f c)) (hw : s.scrub.state = .waiting) :
    abortLong s = completed .scrub .aborted (scrubIdle (scrubAt (s.scrub.current + 1) s)) := by
  unfold abortLong scrubAbort
  rw [hs, hw]
  exact scrubEnd_completed (s := scrubAt (s.scrub.current + 1) s) .aborted hs

theorem abortLong_scrub_going {f c : Nat} (hs : s.maint.slot = some (.scrub f c)) (hw : s.scrub.state ≠ .waiting) :
    abortLong s = { s with scrub := { s.scrub with abortPending := true } } := by
  unfold abortLong scrubAbort
  rw [hs]
  dsimp only
  split
  · exact absurd ‹_› hw
  · rfl

theorem abortLong_freeze {r : Nat} (hs : s.maint.slot = some (.freeze r)) : abortLong s = freezeAbort s := by
  unfold abortLong
  rw [hs]

theorem abortLong_format {t : List Region} {j : FormatJob} (hs : s.maint.slot = some (.format t)) (hj : s.format = some j) :
    abortLong s = if j.step < 4 then formatFailed .aborted s else s := by
  unfold abortLong formatAbort
  rw [hs, hj]

/-- A format that ends out of a mode in which a command runs leaves the part UNFORMATTED, with no map and no regions (R13, R157). -/
theorem formatFailed_leaves {t : List Region} (r : Result) (hs : s.maint.slot = some (.format t)) (hu : s.mode ≠ .unformatted)
    (hp : s.mode ≠ .parked) :
    let u := formatFailed r s
    u.mode = .unformatted ∧ u.format = none ∧ u.lineMap = [] ∧ u.regions = [] ∧ u.maint.slot = none ∧
      u.maint.last = some (.format, r) ∧ u.maint.done = true := by
  have hk := modeMaint_kept .unformatted (completed .format r (formatCut s))
  dsimp only
  rw [formatFailed_eq r hs, setMode_eq (s := completed .format r (formatCut s)) hu hp (.inl rfl)]
  exact ⟨rfl, rfl, rfl, rfl, hk.slot, hk.last, hk.done⟩

/-! ### O26 -/

/-- Settles O26, by the command in the slot. -/
theorem abortReachesLongCommand : Obligations.AbortReachesLongCommand := by
  intro s hr ha ok
  obtain ⟨hu, hp⟩ := accepts_abort_modes ha
  refine ⟨fun hs => effect_abort hr ha (abortLong_none hs), fun hs => effect_abort hr ha (abortLong_flush hs),
    fun b c hs => effect_abort hr ha (abortLong_trim hs), fun f c hs => ⟨fun hw => ?_, fun hw => ?_⟩,
    fun r hs => ⟨fun hf => ?_, fun hf => ?_⟩, fun t j hs hj => ⟨fun h4 => ?_, fun h4 => ?_⟩⟩
  · exact effect_abort hr ha (abortLong_scrub_waiting (s := ok) hs hw)
  · exact effect_abort hr ha (abortLong_scrub_going (s := ok) hs hw)
  · exact effect_abort hr ha ((abortLong_freeze (s := ok) hs).trans (if_pos hf))
  · exact effect_abort hr ha ((abortLong_freeze (s := ok) hs).trans (if_neg hf))
  · exact effect_abort hr ha ((abortLong_format (s := ok) hs hj).trans (if_neg (Nat.not_lt.2 h4)))
  · obtain ⟨hmode, hrest⟩ := formatFailed_leaves (s := ok) .aborted hs hu hp
    exact ⟨_, effect_abort hr ha ((abortLong_format (s := ok) hs hj).trans (if_pos h4)), fun _ => hmode, hrest⟩

end Sys2Proof.Machine
end

section
/-! SUPPORT. Proofs: TRIM starts and completes (O28). -/
namespace Sys2Proof.Machine

variable {s : State}

/-! ### The tests and the end of TRIM (R138, R185) -/

theorem meetsOnce_eq_false {base count : Nat}
    (h : ∀ r ∈ s.regions, r.kind = .once → r.base + r.count ≤ base ∨ base + count ≤ r.base) : meetsOnce base count s = false := by
  rw [Bool.eq_false_iff, ne_eq, meetsOnce_iff]
  rintro ⟨r, hr, hk, hbase, hend⟩
  have := h r hr hk
  omega

theorem trimRefuses_none {base count : Nat} (hpos : 1 ≤ count) (hmax : count ≤ 4096) (hend : base + count ≤ 262144)
    (honce : ∀ r ∈ s.regions, r.kind = .once → r.base + r.count ≤ base ∨ base + count ≤ r.base) :
    trimRefuses base count s = none :=
  if_pos ⟨hpos, hmax, show base < 262144 by omega, hend, by rw [meetsOnce_eq_false honce]; rfl⟩

theorem trimEnd_completed {base count : Nat} (r : Result) (hs : s.maint.slot = some (.trim base count)) :
    trimEnd r s = completed .trim r { s with trim := { s.trim with tracked := [], waiting := false } } :=
  completeLong_of_running (s := { s with trim := { s.trim with tracked := [], waiting := false } }) r hs

theorem longStep_trim {base count : Nat} (hs : s.maint.slot = some (.trim base count)) (hc : s.trim.current = s.trim.stop)
    (ht : s.trim.tracked = []) : longStep s = some (trimEnd .ok s) := by
  simp [longStep, running, hs, LongCmd.kind, hc, ht]

/-- Settles O28: the tests pass and `startTrim` sets the walk; the end by `longStep_trim`. -/
theorem trimStartsAndCompletes : Obligations.TrimStartsAndCompletes := by
  intro s b c hr hm
  refine ⟨fun hs hpos hmax hend honce => ?_, fun base n hs hc ht => ?_⟩
  · exact Effect.of_event rfl hr (longRequest_accepted (accepts_active (s := framed 5 s) hm .trim) hs
      (trimRefuses_none (s := framed 5 s) hpos hmax hend honce))
  · rw [longStep_trim hs hc ht, trimEnd_completed .ok hs]

end Sys2Proof.Machine
end

section
/-! SUPPORT. Proofs: the identity manager's updates and their answers, and the answers of a format's identity operations (O52). -/
namespace Sys2Proof.Machine

variable {s : State}

/-! ### The update in flight (R146, R149) -/

/-- The manager with its update at another stage. -/
def Identity.atStage (m : Identity) (u : Update) (st : UpdateStage) : Identity := { m with update := some { u with stage := st } }

theorem setCopy_update (m : Identity) (c : IdCopy) (k : CopyState) (x : Option Update) :
    { m.setCopy c k with update := x } = Identity.setCopy { m with update := x } c k := by
  cases c <;> rfl

theorem nextCopy_eq (c : IdCopy) : nextCopy c = if c = .a then .start .b else .done := by cases c <;> rfl

theorem updateStage_eq {u : Update} (hu : s.ident.update = some u) (st : UpdateStage) :
    updateStage st s = { s with ident := s.ident.atStage u st } := by
  simp only [updateStage, identity, Identity.atStage, hu, Option.map_some]

theorem stageOf_eq {u : Update} (hu : s.ident.update = some u) : stageOf s = some u.stage := by
  unfold stageOf
  rw [hu]

/-! ### A copy's part ends (R149 to R151) -/

theorem failCopy_eq (c : IdCopy) (s : State) :
    failCopy c s =
      { raise .identityFail (.block (copyBlock c)) s with
        ident := s.ident.setCopy c { s.ident.copy c with good := false } } := rfl

theorem updateStage_failCopy {u : Update} (hu : s.ident.update = some u) (c : IdCopy) (st : UpdateStage) :
    updateStage st (failCopy c s) =
      { raise .identityFail (.block (copyBlock c)) s with
        ident := (s.ident.atStage u st).setCopy c { s.ident.copy c with good := false } } := by
  have hf : (failCopy c s).ident.update = some u := (setCopy_same s.ident c _).2.1.trans hu
  rw [updateStage_eq hf, failCopy_eq]
  exact congrArg (fun m => { raise .identityFail (.block (copyBlock c)) s with ident := m }) (setCopy_update ..)

theorem copyWritten_eq {u : Update} (hu : s.ident.update = some u) (c : IdCopy) (n : Nat) :
    copyWritten c n s =
      { s with
        ident := Identity.setCopy { s.ident with update := some { u with stage := nextCopy c, written := true } } c
          { s.ident.copy c with next := n, rollDue := false } } := by
  have hw : (s.ident.setCopy c { s.ident.copy c with next := n, rollDue := false }).update = some u :=
    (setCopy_same s.ident c _).2.1.trans hu
  unfold copyWritten
  rw [updateStage_eq (u := { u with written := true }) (by simp only [identity, hu, Option.map_some])]
  exact congrArg (fun m => { s with ident := m }) (setCopy_update ..)

/-! ### The answers of an update's operations (R149 to R151) -/

theorem effect_identityProgram {t : State} {op : Op} {st : Status} (h : carries 0 op .identityProgram s)
    (ht : onIdentityProgram st (dieAnswered 0 s) = t) : Effect (.identityPageProgramAnswer st) s t :=
  effect_taken rfl h rfl ht

theorem effect_identityErase {t : State} {op : Op} {st : Status} (h : carries 0 op .identityErase s)
    (ht : onIdentityErase st (dieAnswered 0 s) = t) : Effect (.identityEraseAnswer st) s t :=
  effect_taken rfl h rfl ht

section
variable {u : Update} {c : IdCopy}

theorem onIdentityProgram_page (hu : s.ident.update = some u) (hs : u.stage = .out c .page) :
    onIdentityProgram .pass s = copyWritten c ((s.ident.copy c).next + 1) s := by
  unfold onIdentityProgram
  rw [stageOf_eq hu, hs]

theorem onIdentityProgram_descriptor (hu : s.ident.update = some u) (hs : u.stage = .out c .rollDescriptor) :
    onIdentityProgram .pass s = updateStage (.ready c .rollPage) s := by
  unfold onIdentityProgram
  rw [stageOf_eq hu, hs]

theorem onIdentityProgram_rollPage (hu : s.ident.update = some u) (hs : u.stage = .out c .rollPage) :
    onIdentityProgram .pass s = copyWritten c 2 s := by
  unfold onIdentityProgram
  rw [stageOf_eq hu, hs]

theorem onIdentityProgram_fail {step : IdStep} (hu : s.ident.update = some u) (hs : u.stage = .out c step) :
    onIdentityProgram .fail s = updateStage (nextCopy c) (failCopy c s) := by
  unfold onIdentityProgram
  rw [stageOf_eq hu, hs]
  cases step <;> rfl

theorem onIdentityErase_pass (hu : s.ident.update = some u) (hs : u.stage = .out c .rollErase) :
    onIdentityErase .pass s = updateStage (.ready c .rollDescriptor) s := by
  unfold onIdentityErase
  rw [stageOf_eq hu, hs]

theorem onIdentityErase_fail (hu : s.ident.update = some u) (hs : u.stage = .out c .rollErase) :
    onIdentityErase .fail s = updateStage (nextCopy c) (failCopy c s) := by
  unfold onIdentityErase
  rw [stageOf_eq hu, hs]

end

/-! ### The answers of a format's identity operations (R154, R156) -/

theorem effect_formatErase {t : State} {op : Op} {st : Status} (h : carries 0 op .formatErase s)
    (ht : onFormatErase op.block st (dieAnswered 0 s) = t) : Effect (.formatIdentityEraseAnswer st) s t :=
  effect_taken rfl h rfl ht

theorem effect_formatProgram {t : State} {op : Op} {st : Status} (h : carries 0 op .formatProgram s)
    (ht : onFormatProgram st (dieAnswered 0 s) = t) : Effect (.formatIdentityProgramAnswer st) s t :=
  effect_taken rfl h rfl ht

theorem nextWrite_eq (c : IdCopy) : nextWrite c = if c = .a then .start .b else .done := by cases c <;> rfl

theorem job_eq {j : FormatJob} (hj : s.format = some j) (f : FormatJob → FormatJob) : job f s = { s with format := some (f j) } := by
  simp only [job, hj, Option.map_some]

section
variable {j : FormatJob} {c : IdCopy}

theorem onFormatErase_pass (hj : s.format = some j) (b : BlockId) :
    onFormatErase b .pass s = { s with format := some { j with erasesOut := j.erasesOut - 1 } } := job_eq hj _

theorem onFormatErase_fail (hj : s.format = some j) (c : IdCopy) :
    onFormatErase (copyBlock c) .fail s = { failCopy c s with format := some { j with erasesOut := j.erasesOut - 1 } } := by
  unfold onFormatErase
  rw [copyOf_copyBlock]
  exact job_eq (s := failCopy c s) hj _

theorem onFormatProgram_descriptor (hj : s.format = some j) (hw : j.write = .out c 0) :
    onFormatProgram .pass s =
      issue (pageProgram .formatProgram c 1 (.update ⟨1, [], s.ident.retired⟩))
        { s with format := some { j with write := .out c 1 } } := by
  unfold onFormatProgram
  simp only [hj, hw, job_eq hj]

theorem onFormatProgram_update (hj : s.format = some j) (hw : j.write = .out c 1) :
    onFormatProgram .pass s =
      { s with
        format := some { j with write := nextWrite c, wroteA := j.wroteA || c == .a, wroteB := j.wroteB || c == .b } } := by
  unfold onFormatProgram
  simp only [hj, hw, job_eq hj]

theorem onFormatProgram_fail {p : Nat} (hj : s.format = some j) (hw : j.write = .out c p) :
    onFormatProgram .fail s = { failCopy c s with format := some { j with write := nextWrite c } } := by
  unfold onFormatProgram
  simp only [hj, hw]
  exact job_eq (s := failCopy c s) hj _

end

/-! ### The manager's next step (R148 to R150) -/

theorem identityWorks_iff (m : Mode) : identityWorks m = true ↔ m = .active ∨ m = .readOnly ∨ m = .draining := by
  simp only [identityWorks, Bool.or_eq_true, beq_iff_eq, or_assoc]

theorem identityStep_idle (hu : s.ident.update = none) (h : identityWorks s.mode = false ∨ s.ident.queue = []) :
    identityStep s = none := by
  unfold identityStep
  rcases h with h | h <;> simp [hu, h]

theorem identityStep_forms (hu : s.ident.update = none) (hw : identityWorks s.mode = true) (hq : s.ident.queue ≠ []) :
    identityStep s = some (formUpdate s) := by
  simp [identityStep, hu, hw, hq]

section
variable {u : Update} {c : IdCopy} {step : IdStep}

theorem identityStep_start (hu : s.ident.update = some u) (hs : u.stage = .start c) : identityStep s = some (startCopy c s) := by
  simp only [identityStep, hu, hs]

theorem identityStep_out (hu : s.ident.update = some u) (hs : u.stage = .out c step) : identityStep s = none := by
  simp only [identityStep, hu, hs]

theorem identityStep_held (hu : s.ident.update = some u) (hs : u.stage = .ready c step) (hw : identityWorks s.mode = false) :
    identityStep s = none := by
  simp [identityStep, hu, hs, hw]

theorem identityStep_issues (hu : s.ident.update = some u) (hs : u.stage = .ready c step) (hw : identityWorks s.mode = true) :
    identityStep s = some (issueStep c step u.page s) := by
  simp [identityStep, hu, hs, hw]

theorem identityStep_done (hu : s.ident.update = some u) (hs : u.stage = .done) : identityStep s = some (updateAnswered u s) := by
  simp only [identityStep, hu, hs]

theorem startCopy_failed (hu : s.ident.update = some u) (hg : (s.ident.copy c).good = false) :
    startCopy c s = { s with ident := s.ident.atStage u (nextCopy c) } := by
  simp [startCopy, hg, updateStage_eq hu]

theorem startCopy_rolls (hu : s.ident.update = some u) (hg : (s.ident.copy c).good = true)
    (hr : (s.ident.copy c).rollDue = true ∨ (s.ident.copy c).next = 64) :
    startCopy c s = { s with ident := s.ident.atStage u (.ready c .rollErase) } := by
  simp [startCopy, hg, hr, updateStage_eq hu]

theorem startCopy_page (hu : s.ident.update = some u) (hg : (s.ident.copy c).good = true)
    (hr : (s.ident.copy c).rollDue = false) (hn : (s.ident.copy c).next ≠ 64) :
    startCopy c s = { s with ident := s.ident.atStage u (.ready c .page) } := by
  simp [startCopy, hg, hr, hn, updateStage_eq hu]

/-- The operation by which a copy takes its step of an update (R149, R150). -/
def stepOp (m : Identity) (u : Update) (c : IdCopy) : IdStep → Option Op
  | .page => some (pageProgram .identityProgram c (m.copy c).next (.update u.page))
  | .rollErase => some (eraseOp .identityErase .identity (copyBlock c))
  | .rollDescriptor => m.descriptor.map fun d => pageProgram .identityProgram c 0 (.descriptor d)
  | .rollPage => some (pageProgram .identityProgram c 1 (.update u.page))

theorem issueStep_eq {op : Op} (hu : s.ident.update = some u) (ho : stepOp s.ident u c step = some op) :
    issueStep c step u.page s = issue op { s with ident := s.ident.atStage u (.out c step) } := by
  unfold issueStep
  rw [updateStage_eq hu]
  cases step with
  | rollDescriptor =>
    obtain ⟨d, hd, rfl⟩ := Option.map_eq_some_iff.1 ho
    simp only [hd]
  | _ => rw [← Option.some.inj ho]

theorem identityStep_issues_op {op : Op} (hu : s.ident.update = some u) (hs : u.stage = .ready c step)
    (hw : identityWorks s.mode = true) (ho : stepOp s.ident u c step = some op) :
    identityStep s = some (issue op { s with ident := s.ident.atStage u (.out c step) }) := by
  rw [identityStep_issues hu hs hw, issueStep_eq hu ho]

end

/-! ### The end of an update (R141, R142, R149) -/

/-- The state as an update's requests are answered, but for a FREEZE it served: its blocks are RETIRED, and the manager keeps what it
wrote. -/
def updateClosed (u : Update) (s : State) : State :=
  { (retireBlocks u.served).foldl (fun x b => setRetired b x) s with
    ident :=
      { s.ident with
        update := none
        retired := s.ident.retired ++ retireBlocks u.served
        persistent := if u.written then u.page.frozen else s.ident.persistent }
    reclaim := { s.reclaim with retirements := s.reclaim.retirements - (retireBlocks u.served).length } }

theorem updateAnswered_eq (u : Update) (s : State) :
    updateAnswered u s =
      if u.written then answerFreeze u (updateClosed u s) else requestReadOnly (answerFreeze u (updateClosed u s)) := by
  unfold updateAnswered updateClosed
  dsimp only [identity, engine]
  rw [(setRetireds_eq (retireBlocks u.served) s).1]

theorem answerFreeze_unserved {u : Update} (h : IdRequest.frozenSet true ∉ u.served) (s : State) : answerFreeze u s = s :=
  if_neg (by simpa using h)

/-- The result of a FREEZE whose update is answered (R141, R142, log 30). -/
def freezeResult (u : Update) (f : Freeze) : Result :=
  if u.written = false ∨ f.medium = true then .medium else if f.aborted then .aborted else .ok

theorem answerFreeze_served {u : Update} {g : LongCmd} (h : IdRequest.frozenSet true ∈ u.served) (hs : s.maint.slot = some g) :
    answerFreeze u s = completed g.kind (freezeResult u s.freeze) { s with freeze := Freeze.initial } := by
  have hr : freezeResult u s.freeze =
      if !u.written || s.freeze.medium then Result.medium else if s.freeze.aborted then .aborted else .ok := by
    simp [freezeResult]
  unfold answerFreeze
  rw [if_pos (by simpa using h), hr]
  exact completeLong_of_running (s := { s with freeze := Freeze.initial }) _ hs

theorem updateClosed_maint (u : Update) (s : State) : (updateClosed u s).maint = s.maint := by
  unfold updateClosed
  rw [(setRetireds_eq (retireBlocks u.served) s).1]

theorem updateClosed_freeze (u : Update) (s : State) : (updateClosed u s).freeze = s.freeze := by
  unfold updateClosed
  rw [(setRetireds_eq (retireBlocks u.served) s).1]

/-- The manager's last step of an update, with the FREEZE it served answered or none to answer. -/
theorem identityStep_ends {t : State} {u : Update} (hu : s.ident.update = some u) (hs : u.stage = .done)
    (ht : answerFreeze u (updateClosed u s) = t) : identityStep s = some (if u.written then t else requestReadOnly t) := by
  rw [identityStep_done hu hs, updateAnswered_eq, ht]

/-- Settles O52: the answers by `onIdentityProgram`, `onIdentityErase`, `onFormatErase` and `onFormatProgram`, the manager's own steps by the
stage of its update, the end by `updateAnswered_eq`. -/
theorem identityWritesAnswered : Obligations.IdentityWritesAnswered := by
  intro s op c a k after
  have hafter : nextCopy c = after := nextCopy_eq c
  refine ⟨fun u hu => ?_, fun j hj => ?_, ?_⟩
  · intro staged written failed
    have hfails : updateStage (nextCopy c) (failCopy c a) = failed := by
      rw [updateStage_failCopy (s := a) hu, hafter]
      rfl
    have hwrites (n : Nat) : copyWritten c n a = { a with ident := written n } := by
      rw [copyWritten_eq (s := a) hu, hafter]
      rfl
    refine ⟨fun h => ⟨fun hs => ?_, fun hs => ?_, fun hs => ?_, fun st hs => ?_⟩, fun h hs => ⟨?_, ?_⟩⟩
    · exact effect_identityProgram h ((onIdentityProgram_page (s := a) hu hs).trans (hwrites _))
    · exact effect_identityProgram h ((onIdentityProgram_descriptor (s := a) hu hs).trans (updateStage_eq (s := a) hu _))
    · exact effect_identityProgram h ((onIdentityProgram_rollPage (s := a) hu hs).trans (hwrites 2))
    · exact effect_identityProgram h ((onIdentityProgram_fail (s := a) hu hs).trans hfails)
    · exact effect_identityErase h ((onIdentityErase_pass (s := a) hu hs).trans (updateStage_eq (s := a) hu _))
    · exact effect_identityErase h ((onIdentityErase_fail (s := a) hu hs).trans hfails)
  · intro copyFails next
    have hnext : nextWrite c = next := nextWrite_eq c
    refine ⟨fun h hb => ⟨?_, ?_⟩, fun h => ⟨fun hw => ?_, fun hw => ?_, fun p hw => ?_⟩⟩
    · exact effect_formatErase h (onFormatErase_pass (s := a) hj _)
    · exact effect_formatErase h (by rw [hb]; exact onFormatErase_fail (s := a) hj c)
    · exact effect_formatProgram h (onFormatProgram_descriptor (s := a) hj hw)
    · exact effect_formatProgram h (by rw [onFormatProgram_update (s := a) hj hw, hnext])
    · exact effect_formatProgram h (by rw [onFormatProgram_fail (s := a) hj hw, hnext]; rfl)
  · intro m works retires
    have hworks : identityWorks s.mode = true ↔ works := identityWorks_iff s.mode
    have hrests : ¬ works → identityWorks s.mode = false := fun h => Bool.eq_false_iff.2 (mt hworks.1 h)
    refine ⟨fun hu => ⟨fun h => identityStep_idle hu (h.imp_left hrests), fun hw hq => identityStep_forms hu (hworks.2 hw) hq⟩,
      fun u hu => ?_⟩
    intro staged
    refine ⟨fun hs => ⟨fun hg => ?_, fun hg hr => ?_, fun hg hr hn => ?_⟩, fun st h => ?_, fun hw => ?_, fun hs => ?_⟩
    · rw [identityStep_start hu hs, startCopy_failed hu hg, hafter]
      rfl
    · rw [identityStep_start hu hs, startCopy_rolls hu hg hr]
      rfl
    · rw [identityStep_start hu hs, startCopy_page hu hg hr hn]
      rfl
    · rcases h with hs | ⟨hs, hw⟩
      · exact identityStep_out hu hs
      · exact identityStep_held hu hs (hrests hw)
    · have issued {step op} (hs : u.stage = .ready c step) (ho : stepOp s.ident u c step = some op) :=
        identityStep_issues_op hu hs (hworks.2 hw) ho
      exact ⟨fun hs => issued hs rfl, fun hs => issued hs rfl, fun d hs hd => issued hs (congrArg (Option.map _) hd),
        fun hs => issued hs rfl⟩
    · intro bs y ends
      refine ⟨fun hn => identityStep_ends hu hs (answerFreeze_unserved hn y), fun g hf hg => ?_⟩
      refine identityStep_ends hu hs ((answerFreeze_served hf (g := g) (by rw [updateClosed_maint, hg])).trans ?_)
      unfold completed
      rw [updateClosed_freeze, updateClosed_maint]
      rfl

end Sys2Proof.Machine
end

section
/-! SUPPORT. Proofs: what no command but its own changes (O60). -/
namespace Sys2Proof.Machine

variable {s t r : State} {c : Instr} {f : Bool} {w : Due}

/-! ### The fields that one command alone writes -/

/-- `t` follows `r`: the queue, the pin levels RST_N and PFW and the settings are those of `r`, and the clock has not gone back. -/
structure Follows (r t : State) : Prop where
  pending : t.pending = r.pending
  clock : r.now ≤ t.now
  rst : t.rstLow = r.rstLow
  pfw : t.pfwHigh = r.pfwHigh
  settings : t.maint.settings = r.maint.settings

theorem Follows.refl (s : State) : Follows s s := ⟨rfl, Nat.le_refl _, rfl, rfl, rfl⟩

/-- What an event keeps, it keeps of the state it began in, where RST_N was high. -/
theorem OkC.follows (h : Ok r w t) (hr : r.rstLow = false) : Follows r t :=
  ⟨h.pend, h.now.ge, h.rst.trans hr.symm, h.pfw, h.set⟩

theorem OkAny.follows (h : OkAny f s t) (hr : s.rstLow = false) : Follows s t :=
  let ⟨_, hclock, hok⟩ := h
  { hok.follows hr with clock := hclock.trans hok.now.ge }

/-- Where RST_N is high the invariants alone begin an event. -/
theorem Inv.started (h : Inv s) (hr : s.rstLow = false) : Ok s (.none false) s := h.start Bool.noConfusion hr

/-- The effect of a command that takes no event while RST_N is low is kept to the end of its event. -/
theorem event_or_quick_ok {g : State → State} (e : event g s = .next t ∨ quick g s = .next t) :
    (s.rstLow = true ∧ t = s) ∨ (s.rstLow = false ∧ ∀ r, Ok r w (g s) → Ok r w t) := by
  unfold event quick at e
  by_cases hr : s.rstLow = true
  · simp only [hr, if_true, or_self] at e
    exact .inl ⟨hr, (Host.Outcome.next.inj e).symm⟩
  · simp only [hr, Bool.false_eq_true, if_false] at e
    refine .inr ⟨by simpa using hr, fun r hok => ?_⟩
    rcases e with e | e
    · exact Host.Outcome.next.inj e ▸ finish_ok hok
    · exact Host.Outcome.next.inj e ▸ drive_ok hok

/-! ### The commands -/

/-- The state with what the command itself replaces: the settings, the recorded level, RST_N, or nothing. -/
def withOwnField (c : Instr) (set : Settings) (s : State) : State :=
  match c with
  | .setCommitDelay _ | .setBatchThreshold _ | .setWaitLimit _ | .setAttentionMask _ =>
    { s with maint := { s.maint with settings := set } }
  | .resetAssert => assertReset s
  | .resetRelease => { s with rstLow := false }
  | .pfwLow => { s with pfwHigh := false }
  | .pfwHigh => { s with pfwHigh := true }
  | _ => s

theorem withOwnField_of_plain (set : Settings) (hc : setsOrPins c = false) : withOwnField c set s = s := by
  cases c with
  | setCommitDelay | setBatchThreshold | setWaitLimit | setAttentionMask | resetAssert | resetRelease | pfwLow | pfwHigh =>
    cases hc
  | _ => rfl

theorem withOwnField_pending (c : Instr) (set : Settings) (s : State) : (withOwnField c set s).pending = s.pending := by
  cases c <;> rfl

theorem withOwnField_now (c : Instr) (set : Settings) (s : State) : (withOwnField c set s).now = s.now := by
  cases c <;> rfl

theorem withOwnField_rstLow (set : Settings) (s : State) (ha : c ≠ .resetAssert) (hr : c ≠ .resetRelease) :
    (withOwnField c set s).rstLow = s.rstLow := by
  cases c with
  | resetAssert => exact absurd rfl ha
  | resetRelease => exact absurd rfl hr
  | _ => rfl

theorem withOwnField_pfwHigh (set : Settings) (s : State) (hl : c ≠ .pfwLow) (hh : c ≠ .pfwHigh) :
    (withOwnField c set s).pfwHigh = s.pfwHigh := by
  cases c with
  | pfwLow => exact absurd rfl hl
  | pfwHigh => exact absurd rfl hh
  | _ => rfl

theorem withOwnField_settings (set : Settings) (s : State) (ha : c ≠ .resetAssert)
    (hs : ∀ v, c ≠ .setCommitDelay v ∧ c ≠ .setBatchThreshold v ∧ c ≠ .setWaitLimit v ∧ c ≠ .setAttentionMask v) :
    (withOwnField c set s).maint.settings = s.maint.settings := by
  simp only [forall_and] at hs
  obtain ⟨hdelay, hthreshold, hwait, hmask⟩ := hs
  cases c with
  | resetAssert => exact absurd rfl ha
  | setCommitDelay v => exact absurd rfl (hdelay v)
  | setBatchThreshold v => exact absurd rfl (hthreshold v)
  | setWaitLimit v => exact absurd rfl (hwait v)
  | setAttentionMask v => exact absurd rfl (hmask v)
  | _ => rfl

/-- SET PARAMETER replaces the settings by some, or refuses and leaves them (R188). -/
theorem setParameter_ok {inRange : Bool} {g : Settings → Settings} (h : Ok s w s) :
    ∃ set, Ok { s with maint := { s.maint with settings := set } } w
      (frame 3 (shortRequest .setParameter (setParameter inRange g)) s) := by
  have framed : Ok s w (shiftOut 6 s) := shiftOut_ok 6 h
  unfold frame shortRequest setParameter
  split_ifs
  · exact ⟨_, reply_ok _ _ (framed.with_settings _)⟩
  · exact ⟨s.maint.settings, reply_ok _ _ framed⟩
  · exact ⟨s.maint.settings, reply_ok _ _ framed⟩

theorem setParameter_follows {inRange : Bool} {g : Settings → Settings} (h : Inv s)
    (e : event (frame 3 (shortRequest .setParameter (setParameter inRange g))) s = .next t ∨
      quick (frame 3 (shortRequest .setParameter (setParameter inRange g))) s = .next t) :
    ∃ set, Follows { s with maint := { s.maint with settings := set } } t := by
  rcases event_or_quick_ok (w := .none false) e with ⟨-, rfl⟩ | ⟨hr, hok⟩
  · exact ⟨t.maint.settings, .refl _⟩
  · obtain ⟨set, hset⟩ := setParameter_ok (inRange := inRange) (g := g) (h.started hr)
    exact ⟨set, (hok _ hset).follows hr⟩

theorem pfwChanges_follows (h : Inv s) (high : Bool) : Follows { s with pfwHigh := high } (pfwChanges high s) := by
  unfold pfwChanges
  split
  · exact .refl _
  · rename_i hr
    have hr : s.rstLow = false := by simpa using hr
    refine OkC.follows (w := .none false) (finish_ok ?_) hr
    cases high
    · exact pfwFalls_ok (h.started hr)
    · exact pfwRises_ok (h.started hr)

theorem resetRelease_follows (s : State) :
    Follows { s with rstLow := false } (if s.rstLow then drive s.released else s) := by
  split
  · exact ⟨rfl, Nat.le_refl _, rfl, rfl, rfl⟩
  · rename_i hr
    exact ⟨rfl, Nat.le_refl _, by simpa using hr, rfl, rfl⟩

/-- Every command leaves a state that follows the one it found, but for what the command itself replaces. -/
theorem exec_follows (h : Inv s) (e : exec c s = .next t) : ∃ set, Follows (withOwnField c set s) t := by
  by_cases hc : setsOrPins c = true
  · cases c with
    | setCommitDelay | setBatchThreshold => exact setParameter_follows h (.inl e)
    | setWaitLimit | setAttentionMask => exact setParameter_follows h (.inr e)
    | resetAssert =>
      cases e
      exact ⟨.default, .refl _⟩
    | resetRelease =>
      cases e
      exact ⟨.default, resetRelease_follows s⟩
    | pfwLow =>
      cases e
      exact ⟨.default, pfwChanges_follows h false⟩
    | pfwHigh =>
      cases e
      exact ⟨.default, pfwChanges_follows h true⟩
    | _ => cases hc
  · have hc : setsOrPins c = false := Bool.not_eq_true _ ▸ hc
    refine ⟨.default, ?_⟩
    rw [withOwnField_of_plain _ hc]
    rcases exec_any (f := false) hc h (fun hf => nomatch hf) e with ⟨-, rfl⟩ | ⟨hr, hany⟩
    · exact .refl _
    · exact hany.follows hr

/-- Settles O60: a command leaves a state that follows `withOwnField`, which differs from the state it found in the command's own
field alone. -/
theorem onlyItsCommandChanges : Obligations.OnlyItsCommandChanges := by
  intro c s t h e
  obtain ⟨set, hf⟩ := exec_follows h e
  exact ⟨hf.pending.trans (withOwnField_pending c set s), (withOwnField_now c set s).ge.trans hf.clock,
    fun ha hr => hf.rst.trans (withOwnField_rstLow set s ha hr), fun hl hh => hf.pfw.trans (withOwnField_pfwHigh set s hl hh),
    fun ha hs => hf.settings.trans (withOwnField_settings set s ha hs)⟩

end Sys2Proof.Machine
end

section
/-! SUPPORT. Proofs: READ-ONLY requests (O16) and the PFW level (O17) by mode. -/
namespace Sys2Proof.Machine

variable {s t : State} {m : Mode}

/-! ### What the mode controller holds, through a mode change (R159) -/

/-- What the mode controller holds is the same: the mode, whether READ-ONLY is held, and the recorded level. -/
structure SameControl (s t : State) : Prop where
  mode : t.mode = s.mode
  held : t.heldReadOnly = s.heldReadOnly
  pfw : t.pfwHigh = s.pfwHigh

theorem SameControl.refl (s : State) : SameControl s s := ⟨rfl, rfl, rfl⟩

theorem SameControl.trans {u : State} (h : SameControl s t) (k : SameControl t u) : SameControl s u :=
  ⟨k.mode.trans h.mode, k.held.trans h.held, k.pfw.trans h.pfw⟩

theorem answer_control (b : Option Byte) (s : State) : SameControl s (answer b s) := by
  rw [answer_keeps]
  exact ⟨rfl, rfl, rfl⟩

theorem answerFetch_control (i : Nat) (s : State) : SameControl s (answerFetch i s) := by
  unfold answerFetch
  split
  · exact answer_control _ s
  · exact .refl s

theorem completeTrimPending_control (i : Nat) (s : State) : SameControl s (completeTrimPending i s) := by
  unfold completeTrimPending
  dsimp only
  split <;> exact ⟨rfl, rfl, rfl⟩

theorem completeLost_control (i : Nat) (s : State) : SameControl s (completeLost i s) := by
  unfold completeLost
  dsimp only
  split <;> exact ⟨rfl, rfl, rfl⟩

theorem issue_control (op : Op) (s : State) : SameControl s (issue op s) := by
  rw [issue_eq]
  exact ⟨rfl, rfl, rfl⟩

theorem fillLost_control (i line : Nat) (s : State) : SameControl s (fillLost i line s) := by
  unfold fillLost
  split
  · exact (completeTrimPending_control i s).trans (answerFetch_control i _)
  · split
    · split
      · have ht : SameControl s { s with withheld := s.withheld ++ [i] } := ⟨rfl, rfl, rfl⟩
        dsimp only
        split
        · exact ht.trans (answer_control _ _)
        · exact ht
      · exact issue_control _ s
    · exact (completeLost_control i s).trans (answerFetch_control i _)

theorem issueTogether_control (ops : List Op) (s : State) : SameControl s (issueTogether ops s) := by
  obtain ⟨_, _, _, e, -⟩ := issueTogether_eq ops s
  rw [e]
  exact ⟨rfl, rfl, rfl⟩

/-- The read-fills issued when the mode leaves PARKED change nothing the mode controller holds (R178). -/
theorem issueWithheld_control (s : State) : SameControl s (issueWithheld s) := by
  unfold issueWithheld
  extract_lets ops gone t
  have ht : SameControl s t :=
    foldl_keep (P := SameControl s) _ (fun u i hu => hu.trans (fillLost_control i _ u)) gone ⟨rfl, rfl, rfl⟩
  split
  · exact ht
  · exact ht.trans (issueTogether_control ops t)

/-- A mode change enters its mode, drops a held READ-ONLY at READ-ONLY and UNFORMATTED, and leaves the recorded level. -/
theorem setMode_control (h : s.mode ≠ m) :
    (setMode m s).mode = m ∧
      (setMode m s).heldReadOnly = (if m = .readOnly ∨ m = .unformatted then false else s.heldReadOnly) ∧
      (setMode m s).pfwHigh = s.pfwHigh := by
  have hk : SameControl (modeEntered m s) (setMode m s) := by
    rw [setMode_of_ne h]
    split
    · exact issueWithheld_control _
    · exact .refl _
  have he := modeEntered_eq m s
  exact ⟨hk.mode.trans (by rw [he]), hk.held.trans (by rw [he]), hk.pfw.trans (by rw [he])⟩

/-! ### O16: READ-ONLY requests (R160, R162) -/

theorem requestReadOnly_active (h : s.mode = .active) : requestReadOnly s = setMode .readOnly s := by
  simp only [requestReadOnly, h]

theorem requestReadOnly_ignored (h : s.mode = .readOnly ∨ s.mode = .mounting ∨ s.mode = .unformatted) :
    requestReadOnly s = s := by
  rcases h with h | h | h <;> simp only [requestReadOnly, h]

theorem requestReadOnly_held (h : s.mode = .parked ∨ s.mode = .formatting) :
    requestReadOnly s = { s with heldReadOnly := true } := by
  rcases h with h | h <;> simp only [requestReadOnly, h]

/-- The state in which a READ-ONLY request ends a drain: PARKED, with READ-ONLY held (R160). -/
def drainParked (s : State) : State := setMode .parked { s with heldReadOnly := true }

theorem drainParked_control (h : s.mode = .draining) :
    (drainParked s).mode = .parked ∧ (drainParked s).heldReadOnly = true ∧ (drainParked s).pfwHigh = s.pfwHigh :=
  setMode_control (m := .parked) (s := { s with heldReadOnly := true }) (by simp [h])

theorem requestReadOnly_draining (h : s.mode = .draining) :
    requestReadOnly s = if s.pfwHigh then setMode .readOnly (drainParked s) else drainParked s := by
  obtain ⟨-, -, hpfw⟩ := drainParked_control h
  rw [← hpfw]
  simp only [requestReadOnly, drainParked, h]

/-- Settles O16: a case for each mode; in DRAINING, PARKED is entered first, and left where PFW is high. -/
theorem readOnlyRequestByMode : Obligations.ReadOnlyRequestByMode := by
  intro s
  refine ⟨requestReadOnly_active, requestReadOnly_ignored, requestReadOnly_held, fun hm => ?_⟩
  obtain ⟨hmode, hheld, -⟩ := drainParked_control hm
  refine ⟨fun hp => ?_, fun hp => ?_⟩
  · rw [requestReadOnly_draining hm, hp]
    exact ⟨hmode, hheld⟩
  · rw [requestReadOnly_draining hm, hp]
    obtain ⟨hro, hfree, -⟩ := setMode_control (m := .readOnly) (s := drainParked s) (by simp [hmode])
    exact ⟨hro, hfree⟩

/-! ### O17: the PFW level (R161) -/

theorem effect_pfwLow (hr : s.rstLow = false) (ht : pfwFalls s = t) : Effect .pfwLow s t :=
  Effect.of_finish (congrArg Host.Outcome.next ((if_neg (by simp [hr])).trans (congrArg finish ht)))

theorem effect_pfwHigh (hr : s.rstLow = false) (ht : pfwRises s = t) : Effect .pfwHigh s t :=
  Effect.of_finish (congrArg Host.Outcome.next ((if_neg (by simp [hr])).trans (congrArg finish ht)))

theorem pfwFalls_active (h : s.mode = .active) : pfwFalls s = setMode .draining { s with pfwHigh := false } := by
  simp only [pfwFalls, h]

theorem pfwFalls_readOnly (h : s.mode = .readOnly) :
    pfwFalls s = { setMode .parked { s with pfwHigh := false } with heldReadOnly := true } := by
  simp only [pfwFalls, h]

/-- In every mode but ACTIVE and READ-ONLY a fall is recorded and nothing else. -/
theorem pfwFalls_recorded (ha : s.mode ≠ .active) (hr : s.mode ≠ .readOnly) : pfwFalls s = { s with pfwHigh := false } := by
  unfold pfwFalls
  cases hm : s.mode with
  | active => exact absurd hm ha
  | readOnly => exact absurd hm hr
  | _ => rfl

theorem pfwRises_parked (h : s.mode = .parked) :
    pfwRises s = setMode (if s.heldReadOnly then .readOnly else .active) { s with pfwHigh := true } := by
  simp only [pfwRises, h]

/-- In every mode but PARKED a rise is recorded and nothing else. -/
theorem pfwRises_recorded (h : s.mode ≠ .parked) : pfwRises s = { s with pfwHigh := true } := by
  unfold pfwRises
  cases hm : s.mode with
  | parked => exact absurd hm h
  | _ => rfl

theorem endMode_mode (h : s.mode ≠ .parked) (readOnly : Bool) :
    (endMode readOnly s).mode = if s.pfwHigh then (if readOnly then .readOnly else .active) else .parked := by
  rw [endMode_of_pfw rfl]
  split
  · exact setMode_mode _ h
  · exact setMode_mode _ h

/-- Settles O17: a case for each mode that acts on the level, and the modes that record it; the ends of mount, format and drain enter the
mode that the recorded level gives. -/
theorem pfwActsByMode : Obligations.PfwActsByMode := by
  intro s hr low high
  refine ⟨fun hm => ⟨effect_pfwLow hr (pfwFalls_active hm), setMode_mode _ (by simp [low, hm])⟩,
    fun hm => ⟨effect_pfwLow hr (pfwFalls_readOnly hm), setMode_mode _ (by simp [low, hm])⟩,
    fun ha hro => effect_pfwLow hr (pfwFalls_recorded ha hro),
    fun hm => ⟨fun hh => effect_pfwHigh hr (by simp [pfwRises_parked hm, hh, high]),
      fun hh => effect_pfwHigh hr (by simp [pfwRises_parked hm, hh, high])⟩,
    fun hm => effect_pfwHigh hr (pfwRises_recorded hm),
    fun hm readOnly => endMode_mode (by rcases hm with hm | hm <;> simp [hm]) readOnly,
    fun hm => setMode_mode _ (by simp [hm])⟩

end Sys2Proof.Machine
end

section
/-! SUPPORT. Proofs: FLUSH starts and completes (O27). -/
namespace Sys2Proof.Machine

variable {s : State}

/-! ### The tracked set and the end of FLUSH (R173, R184) -/

theorem nodup_entriesWhere (p : Entry → Bool) (s : State) : (entriesWhere p s).Nodup :=
  List.nodup_range.filter _

theorem flushEnd_completed (r : Result) (hs : s.maint.slot = some .flush) :
    flushEnd r s = completed .flush r { s with flushTracked := [] } :=
  completeLong_of_running (s := { s with flushTracked := [] }) r hs

theorem longStep_flush (hs : s.maint.slot = some .flush) (ht : s.flushTracked = []) : longStep s = some (flushEnd .ok s) :=
  if_pos (by simp [running, hs, LongCmd.kind, ht])

/-- Settles O27: `startFlush` tracks the entries at which `Entry.waitedFor` holds; the end by `longStep_flush`. -/
theorem flushStartsAndCompletes : Obligations.FlushStartsAndCompletes := by
  intro s hr hm
  refine ⟨fun hs => ?_, fun hs ht => ?_⟩
  · have hstart : Effect .flush s { acceptedLong .flush (framed 0 s) with flushTracked := entriesWhere (·.waitedFor) s } :=
      Effect.of_event rfl hr (longRequest_accepted (accepts_active (s := framed 0 s) hm .flush) hs rfl)
    exact ⟨_, fun i => mem_entriesWhere.trans (and_congr_right fun _ => waitedFor_iff), nodup_entriesWhere _ s, hstart⟩
  · rw [longStep_flush hs ht, flushEnd_completed .ok hs]

end Sys2Proof.Machine
end

section
/-! SUPPORT. Proofs: how the frames of the maintenance port are judged (O58) and what the frames that carry no request do (O18). -/
namespace Sys2Proof.Machine

variable {s : State}

/-! ### The frame test (R180) -/

section
variable {wp : Bool} {code len : Byte} {rest : List Byte}

theorem judgeFrame_of_passed (hc : code ≠ 0) (hl : rest.length = len.toNat + 1) (hs : (code :: len :: rest).sum = 0) :
    judgeFrame wp (code :: len :: rest) = readRequest wp code (rest.take len.toNat) :=
  (if_neg hc).trans (if_pos (by simp [hl, hs]))

theorem judgeFrame_of_failed (hc : code ≠ 0) (h : rest.length ≠ len.toNat + 1 ∨ (code :: len :: rest).sum ≠ 0) :
    judgeFrame wp (code :: len :: rest) = .bad := by
  refine (if_neg hc).trans (if_neg fun k => ?_)
  rw [Bool.and_eq_true, decide_eq_true_eq, beq_iff_eq] at k
  exact h.elim (absurd k.1) (absurd k.2)

theorem judgeFrame_code_alone (hc : code ≠ 0) : judgeFrame wp [code] = .bad := if_neg hc

end

/-- A frame made of a code and its data sums to 0 (R180). -/
theorem frameBytes_sum (code : Byte) (data : List Byte) : (frameBytes code data).sum = 0 := by
  unfold frameBytes checkByte
  rw [List.sum_append, List.sum_singleton, zero_sub, add_neg_cancel]

/-- A frame made of a code and at most 255 bytes of data is judged by the code and the data. -/
theorem judgeFrame_frameBytes {wp : Bool} {code : Byte} {data : List Byte} (hc : code ≠ 0) (hl : data.length < 256) :
    judgeFrame wp (frameBytes code data) = readRequest wp code data := by
  have hlen : (BitVec.ofNat 8 data.length).toNat = data.length := Nat.mod_eq_of_lt hl
  have h := judgeFrame_of_passed (wp := wp) (rest := data ++ [checkByte (code :: BitVec.ofNat 8 data.length :: data)]) hc
    (by rw [hlen]; simp) (frameBytes_sum code data)
  rwa [hlen, List.take_left] at h

/-! ### The numbers a frame carries, most significant byte first (R191) -/

theorem toNat_append_byte {m : Nat} (a : BitVec m) (b : Byte) : (a ++ b).toNat = a.toNat * 256 + b.toNat := by
  rw [BitVec.toNat_append, ← Nat.shiftLeft_add_eq_or_of_lt b.isLt, Nat.shiftLeft_eq]

theorem append_numBytes_two (v : BitVec 16) :
    BitVec.ofNat 8 (v.toNat / 256 ^ 1) ++ BitVec.ofNat 8 (v.toNat / 256 ^ 0) = v := by
  refine BitVec.eq_of_toNat_eq ?_
  rw [toNat_append_byte, BitVec.toNat_ofNat, BitVec.toNat_ofNat]
  omega

theorem append_numBytes_three (v : BitVec 24) :
    BitVec.ofNat 8 (v.toNat / 256 ^ 2) ++ BitVec.ofNat 8 (v.toNat / 256 ^ 1) ++ BitVec.ofNat 8 (v.toNat / 256 ^ 0) = v := by
  refine BitVec.eq_of_toNat_eq ?_
  rw [toNat_append_byte, toNat_append_byte, BitVec.toNat_ofNat, BitVec.toNat_ofNat, BitVec.toNat_ofNat]
  omega

/-! ### The arguments of each request read back (R191) -/

section
variable {w : Bool}

theorem args3_number (f : BitVec 24 → Verdict) (v : BitVec 24) :
    args3 (fun b2 b1 b0 => f (b2 ++ b1 ++ b0)) (numBytes 3 v.toNat) = f v :=
  congrArg f (append_numBytes_three v)

theorem args5_numbers (f : BitVec 24 → BitVec 16 → Verdict) (b : BitVec 24) (c : BitVec 16) :
    args5 f (numBytes 3 b.toNat ++ numBytes 2 c.toNat) = f b c :=
  congrArg₂ f (append_numBytes_three b) (append_numBytes_two c)

theorem args6_numbers (f : BitVec 24 → BitVec 24 → Verdict) (b c : BitVec 24) :
    args6 f (numBytes 3 b.toNat ++ numBytes 3 c.toNat) = f b c :=
  congrArg₂ f (append_numBytes_three b) (append_numBytes_three c)

theorem length_regionBytes (r : RawRegion) : (regionBytes r).length = 7 := rfl

theorem readRegions_regionBytes (r : RawRegion) (bytes : List Byte) :
    readRegions (regionBytes r ++ bytes) = r :: readRegions bytes := by
  show RawRegion.mk r.kind _ _ :: readRegions bytes = _
  rw [append_numBytes_three, append_numBytes_three]

theorem readRegions_flatten (t : List RawRegion) : readRegions (t.map regionBytes).flatten = t := by
  induction t with
  | nil => rfl
  | cons r t ih => rw [List.map_cons, List.flatten_cons, readRegions_regionBytes, ih]

theorem length_flatten_regionBytes (t : List RawRegion) : (t.map regionBytes).flatten.length = 7 * t.length := by
  induction t with
  | nil => rfl
  | cons r t ih =>
    rw [List.map_cons, List.flatten_cons, List.length_append, ih, length_regionBytes, List.length_cons]
    omega

theorem readFormat_regions {t : List RawRegion} (h : t.length < 256) :
    readFormat w (BitVec.ofNat 8 t.length :: (t.map regionBytes).flatten) = .request (.format t w) := by
  have hk : (BitVec.ofNat 8 t.length).toNat = t.length := Nat.mod_eq_of_lt h
  have hread : (Verdict.request (.format (readRegions (t.map regionBytes).flatten) w)) = .request (.format t w) := by
    rw [readRegions_flatten]
  exact (if_pos (by rw [hk, length_flatten_regionBytes])).trans hread

end

/-- A request that a frame of this code and data carries. -/
theorem judgeFrame_of_readRequest {i : Instr} {code : Byte} {data frame : List Byte}
    (hf : some (frameBytes code data) = some frame) (hc : code ≠ 0) (hl : data.length < 256)
    (h : readRequest (wpOf i) code data = .request i) : judgeFrame (wpOf i) frame = .request i := by
  obtain rfl := Option.some.inj hf
  exact (judgeFrame_frameBytes hc hl).trans h

/-- A SET PARAMETER is carried by the frame of its identifier and its value. -/
theorem judgeFrame_parameter {wp : Bool} {id : Byte} {v : BitVec 16} {f : BitVec 16 → Instr} {frame : List Byte}
    (hf : some (frameBytes 0x05 (id :: numBytes 2 v.toNat)) = some frame)
    (h : ∀ v1 v0, readParameter id v1 v0 = .request (f (v1 ++ v0))) : judgeFrame wp frame = .request (f v) := by
  obtain rfl := Option.some.inj hf
  have hread : readRequest wp 0x05 (id :: numBytes 2 v.toNat) = .request (f v) :=
    (h _ _).trans (congrArg (fun u => Verdict.request (f u)) (append_numBytes_two v))
  have hlen : (id :: numBytes 2 v.toNat).length < 256 := (by decide : 3 < 256)
  exact (judgeFrame_frameBytes (by decide) hlen).trans hread

/-- Settles O58: a case for each request; `judgeFrame_of_readRequest` leaves its arguments to be read back. -/
theorem requestFramesReadBack : Obligations.RequestFramesReadBack := by
  intro i frame hwf hf
  cases i with
  | getStatus | abort | flush | getFaults | getBlock | freeze =>
    exact judgeFrame_of_readRequest hf (by decide) (by simp) rfl
  | getLine l =>
    exact judgeFrame_of_readRequest hf (by decide) (by decide : 3 < 256)
      (args3_number (fun l => .request (.getLine l)) l)
  | setCommitDelay v => exact judgeFrame_parameter (f := .setCommitDelay) hf fun _ _ => rfl
  | setBatchThreshold v => exact judgeFrame_parameter (f := .setBatchThreshold) hf fun _ _ => rfl
  | setWaitLimit v => exact judgeFrame_parameter (f := .setWaitLimit) hf fun _ _ => rfl
  | setAttentionMask v => exact judgeFrame_parameter (f := .setAttentionMask) hf fun _ _ => rfl
  | trim b c =>
    exact judgeFrame_of_readRequest hf (by decide) (by decide : 5 < 256)
      (args5_numbers (fun b c => .request (.trim b c)) b c)
  | scrub f c =>
    exact judgeFrame_of_readRequest hf (by decide) (by decide : 6 < 256)
      (args6_numbers (fun f c => .request (.scrub f c)) f c)
  | format t w =>
    have hlen : t.length ≤ 36 := of_decide_eq_true hwf
    refine judgeFrame_of_readRequest hf (by decide) ?_ (readFormat_regions (by omega))
    rw [List.length_cons, length_flatten_regionBytes]
    omega
  | _ => cases hf

/-! ### A frame whose arguments do not fit its code (R180, R191) -/

section
variable {args : List Byte}

theorem args0_of_length {v : Verdict} (h : 0 ≠ args.length) : args0 v args = .bad := by
  unfold args0
  split
  exacts [absurd rfl h, rfl]

theorem args1_of_length {f : Byte → Verdict} (h : 1 ≠ args.length) : args1 f args = .bad := by
  unfold args1
  split
  exacts [absurd rfl h, rfl]

theorem args2_of_length {f : Byte → Byte → Verdict} (h : 2 ≠ args.length) : args2 f args = .bad := by
  unfold args2
  split
  exacts [absurd rfl h, rfl]

theorem args3_of_length {f : Byte → Byte → Byte → Verdict} (h : 3 ≠ args.length) : args3 f args = .bad := by
  unfold args3
  split
  exacts [absurd rfl h, rfl]

theorem args5_of_length {f : BitVec 24 → BitVec 16 → Verdict} (h : 5 ≠ args.length) : args5 f args = .bad := by
  unfold args5
  split
  exacts [absurd rfl h, rfl]

theorem args6_of_length {f : BitVec 24 → BitVec 24 → Verdict} (h : 6 ≠ args.length) : args6 f args = .bad := by
  unfold args6
  split
  exacts [absurd rfl h, rfl]

theorem readFormat_of_length {w : Bool} (h : 1 + 7 * (args.headD 0).toNat ≠ args.length) : readFormat w args = .bad := by
  cases args with
  | nil => rfl
  | cons k t => exact if_neg fun ht => h (by rw [List.headD_cons, List.length_cons, ht, Nat.add_comm])

/-- Arguments whose number is not the one R191 gives for the code make a bad frame; so does a code that is none of R191. -/
theorem readRequest_of_length {w : Bool} {code : Byte}
    (h : argumentLength (args.headD 0).toNat code.toNat ≠ some args.length) : readRequest w code args = .bad := by
  have fits {n : Nat} (hn : argumentLength (args.headD 0).toNat code.toNat = some n) : n ≠ args.length :=
    fun e => h (hn.trans (congrArg some e))
  unfold readRequest
  refine ite_eq_iff'.2 ⟨fun hc => args0_of_length (fits (by rw [hc]; rfl)), fun _ => ?_⟩
  refine ite_eq_iff'.2 ⟨fun hc => args1_of_length (fits (by rw [hc]; rfl)), fun _ => ?_⟩
  refine ite_eq_iff'.2 ⟨fun hc => args3_of_length (fits (by rw [hc]; rfl)), fun _ => ?_⟩
  refine ite_eq_iff'.2 ⟨fun hc => args2_of_length (fits (by rw [hc]; rfl)), fun _ => ?_⟩
  refine ite_eq_iff'.2 ⟨fun hc => args3_of_length (fits (by rw [hc]; rfl)), fun _ => ?_⟩
  refine ite_eq_iff'.2 ⟨fun hc => args0_of_length (fits (by rw [hc]; rfl)), fun _ => ?_⟩
  refine ite_eq_iff'.2 ⟨fun hc => args0_of_length (fits (by rw [hc]; rfl)), fun _ => ?_⟩
  refine ite_eq_iff'.2 ⟨fun hc => args5_of_length (fits (by rw [hc]; rfl)), fun _ => ?_⟩
  refine ite_eq_iff'.2 ⟨fun hc => args6_of_length (fits (by rw [hc]; rfl)), fun _ => ?_⟩
  refine ite_eq_iff'.2 ⟨fun hc => args1_of_length (fits (by rw [hc]; rfl)), fun _ => ?_⟩
  refine ite_eq_iff'.2 ⟨fun hc => readFormat_of_length (fits (by rw [hc]; rfl)), fun _ => ?_⟩
  rfl

end

/-- A frame fails R180 by its length, by its sum, or by a code or a number of arguments that R191 does not give. -/
theorem judgeFrame_bad {w : Bool} {code len : Byte} {rest : List Byte} (hc : code ≠ 0)
    (h : rest.length ≠ len.toNat + 1 ∨ (code :: len :: rest).sum ≠ 0 ∨
      argumentLength ((rest.take len.toNat).headD 0).toNat code.toNat ≠ some len.toNat) :
    judgeFrame w (code :: len :: rest) = .bad := by
  by_cases hl : rest.length = len.toNat + 1
  · by_cases hs : (code :: len :: rest).sum = 0
    · have harg := (h.resolve_left (not_not_intro hl)).resolve_left (not_not_intro hs)
      have hargs : (rest.take len.toNat).length = len.toNat := by rw [List.length_take, hl]; omega
      rw [judgeFrame_of_passed hc hl hs]
      exact readRequest_of_length (by rwa [hargs])
    · exact judgeFrame_of_failed hc (.inr hs)
  · exact judgeFrame_of_failed hc (.inl hl)

/-! ### What SDO carries, and the end of a frame (R180, R181) -/

theorem exec_badFrame_of_bad {bytes : List Byte} (hr : s.rstLow = false) (hj : judgeFrame true bytes = .bad) :
    exec (.badFrame bytes) s = .next (drive (heldReply .badFrame [] (shiftOut bytes.length s))) :=
  exec_of_quick (f := badFrame bytes) rfl hr (by unfold badFrame; rw [hj]; rfl)

theorem replyBytes_sum (r : Option Reply) : (replyBytes r).sum = 0 := by
  cases r with
  | none => exact frameBytes_sum _ _
  | some r => exact frameBytes_sum _ _

theorem fetched_whole {n : Nat} {r : Reply} (h : s.maint.reply = some r) (hn : r.data.length + 3 ≤ n) :
    fetched n s = { s with maint := { s.maint with reply := none } } := by
  unfold fetched
  rw [h]
  exact if_pos hn

theorem fetched_part {n : Nat} (h : s.maint.reply = none ∨ ∃ r, s.maint.reply = some r ∧ n < r.data.length + 3) :
    fetched n s = s := by
  unfold fetched
  rcases h with h | ⟨r, h, hn⟩ <;> rw [h]
  exact if_neg (Nat.not_le.2 hn)

/-- Settles O18: a bad frame by `judgeFrame_bad`, a fetch frame by `fetched_whole` and `fetched_part`; what is shifted out is `replyBytes`
of the held reply. -/
theorem framesWithoutRequestEnd : Obligations.FramesWithoutRequestEnd := by
  intro s hr held out
  have hheld : held = replyBytes s.maint.reply := by
    cases h : s.maint.reply <;> simp only [held, h] <;> rfl
  have hout (n : Nat) : out n = shiftOut n s := by
    simp only [out, hheld]
    rfl
  refine ⟨fun code len rest hc => ⟨fun h => ?_, ?_⟩, fun n => ⟨fun r hrep hn => ?_, fun h => ?_⟩, ?_,
    fun args => (hout (args + 3)).symm, by decide, fun t => ⟨rfl, rfl⟩⟩
  · rw [hout]
    exact exec_badFrame_of_bad hr (judgeFrame_bad hc h)
  · rw [hout]
    exact exec_badFrame_of_bad hr (judgeFrame_code_alone hc)
  · rw [hout]
    exact exec_of_quick rfl hr (fetched_whole (s := shiftOut n s) hrep hn)
  · rw [hout]
    exact exec_of_quick rfl hr (fetched_part (s := shiftOut n s) h)
  · rw [hheld]
    exact replyBytes_sum _

end Sys2Proof.Machine
end

section
/-! SUPPORT. Proofs: requests outside their mode's set (O23), and the settings (O22). -/
namespace Sys2Proof.Machine

variable {s : State}

/-! ### A request its mode refuses (R182) -/

section
variable {c : Instr} {r : Request} {n : Nat}

theorem exec_quick_refusedState {f : State → State} (hc : exec c s = quick (frame n (shortRequest r f)) s)
    (hr : s.rstLow = false) (ha : accepts s.mode r = false) :
    exec c s = .next (drive (heldReply .refusedState [] (framed n s))) :=
  exec_of_quick hc hr (shortRequest_refused (s := framed n s) ha)

theorem effect_short_refusedState {f : State → State} (hc : exec c s = event (frame n (shortRequest r f)) s)
    (hr : s.rstLow = false) (ha : accepts s.mode r = false) : Effect c s (heldReply .refusedState [] (framed n s)) :=
  Effect.of_event hc hr (shortRequest_refused (s := framed n s) ha)

theorem effect_long_refusedState {refuses : State → Option ReplyCode} {start : State → State}
    (hc : exec c s = event (frame n (longRequest r refuses start)) s) (hr : s.rstLow = false)
    (ha : accepts s.mode r = false) : Effect c s (heldReply .refusedState [] (framed n s)) :=
  Effect.of_event hc hr (longRequest_refusedState (s := framed n s) ha)

end

/-- Settles O23: the table of R182 by evaluation, then each request's refusal by the kind of command that takes it. -/
theorem requestOutsideModeRefused : Obligations.RequestOutsideModeRefused := by
  refine ⟨rfl, rfl, rfl, rfl, rfl, rfl, rfl, ?_⟩
  intro s hr refused
  refine ⟨fun ha _ => exec_quick_refusedState rfl hr ha, fun ha _ _ => exec_quick_refusedState rfl hr ha, fun ha v => ?_,
    fun ha => effect_short_refusedState rfl hr ha, fun ha => effect_long_refusedState rfl hr ha,
    fun ha _ _ => effect_long_refusedState rfl hr ha, fun ha _ _ => effect_long_refusedState rfl hr ha,
    fun ha _ _ => effect_long_refusedState rfl hr ha, fun ha _ _ => effect_long_refusedState rfl hr ha⟩
  exact ⟨effect_short_refusedState rfl hr ha, effect_short_refusedState rfl hr ha, exec_quick_refusedState rfl hr ha,
    exec_quick_refusedState rfl hr ha⟩

/-! ### The settings (R188) -/

theorem accepts_setParameter {m : Mode} (h : m = .unformatted ∨ m = .readOnly ∨ m = .active) :
    accepts m .setParameter = true := by
  rcases h with rfl | rfl | rfl <;> rfl

theorem outOfRange_iff {n hi : Nat} : (decide (1 ≤ n) && decide (n ≤ hi)) = false ↔ n = 0 ∨ hi < n := by
  rw [Bool.and_eq_false_iff, decide_eq_false_iff_not, decide_eq_false_iff_not]
  omega

/-- A SET PARAMETER frame, taken with its value in range. -/
theorem setParameter_sets {inRange : Bool} {g : Settings → Settings} (ha : accepts s.mode .setParameter = true)
    (h : inRange = true) :
    frame 3 (shortRequest .setParameter (setParameter inRange g)) s =
      heldReply .ok []
        { framed 3 s with maint := { (framed 3 s).maint with settings := g s.maint.settings } } :=
  (shortRequest_taken (s := framed 3 s) ha).trans (if_pos h)

/-- A SET PARAMETER frame, taken with its value out of range. -/
theorem setParameter_keeps {inRange : Bool} {g : Settings → Settings} (ha : accepts s.mode .setParameter = true)
    (h : inRange = false) :
    frame 3 (shortRequest .setParameter (setParameter inRange g)) s = heldReply .badArgument [] (framed 3 s) :=
  (shortRequest_taken (s := framed 3 s) ha).trans (if_neg (by simp [h]))

/-- A SET PARAMETER frame whose sum is 0 and whose identifier is none of the four passes the frame test (R180). -/
theorem judgeFrame_unknownParameter {w : Bool} {id v1 v0 check : Byte} (hid : 4 < id.toNat ∨ id = 0)
    (hsum : (0x05 + 0x03 + id + v1 + v0 + check : Byte) = 0) :
    judgeFrame w [0x05, 0x03, id, v1, v0, check] = .unknownParameter := by
  have hne : id ≠ 1 ∧ id ≠ 2 ∧ id ≠ 3 ∧ id ≠ 4 := by
    rcases hid with h | rfl
    · refine ⟨?_, ?_, ?_, ?_⟩ <;> rintro rfl <;> exact absurd h (by decide)
    · decide
  obtain ⟨h1, h2, h3, h4⟩ := hne
  have hzero : ([0x05, 0x03, id, v1, v0, check] : List Byte).sum = 0 := by
    rw [← hsum]
    simp only [List.sum_cons, List.sum_nil, add_zero, add_assoc]
  exact (judgeFrame_of_passed (by decide) rfl hzero).trans
    ((if_neg h1).trans ((if_neg h2).trans ((if_neg h3).trans (if_neg h4))))

/-- The frame of an unknown identifier is answered BAD_ARGUMENT by the port, where the mode takes SET PARAMETER. -/
theorem badFrame_unknownParameter {bytes : List Byte} (hj : judgeFrame true bytes = .unknownParameter)
    (ha : accepts s.mode .setParameter = true) :
    badFrame bytes s = heldReply .badArgument [] (shiftOut bytes.length s) := by
  unfold badFrame
  rw [hj]
  exact shortRequest_taken (s := shiftOut bytes.length s) ha

/-- Settles O22: each setting by `setParameter_sets` and `setParameter_keeps`; FORMAT by O60. -/
theorem setParameterSetsOneSetting : Obligations.SetParameterSetsOneSetting := by
  intro s v hr hm f bad setTo
  have ha := accepts_setParameter hm
  have sets {inRange : Bool} {g : Settings → Settings} (h : inRange = true) :
      frame 3 (shortRequest .setParameter (setParameter inRange g)) s = setTo (g s.maint.settings) :=
    setParameter_sets ha h
  have keeps {inRange : Bool} {g : Settings → Settings} (h : inRange = false) :
      frame 3 (shortRequest .setParameter (setParameter inRange g)) s = bad := setParameter_keeps ha h
  refine ⟨fun h => Effect.of_event rfl hr (sets (by simpa using h)), fun h => Effect.of_event rfl hr (keeps (by simpa using h)),
    fun h => Effect.of_event rfl hr (sets (by simpa using h)), fun h => Effect.of_event rfl hr (keeps (outOfRange_iff.2 h)),
    fun h => exec_of_quick rfl hr (sets (by simpa using h)), fun h => exec_of_quick rfl hr (keeps (outOfRange_iff.2 h)),
    fun h => exec_of_quick rfl hr (sets (by simpa using h)), fun h => exec_of_quick rfl hr (keeps (by simpa using h)),
    fun id v1 v0 check hid hsum => ?_, ⟨_, rfl, rfl⟩, fun table wp t hinv he => ?_⟩
  · exact exec_of_quick rfl hr (badFrame_unknownParameter (judgeFrame_unknownParameter hid hsum) ha)
  · obtain ⟨-, -, -, -, hset⟩ := onlyItsCommandChanges _ s t hinv he
    exact hset nofun fun _ => ⟨nofun, nofun, nofun, nofun⟩

end Sys2Proof.Machine
end

section
/-! SUPPORT. Proofs: a raised fault (O33). -/
namespace Sys2Proof.Machine

variable {s : State}

/-! ### A fault is raised (R189) -/

section
variable {k : FaultKind} {x : Subject} {old : List FaultRec} {r : FaultRec}

/-- A fault is folded into a newest record of its kind and subject. -/
theorem raise_folded (hl : s.maint.faults = old ++ [r]) (hk : r.kind = k) (hx : r.subject = x) :
    raise k x s =
      { s with maint := { s.maint with faults := old ++ [{ r with count := min 255 (r.count + 1) }] } } := by
  have hafter : faultsAfter k x (seqValue s) s.maint.faults = old ++ [{ r with count := min 255 (r.count + 1) }] := by
    simp [faultsAfter, hl, hk, hx]
  have hkept : faultDiscarded k x s.maint.faults = false := by simp [faultDiscarded, hl, hk, hx]
  simp [raise, hafter, hkept]

/-- No newest record takes the fault. -/
def NotFolded (k : FaultKind) (x : Subject) (l : List FaultRec) : Prop :=
  ∀ old r, l = old ++ [r] → r.kind ≠ k ∨ r.subject ≠ x

theorem faultsAfter_of_notFolded {l : List FaultRec} (h : NotFolded k x l) (seq : Nat) :
    faultsAfter k x seq l = if l.length < 16 then l ++ [⟨k, x, seq, 1⟩] else l := by
  rcases List.eq_nil_or_concat l with rfl | ⟨old, r, rfl⟩
  · rfl
  · have hne : ¬ (r.kind = k ∧ r.subject = x) := not_and_or.2 (h old r List.concat_eq_append)
    rw [List.concat_eq_append]
    simp only [faultsAfter, List.getLast?_append, List.getLast?_singleton, Option.some_or, if_neg hne]

theorem faultDiscarded_of_notFolded {l : List FaultRec} (h : NotFolded k x l) :
    faultDiscarded k x l = decide (16 ≤ l.length) := by
  rcases List.eq_nil_or_concat l with rfl | ⟨old, r, rfl⟩
  · rfl
  · have hne : (decide (r.kind = k) && decide (r.subject = x)) = false := by
      simpa [imp_iff_not_or] using h old r List.concat_eq_append
    simp [faultDiscarded, hne, Config.faultsMax]

theorem raise_added (h : NotFolded k x s.maint.faults) (hlen : s.maint.faults.length < 16) :
    raise k x s =
      { s with maint := { s.maint with faults := s.maint.faults ++ [⟨k, x, s.commit.seq.getD 0, 1⟩] } } := by
  simp [raise, faultsAfter_of_notFolded h, faultDiscarded_of_notFolded h, hlen, seqValue]

theorem raise_discarded (h : NotFolded k x s.maint.faults) (hlen : 16 ≤ s.maint.faults.length) :
    raise k x s = { s with maint := { s.maint with overflow := true } } := by
  simp [raise, faultsAfter_of_notFolded h, faultDiscarded_of_notFolded h, hlen]

end

/-- Settles O33: `raise_folded` where the newest record takes the fault, else by the length of the list. -/
theorem raisedFaultIsRecorded : Obligations.RaisedFaultIsRecorded := fun _ _ _ =>
  ⟨fun _ _ hl hk hx => raise_folded hl hk hx, fun h => ⟨raise_added h, raise_discarded h⟩⟩

end Sys2Proof.Machine
end

section
/-! SUPPORT. Proofs: the replies of GET FAULTS (O20) and GET STATUS (O19) field by field. -/
namespace Sys2Proof.Machine

variable {s : State}

/-! ### Fields inside fields -/

theorem states_append_left {a : List (Option Byte)} {k : Nat} {bytes : List Byte} (h : states a k bytes)
    (b : List (Option Byte)) : states (a ++ b) k bytes := by
  intro i x hx
  have ha := h i x hx
  rw [List.getElem?_append_left (List.getElem?_eq_some_iff.1 ha).1, ha]

theorem states_append_right {b : List (Option Byte)} {k : Nat} {bytes : List Byte} (h : states b k bytes)
    (a : List (Option Byte)) : states (a ++ b) (a.length + k) bytes := by
  intro i x hx
  rw [Nat.add_assoc, List.getElem?_append_right (Nat.le_add_right _ _), Nat.add_sub_cancel_left]
  exact h i x hx

/-- What a field states from an offset of its own on, the record of its fields states behind the fields before it. -/
theorem states_flatten_within {fields : List (List (Option Byte))} {f : List (Option Byte)} {i k j : Nat} {bytes : List Byte}
    (hf : fields[i]? = some f) (h : states f j bytes) (hk : ((fields.take i).map List.length).sum = k) :
    states fields.flatten (k + j) bytes := by
  obtain ⟨hi, rfl⟩ := List.getElem?_eq_some_iff.1 hf
  have hsplit : fields.flatten = (fields.take i).flatten ++ (fields[i] ++ (fields.drop (i + 1)).flatten) := by
    rw [← List.flatten_cons, ← List.drop_eq_getElem_cons hi, ← List.flatten_append, List.take_append_drop]
  rw [hsplit, ← hk, ← List.length_flatten]
  exact states_append_right (states_append_left h _) _

theorem states_byteField_spelled (n : Nat) : states (byteField n) 0 (spelled 1 n) :=
  spelled_one n ▸ states_byteField n

/-- A table of codes written out gives each of its values the code the model gives it. -/
theorem eq_code_of_mem {α β : Type} {table : List (α × β)} {code : α → β} {a : α} {c : β}
    (ht : ∀ p ∈ table, p.2 = code p.1) (h : (a, c) ∈ table) : c = code a := ht (a, c) h

/-! ### The fault records (R189, R191) -/

@[simp] theorem length_subjectField (x : Subject) : (subjectField x).length = 5 := by
  cases x <;> simp [subjectField]

/-- The fields of a fault record, in their order. -/
def faultFields (r : FaultRec) : List (List (Option Byte)) :=
  [byteField r.kind.code, subjectField r.subject, numField 5 r.seq, byteField r.count]

theorem faultField_eq (r : FaultRec) : faultField r = (faultFields r).flatten := by
  simp [faultField, faultFields, List.append_assoc]

@[simp] theorem length_faultField (r : FaultRec) : (faultField r).length = 12 := by simp [faultField]

/-- What a field of a fault record states, the record states at the field's offset. -/
theorem states_faultField {r : FaultRec} {i k : Nat} {f : List (Option Byte)} {bytes : List Byte}
    (hf : (faultFields r)[i]? = some f) (h : states f 0 bytes) (hk : (([1, 5, 5, 1] : List Nat).take i).sum = k) :
    states (faultField r) k bytes := by
  have hwidths : (faultFields r).map List.length = [1, 5, 5, 1] := by simp [faultFields]
  rw [faultField_eq]
  exact states_flatten hf h (by rw [List.map_take, hwidths, hk])

theorem states_subjectField_line {n : Nat} :
    states (subjectField (.line n)) 0 [0] ∧ (n < 2 ^ 32 → states (subjectField (.line n)) 1 (spelled 4 n)) :=
  ⟨states_append_left (states_byteField 0) _, fun h => states_append_right (states_numField h) (byteField 0)⟩

/-- The parts of a reply of GET FAULTS: the number of records, the flag, and each record. -/
def faultsFields (s : State) (m : Nat) : List (List (Option Byte)) :=
  byteField m :: flagField s.maint.overflow :: (s.maint.faults.take m).map faultField

theorem faultsRecord_eq (s : State) (m : Nat) : faultsRecord s m = (faultsFields s m).flatten := by
  simp [faultsRecord, faultsFields]

theorem sum_length_faultFields (l : List FaultRec) : ((l.map faultField).map List.length).sum = 12 * l.length := by
  simp [Function.comp_def, Nat.mul_comm]

theorem length_faultsRecord {m : Nat} (hm : m ≤ s.maint.faults.length) : (faultsRecord s m).length = 2 + 12 * m := by
  have hl : (s.maint.faults.take m).length = m := by rw [List.length_take, Nat.min_eq_left hm]
  rw [faultsRecord_eq, List.length_flatten, faultsFields, List.map_cons, List.map_cons, List.sum_cons, List.sum_cons,
    sum_length_faultFields, hl, length_byteField, length_flagField, ← Nat.add_assoc]

/-- What the record of the `i`-th oldest fault states, the reply states behind the records before it. -/
theorem states_faultsRecord {m i k : Nat} {r : FaultRec} {bytes : List Byte} (hi : i < m) (hr : s.maint.faults[i]? = some r)
    (h : states (faultField r) k bytes) : states (faultsRecord s m) (2 + 12 * i + k) bytes := by
  have hil : i < s.maint.faults.length := (List.getElem?_eq_some_iff.1 hr).1
  have hf : (faultsFields s m)[i + 2]? = some (faultField r) := by
    simp [faultsFields, hi, hr]
  have hk : (((faultsFields s m).take (i + 2)).map List.length).sum = 2 + 12 * i := by
    have hl : ((s.maint.faults.take m).take i).length = i := by simp; omega
    rw [faultsFields, List.take_succ_cons, List.take_succ_cons, ← List.map_take, List.map_cons, List.map_cons, List.sum_cons,
      List.sum_cons, sum_length_faultFields, hl, length_byteField, length_flagField, ← Nat.add_assoc]
  rw [faultsRecord_eq]
  exact states_flatten_within hf h hk

/-- GET FAULTS of 1 to 16 records. -/
theorem getFaults_returns {n : Byte} (h1 : 1 ≤ n.toNat) (h16 : n.toNat ≤ 16) :
    getFaults n s =
      dropFaults (min n.toNat s.maint.faults.length)
        (replyRecord (faultsRecord s (min n.toNat s.maint.faults.length)) s) :=
  if_neg (by simp only [Config.faultsMax]; omega)

theorem getFaults_refused {n : Byte} (h : n.toNat = 0 ∨ 16 < n.toNat) :
    getFaults n s = heldReply .badArgument [] s := if_pos h

/-- The overflow flag goes with the last record (R189). -/
theorem dropFaults_eq (m : Nat) (s : State) :
    dropFaults m s =
      { s with maint :=
        { s.maint with
          faults := s.maint.faults.drop m
          overflow := s.maint.overflow && decide (m < s.maint.faults.length) } } := by
  have hleft : (!(s.maint.faults.drop m).isEmpty) = decide (m < s.maint.faults.length) := by
    rw [Bool.eq_iff_iff]
    simp
  simp only [dropFaults, hleft]

theorem accepts_getFaults (m : Mode) : accepts m .getFaults = true := by cases m <;> rfl
theorem accepts_getStatus (m : Mode) : accepts m .getStatus = true := by cases m <;> rfl

/-- Settles O20. The reply is the concatenation of its parts, and each fault record that of its fields. -/
theorem getFaultsReturnsOldest : Obligations.GetFaultsReturnsOldest := by
  intro s n hr f m data
  have hgo : frame 1 (shortRequest .getFaults (getFaults n)) s = getFaults n f :=
    shortRequest_taken (accepts_getFaults _)
  have hm : m ≤ s.maint.faults.length := Nat.min_le_right _ _
  refine ⟨fun h1 h16 => ⟨?_, (length_fillRecord _ _).trans (length_faultsRecord hm), ?_⟩, fun i r hi hri => ?_,
    fun h => exec_of_quick rfl hr (hgo.trans (getFaults_refused h))⟩
  · exact exec_of_quick rfl hr ((hgo.trans (getFaults_returns h1 h16)).trans (dropFaults_eq _ _))
  · have hcount : states (faultsRecord s m) 0 [BitVec.ofNat 8 m] := by
      rw [faultsRecord_eq]
      exact states_flatten (i := 0) rfl (states_byteField m) rfl
    have hflag : states (faultsRecord s m) 1 [BitVec.ofNat 8 s.maint.overflow.toNat] := by
      rw [faultsRecord_eq]
      exact states_flatten (i := 1) rfl (states_byteField _) rfl
    have := hasField_of_states (states_append hcount hflag) s.freeTaken
    cases ho : s.maint.overflow <;> simpa [ho] using this
  · intro has
    have hstates {k : Nat} {bytes : List Byte} (h : states (faultField r) k bytes) : has k bytes :=
      hasField_of_states (states_faultsRecord hi hri h) _
    have hsubject {x : Subject} {bytes : List Byte} (hx : r.subject = x) (h : states (subjectField x) 0 bytes) : has 1 bytes :=
      hstates (states_faultField (i := 1) rfl (hx ▸ h) rfl)
    refine ⟨fun k c hc hk => ?_, fun line hx => ⟨hsubject hx states_subjectField_line.1, fun hl => ?_⟩, fun l hx => ?_,
      fun b hx => ?_, fun d hx => ?_, fun hq => ?_, ?_⟩
    · rw [eq_code_of_mem (code := FaultKind.code) (by decide) hc, ← hk]
      exact hstates (states_faultField (i := 0) rfl (states_byteField_spelled r.kind.code) rfl)
    · have h := states_flatten_within (fields := faultFields r) (i := 1) rfl (hx ▸ states_subjectField_line.2 hl) rfl
      exact hstates (faultField_eq r ▸ h)
    · exact hsubject hx (states_stated_all _)
    · exact hsubject hx (states_stated_all _)
    · exact hsubject hx (states_stated_all _)
    · exact hstates (states_faultField (i := 2) rfl (states_numField hq) rfl)
    · exact hstates (states_faultField (i := 3) rfl (states_byteField_spelled _) rfl)

/-! ### The status record (R191) -/

@[simp] theorem length_progressField (s : State) : (progressField s).length = 3 := by
  unfold progressField
  split <;> simp

@[simp] theorem length_lastField (s : State) : (lastField s).length = 2 := by
  unfold lastField
  split <;> rfl

/-- The fields of a die's part of the status record, in their order, -/
def dieFields (d : DieRec) : List (List (Option Byte)) :=
  [byteField d.state.code, numField 1 d.queue.length, numField 4 d.grades.clean, numField 4 d.grades.corrected,
    numField 4 d.grades.weak, numField 4 d.grades.lost]

/-- and how many bytes each of them has. -/
def dieWidths : List Nat := [1, 1, 4, 4, 4, 4]

theorem dieField_eq (d : DieRec) : dieField d = (dieFields d).flatten := by
  simp [dieField, dieFields, List.append_assoc]

theorem length_dieFields (d : DieRec) : (dieFields d).map List.length = dieWidths := by simp [dieFields, dieWidths]

@[simp] theorem length_dieField (d : DieRec) : (dieField d).length = 18 := by
  rw [dieField_eq, List.length_flatten, length_dieFields]
  rfl

/-- Appending one after another, as the records are written, is appending the concatenation. -/
theorem foldl_append_eq {α : Type} (a : List α) (l : List (List α)) : l.foldl (· ++ ·) a = a ++ l.flatten := by
  induction l generalizing a with
  | nil => exact (List.append_nil a).symm
  | cons b l ih => rw [List.foldl_cons, ih, List.flatten_cons, List.append_assoc]

/-- The fields of the status record, in their order, -/
def statusFields (s : State) : List (List (Option Byte)) :=
  [byteField s.mode.code, byteField (statusFlags s), byteField (pendingSet s).toNat, byteField s.maint.settings.mask.toNat,
    byteField (((runningKind s).map (·.code)).getD 0), byteField (phaseCode s), progressField s, lastField s,
    byteField s.mount.phase.code, numField 5 (seqValue s), numField 1 s.commit.queue.length,
    locField (s.commit.head.map headLoc), numField 2 (freeCount s), byteField s.diesInUse, numField 1 (drainCount s),
    numField 1 s.maint.faults.length, flagField s.maint.overflow, byteField s.reclaim.state.code, blockField s.reclaim.victim,
    numField 2 s.reclaim.reloc.length, locField (s.reclaim.head.map headLoc), numField 1 s.reclaim.retirements,
    numField 4 s.commit.refreshes, numField 1 s.ident.retired.length, dieField (dieAt s 0), dieField (dieAt s 1),
    dieField (dieAt s 2), dieField (dieAt s 3)]

/-- and how many bytes each of them has. -/
def statusWidths : List Nat :=
  [1, 1, 1, 1, 1, 1, 3, 2, 1, 5, 1, 4, 2, 1, 1, 1, 1, 1, 2, 2, 4, 1, 4, 1, 18, 18, 18, 18]

theorem statusRecord_eq (s : State) : statusRecord s = (statusFields s).flatten :=
  foldl_append_eq (byteField s.mode.code) (statusFields s).tail

theorem length_statusFields (s : State) : (statusFields s).map List.length = statusWidths := by
  simp [statusFields, statusWidths]

theorem length_statusRecord (s : State) : (statusRecord s).length = 115 := by
  rw [statusRecord_eq, List.length_flatten, length_statusFields]
  rfl

/-- What a field of the status record states, the reply has at the field's offset. -/
theorem hasField_statusRecord {n i k : Nat} {f : List (Option Byte)} {bytes : List Byte} (hf : (statusFields s)[i]? = some f)
    (h : states f 0 bytes) (hk : (statusWidths.take i).sum = k) : hasField (fillRecord n (statusRecord s)) k bytes := by
  refine hasField_of_states ?_ n
  rw [statusRecord_eq]
  exact states_flatten hf h (by rw [List.map_take, length_statusFields, hk])

/-- What a field of a die's part states, the reply has at the field's offset in that part. -/
theorem hasField_statusRecord_die {n d i j k : Nat} {f : List (Option Byte)} {bytes : List Byte} (hd : d < 4)
    (hf : (dieFields (dieAt s d))[i]? = some f) (h : states f 0 bytes) (hj : (dieWidths.take i).sum = j)
    (hk : 43 + 18 * d + j = k) : hasField (fillRecord n (statusRecord s)) k bytes := by
  have hdie : states (dieField (dieAt s d)) j bytes := by
    rw [dieField_eq]
    exact states_flatten hf h (by rw [List.map_take, length_dieFields, hj])
  have hfield : (statusFields s)[24 + d]? = some (dieField (dieAt s d)) := by interval_cases d <;> rfl
  have hsum : (statusWidths.take (24 + d)).sum = 43 + 18 * d := by interval_cases d <;> rfl
  refine hasField_of_states ?_ n
  rw [statusRecord_eq, ← hk]
  exact states_flatten_within hfield hdie (by rw [List.map_take, length_statusFields, hsum])

/-! ### What the fields of the status record hold -/

/-- The pending conditions as a number, while RST_N is high (R190, R191). -/
theorem pendingSet_toNat (hr : s.rstLow = false) :
    (pendingSet s).toNat =
      (if s.maint.done then 1 else 0) + (if s.maint.modeChanged then 2 else 0) + (if !s.maint.faults.isEmpty then 4 else 0) +
        (if decide (s.freeList.length ≤ 6) then 8 else 0) := by
  have hset : pendingSet s =
      BitVec.ofBool (decide (s.freeList.length ≤ 6)) ++ BitVec.ofBool (!s.maint.faults.isEmpty) ++
        BitVec.ofBool s.maint.modeChanged ++ BitVec.ofBool s.maint.done := by
    unfold pendingSet
    rw [hr]
    rfl
  rw [hset]
  cases s.maint.done <;> cases s.maint.modeChanged <;> cases !s.maint.faults.isEmpty <;>
    cases decide (s.freeList.length ≤ 6) <;> rfl

theorem runningKind_of_slot {x : LongCmd} (h : s.maint.slot = some x) : runningKind s = some x.kind := by
  unfold runningKind
  rw [h]
  rfl

theorem runningKind_of_empty (h : s.maint.slot = none) : runningKind s = none := by
  unfold runningKind
  rw [h]
  rfl

/-- The progress of the command that runs. -/
theorem progressKind_of_slot {x : LongCmd} (h : s.maint.slot = some x) : progressKind s = some x.kind := by
  unfold progressKind
  rw [runningKind_of_slot h]
  rfl

theorem drainCount_eq (s : State) :
    drainCount s = s.staging.countP fun e =>
      decide (e.state = .dirty ∨ e.state = .committing ∨ (e.state = .loading ∧ (e.touched = true ∨ e.trimPending = true))) :=
  List.countP_congr fun _ _ => waitedFor_iff.trans decide_eq_true_iff.symm

theorem states_blockField_some (b : BlockId) :
    states (blockField (some b)) 0 [BitVec.ofNat 8 b.die, BitVec.ofNat 8 b.block] := states_stated_all _

theorem states_blockField_none : states (blockField none) 0 [0xFF] := states_stated _ _

theorem lastField_of_some {k : LongKind} {r : Result} (h : s.maint.last = some (k, r)) :
    lastField s = stated [BitVec.ofNat 8 k.code, BitVec.ofNat 8 r.code] := by
  simp only [lastField, h]
  rfl

theorem lastField_of_none (h : s.maint.last = none) : lastField s = stated [0, 0] := by
  simp only [lastField, h]
  rfl

/-- A head's place in the record, where there is a head. -/
theorem states_locField_head {o : Option LogHead} {h : LogHead} (ho : o = some h) :
    states (locField (o.map headLoc)) 0
      [BitVec.ofNat 8 h.block.die, BitVec.ofNat 8 h.block.block, BitVec.ofNat 8 h.page, BitVec.ofNat 8 h.next] := by
  rw [ho]
  exact states_locField_some (headLoc h)

theorem states_locField_noHead {o : Option LogHead} (ho : o = none) : states (locField (o.map headLoc)) 0 [0xFF] := by
  rw [ho]
  exact states_locField_none

/-- Settles O19. The record is the concatenation of its fields, so each stands at the sum of the widths before it
(`hasField_statusRecord`); what is left is what each field holds. -/
theorem getStatusReportsAndClears : Obligations.GetStatusReportsAndClears := by
  intro s hr f data has place bit
  have field {i k : Nat} {f : List (Option Byte)} {bytes : List Byte} (hf : (statusFields s)[i]? = some f)
      (h : states f 0 bytes) (hk : (statusWidths.take i).sum = k) : has k bytes := hasField_statusRecord hf h hk
  have byte {i k n c : Nat} (hf : (statusFields s)[i]? = some (byteField n)) (hc : c = n)
      (hk : (statusWidths.take i).sum = k) : has k (spelled 1 c) := hc ▸ field hf (states_byteField_spelled n) hk
  have number {i k w n : Nat} (hf : (statusFields s)[i]? = some (numField w n)) (hk : (statusWidths.take i).sum = k)
      (h : n < 256 ^ w) : has k (spelled w n) := field hf (states_numField h) hk
  have progress {n : Nat} (h : progressField s = numField 3 n) : has 6 (spelled 3 n) ∨ 256 ^ 3 ≤ n :=
    (Nat.lt_or_ge n (256 ^ 3)).imp_left (number (i := 6) (congrArg some h) rfl)
  refine ⟨exec_of_quick rfl hr (shortRequest_taken (s := framed 0 s) (accepts_getStatus _)),
    (length_fillRecord _ _).trans (length_statusRecord s), fun m c hc hm => ?_, byte (i := 1) rfl rfl rfl,
    byte (i := 2) rfl (pendingSet_toNat hr).symm rfl, byte (i := 3) rfl rfl rfl, fun hs => ?_, fun x hx => ⟨?_, ?_, ?_⟩,
    fun hs => ?_, fun hl => ?_, fun k r c e hl hc he => ?_, fun p c hc hp => ?_, fun q hq => ?_, number (i := 10) rfl rfl,
    fun h hh => field (i := 11) rfl (states_locField_head hh) rfl, fun hh => field (i := 11) rfl (states_locField_noHead hh) rfl,
    number (i := 12) rfl rfl, byte (i := 13) rfl rfl rfl, fun hl => ?_, number (i := 15) rfl rfl, byte (i := 16) rfl ?_ rfl,
    fun e c hc he => ?_, fun b hb => field (i := 18) rfl (hb ▸ states_blockField_some b) rfl,
    fun hb => field (i := 18) rfl (hb ▸ states_blockField_none) rfl, number (i := 19) rfl rfl,
    fun h hh => field (i := 20) rfl (states_locField_head hh) rfl, fun hh => field (i := 20) rfl (states_locField_noHead hh) rfl,
    number (i := 21) rfl rfl, number (i := 22) rfl rfl, number (i := 23) rfl rfl, fun d hd => ?_⟩
  · exact byte (i := 0) rfl ((eq_code_of_mem (code := Mode.code) (by decide) hc).trans (congrArg Mode.code hm.symm)) rfl
  · exact byte (i := 4) rfl (by rw [runningKind_of_empty hs]; rfl) rfl
  · exact byte (i := 4) rfl (by rw [runningKind_of_slot hx]; cases x <;> rfl) rfl
  · have hkind := progressKind_of_slot hx
    cases x with
    | flush | trim | scrub | freeze => exact progress (by simp only [progressField, hkind]; rfl)
    | format => trivial
  · have hrun := runningKind_of_slot hx
    refine byte (i := 5) rfl ?_ rfl
    cases x with
    | flush | trim | scrub => simp only [phaseCode, hrun]; rfl
    | freeze => cases hp : s.freeze.phase <;> simp only [phaseCode, hrun, hp] <;> rfl
    | format => cases hj : s.format <;> simp only [phaseCode, hrun, hj] <;> rfl
  · refine byte (i := 5) rfl ?_ rfl
    simp only [phaseCode, runningKind_of_empty hs]
  · exact field (i := 7) rfl (lastField_of_none hl ▸ states_stated_all _) rfl
  · rw [eq_code_of_mem (code := fun k : LongKind => BitVec.ofNat 8 k.code) (by decide) hc,
      eq_code_of_mem (code := fun r : Result => BitVec.ofNat 8 r.code) (by decide) he]
    exact field (i := 7) rfl (lastField_of_some hl ▸ states_stated_all _) rfl
  · exact byte (i := 8) rfl
      ((eq_code_of_mem (code := MountPhase.code) (by decide) hc).trans (congrArg MountPhase.code hp.symm)) rfl
  · exact fun h => number (i := 9) (congrArg (fun q => some (numField 5 q)) hq) rfl h
  · have hcount : drainCount s < 256 ^ 1 := List.countP_le_length.trans_lt hl
    rw [← drainCount_eq]
    exact number (i := 14) rfl rfl hcount
  · cases s.maint.overflow <;> rfl
  · exact byte (i := 17) rfl
      ((eq_code_of_mem (code := EngineState.code) (by decide) hc).trans (congrArg EngineState.code he.symm)) rfl
  · intro r
    have count {i j w n : Nat} (hf : (dieFields r)[i]? = some (numField w n)) (hj : (dieWidths.take i).sum = j)
        (h : n < 256 ^ w) : has (43 + j + 18 * d) (spelled w n) :=
      hasField_statusRecord_die hd hf (states_numField h) hj (Nat.add_right_comm 43 (18 * d) j)
    refine ⟨fun x c hc hx => ?_, count (i := 1) (j := 1) rfl rfl, count (i := 2) (j := 2) rfl rfl,
      count (i := 3) (j := 6) rfl rfl, count (i := 4) (j := 10) rfl rfl, count (i := 5) (j := 14) rfl rfl⟩
    rw [eq_code_of_mem (code := DieState.code) (by decide) hc, ← hx]
    exact hasField_statusRecord_die (i := 0) hd rfl (states_byteField_spelled _) rfl rfl

end Sys2Proof.Machine
end

section
/-! SUPPORT. Proofs: one step (O1). -/
namespace Sys2Proof.Machine
variable {s : State}

/-! ### O1: the front of the queue -/

theorem step_of_cons {c : Instr} {rest : List Instr} (h : s.pending = c :: rest) :
    step s = exec c { s with pending := rest } := by
  simp only [step, h]

theorem step_of_nil (h : s.pending = []) : step s = .next (tick s) := by
  simp only [step, h]

/-- Settles O1: the two branches of `step`; a tick moves `now` alone. -/
theorem stepRunsFrontCommand : Obligations.StepRunsFrontCommand :=
  ⟨fun _ _ _ => step_of_cons, fun _ => step_of_nil⟩

end Sys2Proof.Machine
end
